-- ==== Sys2Proof/Word.lean ====
section
/-! DEFINITION. The word sizes and index ranges of the FB-2440 (spec/00_scope.md 0.7, 0.8; R30, R49). -/

namespace Sys2Proof

/-- A byte of memory or of a span cycle. -/
abbrev Byte := BitVec 8

/-- A 32-bit word; also a 32-bit byte address (0.8). -/
abbrev Word := BitVec 32

/-- Network time in ms, 0 to 2^40 - 1 (R30). -/
abbrev Time := BitVec 40

/-- A booking row, 0-255 (R1). -/
abbrev RowId := Fin 256

/-- A physical port, 0-23 (R49); a logical port is named by one of its physical ports. -/
abbrev PortId := Fin 24

/-- A pair of ports, 0-11 (R49). -/
abbrev PairId := Fin 12

/-- A payload slot, 0-39 in each direction (R49). -/
abbrev SlotId := Fin 40

/-- The 4,096 bytes of one payload slot, as the bytes that differ from idle fill (0xFF), offsets
strictly rising; idle fill is the empty list (11.9). -/
abbrev SlotContent := List Host.Cell

/-- The 40 payload slots of a cycle. -/
abbrev Payload := Vector SlotContent 40

end Sys2Proof
end

