-- ==== Sys2Proof/Syntax.lean ====
section
/-! DEFINITION. The commands of the block: one constructor of `Instr` per row of spec/opcode_table.json,
with the operands the model gives it (the table gives none; logs 6, 10, 13, 24, 25). -/

namespace Sys2Proof

/-- One word of a write span with its write enable (R157). -/
structure WriteWord where
  enable : Bool
  value : Word
  deriving DecidableEq, Repr

/-- A bus transaction: a read or a write of a span of consecutive words from a byte address (R157). -/
inductive Transaction where
  | read (addr : Word) (count : Nat)
  | write (addr : Word) (words : List WriteWord)
  deriving DecidableEq, Repr

/-- The content of a span cycle after its marker (11.9): payload, 16 overhead bits, 16-bit check. -/
structure LineCycle where
  payload : Payload
  overhead : BitVec 16
  check : BitVec 16
  deriving DecidableEq, Repr

/-- What one 2 ms receive interval brings (R71, R73): the byte offsets at which the marker occurs in it,
rising, and the cycle that follows the marker at the receiver's aligned offset. -/
structure Interval where
  markers : List Nat
  cycle : LineCycle
  deriving DecidableEq, Repr

/-- The parts of an ms event (R30, R38, R119, R129): the Time Base's advance, and the handling of the
event by the Meter Unit, the Line Prover and the Scheduler. -/
inductive MsPart where
  | advance
  | meter
  | prover
  | scheduler
  deriving DecidableEq, Repr

/-- The two words of a staged 40-bit value: the low 32 bits (A5, W8) or the high word (A6, W9). -/
inductive StagingHalf where
  | low
  | high
  deriving DecidableEq, Repr

/-- The two staging words of the Line Prover: A17 and A18 (R113). -/
inductive ProverWord where
  | port
  | duration
  deriving DecidableEq, Repr

/-- The clearing words of a port: P2, P3 and P4 (R85). -/
inductive CounterWord where
  | nearEnd
  | farEnd
  | hits
  deriving DecidableEq, Repr

/-- The commands, in the order of the table. -/
inductive Instr where
  | coldReset (straps : BitVec 8) (arrived : Option Transaction)
  | msEvent (parts : List MsPart)
  | cycleEvent (p : PortId) (iv : Interval)
  | cycleTransmit (p : PortId)
  | hostTransactionArrival (t : Transaction)
  | msideGrant
  | forwardComplete
  | post (r : RowId)
  | amend (r : RowId)
  | cancel (r : RowId)
  | mark (r : RowId)
  | start
  | stop
  | setTime (value : Word)
  | setTimeStagingWrite (half : StagingHalf) (value : Word)
  | amendStagingWrite (r : RowId) (half : StagingHalf) (value : Word)
  | portEnable (p : PortId) (value : Word)
  | portDisable (p : PortId) (value : Word)
  | pairModeOn (k : PairId) (value : Word)
  | pairModeOff (k : PairId) (value : Word)
  | portOptionsWrite (p : PortId) (value : Word)
  | select (p : PortId) (value : Word)
  | loopAll (p : PortId)
  | corruptCheck (p : PortId)
  | normal (p : PortId)
  | arm (p : PortId)
  | disarm (p : PortId)
  | attach
  | detach
  | proverStagingWrite (which : ProverWord) (value : Word)
  | releaseWrite (value : Word)
  | consumeWrite (value : Word)
  | timeRead
  | counterRead (p : PortId) (which : CounterWord)
  | meterSnapshotRead (r : RowId)
  | plainWrite (addr : Word) (value : Word)
  | postBegin
  | admissionRowReadDone
  | amendExecute
  | cancelExecute
  | goLive
  | scheduledEnd
  | stopEnd
  | tReadyExpiry (p : PortId) (iv : Interval)
  | tHoldExpiry (p : PortId) (iv : Interval)
  | tRestoreExpiry (p : PortId) (iv : Interval)
  | errorWindowClose (p : PortId) (iv : Interval)
  | proverExpiry
  | commandNoAnswer (p : PortId) (iv : Interval)
  | noticeWriteDone
  | recordBegin
  | settlementFirstHalfDone
  | recordComplete
  deriving DecidableEq, Repr

end Sys2Proof
end

