-- ==== Sys2Proof/Config.lean ====
section
/-! DEFINITION. The constants the spec fixes for revision 1.3 of the part, and the one value the model
chooses (what unwritten memory reads as). The spec leaves no value of this part free. -/

namespace Sys2Proof.Config

/-- A0, the identity word (R168). -/
def identity : Word := 0x24400103

/-- DESIGN CHOICE (log 2), unsafe: a byte of control memory that nothing has written reads 0. -/
def unwrittenByte : Byte := 0

/-- Idle fill has every bit 1 (R57, 11.9). -/
def idleByte : Byte := 0xFF

/-- Size of the Fabric Window, 512 KiB (R156). -/
abbrev windowBytes : Nat := 0x80000

/-- Entries of the Action Queue (R16). -/
abbrev actionQueueMax : Nat := 16

/-- Entries of the Outbound Queue (R165). -/
abbrev outboundMax : Nat := 8

/-- Entries of the Notice Ring and slots of the Settlement Ring (R148, R170). -/
abbrev ringSlots : Nat := 512

/-- Slots of a logical port in one direction (R22, R49). -/
abbrev slotsPerPort : Nat := 40

/-- Longest booking, in ms (R19, R25). -/
abbrev longestBooking : Nat := 604800000

/-- Closed segments of a LIVE row at which MARK is refused (R15). -/
abbrev segmentMax : Nat := 6

/-- Lengths of the timers in cycle events (R75). -/
abbrev tReadyLength : Nat := 500
abbrev tHoldLength : Nat := 25
abbrev tRestoreLength : Nat := 1000

/-- Cycle events of one error window (R86). -/
abbrev windowLength : Nat := 500

/-- Cycles that carry a maintenance command (R100). -/
abbrev sentMax : Nat := 125

/-- Longest line test, in ms (R114). -/
abbrev proverMax : Nat := 3600000

/-- Differing bits of a cycle above which the checker's interval is bad (R118). -/
abbrev badBits : Nat := 1000

/-- Bytes of a payload slot (11.9). -/
def slotBytes : Nat := 4096

/-- Pattern bits of one cycle, 40 x 4,096 x 8 (R116). -/
def cycleBits : Nat := 1310720

/-- Bytes of one cycle and of one receive interval (11.9). -/
abbrev cycleBytes : Nat := 163852

/-- The cycle marker (11.9). -/
def marker : List Byte := [0x3C, 0xE1, 0x96, 0x0F, 0x3C, 0xE1, 0x96, 0x0F]

/-- ms of a tariff unit, by its code (R125). -/
def unitMs (code : BitVec 2) : Nat :=
  if code = 0 then 100 else if code = 1 then 1000 else if code = 2 then 10000 else 60000

end Sys2Proof.Config
end

