-- ==== Sys2Proof/Machine/State.lean ====
section
/-! DEFINITION. The state of the FB-2440 as plain data, and its values after cold reset. Every item cites
the rule that names it; INVENTORY.md lists them all. -/

namespace Sys2Proof.Machine

/-- Why a step can stop. The part itself reports no fault (R158): both are operands that are nothing the
part can meet on its pins. -/
inductive Fault where
  /-- Raised by HOST_TRANSACTION_ARRIVAL, PLAIN_WRITE and COLD_RESET on an operand that is no bus
  transaction (R157): no words or more than 16, a byte address that is not word-aligned, or a span past
  the 32-bit address space. Safe: the model stops (log 17). -/
  | notATransaction
  /-- Raised by the cycle-event commands on an operand that spells no span cycle (11.9): marker offsets
  that do not rise or lie outside the interval, or payload bytes not in their one spelling. Safe: the
  model stops (log 17). -/
  | notACycle
  deriving DecidableEq, Repr

/-- Commands without a meaning. -/
inductive Refusal where
  /-- Raised by `exec` for a command whose meaning is not written; none is left. Safe. -/
  | notModelled (mnemonic : String)
  deriving DecidableEq, Repr

/-! Code sets (11.10) -/

/-- Booking states (R5). -/
inductive BookingState where
  | empty | posting | held | live | ended
  deriving DecidableEq, Repr

/-- Actions in flight (R4). -/
inductive InFlight where
  | none | amend | cancel
  deriving DecidableEq, Repr

/-- Last results (R4). -/
inductive LastResult where
  | none | ok | malformed | badPort | noCapacity | tooLate | wrongState | settled
  deriving DecidableEq, Repr

/-- End reasons (R4). -/
inductive EndReason where
  | scheduled | cancelled | stopped | missed
  deriving DecidableEq, Repr

/-- Feed health (R66); `partialFeed` is the manual's PARTIAL. -/
inductive Health where
  | healthy | silent | partialFeed | lost
  deriving DecidableEq, Repr

/-- Fabric states (R34). -/
inductive FabricState where
  | halted | running | stopping
  deriving DecidableEq, Repr

/-- Link states (R74). -/
inductive LinkState where
  | off | acquire | awaitReady | up | suspect | down | restore
  deriving DecidableEq, Repr

/-- Causes of link transitions (R76). -/
inductive Cause where
  | enabled | disabled | alignmentGained | remoteReady | alignmentLost | readyTimeout | errors
  | remoteNotReady | guardExpired
  deriving DecidableEq, Repr

/-- Down reasons (R76, R78). -/
inductive DownReason where
  | none | alignmentLost | remoteNotReady | errors
  deriving DecidableEq, Repr

/-- Classes of a receive interval (R71); `nothing` is the manual's NONE. -/
inductive IntervalClass where
  | nothing | missing | good | inverted | bad
  deriving DecidableEq, Repr

/-- Maintenance commands (R98). -/
inductive MaintCommand where
  | loopAll | corruptCheck | normal
  deriving DecidableEq, Repr

/-- Maintenance results (R97). -/
inductive MaintResult where
  | none | acked | declined | noAnswer | noLink | inService
  deriving DecidableEq, Repr

/-- The two kinds of answer to a command (R101). -/
inductive AnswerKind where
  | echo | cannot
  deriving DecidableEq, Repr

/-- Capture states (R89). -/
inductive CaptureState where
  | idle | waitUp | armed | timing | done
  deriving DecidableEq, Repr

/-- Prover outcomes (R112). -/
inductive ProverOutcome where
  | none | complete | aborted | preempted
  deriving DecidableEq, Repr

/-- Members of a pair (R61). -/
inductive Member where
  | even | odd
  deriving DecidableEq, Repr

/-- Causes of a switchover (R63). -/
inductive SwitchCause where
  | automatic | select
  deriving DecidableEq, Repr

/-- Notice kinds (R170). -/
inductive NoticeKind where
  | actionResult | bookingLive | bookingEnded | feedHealth | settled | settlementWait | linkState
  | remoteStatus | remoteReport | maintResult | captureDone | switchover | switchoverBlocked
  | proverDone | fabricState
  deriving DecidableEq, Repr

/-- Actions of the Action Queue (R16). -/
inductive Action where
  | post | amend | cancel
  deriving DecidableEq, Repr

/-- States of the Settlement Unit (R143). -/
inductive SettleUnit where
  | idle | waitRing | waitAction | writing
  deriving DecidableEq, Repr

/-- The requesters of M-side (R166). -/
inductive Requester where
  | pside | outbound
  deriving DecidableEq, Repr

/-- Who holds M-side (R166). -/
inductive MsideHolder where
  | free | pside | outbound
  deriving DecidableEq, Repr

/-- The producers of the Outbound Queue (R165). -/
inductive Producer where
  | admission | notice | settlement
  deriving DecidableEq, Repr

/-! Words of the Fabric Window by name (R160, chapter 11) -/

/-- Anchor words that an owning chapter names (11.2). -/
inductive Anchor where
  | a0 | a1 | a2 | a3 | a4 | a5 | a6 | a7 | a8 | a9 | a10 | a11 | a12
  | a16 | a17 | a18 | a19 | a20 | a21 | a22
  deriving DecidableEq, Repr

/-- Port block words that an owning chapter names (11.3). -/
inductive PortWord where
  | p0 | p1 | p2 | p3 | p4 | p5 | p6 | p7 | p8 | p9 | p10 | p11 | p12
  deriving DecidableEq, Repr

/-- A word of the Fabric Window as its owner knows it (R160). -/
inductive WinWord where
  | anchor (a : Anchor)
  | port (p : PortId) (w : PortWord)
  | slot (p : PortId) (i : SlotId)
  | row (r : RowId) (i : Fin 16)
  | meter (r : RowId) (i : Fin 4)
  | notice (entry : Fin 512)
  | ring (slot : Fin 512)
  | plain
  deriving DecidableEq, Repr

/-! Booking rows -/

/-- The meter record of a row (R125). -/
structure Meter where
  countedTo : Time
  prescaler : Nat
  segment : Word
  closed : List Word
  carriage : Word
  served : Word
  outage : Word
  outageCount : BitVec 16
  switchCount : BitVec 16
  deriving DecidableEq, Repr

/-- R125: the values after cold reset, and of a cleared record (R126). -/
def Meter.zero : Meter := ⟨0, 0, 0, [], 0, 0, 0, 0, 0⟩

/-- The meter snapshot hold of a row (R138, R167). -/
structure MeterHold where
  served : Word
  outage : Word
  outageCount : BitVec 16
  switchCount : BitVec 16
  deriving DecidableEq, Repr

/-- R139, R167: a cleared hold. -/
def MeterHold.zero : MeterHold := ⟨0, 0, 0, 0⟩

/-- A Directory record (R4) with the row's feed health (R67), meter record (R125) and snapshot hold. -/
structure Row where
  state : BookingState
  captured : Vector Word 8
  currentEnd : Time
  stageLow : Word
  stageHigh : Word
  inFlight : InFlight
  lastResult : LastResult
  late : Bool
  endReason : EndReason
  actualStart : Time
  actualEnd : Time
  settleSeq : Word
  health : Health
  meter : Meter
  hold : MeterHold
  deriving DecidableEq, Repr

/-- R4, R68, R125, R139: a row after cold reset. -/
def Row.reset : Row where
  state := .empty
  captured := Vector.replicate 8 0
  currentEnd := 0
  stageLow := 0
  stageHigh := 0
  inFlight := .none
  lastResult := .none
  late := false
  endReason := .scheduled
  actualStart := 0
  actualEnd := 0
  settleSeq := 0
  health := .healthy
  meter := Meter.zero
  hold := MeterHold.zero

/-- An entry of the Action Queue (R16). -/
structure QueuedAction where
  row : RowId
  action : Action
  deriving DecidableEq, Repr

/-- The Admission Unit (R17). -/
inductive AdmissionUnit where
  | idle
  | reading (r : RowId)
  deriving DecidableEq, Repr

/-! Ports -/

/-- The configuration of a port (R50). -/
structure PortConfig where
  enable : Bool
  pairMode : Bool
  oneLook : Bool
  countDuringCheck : Bool
  threshold : BitVec 8
  deriving DecidableEq, Repr

/-- The alignment of a port's receiver (R73). -/
inductive Receiver where
  | searching (candidate : Option Nat) (run : Nat)
  | aligned (offset : Nat) (missRun : Nat)
  deriving DecidableEq, Repr

/-- A filtered status bit and the run of its differing value (R80). -/
structure Filtered where
  value : Bool
  run : Nat
  deriving DecidableEq, Repr

/-- The error window while it runs (R86). -/
structure ErrorWindow where
  position : Nat
  count : Nat
  masked : Bool
  deriving DecidableEq, Repr

/-- The outage capture (R89). -/
structure Capture where
  state : CaptureState
  start : Time
  duration : Word
  deriving DecidableEq, Repr

/-- A message of the overhead: kind (11.10) and code (chapter 5.1). -/
structure Message where
  kind : BitVec 3
  code : Byte
  deriving DecidableEq, Repr

/-- A Maintenance Channel (R97). -/
structure Channel where
  outstanding : Option MaintCommand
  sent : Nat
  answerKind : Option AnswerKind
  answerRun : Nat
  lastCommand : BitVec 2
  lastResult : MaintResult
  loop : Bool
  corrupt : Bool
  hubCorrupting : Bool
  candidate : Option Message
  messageRun : Nat
  present : Option Message
  lastReport : Byte
  deriving DecidableEq, Repr

/-- R97: a channel after cold reset. -/
def Channel.reset : Channel :=
  ⟨none, 0, none, 0, 0, .none, false, false, false, none, 0, none, 0⟩

/-- A physical port: configuration, Span Supervisor, Maintenance Channel, receive slots, the Slot Table
entries of the logical port it names, and the cycle last sent on its lane. -/
structure Port where
  cfg : PortConfig
  receiver : Receiver
  lastOffset : Option Nat
  link : LinkState
  tReady : Option Nat
  tHold : Option Nat
  tRestore : Option Nat
  rdy : Filtered
  backup : Filtered
  inputLoss : Filtered
  repBackup : Bool
  repInputLoss : Bool
  nearEnd : BitVec 16
  farEnd : BitVec 16
  hits : BitVec 8
  slip : Bool
  window : Option ErrorWindow
  lastDown : DownReason
  capture : Capture
  lastClass : Option IntervalClass
  carrying : Bool
  channel : Channel
  rx : Payload
  rxOwner : Vector (Option RowId) 40
  txOwner : Vector (Option RowId) 40
  lane : Option LineCycle
  deriving DecidableEq, Repr

/-- Idle fill in all 40 slots (R57). -/
def idlePayload : Payload := Vector.replicate 40 []

/-- R50, R54, R94, R97: a port after cold reset. -/
def Port.reset : Port where
  cfg := ⟨false, false, false, false, 0⟩
  receiver := .searching none 0
  lastOffset := none
  link := .off
  tReady := none
  tHold := none
  tRestore := none
  rdy := ⟨false, 0⟩
  backup := ⟨false, 0⟩
  inputLoss := ⟨false, 0⟩
  repBackup := false
  repInputLoss := false
  nearEnd := 0
  farEnd := 0
  hits := 0
  slip := false
  window := none
  lastDown := .none
  capture := ⟨.idle, 0, 0⟩
  lastClass := none
  carrying := false
  channel := Channel.reset
  rx := idlePayload
  rxOwner := Vector.replicate 40 none
  txOwner := Vector.replicate 40 none
  lane := none

/-- The Line Prover (R112). -/
structure Prover where
  running : Bool
  port : Word
  duration : Word
  outcome : ProverOutcome
  locked : Bool
  badRun : Nat
  errorBits : Word
  elapsed : Word
  lockedTime : Word
  generator : BitVec 23
  predictor : BitVec 23
  deriving DecidableEq, Repr

/-- R112: the prover after cold reset. -/
def Prover.reset : Prover :=
  ⟨false, 0, 0, .none, false, 0, 0, 0, 0, BitVec.allOnes 23, BitVec.allOnes 23⟩

/-! Rings and queues -/

/-- A notice with its ring index (R170, R171). -/
structure Notice where
  index : BitVec 10
  n0 : Word
  n1 : Word
  n2 : Word
  n3 : Word
  deriving DecidableEq, Repr

/-- The Notice Writer (R171). -/
structure NoticeWriter where
  produce : BitVec 10
  consume : BitVec 10
  overflow : Bool
  inWriting : List Notice
  deriving DecidableEq, Repr

/-- The row in writing with its record (R142, R144, R146). -/
structure RecordInWriting where
  row : RowId
  index : BitVec 10
  words : List Word
  deriving DecidableEq, Repr

/-- The Settlement Unit (R142, R143, R148, R153). -/
structure Settlement where
  queue : List RowId
  writing : Option RecordInWriting
  unit : SettleUnit
  append : BitVec 10
  release : BitVec 10
  nextSeq : Word
  deriving DecidableEq, Repr

/-- An entry of the Outbound Queue (R165): a row read, a notice write, or half a settlement record. -/
inductive OutEntry where
  | rowRead (r : RowId)
  | noticeWrite (n : Notice)
  | recordHalf (index : BitVec 10) (second : Bool) (words : List Word)
  deriving DecidableEq, Repr

/-- A piece of a read in progress (R164): a run read from memory as one M-side read, or an answered word. -/
inductive ReadPiece where
  | run (addr : Nat) (count : Nat)
  | answer (w : WinWord)
  deriving DecidableEq, Repr

/-- How far the current P-side transaction has come (R158, R162, R164). -/
inductive PsidePhase where
  /-- Arrived, waiting for M-side. -/
  | arrived
  /-- Granted and accepted: the M-side write runs left, the first in progress, and the actions to take. -/
  | writing (runs : List (List (Nat × Word))) (actions : List (WinWord × Word))
  /-- Granted: the words answered so far, in order, and the pieces left. -/
  | reading (got : List Word) (pieces : List ReadPiece)
  deriving DecidableEq, Repr

/-- The current P-side transaction (R158). -/
structure PsideTxn where
  txn : Transaction
  phase : PsidePhase
  deriving DecidableEq, Repr

/-- The bus response to a host transaction (0.9, R158). -/
inductive Response where
  | done
  | refused
  | data (words : List Word)
  deriving DecidableEq, Repr

/-- The Memory Path's traffic: Outbound Queue and its waiting producers (R165), M-side and its arbiter
(R166), the current P-side transaction and the last response (R158). -/
structure Path where
  outbound : List OutEntry
  waiting : List Producer
  admissionBacklog : List OutEntry
  noticeBacklog : List OutEntry
  settleBacklog : List OutEntry
  mside : MsideHolder
  lastGrant : Requester
  current : Option PsideTxn
  response : Option Response
  deriving DecidableEq, Repr

/-- R166, R169: the path after cold reset. -/
def Path.reset : Path := ⟨[], [], [], [], [], .free, .outbound, none, none⟩

/-- How far the Scheduler has come in handling the latest ms event (R38): nothing to handle, in the ends,
or in the starts, with the lowest row it has still to look at. -/
inductive SchedulerPass where
  | none
  | ends (next : Nat)
  | starts (next : Nat)
  deriving DecidableEq, Repr

/-- Control memory: the bytes that differ from `Config.unwrittenByte`, addresses strictly rising. -/
abbrev Memory := List Host.Cell

/-- The state of the part and of the control memory behind it. -/
structure State where
  regionSel : BitVec 8
  mem : Memory
  now : Time
  setTimeLow : Word
  setTimeHigh : Word
  timeHold : BitVec 8
  fabric : FabricState
  meterDue : Bool
  proverDue : Bool
  pass : SchedulerPass
  rows : Vector Row 256
  actionQueue : List QueuedAction
  admission : AdmissionUnit
  ports : Vector Port 24
  active : Vector Member 12
  prover : Prover
  settle : Settlement
  notice : NoticeWriter
  path : Path
  pending : List Instr
  deriving DecidableEq, Repr

/-- The part after cold reset (R29, R48, R69, R94, R111, R124, R141, R155, R169, R176), with the straps
sampled at the release, memory as the reset found it, and the commands still waiting. -/
def State.cold (straps : BitVec 8) (mem : Memory) (pending : List Instr) : State where
  regionSel := straps
  mem := mem
  now := 0
  setTimeLow := 0
  setTimeHigh := 0
  timeHold := 0
  fabric := .halted
  meterDue := false
  proverDue := false
  pass := .none
  rows := Vector.replicate 256 Row.reset
  actionQueue := []
  admission := .idle
  ports := Vector.replicate 24 Port.reset
  active := Vector.replicate 12 .even
  prover := Prover.reset
  settle := ⟨[], none, .idle, 0, 0, 1⟩
  notice := ⟨0, 0, false, []⟩
  path := Path.reset
  pending := pending

/-- The machine right after reset. DESIGN CHOICE (log 4): the straps read 0; no command waits. -/
def State.reset : State := State.cold 0 [] []

end Sys2Proof.Machine
end

