-- ==== Sys2Proof/Machine/Operands.lean ====
section
/-! DEFINITION. The forms in which commands name things: rows and ports of the state, the logical ports and
active members behind a named port, the fields of the booking words and of P0, and the map of the Fabric
Window (chapter 11). -/

namespace Sys2Proof.Machine

/-- `f` on every element of a vector. -/
def vecMap {α β : Type} {n : Nat} (f : α → β) (v : Vector α n) : Vector β n :=
  ⟨(v.toList.map f).toArray, by simp⟩

/-- The vector of the values of `f`. -/
def vecOf {α : Type} {n : Nat} (f : Fin n → α) : Vector α n :=
  ⟨((List.finRange n).map f).toArray, by simp⟩

/-! Rows and ports -/

/-- Row `r`. -/
def State.row (s : State) (r : RowId) : Row := s.rows[r]

/-- `s` with row `r` replaced. -/
def State.setRow (s : State) (r : RowId) (x : Row) : State :=
  { s with rows := s.rows.set r x }

/-- Port `p`. -/
def State.port (s : State) (p : PortId) : Port := s.ports[p]

/-- `s` with port `p` replaced. -/
def State.setPort (s : State) (p : PortId) (x : Port) : State :=
  { s with ports := s.ports.set p x }

/-- `s` with the Maintenance Channel of port `p` replaced. -/
def State.setChannel (s : State) (p : PortId) (c : Channel) : State :=
  s.setPort p { s.port p with channel := c }

/-- The lowest row that satisfies `f`. -/
def State.findRow (f : RowId → Bool) : Option RowId := (List.finRange 256).find? f

/-- `f` on every row in ascending order. -/
def State.forRows (f : RowId → State → State) (s : State) : State :=
  (List.finRange 256).foldl (fun s r => f r s) s

/-- Some row satisfies `f`. -/
def State.anyRow (s : State) (f : Row → Bool) : Bool := s.rows.toList.any f

/-! Pairs and logical ports (R3, R49, R61) -/

/-- The even member of the pair of `p`. -/
def evenOf (p : PortId) : PortId := ⟨p.val / 2 * 2, by omega⟩

/-- The pair of `p`. -/
def pairOf (p : PortId) : PairId := ⟨p.val / 2, by omega⟩

/-- `p` is an odd port. -/
def isOdd (p : PortId) : Bool := p.val % 2 == 1

/-- Port 2k. -/
def evenPort (k : PairId) : PortId := ⟨2 * k.val, by omega⟩

/-- Port 2k+1. -/
def oddPort (k : PairId) : PortId := ⟨2 * k.val + 1, by omega⟩

/-- The physical port of a member of pair `k`. -/
def memberPort (k : PairId) : Member → PortId
  | .even => evenPort k
  | .odd => oddPort k

/-- The partner of a member. -/
def Member.other : Member → Member
  | .even => .odd
  | .odd => .even

/-- The pair of `p` is in pair mode: the setting of its even port (R49). -/
def State.inPair (s : State) (p : PortId) : Bool := (s.port (evenOf p)).cfg.pairMode

/-- R3: the logical port of physical port `p`. -/
def State.logical (s : State) (p : PortId) : PortId :=
  if s.inPair p then evenOf p else p

/-- The active member of pair `k` (R61). -/
def State.activePort (s : State) (k : PairId) : PortId := memberPort k s.active[k]

/-- R57, R66: the physical port that receives for the logical port of `p`. -/
def State.rxPath (s : State) (p : PortId) : PortId :=
  if s.inPair p then s.activePort (pairOf p) else p

/-- `p` is unpaired, or is the active member of its pair (R99, R114, R122). -/
def State.unpairedOrActive (s : State) (p : PortId) : Bool := s.rxPath p == p

/-- The port a staged or written number names, if it is 0-23. -/
def portOfNat (n : Nat) : Option PortId :=
  if h : n < 24 then some ⟨n, h⟩ else none

/-! Fields of the booking words (R2, 11.5). The argument is W0-W7, or a captured copy of them. -/

/-- Source port field, W2 [4:0]. -/
def sourceField (w : Vector Word 8) : Nat := ((w[2]).extractLsb' 0 5).toNat

/-- Slot count, W2 [11:8]. -/
def slotCount (w : Vector Word 8) : Nat := ((w[2]).extractLsb' 8 4).toNat

/-- Tariff unit code, W2 [13:12]. -/
def tariffCode (w : Vector Word 8) : BitVec 2 := (w[2]).extractLsb' 12 2

/-- LATE_OK, W2 [16]. -/
def lateOk (w : Vector Word 8) : Bool := (w[2]).getLsbD 16

/-- Destination fields 0-3, W3 [4:0], [9:5], [14:10], [19:15]. -/
def destFields (w : Vector Word 8) : List Nat :=
  [((w[3]).extractLsb' 0 5).toNat, ((w[3]).extractLsb' 5 5).toNat, ((w[3]).extractLsb' 10 5).toNat,
    ((w[3]).extractLsb' 15 5).toNat]

/-- Destination count, W3 [22:20]. -/
def destCount (w : Vector Word 8) : Nat := ((w[3]).extractLsb' 20 3).toNat

/-- A 40-bit time from its low 32 bits and the low 8 bits of its high word. -/
def timeOf (low high : Word) : Time := high.extractLsb' 0 8 ++ low

/-- The low 32 bits of a time. -/
def timeLow (t : Time) : Word := t.extractLsb' 0 32

/-- The high 8 bits of a time, in bits [7:0] of a word. -/
def timeHigh (t : Time) : Word := (t.extractLsb' 32 8).setWidth 32

/-- Booked start, W4 and W5 [7:0]. -/
def bookedStart (w : Vector Word 8) : Time := timeOf w[4] w[5]

/-- Booked end, W6 and W7 [7:0]. -/
def bookedEnd (w : Vector Word 8) : Time := timeOf w[6] w[7]

/-- ms of the booking's tariff unit (R125). -/
def unitOf (w : Vector Word 8) : Nat := Config.unitMs (tariffCode w)

/-- The port of a port field; admitted bookings hold 0-23 there (R19), and a field above 23, which only
a copy that was never admitted can hold, is taken modulo 24 (log 28). -/
def portOfField (n : Nat) : PortId := Fin.ofNat 24 n

/-- The named source port. -/
def sourcePort (w : Vector Word 8) : PortId := portOfField (sourceField w)

/-- The named destination ports, in the order of the fields. -/
def destPorts (w : Vector Word 8) : List PortId := ((destFields w).take (destCount w)).map portOfField

/-- The named ports (R2). -/
def namedPorts (w : Vector Word 8) : List PortId := sourcePort w :: destPorts w

/-- R3: the booking uses logical port `l` in the receive direction. -/
def State.usesRx (s : State) (w : Vector Word 8) (l : PortId) : Bool := s.logical (sourcePort w) == l

/-- R3: the booking uses logical port `l` in the transmit direction. -/
def State.usesTx (s : State) (w : Vector Word 8) (l : PortId) : Bool :=
  (destPorts w).any fun d => s.logical d == l

/-- R3: the booking uses logical port `l` in either direction. -/
def State.uses (s : State) (w : Vector Word 8) (l : PortId) : Bool := s.usesRx w l || s.usesTx w l

/-- The row is LIVE. -/
def Row.isLive (x : Row) : Bool := x.state == .live

/-- The row is HELD or LIVE. -/
def Row.isBooked (x : Row) : Bool := x.state == .held || x.state == .live

/-- A LIVE booking uses logical port `l`. -/
def State.liveUses (s : State) (l : PortId) : Bool := s.anyRow fun x => x.isLive && s.uses x.captured l

/-- A HELD or LIVE booking uses logical port `l`. -/
def State.bookedUses (s : State) (l : PortId) : Bool := s.anyRow fun x => x.isBooked && s.uses x.captured l

/-- A HELD or LIVE booking names physical port `p`. -/
def State.bookedNames (s : State) (p : PortId) : Bool :=
  s.anyRow fun x => x.isBooked && (namedPorts x.captured).contains p

/-- Number of LIVE rows whose source is logical port `l`. -/
def State.liveSourced (s : State) (l : PortId) : Nat :=
  s.rows.toList.countP fun x => x.isLive && s.usesRx x.captured l

/-- The port the Line Prover claims: its staged port while it is RUNNING (R112, R115). -/
def State.claimed (s : State) : Option PortId :=
  if s.prover.running then portOfNat s.prover.port.toNat else none

/-! P0 (R50, 11.3) -/

/-- The configuration a P0 word gives. -/
def configOf (v : Word) : PortConfig where
  enable := v.getLsbD 0
  pairMode := v.getLsbD 1
  oneLook := v.getLsbD 2
  countDuringCheck := v.getLsbD 3
  threshold := v.extractLsb' 8 8

/-- The spare bits of P0, [7:4] and [31:16], are all 0. -/
def p0SpareClear (v : Word) : Bool := v.extractLsb' 4 4 == 0 && v.extractLsb' 16 16 == 0

/-- `v` with bit `i` set to `b`. -/
def setBit (v : Word) (i : Nat) (b : Bool) : Word :=
  if b then v ||| BitVec.twoPow 32 i else v &&& ~~~ BitVec.twoPow 32 i

/-! The map of the Fabric Window (R160, 11.1) -/

/-- Anchor word n, at offset 4n, where an owning chapter names it. -/
def Anchor.ofIndex : Nat → Option Anchor
  | 0 => some .a0
  | 1 => some .a1
  | 2 => some .a2
  | 3 => some .a3
  | 4 => some .a4
  | 5 => some .a5
  | 6 => some .a6
  | 7 => some .a7
  | 8 => some .a8
  | 9 => some .a9
  | 10 => some .a10
  | 11 => some .a11
  | 12 => some .a12
  | 16 => some .a16
  | 17 => some .a17
  | 18 => some .a18
  | 19 => some .a19
  | 20 => some .a20
  | 21 => some .a21
  | 22 => some .a22
  | _ => none

/-- The number of an anchor word. -/
def Anchor.index : Anchor → Nat
  | .a0 => 0
  | .a1 => 1
  | .a2 => 2
  | .a3 => 3
  | .a4 => 4
  | .a5 => 5
  | .a6 => 6
  | .a7 => 7
  | .a8 => 8
  | .a9 => 9
  | .a10 => 10
  | .a11 => 11
  | .a12 => 12
  | .a16 => 16
  | .a17 => 17
  | .a18 => 18
  | .a19 => 19
  | .a20 => 20
  | .a21 => 21
  | .a22 => 22

/-- Port word n of a port block, at + 4n, where an owning chapter names it. -/
def PortWord.ofIndex : Nat → Option PortWord
  | 0 => some .p0
  | 1 => some .p1
  | 2 => some .p2
  | 3 => some .p3
  | 4 => some .p4
  | 5 => some .p5
  | 6 => some .p6
  | 7 => some .p7
  | 8 => some .p8
  | 9 => some .p9
  | 10 => some .p10
  | 11 => some .p11
  | 12 => some .p12
  | _ => none

/-- The number of a port word. -/
def PortWord.index : PortWord → Nat
  | .p0 => 0
  | .p1 => 1
  | .p2 => 2
  | .p3 => 3
  | .p4 => 4
  | .p5 => 5
  | .p6 => 6
  | .p7 => 7
  | .p8 => 8
  | .p9 => 9
  | .p10 => 10
  | .p11 => 11
  | .p12 => 12

/-- Window offsets of the regions (11.1). -/
abbrev portBase : Nat := 0x1000
abbrev slotBase : Nat := 0x2000
abbrev rowBase : Nat := 0x10000
abbrev meterBase : Nat := 0x14000
abbrev noticeBase : Nat := 0x20000
abbrev ringBase : Nat := 0x40000

/-- The word at window offset `off`, a multiple of 4 (R1, R54, R137, R148, R160, R170). -/
def locate (off : Nat) : WinWord :=
  if off < 0x1000 then
    match Anchor.ofIndex (off / 4) with
    | some a => .anchor a
    | none => .plain
  else if off < 0x1C00 then
    match PortWord.ofIndex ((off - portBase) % 128 / 4) with
    | some w => .port (Fin.ofNat 24 ((off - portBase) / 128)) w
    | none => .plain
  else if off < 0x2000 then .plain
  else if off < 0x2F00 then
    .slot (Fin.ofNat 24 ((off - slotBase) / 160)) (Fin.ofNat 40 ((off - slotBase) % 160 / 4))
  else if off < 0x10000 then .plain
  else if off < 0x14000 then
    .row (Fin.ofNat 256 ((off - rowBase) / 64)) (Fin.ofNat 16 ((off - rowBase) % 64 / 4))
  else if off < 0x15000 then
    .meter (Fin.ofNat 256 ((off - meterBase) / 16)) (Fin.ofNat 4 ((off - meterBase) % 16 / 4))
  else if off < 0x20000 then .plain
  else if off < 0x22000 then .notice (Fin.ofNat 512 ((off - noticeBase) / 16))
  else if off < 0x40000 then .plain
  else if off < 0x50000 then .ring (Fin.ofNat 512 ((off - ringBase) / 128))
  else .plain

/-- Window offset of an anchor word. -/
def anchorOffset (a : Anchor) : Nat := 4 * a.index

/-- Window offset of a port word. -/
def portOffset (p : PortId) (w : PortWord) : Nat := portBase + 128 * p.val + 4 * w.index

/-- Window offset of word `i` of row `r` (R1). -/
def rowOffset (r : RowId) (i : Fin 16) : Nat := rowBase + 64 * r.val + 4 * i.val

/-- Window offset of meter word `i` of row `r` (R137). -/
def meterOffset (r : RowId) (i : Fin 4) : Nat := meterBase + 16 * r.val + 4 * i.val

/-- Window offset of the notice entry with index `i` (R170). -/
def noticeOffset (i : BitVec 10) : Nat := noticeBase + 16 * (i.toNat % Config.ringSlots)

/-- Window offset of the settlement record with index `i` (R146). -/
def recordOffset (i : BitVec 10) : Nat := ringBase + 128 * (i.toNat % Config.ringSlots)

/-- The window base, REGION_SEL x 16 MiB (R156). -/
def State.base (s : State) : Nat := s.regionSel.toNat * 0x1000000

/-- R156: the byte address lies in the Fabric Window. -/
def State.inWindow (s : State) (addr : Nat) : Bool :=
  decide (s.base ≤ addr ∧ addr < s.base + Config.windowBytes)

/-- The word of the window at a byte address inside it. -/
def State.wordAt (s : State) (addr : Nat) : WinWord := locate (addr - s.base)

/-- The bus address of a window offset. -/
def State.busAddr (s : State) (off : Nat) : Word := BitVec.ofNat 32 (s.base + off)

/-- The host's write of one window word. -/
def State.writeOne (s : State) (off : Nat) (v : Word) : Transaction := .write (s.busAddr off) [⟨true, v⟩]

/-- The host's read of one window word. -/
def State.readOne (s : State) (off : Nat) : Transaction := .read (s.busAddr off) 1

end Sys2Proof.Machine
end

