-- ==== Sys2Proof/Machine/Flags.lean ====
section
/-! DEFINITION. The numeric codes (11.10), the saturating counts, and the status words that the part answers
from its state: A2, A19, P1, P4, P6, W10, M3 and the Slot Table word (chapter 11). -/

namespace Sys2Proof.Machine

/-! Codes (11.10) -/

def BookingState.code : BookingState → Nat
  | .empty => 0
  | .posting => 1
  | .held => 2
  | .live => 3
  | .ended => 4

def InFlight.code : InFlight → Nat
  | .none => 0
  | .amend => 1
  | .cancel => 2

def LastResult.code : LastResult → Nat
  | .none => 0
  | .ok => 1
  | .malformed => 2
  | .badPort => 3
  | .noCapacity => 4
  | .tooLate => 5
  | .wrongState => 6
  | .settled => 7

def EndReason.code : EndReason → Nat
  | .scheduled => 0
  | .cancelled => 1
  | .stopped => 2
  | .missed => 3

def Health.code : Health → Nat
  | .healthy => 0
  | .silent => 1
  | .partialFeed => 2
  | .lost => 3

def FabricState.code : FabricState → Nat
  | .halted => 0
  | .running => 1
  | .stopping => 2

def LinkState.code : LinkState → Nat
  | .off => 0
  | .acquire => 1
  | .awaitReady => 2
  | .up => 3
  | .suspect => 4
  | .down => 5
  | .restore => 6

def Cause.code : Cause → Nat
  | .enabled => 1
  | .disabled => 2
  | .alignmentGained => 3
  | .remoteReady => 4
  | .alignmentLost => 5
  | .readyTimeout => 6
  | .errors => 7
  | .remoteNotReady => 8
  | .guardExpired => 9

def DownReason.code : DownReason → Nat
  | .none => 0
  | .alignmentLost => 1
  | .remoteNotReady => 2
  | .errors => 3

def MaintCommand.code : MaintCommand → Nat
  | .loopAll => 1
  | .corruptCheck => 2
  | .normal => 3

def MaintResult.code : MaintResult → Nat
  | .none => 0
  | .acked => 1
  | .declined => 2
  | .noAnswer => 3
  | .noLink => 4
  | .inService => 5

def CaptureState.code : CaptureState → Nat
  | .idle => 0
  | .waitUp => 1
  | .armed => 2
  | .timing => 3
  | .done => 4

def ProverOutcome.code : ProverOutcome → Nat
  | .none => 0
  | .complete => 1
  | .aborted => 2
  | .preempted => 3

def Member.code : Member → Nat
  | .even => 0
  | .odd => 1

def SwitchCause.code : SwitchCause → Nat
  | .automatic => 1
  | .select => 2

/-- The W15 codes (R12). -/
def Action.code : Action → Nat
  | .post => 1
  | .amend => 2
  | .cancel => 3

def NoticeKind.code : NoticeKind → Nat
  | .actionResult => 1
  | .bookingLive => 2
  | .bookingEnded => 3
  | .feedHealth => 4
  | .settled => 5
  | .settlementWait => 6
  | .linkState => 7
  | .remoteStatus => 8
  | .remoteReport => 9
  | .maintResult => 10
  | .captureDone => 11
  | .switchover => 12
  | .switchoverBlocked => 13
  | .proverDone => 14
  | .fabricState => 15

/-- The message kinds that the hub interprets (11.10). -/
def kindIdle : BitVec 3 := 0
def kindCommand : BitVec 3 := 1
def kindEcho : BitVec 3 := 2
def kindCannot : BitVec 3 := 3
def kindReport : BitVec 3 := 4

/-! Counts that stay at their maximum (0.7) -/

/-- One more, staying at the maximum. -/
def satInc {w : Nat} (x : BitVec w) : BitVec w := if x = BitVec.allOnes w then x else x + 1

/-- `n` more, staying at the maximum. -/
def satAdd {w : Nat} (x : BitVec w) (n : Nat) : BitVec w :=
  if x.toNat + n < 2 ^ w then BitVec.ofNat w (x.toNat + n) else BitVec.allOnes w

/-! Words built from fields -/

/-- `value` placed at bit `lo` of a word. -/
def place (lo value : Nat) : Word := BitVec.ofNat 32 value <<< lo

/-- A flag placed at bit `lo` of a word. -/
def placeBit (lo : Nat) (b : Bool) : Word := place lo b.toNat

/-- The link may carry (R59): UP or SUSPECT. -/
def LinkState.inService : LinkState → Bool
  | .up => true
  | .suspect => true
  | _ => false

/-- A settlement ring or notice ring distance: (a - b) mod 1024 (0.7). -/
def ringDist (a b : BitVec 10) : Nat := (a - b).toNat

/-- (append - release) mod 1024, the number of held records (R148). -/
def Settlement.held (u : Settlement) : Nat := ringDist u.append u.release

/-- A2 (R175). -/
def State.fabricWord (s : State) : Word :=
  place 0 s.fabric.code ||| placeBit 2 s.notice.overflow ||| placeBit 3 (s.settle.unit == .waitRing)
    ||| placeBit 4 s.prover.running

/-- NOTE_N is low (R175). -/
def State.noteLow (s : State) : Bool := s.notice.produce != s.notice.consume || s.notice.overflow

/-- A19 (R113, 11.2). -/
def Prover.word (u : Prover) : Word :=
  placeBit 0 u.running ||| placeBit 1 u.locked ||| place 2 u.outcome.code ||| place 8 (u.port.toNat % 32)

/-- P1 (R88, 11.3). -/
def State.linkWord (s : State) (p : PortId) : Word :=
  let o := s.port p
  place 0 o.link.code ||| placeBit 3 o.carrying ||| placeBit 4 o.rdy.value ||| placeBit 5 o.backup.value
    ||| placeBit 6 o.inputLoss.value ||| placeBit 7 o.channel.loop ||| placeBit 8 o.channel.corrupt
    ||| placeBit 9 o.channel.hubCorrupting ||| placeBit 10 (s.claimed == some p)
    ||| place 11 (if s.inPair p then s.active[pairOf p].code else 0) ||| place 12 o.lastDown.code

/-- P4 (R85, 11.3). -/
def Port.hitWord (o : Port) : Word := place 0 o.hits.toNat ||| placeBit 8 o.slip

/-- P6 (R97, 11.3). -/
def Channel.word (c : Channel) : Word :=
  placeBit 0 c.outstanding.isSome ||| place 1 c.lastCommand.toNat ||| place 4 c.lastResult.code
    ||| place 8 c.sent

/-- R90: now minus the start time, at most 2^32 - 1, and 0 when now is earlier than the start. -/
def captureSpan (now start : Time) : Word :=
  if now.toNat - start.toNat < 2 ^ 32 then BitVec.ofNat 32 (now.toNat - start.toNat) else BitVec.allOnes 32

/-- P11 (R91): the duration, or the time elapsed so far while TIMING. -/
def Capture.durationWord (c : Capture) (now : Time) : Word :=
  if c.state = .timing then captureSpan now c.start else c.duration

/-- The Slot Table word of slot `i` of port `p` (R54, 11.4). -/
def State.slotWord (s : State) (p : PortId) (i : SlotId) : Word :=
  let l := s.port (s.logical p)
  let field : Option RowId → Nat := fun o => match o with
    | some r => r.val
    | none => 0
  placeBit 31 (l.txOwner[i]).isSome ||| place 16 (field l.txOwner[i]) ||| placeBit 15 (l.rxOwner[i]).isSome
    ||| place 0 (field l.rxOwner[i])

/-- The feed health that W10 shows: the record's in LIVE and ENDED, HEALTHY elsewhere (R6). -/
def Row.shownHealth (x : Row) : Health :=
  match x.state with
  | .live => x.health
  | .ended => x.health
  | _ => .healthy

/-- The closed segments that W10 shows (R6). -/
def Row.shownSegments (x : Row) : Nat :=
  match x.state with
  | .live => x.meter.closed.length
  | .ended => x.meter.closed.length
  | _ => 0

/-- W10 (R6, 11.5), column by column of the table of R6. -/
def Row.statusWord (x : Row) : Word :=
  let inFlight := match x.state with
    | .empty => InFlight.none
    | .posting => InFlight.none
    | _ => x.inFlight
  let result := match x.state with
    | .posting => LastResult.none
    | _ => x.lastResult
  let late := match x.state with
    | .posting => false
    | .held => false
    | _ => x.late
  let reason := match x.state with
    | .empty => x.endReason
    | .ended => x.endReason
    | _ => EndReason.scheduled
  let endHigh := match x.state with
    | .empty => 0
    | _ => (x.currentEnd.extractLsb' 32 8).toNat
  place 0 x.state.code ||| place 3 inFlight.code ||| place 5 result.code ||| place 10 x.shownHealth.code
    ||| place 12 x.shownSegments ||| placeBit 15 late ||| place 16 reason.code ||| place 24 endHigh

/-- W11 (R6). -/
def Row.endWord (x : Row) : Word :=
  match x.state with
  | .empty => x.settleSeq
  | _ => timeLow x.currentEnd

/-- Two 16-bit counts in one word: the first in the low half, the second in the high half (M3, S16). -/
def countsWord (low high : BitVec 16) : Word := high ++ low

/-- M1, M2 and M3 from the hold (R138); M0 is the carriage. -/
def MeterHold.word (h : MeterHold) : Fin 4 → Word
  | 0 => 0
  | 1 => h.served
  | 2 => h.outage
  | 3 => countsWord h.outageCount h.switchCount

end Sys2Proof.Machine
end

