-- ==== Sys2Proof/WellFormed.lean ====
section
/-! DEFINITION. Which commands are well formed: a transaction must be a span that the bus can carry (R157),
and what an interval brings must be a span cycle in the model's one spelling (R73, 11.9). -/

namespace Sys2Proof

/-- The one spelling of sparse bytes over a default byte `d`: addresses strictly rising, and no byte
listed that equals `d`. -/
abbrev Sparse.Wf (d : Byte) (m : List Host.Cell) : Prop :=
  m.Pairwise (fun a b => a.1 < b.1) ∧ ∀ c ∈ m, c.2 ≠ d

/-- A slot's content: the one spelling over idle fill, within its 4,096 bytes (11.9). -/
abbrev SlotContent.Wf (c : SlotContent) : Prop :=
  Sparse.Wf Config.idleByte c ∧ ∀ x ∈ c, x.1 < Config.slotBytes

/-- A payload: every slot in its one spelling. -/
abbrev Payload.Wf (p : Payload) : Prop :=
  ∀ c ∈ p.toList, SlotContent.Wf c

/-- The address of the first word of a transaction's span. -/
def Transaction.addr : Transaction → Word
  | .read a _ => a
  | .write a _ => a

/-- The number of words in a transaction's span. -/
def Transaction.length : Transaction → Nat
  | .read _ n => n
  | .write _ ws => ws.length

/-- R157: 1-16 words, from a word-aligned 32-bit address, within the address space. -/
def Transaction.wf (t : Transaction) : Bool :=
  decide (1 ≤ t.length ∧ t.length ≤ 16 ∧ t.addr.toNat % 4 = 0 ∧ t.addr.toNat + 4 * t.length ≤ 2 ^ 32)

/-- R73, 11.9: marker offsets rise and lie in the interval, and the payload has its one spelling. -/
def Interval.wf (iv : Interval) : Bool :=
  decide (iv.markers.Pairwise (· < ·) ∧ (∀ o ∈ iv.markers, o < Config.cycleBytes) ∧ Payload.Wf iv.cycle.payload)

/-- The well-formed commands. -/
def Instr.wf : Instr → Bool
  | .coldReset _ (some t) => t.wf
  | .coldReset _ none => true
  | .msEvent _ => true
  | .cycleEvent _ iv => iv.wf
  | .cycleTransmit _ => true
  | .hostTransactionArrival t => t.wf
  | .msideGrant => true
  | .forwardComplete => true
  | .post _ => true
  | .amend _ => true
  | .cancel _ => true
  | .mark _ => true
  | .start => true
  | .stop => true
  | .setTime _ => true
  | .setTimeStagingWrite _ _ => true
  | .amendStagingWrite _ _ _ => true
  | .portEnable _ _ => true
  | .portDisable _ _ => true
  | .pairModeOn _ _ => true
  | .pairModeOff _ _ => true
  | .portOptionsWrite _ _ => true
  | .select _ _ => true
  | .loopAll _ => true
  | .corruptCheck _ => true
  | .normal _ => true
  | .arm _ => true
  | .disarm _ => true
  | .attach => true
  | .detach => true
  | .proverStagingWrite _ _ => true
  | .releaseWrite _ => true
  | .consumeWrite _ => true
  | .timeRead => true
  | .counterRead _ _ => true
  | .meterSnapshotRead _ => true
  | .plainWrite a v => (Transaction.write a [⟨true, v⟩]).wf
  | .postBegin => true
  | .admissionRowReadDone => true
  | .amendExecute => true
  | .cancelExecute => true
  | .goLive => true
  | .scheduledEnd => true
  | .stopEnd => true
  | .tReadyExpiry _ iv => iv.wf
  | .tHoldExpiry _ iv => iv.wf
  | .tRestoreExpiry _ iv => iv.wf
  | .errorWindowClose _ iv => iv.wf
  | .proverExpiry => true
  | .commandNoAnswer _ iv => iv.wf
  | .noticeWriteDone => true
  | .recordBegin => true
  | .settlementFirstHalfDone => true
  | .recordComplete => true

end Sys2Proof
end

