-- ==== Sys2Proof/Machine/Ops.lean ====
section
/-! DEFINITION. The named operations over memory, the Outbound Queue and the notices: sparse bytes, words of
control memory, joining and leaving the Outbound Queue (R165), the arbiter's grant at a join (R166), and
handing a notice (R171). -/

namespace Sys2Proof.Machine

/-! Sparse bytes: the list of the bytes that differ from a default, addresses rising -/

/-- The byte at `a`; `d` where none is listed. -/
def sparseRead (d : Byte) (m : List Host.Cell) (a : Nat) : Byte :=
  match m with
  | [] => d
  | (b, v) :: rest => if a = b then v else sparseRead d rest a

/-- `m` with byte `v` at `a`; writing `d` removes the entry, so that equal contents are equal lists. -/
def sparseWrite (d : Byte) (m : List Host.Cell) (a : Nat) (v : Byte) : List Host.Cell :=
  match m with
  | [] => if v = d then [] else [(a, v)]
  | (b, w) :: rest =>
    if a < b then (if v = d then (b, w) :: rest else (a, v) :: (b, w) :: rest)
    else if a = b then (if v = d then rest else (a, v) :: rest)
    else (b, w) :: sparseWrite d rest a v

/-- The canonical form of control memory: the one spelling over `Config.unwrittenByte`, within 2^32 bytes. -/
abbrev Memory.wf (m : Memory) : Prop :=
  Sparse.Wf Config.unwrittenByte m ∧ ∀ c ∈ m, c.1 < 2 ^ 32

/-- The byte of control memory at an address. -/
def Memory.readByte (m : Memory) (a : Nat) : Byte := sparseRead Config.unwrittenByte m a

/-- A byte written to control memory; the address is a 32-bit one. -/
def Memory.writeByte (m : Memory) (a : Nat) (v : Byte) : Memory :=
  sparseWrite Config.unwrittenByte m (a % 2 ^ 32) v

/-- The word of four consecutive bytes, the lowest address least significant: DESIGN CHOICE (log 3). -/
def Memory.readWord (m : Memory) (a : Nat) : Word :=
  m.readByte (a + 3) ++ m.readByte (a + 2) ++ m.readByte (a + 1) ++ m.readByte a

/-- A word written to its four bytes, the least significant at the lowest address (log 3). -/
def Memory.writeWord (m : Memory) (a : Nat) (v : Word) : Memory :=
  (((m.writeByte a (v.extractLsb' 0 8)).writeByte (a + 1) (v.extractLsb' 8 8)).writeByte (a + 2)
    (v.extractLsb' 16 8)).writeByte (a + 3) (v.extractLsb' 24 8)

/-- `n` consecutive words. -/
def Memory.readWords (m : Memory) (a : Nat) : Nat → List Word
  | 0 => []
  | n + 1 => m.readWord a :: Memory.readWords m (a + 4) n

/-- Consecutive words written from an address. -/
def Memory.writeWords (m : Memory) (a : Nat) : List Word → Memory
  | [] => m
  | v :: vs => Memory.writeWords (m.writeWord a v) (a + 4) vs

/-- One M-side write of a host transaction: its words at their addresses (R162). -/
def Memory.writeRun (m : Memory) : List (Nat × Word) → Memory
  | [] => m
  | (a, v) :: run => Memory.writeRun (m.writeWord a v) run

/-- What an Outbound entry does to memory when it completes (R146, R165, R170); a row read changes nothing. -/
def OutEntry.apply (e : OutEntry) (base : Nat) (m : Memory) : Memory :=
  match e with
  | .rowRead _ => m
  | .noticeWrite n => m.writeWords (base + noticeOffset n.index) [n.n0, n.n1, n.n2, n.n3]
  | .recordHalf i second ws => m.writeWords (base + recordOffset i + (if second then 64 else 0)) ws

/-! The Outbound Queue (R165, R166) -/

/-- The transactions of a producer that have not joined. -/
def Path.backlog (q : Path) : Producer → List OutEntry
  | .admission => q.admissionBacklog
  | .notice => q.noticeBacklog
  | .settlement => q.settleBacklog

/-- `q` with a producer's waiting transactions replaced. -/
def Path.setBacklog (q : Path) (pr : Producer) (es : List OutEntry) : Path :=
  match pr with
  | .admission => { q with admissionBacklog := es }
  | .notice => { q with noticeBacklog := es }
  | .settlement => { q with settleBacklog := es }

/-- M-side is free and no host transaction waits, so a request arriving now is granted (R166). -/
def Path.grantsAtOnce (q : Path) : Bool := q.mside == .free && q.current.isNone

/-- `e` joins the tail; where M-side is free and nothing else waits, the head is granted at once (R166). -/
def Path.join (q : Path) (e : OutEntry) : Path :=
  { q with
    outbound := q.outbound ++ [e]
    mside := if q.grantsAtOnce then .outbound else q.mside
    lastGrant := if q.grantsAtOnce then .outbound else q.lastGrant }

/-- A producer hands a transaction: it joins where there is room and nothing of the producer waits before
it, and waits otherwise, the producer behind those that began to wait earlier (R165). -/
def Path.offer (q : Path) (pr : Producer) (e : OutEntry) : Path :=
  if q.outbound.length < Config.outboundMax ∧ q.backlog pr = [] then q.join e
  else
    { q.setBacklog pr (q.backlog pr ++ [e]) with
      waiting := if pr ∈ q.waiting then q.waiting else q.waiting ++ [pr] }

/-- The head leaves at its completion. The place goes to the producer that has waited longest; its next
transaction, if it has one, then waits behind the others (R165). What the completing entry's producer hands in the
event joins after this: DESIGN CHOICE (log 34). -/
def Path.leave (q : Path) : Path :=
  match q.waiting with
  | [] => { q with outbound := q.outbound.tail }
  | pr :: others =>
    match q.backlog pr with
    | [] => { q with outbound := q.outbound.tail, waiting := others }
    | e :: es =>
      { q.setBacklog pr es with
        outbound := q.outbound.tail ++ [e]
        waiting := if es = [] then others else others ++ [pr] }

/-- M-side becomes free and the waiting head of the Outbound Queue is granted it, where no host
transaction waits (R166). -/
def Path.grantOutbound (q : Path) : Path :=
  if q.outbound = [] then { q with mside := .free }
  else { q with mside := .outbound, lastGrant := .outbound }

/-- A transaction is handed by a producer. -/
def State.offer (s : State) (pr : Producer) (e : OutEntry) : State :=
  { s with path := s.path.offer pr e }

/-! Notices (R170, R171) -/

/-- N0: kind, subject, code, 0 (11.7). -/
def noticeHead (kind : NoticeKind) (subject code : Nat) : Word :=
  place 0 kind.code ||| place 8 subject ||| place 16 code

/-- R171: there is room for one more notice. -/
def NoticeWriter.hasRoom (u : NoticeWriter) : Bool :=
  decide (ringDist u.produce u.consume + u.inWriting.length < Config.ringSlots)

/-- The notice composed at the handing, with the index it is given (R170, R171). -/
def State.composeNotice (s : State) (kind : NoticeKind) (subject code : Nat) (n2 n3 : Word) : Notice where
  index := s.notice.produce + BitVec.ofNat 10 s.notice.inWriting.length
  n0 := noticeHead kind subject code
  n1 := timeLow s.now
  n2 := n2
  n3 := n3

/-- R171: a producer hands a notice. It is given the next index, put in writing and offered to the Outbound
Queue, or it is dropped and the overflow flag becomes 1. Nothing else changes. -/
def State.handNotice (s : State) (kind : NoticeKind) (subject code : Nat) (n2 n3 : Word) : State :=
  let n := s.composeNotice kind subject code n2 n3
  { s with
    notice :=
      if s.notice.hasRoom then { s.notice with inWriting := s.notice.inWriting ++ [n] }
      else { s.notice with overflow := true }
    path := if s.notice.hasRoom then s.path.offer .notice (.noticeWrite n) else s.path }

/-- The fabric enters `f` and the Scheduler hands FABRIC_STATE (R34). -/
def State.setFabric (s : State) (f : FabricState) : State :=
  ({ s with fabric := f } : State).handNotice .fabricState 0 f.code (BitVec.ofNat 32 s.fabric.code) 0

end Sys2Proof.Machine
end

