-- ==== Sys2Proof/Machine/Line.lean ====
section
/-! DEFINITION. The span cycle (4.1, 11.9): the check, the overhead bits, the class of an interval, and the
Line Prover's pattern (6.3). -/

namespace Sys2Proof.Machine

/-! The check (R70) -/

/-- One bit into the check register. -/
def checkBit (r : BitVec 16) (b : Bool) : BitVec 16 :=
  if b != r.msb then (r <<< 1) ^^^ 0x1021 else r <<< 1

/-- The bits of a byte, most significant first. -/
def byteBits (b : Byte) : List Bool :=
  [b.getLsbD 7, b.getLsbD 6, b.getLsbD 5, b.getLsbD 4, b.getLsbD 3, b.getLsbD 2, b.getLsbD 1, b.getLsbD 0]

/-- A list of bits into the check register. -/
def checkBits (r : BitVec 16) (bs : List Bool) : BitVec 16 := bs.foldl checkBit r

/-- Bytes into the check register. -/
def checkBytes (r : BitVec 16) (bs : List Byte) : BitVec 16 := bs.foldl (fun r b => checkBits r (byteBits b)) r

/-- The bytes of a slot. -/
def slotBytes (c : SlotContent) : List Byte :=
  (List.range Config.slotBytes).map (sparseRead Config.idleByte c)

/-- A slot from its bytes. -/
def slotOfBytes (bs : List Byte) : SlotContent :=
  bs.zipIdx.filterMap fun x => if x.1 = Config.idleByte then none else some (x.2, x.1)

/-- The bytes of a payload, slot 0 first. -/
def payloadBytes (p : Payload) : List Byte := p.toList.flatMap slotBytes

/-- The bits of a payload, each byte most significant bit first. -/
def payloadBits (p : Payload) : List Bool := (payloadBytes p).flatMap byteBits

/-- The overhead bits that the check covers: [15:9], then [7:0] (11.9). -/
def overheadBits (o : BitVec 16) : List Bool :=
  (List.range 7).map (fun i => o.getLsbD (15 - i)) ++ (List.range 8).map (fun i => o.getLsbD (7 - i))

/-- R70: the check of a cycle, over its payload and overhead. -/
def cycleCheck (p : Payload) (o : BitVec 16) : BitVec 16 :=
  checkBits (checkBytes (BitVec.allOnes 16) (payloadBytes p)) (overheadBits o)

/-! Overhead (11.9) -/

/-- The overhead of a cycle. -/
def overheadOf (rdy backup inputLoss fbe : Bool) (m : Message) : BitVec 16 :=
  BitVec.ofBool rdy ++ BitVec.ofBool backup ++ BitVec.ofBool inputLoss ++ BitVec.ofBool fbe ++ m.kind
    ++ (0 : BitVec 1) ++ m.code

/-- Received RDY, bit [15]. -/
def rdyOf (c : LineCycle) : Bool := c.overhead.getLsbD 15

/-- Received BACKUP_POWER, bit [14]. -/
def backupOf (c : LineCycle) : Bool := c.overhead.getLsbD 14

/-- Received INPUT_LOSS, bit [13]. -/
def inputLossOf (c : LineCycle) : Bool := c.overhead.getLsbD 13

/-- Received FBE, bit [12]. -/
def fbeOf (c : LineCycle) : Bool := c.overhead.getLsbD 12

/-- The message field: kind [11:9], code [7:0]. -/
def messageOf (c : LineCycle) : Message := ⟨c.overhead.extractLsb' 9 3, c.overhead.extractLsb' 0 8⟩

/-- The byte stream of a cycle on the line (11.9): marker, payload, overhead, check. -/
def lineBytes (c : LineCycle) : List Byte :=
  Config.marker ++ payloadBytes c.payload ++ [c.overhead.extractLsb' 8 8, c.overhead.extractLsb' 0 8]
    ++ [c.check.extractLsb' 8 8, c.check.extractLsb' 0 8]

/-- R71: the class of a cycle whose marker stood at the aligned position. -/
def classOfCycle (c : LineCycle) : IntervalClass :=
  if c.check = cycleCheck c.payload c.overhead then .good
  else if c.check = ~~~cycleCheck c.payload c.overhead then .inverted
  else .bad

/-- A received cycle (R71). -/
def IntervalClass.received : IntervalClass → Bool
  | .good => true
  | .inverted => true
  | .bad => true
  | _ => false

/-- A received cycle that fails its check (R71). -/
def IntervalClass.fails : IntervalClass → Bool
  | .inverted => true
  | .bad => true
  | _ => false

/-- A readable cycle (R96). -/
def IntervalClass.readable : IntervalClass → Bool
  | .good => true
  | .inverted => true
  | _ => false

/-! The pattern (R116): stage n of the shift register is bit n - 1 -/

/-- A bit is shifted into stage 1. -/
def shiftIn (g : BitVec 23) (b : Bool) : BitVec 23 := (g <<< 1) ||| (BitVec.ofBool b).setWidth 23

/-- The pattern bit that the register produces next: stages 23 and 18. -/
def patternBit (g : BitVec 23) : Bool := g.getLsbD 22 != g.getLsbD 17

/-- The register after producing one bit. -/
def patternNext (g : BitVec 23) : BitVec 23 := shiftIn g (patternBit g)

/-- The register after producing `n` bits. -/
def patternAdvance : Nat → BitVec 23 → BitVec 23
  | 0, g => g
  | n + 1, g => patternAdvance n (patternNext g)

/-- The next eight pattern bits as a byte, most significant first, and the register after them. -/
def patternByte (g : BitVec 23) : Byte × BitVec 23 :=
  (List.range 8).foldl
    (fun x _ => ((x.1 <<< 1) ||| (BitVec.ofBool (patternBit x.2)).setWidth 8, patternNext x.2)) (0, g)

/-- The next `n` pattern bytes and the register after them. -/
def patternBytes : Nat → BitVec 23 → List Byte × BitVec 23
  | 0, g => ([], g)
  | n + 1, g =>
    let x := patternByte g
    let y := patternBytes n x.2
    (x.1 :: y.1, y.2)

/-- The register before slot `i` of a cycle that starts at `g`. -/
def patternAtSlot (g : BitVec 23) (i : Nat) : BitVec 23 := patternAdvance (i * (Config.slotBytes * 8)) g

/-- R116: the 40 slots of a cycle that starts at `g`. -/
def patternPayload (g : BitVec 23) : Payload :=
  vecOf fun i => slotOfBytes (patternBytes Config.slotBytes (patternAtSlot g i.val)).1

/-- R117: the predictor loaded with received bits, the first ending in stage 23 of 23. -/
def patternLoad (bs : List Bool) : BitVec 23 := bs.foldl shiftIn 0

/-- R117, R118: received bits against the bits the predictor produces: how many differ, and the
predictor after them. -/
def patternCompare : List Bool → BitVec 23 → Nat × BitVec 23
  | [], g => (0, g)
  | b :: bs, g =>
    let x := patternCompare bs (patternNext g)
    ((if b = patternBit g then 0 else 1) + x.1, x.2)

end Sys2Proof.Machine
end

