-- ==== Sys2Proof/Machine/Meter.lean ====
section
/-! DEFINITION. The Meter Unit's operations on a row (chapter 7): counting a millisecond, closing a segment,
the end of a row, and the snapshot of M0. -/

namespace Sys2Proof.Machine

/-- R127: the gate is open while the health is HEALTHY or SILENT. -/
def Health.gateOpen : Health → Bool
  | .healthy => true
  | .silent => true
  | .partialFeed => false
  | .lost => false

/-- R129: one millisecond counted with the gate open or closed; `unit` is the row's tariff unit in ms. -/
def Meter.countMs (m : Meter) (unit : Nat) (gate : Bool) (now : Time) : Meter :=
  if gate then
    if m.prescaler + 1 = unit then
      { m with
        served := m.served + 1, prescaler := 0, segment := m.segment + 1, carriage := m.carriage + 1
        countedTo := now }
    else { m with served := m.served + 1, prescaler := m.prescaler + 1, countedTo := now }
  else { m with outage := m.outage + 1, countedTo := now }

/-- R132: a segment close. -/
def Meter.close (m : Meter) : Meter :=
  let started : Word := if 0 < m.prescaler then 1 else 0
  { m with
    prescaler := 0
    segment := 0
    carriage := m.carriage + started
    closed := m.closed ++ [m.segment + started] }

/-- R129, R130: the millisecond that the latest ms event completed, counted if the row is LIVE and has not
counted it. -/
def Row.countMs (x : Row) (now : Time) : Row :=
  if x.state = .live ∧ x.meter.countedTo.toNat < now.toNat then
    { x with meter := x.meter.countMs (unitOf x.captured) x.health.gateOpen now }
  else x

/-- R129: the Meter Unit handles the ms event for every row. -/
def State.meterHandle (s : State) : State :=
  if s.meterDue then
    { s with meterDue := false, rows := vecMap (fun x => x.countMs s.now) s.rows }
  else s

/-- R126, R41 step 3: the meter of a row going live. -/
def Meter.started (now : Time) : Meter := { Meter.zero with countedTo := now }

/-- R43 steps 2 and 3, R44, R135: catch-up, final close, and the row's entry to ENDED. -/
def Row.endLive (x : Row) (reason : EndReason) (now : Time) : Row :=
  let y := x.countMs now
  { y with state := .ended, endReason := reason, actualEnd := now, meter := y.meter.close }

/-- R45, R126: a HELD row ended as MISSED. Its counted-to is 0, as every item of the table of R126, where the law of
R130 names the actual end: DESIGN CHOICE (log 35), which nothing can observe. -/
def Row.endMissed (x : Row) (now : Time) : Row :=
  { x with
    state := .ended, endReason := .missed, actualStart := now, actualEnd := now, late := false
    health := .healthy, meter := Meter.zero.close }

/-- R133: the current segment of a LIVE row is closed. -/
def Row.markSegment (x : Row) : Row := { x with meter := x.meter.close }

/-- R128: a new feed health is held; a gate that goes from open to closed counts one outage. -/
def Row.setHealth (x : Row) (h : Health) : Row :=
  { x with
    health := h
    meter :=
      if x.health.gateOpen && !h.gateOpen then { x.meter with outageCount := satInc x.meter.outageCount }
      else x.meter }

/-- R131: one switchover of the row's source pair. -/
def Row.countSwitch (x : Row) : Row :=
  { x with meter := { x.meter with switchCount := satInc x.meter.switchCount } }

/-- The meter values that a row's meter words show: the record's while LIVE or ENDED, 0 otherwise (R138). -/
def Row.shownMeter (x : Row) : Meter :=
  match x.state with
  | .live => x.meter
  | .ended => x.meter
  | _ => Meter.zero

/-- R138: a read of M0 fills the hold. -/
def Row.fillHold (x : Row) : Row :=
  let m := x.shownMeter
  { x with hold := ⟨m.served, m.outage, m.outageCount, m.switchCount⟩ }

end Sys2Proof.Machine
end

