-- ==== Sys2Proof/Machine/CrossConnect.lean ====
section
/-! DEFINITION. The Cross-Connect (chapter 3): slots, the carried payload, feed health, receive selection,
and the recomposition of a port's carrying flag. -/

namespace Sys2Proof.Machine

/-! Slots (R54 to R58) -/

/-- The free slots, ascending. -/
def freeSlots (v : Vector (Option RowId) 40) : List SlotId := (List.finRange 40).filter fun i => v[i].isNone

/-- The slots a row owns, ascending. -/
def ownedSlots (v : Vector (Option RowId) 40) (r : RowId) : List SlotId :=
  (List.finRange 40).filter fun i => v[i] == some r

/-- R55: the `n` lowest free slots become owned by row `r`. -/
def takeSlots (v : Vector (Option RowId) 40) (n : Nat) (r : RowId) : Vector (Option RowId) 40 :=
  vecOf fun i => if i ∈ (freeSlots v).take n then some r else v[i]

/-- R56: the slots of row `r` become free. -/
def releaseSlots (v : Vector (Option RowId) 40) (r : RowId) : Vector (Option RowId) 40 :=
  vecMap (fun o => if o = some r then none else o) v

/-- R55: receive slots on the source logical port. -/
def State.allocRx (s : State) (l : PortId) (n : Nat) (r : RowId) : State :=
  s.setPort l { s.port l with rxOwner := takeSlots (s.port l).rxOwner n r }

/-- R55: transmit slots on a destination logical port. -/
def State.allocTx (s : State) (l : PortId) (n : Nat) (r : RowId) : State :=
  s.setPort l { s.port l with txOwner := takeSlots (s.port l).txOwner n r }

/-- R55: the slots of a row going live: receive on its source, then transmit on each destination in the
order of the fields. Where fewer slots are free than the row needs, which R22 rules out, it takes those
there are (log 22). -/
def State.allocate (s : State) (r : RowId) : State :=
  let c := (s.row r).captured
  (destPorts c).foldl (fun s d => s.allocTx (s.logical d) (slotCount c) r)
    (s.allocRx (s.logical (sourcePort c)) (slotCount c) r)

/-- R56: every slot of a row is freed. -/
def State.freeSlotsOf (s : State) (r : RowId) : State :=
  { s with
    ports := vecMap (fun o => { o with rxOwner := releaseSlots o.rxOwner r, txOwner := releaseSlots o.txOwner r })
      s.ports }

/-- R57: the content that transmit slot `i` of logical port `l` carries: the receive slot of the same rank
of the same row on its source path, or idle fill. -/
def State.slotContent (s : State) (l : PortId) (i : SlotId) : SlotContent :=
  match (s.port l).txOwner[i] with
  | none => []
  | some r =>
    let src := sourcePort (s.row r).captured
    let rank := (ownedSlots (s.port l).txOwner r).idxOf i
    match (ownedSlots (s.port (s.logical src)).rxOwner r)[rank]? with
    | none => []
    | some j => (s.port (s.rxPath src)).rx[j]

/-- R57, R58: the Cross-Connect's payload for physical port `p`. -/
def State.crossPayload (s : State) (p : PortId) : Payload := vecOf fun i => s.slotContent (s.logical p) i

/-! Feed health (R66, R67) -/

/-- R66: the logical port of `p` is carrying as a destination: one of its physical ports is. -/
def State.destCarrying (s : State) (p : PortId) : Bool :=
  if s.inPair p then (s.port (evenPort (pairOf p))).carrying || (s.port (oddPort (pairOf p))).carrying
  else (s.port p).carrying

/-- R66: the source path of a booking. -/
def State.sourcePath (s : State) (c : Vector Word 8) : PortId := s.rxPath (sourcePort c)

/-- R66: the first condition that holds gives the feed health. -/
def State.feedHealth (s : State) (c : Vector Word 8) : Health :=
  if !(s.port (s.sourcePath c)).carrying || !(destPorts c).any s.destCarrying then .lost
  else if !(destPorts c).all s.destCarrying then .partialFeed
  else if (s.port (s.sourcePath c)).inputLoss.value then .silent
  else .healthy

/-- R67: a LIVE row is re-evaluated; a change is held, counted by R128 and handed as FEED_HEALTH. -/
def State.reevaluate (s : State) (r : RowId) : State :=
  let x := s.row r
  let h := s.feedHealth x.captured
  if x.state = .live ∧ h ≠ x.health then
    (s.setRow r (x.setHealth h)).handNotice .feedHealth r.val h.code (BitVec.ofNat 32 x.health.code)
      (BitVec.ofNat 32 (s.sourcePath x.captured).val)
  else s

/-- R60 step 2: the LIVE rows that use logical port `l`, in ascending order. -/
def State.reevaluateUsers (s : State) (l : PortId) : State :=
  s.forRows fun r s => if s.uses (s.row r).captured l then s.reevaluate r else s

/-- R63, R64: the LIVE rows sourced on logical port `l`, in ascending order. -/
def State.reevaluateSourced (s : State) (l : PortId) : State :=
  s.forRows fun r s => if s.usesRx (s.row r).captured l then s.reevaluate r else s

/-- R67, R82: the LIVE rows whose source path is physical port `p`, in ascending order. -/
def State.reevaluateInput (s : State) (p : PortId) : State :=
  s.forRows fun r s => if s.sourcePath (s.row r).captured = p then s.reevaluate r else s

/-! Receive selection (R61 to R65) -/

/-- R63: the row is counted by a switchover of logical port `l`, and its count is not at its maximum. -/
def State.countsSwitch (s : State) (l : PortId) (x : Row) : Bool := x.isLive && s.usesRx x.captured l

/-- R63: member `m` of pair `k` becomes active: the counts of the rows sourced there grow, and SWITCHOVER
is handed with the number of rows whose count was increased (log 29). -/
def State.switchover (s : State) (k : PairId) (m : Member) (cause : SwitchCause) : State :=
  let l := evenPort k
  let counted := s.rows.toList.countP fun x =>
    s.countsSwitch l x && x.meter.switchCount != BitVec.allOnes 16
  ({ s with
      active := s.active.set k m
      rows := vecMap (fun x => if s.countsSwitch l x then x.countSwitch else x) s.rows } : State).handNotice
    .switchover l.val m.code (BitVec.ofNat 32 cause.code) (BitVec.ofNat 32 counted)

/-- R62: the pair is blocked; SWITCHOVER_BLOCKED is handed. -/
def State.blocked (s : State) (k : PairId) : State :=
  s.handNotice .switchoverBlocked (evenPort k).val s.active[k].code
    (BitVec.ofNat 32 (s.liveSourced (evenPort k))) 0

/-- R61: the automatic condition, applied as the pair stands (R53). -/
def State.selectReceive (s : State) (k : PairId) : State :=
  let other := s.active[k].other
  if !(s.port (s.activePort k)).carrying && (s.port (memberPort k other)).carrying then
    s.switchover k other .automatic
  else s

/-- R61, R62: receive selection at a change of carrying of port `p`. -/
def State.selectAtChange (s : State) (p : PortId) : State :=
  let k := pairOf p
  if s.inPair p then
    if !(s.port (s.activePort k)).carrying && !(s.port (memberPort k s.active[k].other)).carrying
      && s.activePort k == p then s.blocked k
    else s.selectReceive k
  else s

/-- R60: a change of the carrying flag of port `p` reaches the Cross-Connect; step 2 covers the rows that a
switchover of step 1 re-evaluates (log 32). -/
def State.carryingChanged (s : State) (p : PortId) : State :=
  (s.selectAtChange p).reevaluateUsers (s.logical p)

/-- R59: the four inputs of the carrying flag. -/
def State.mayCarry (s : State) (p : PortId) : Bool :=
  let o := s.port p
  o.cfg.enable && o.link.inService && !o.channel.loop && s.claimed != some p

/-- R59: the carrying flag is recomposed, and a change is handed to the Cross-Connect. -/
def State.recompose (s : State) (p : PortId) : State :=
  if s.mayCarry p = (s.port p).carrying then s
  else (s.setPort p { s.port p with carrying := s.mayCarry p }).carryingChanged p

end Sys2Proof.Machine
end

