-- ==== Sys2Proof/Machine/Channel.lean ====
section
/-! DEFINITION. The Maintenance Channel's operations (chapter 5): commands and their endings, the message
field, the answer run, remote messages, and link loss. -/

namespace Sys2Proof.Machine

/-- R102: an outstanding command ends with an outcome; MAINT_RESULT is handed. -/
def State.endCommand (s : State) (p : PortId) (c : MaintCommand) (outcome : MaintResult) : State :=
  let ch := (s.port p).channel
  (s.setChannel p { ch with outstanding := none, lastResult := outcome }).handNotice .maintResult p.val
    outcome.code (BitVec.ofNat 32 c.code) (BitVec.ofNat 32 ch.sent)

/-- R98: the record of a command accepted just now. -/
def Channel.accept (ch : Channel) (c : MaintCommand) : Channel :=
  { ch with
    outstanding := some c, lastCommand := BitVec.ofNat 2 c.code, lastResult := .none, sent := 0
    answerKind := none, answerRun := 0 }

/-- R99: LOOP_ALL on a path that feeds a LIVE booking. -/
def State.loopInService (s : State) (p : PortId) : Bool := s.unpairedOrActive p && s.liveUses (s.logical p)

/-- R98, R99: a maintenance command is accepted and judged. -/
def State.takeCommand (s : State) (p : PortId) (c : MaintCommand) : State :=
  let t := s.setChannel p ((s.port p).channel.accept c)
  if !(s.port p).link.inService then t.endCommand p c .noLink
  else if c = .loopAll ∧ s.loopInService p = true then t.endCommand p c .inService
  else t

/-- R107: the hub's answer to a remote command. -/
def answerTo (code : Byte) : Message :=
  if code = 2 ∨ code = 3 then ⟨kindEcho, code⟩ else ⟨kindCannot, code⟩

/-- R108: the second and third choices for the message field, and whether it carries the command. -/
def Channel.ownField (ch : Channel) : Message × Bool :=
  match ch.outstanding with
  | some c =>
    if ch.sent < Config.sentMax then (⟨kindCommand, BitVec.ofNat 8 c.code⟩, true) else (⟨kindIdle, 0⟩, false)
  | none => (⟨kindIdle, 0⟩, false)

/-- R108: the message field of a cycle being composed, and whether it carries the outstanding command. -/
def Channel.field (ch : Channel) : Message × Bool :=
  match ch.present with
  | some m => if m.kind = kindCommand then (answerTo m.code, false) else ch.ownField
  | none => ch.ownField

/-- The kind of answer that a message gives to command `c`, if it is one (R101). -/
def answerKindOf (m : Message) (c : MaintCommand) : Option AnswerKind :=
  if m.code = BitVec.ofNat 8 c.code then
    if m.kind = kindEcho then some .echo else if m.kind = kindCannot then some .cannot else none
  else none

/-- R101: the answer run after an interval; `m` is the message of a readable cycle. -/
def Channel.stepAnswer (ch : Channel) (c : MaintCommand) (m : Option Message) : Channel :=
  match m with
  | none => { ch with answerKind := none, answerRun := 0 }
  | some m =>
    match answerKindOf m c with
    | none => { ch with answerKind := none, answerRun := 0 }
    | some k =>
      if ch.answerKind = some k then { ch with answerRun := ch.answerRun + 1 }
      else { ch with answerKind := some k, answerRun := 1 }

/-- R101: the latched remote set after an ACKED command. -/
def Channel.latch (ch : Channel) : MaintCommand → Channel
  | .loopAll => { ch with loop := true }
  | .corruptCheck => { ch with corrupt := true }
  | .normal => { ch with loop := false, corrupt := false }

/-- R101, R102: the answer run takes the interval and may end the outstanding command. -/
def State.takeAnswer (s : State) (p : PortId) (m : Option Message) : State :=
  match (s.port p).channel.outstanding with
  | none => s
  | some c =>
    let ch := (s.port p).channel.stepAnswer c m
    if 3 ≤ ch.answerRun then
      if ch.answerKind = some .echo then (s.setChannel p (ch.latch c)).endCommand p c .acked
      else (s.setChannel p ch).endCommand p c .declined
    else if Config.sentMax ≤ ch.sent then (s.setChannel p ch).endCommand p c .noAnswer
    else s.setChannel p ch

/-- R105: the message run after an interval, and whether the candidate is verified by it. -/
def Channel.stepMessage (ch : Channel) (m : Option Message) : Channel × Bool :=
  match m with
  | none => ({ ch with candidate := none, messageRun := 0 }, false)
  | some m =>
    if ch.candidate = some m then
      if ch.messageRun = 2 then ({ ch with messageRun := 3, present := some m }, true)
      else ({ ch with messageRun := min 3 (ch.messageRun + 1) }, false)
    else
      ({ ch with
          candidate := some m, messageRun := 1
          present := if ch.present = some m then ch.present else none }, false)

/-- R106, R107: what a verified message does. -/
def State.takeVerified (s : State) (p : PortId) (m : Message) : State :=
  let ch := (s.port p).channel
  if m.kind = kindReport then
    if m.code = ch.lastReport then s
    else
      (s.setChannel p { ch with lastReport := m.code }).handNotice .remoteReport p.val m.code.toNat
        (ch.lastReport.setWidth 32) 0
  else if m.kind = kindCommand ∧ m.code = 2 then s.setChannel p { ch with hubCorrupting := true }
  else if m.kind = kindCommand ∧ m.code = 3 then s.setChannel p { ch with hubCorrupting := false }
  else s

/-- R105 to R107: the message run takes the interval. -/
def State.takeMessage (s : State) (p : PortId) (m : Option Message) : State :=
  let x := (s.port p).channel.stepMessage m
  let t := s.setChannel p x.1
  match m with
  | some m => if x.2 then t.takeVerified p m else t
  | none => t

/-- R96, R77 step 7: the channel takes the content of a cycle event, when the link step has left the link
UP or SUSPECT: the answer run first, then the message run (log 15). -/
def State.channelContent (s : State) (p : PortId) (cls : IntervalClass) (c : LineCycle) : State :=
  if (s.port p).link.inService then
    let m := if cls.readable then some (messageOf c) else none
    (s.takeAnswer p m).takeMessage p m
  else s

/-- R109 steps 1 to 3. -/
def Channel.loseLink (ch : Channel) : Channel :=
  { ch with
    loop := false, corrupt := false, hubCorrupting := false, lastReport := 0, present := none
    candidate := none, messageRun := 0, answerKind := none, answerRun := 0 }

/-- R109: the channel takes link loss. -/
def State.linkLoss (s : State) (p : PortId) : State :=
  let t := s.setChannel p (s.port p).channel.loseLink
  match (s.port p).channel.outstanding with
  | some c => t.endCommand p c .noLink
  | none => t

end Sys2Proof.Machine
end

