-- ==== Sys2Proof/Machine/Prover.lean ====
section
/-! DEFINITION. The Line Prover's operations (chapter 6): the claim, the checker, its ms event, and the
endings of a test. -/

namespace Sys2Proof.Machine

/-- R114: no HELD booking that uses `l` starts before now plus the duration. -/
def State.noHeldBefore (s : State) (l : PortId) (duration : Nat) : Bool :=
  !s.anyRow fun x =>
    x.state == .held && s.uses x.captured l && decide ((bookedStart x.captured).toNat < s.now.toNat + duration)

/-- R114: the conditions on a port for ATTACH. -/
def State.attachPortOk (s : State) (p : PortId) : Bool :=
  (s.port p).cfg.enable
    && (!s.unpairedOrActive p
      || (!s.liveUses (s.logical p) && s.noHeldBefore (s.logical p) s.prover.duration.toNat))

/-- R114: ATTACH is acceptable, with the staged port and duration as they stand. -/
def State.attachOk (s : State) : Bool :=
  !s.prover.running && decide (1 ≤ s.prover.duration.toNat ∧ s.prover.duration.toNat ≤ Config.proverMax)
    && (match portOfNat s.prover.port.toNat with
      | some p => s.attachPortOk p
      | none => false)

/-- R115 step 1: the prover at the start of a test. -/
def Prover.begin (u : Prover) : Prover :=
  { u with
    running := true, outcome := .none, errorBits := 0, elapsed := 0, lockedTime := 0, locked := false, badRun := 0
    generator := BitVec.allOnes 23, predictor := BitVec.allOnes 23 }

/-- R115: ATTACH is taken: the test begins, the port is claimed and its carrying flag recomposed. An ms
event that the prover has not handled yet came before the test and is not counted in it (log 11). -/
def State.takeAttach (s : State) : State :=
  let t : State := { s with prover := s.prover.begin, proverDue := false }
  match portOfNat s.prover.port.toNat with
  | some p => t.recompose p
  | none => t

/-- R120: the test ends with an outcome. -/
def State.proverEnd (s : State) (outcome : ProverOutcome) : State :=
  let t : State :=
    ({ s with prover := { s.prover with running := false, outcome := outcome } } : State).handNotice .proverDone
      (s.prover.port.toNat % 256) outcome.code s.prover.elapsed s.prover.errorBits
  match portOfNat s.prover.port.toNat with
  | some p => t.recompose p
  | none => t

/-- R121: DETACH while RUNNING. -/
def State.takeDetach (s : State) : State := if s.prover.running then s.proverEnd .aborted else s

/-- R121, R93 step 6: the disable of port `p` ends a test on it. -/
def State.proverDisable (s : State) (p : PortId) : State :=
  if s.claimed = some p then s.proverEnd .aborted else s

/-- R122: a row with captured copy `c` is going live. -/
def State.proverPreempt (s : State) (c : Vector Word 8) : State :=
  match s.claimed with
  | some p => if s.uses c (s.logical p) && s.unpairedOrActive p then s.proverEnd .preempted else s
  | none => s

/-- R119: the counts of an ms event while RUNNING. -/
def Prover.countMs (u : Prover) : Prover :=
  { u with elapsed := u.elapsed + 1, lockedTime := if u.locked then u.lockedTime + 1 else u.lockedTime }

/-- R119: the prover handles the ms event. -/
def State.proverHandle (s : State) : State :=
  if s.proverDue then
    if s.prover.running then
      let t : State := { s with proverDue := false, prover := s.prover.countMs }
      if t.prover.elapsed = t.prover.duration then t.proverEnd .complete else t
    else { s with proverDue := false }
  else s

/-- R119: the ms event still to be handled completes the test. -/
def State.proverExpires (s : State) : Bool :=
  s.proverDue && s.prover.running && s.prover.elapsed + 1 == s.prover.duration

/-- R117: the checker in SEARCH takes a received cycle. -/
def Prover.search (u : Prover) (bits : List Bool) : Prover :=
  let x := patternCompare (bits.drop 23) (patternLoad (bits.take 23))
  if x.1 = 0 then { u with locked := true, badRun := 0, predictor := x.2 } else { u with predictor := x.2 }

/-- R118: four bad intervals return the checker to SEARCH. -/
def Prover.checkRun (u : Prover) : Prover :=
  if 4 ≤ u.badRun then { u with locked := false, badRun := 0 } else u

/-- R118: the checker in LOCKED takes a received cycle. -/
def Prover.track (u : Prover) (bits : List Bool) : Prover :=
  let x := patternCompare bits u.predictor
  Prover.checkRun
    { u with
      errorBits := satAdd u.errorBits x.1
      badRun := if Config.badBits < x.1 then u.badRun + 1 else 0
      predictor := x.2 }

/-- R118: the checker in LOCKED takes an interval that was not received. -/
def Prover.lose (u : Prover) : Prover :=
  Prover.checkRun { u with badRun := u.badRun + 1, predictor := patternAdvance Config.cycleBits u.predictor }

/-- R117, R118: the checker takes an interval of the claimed port. -/
def Prover.check (u : Prover) (cls : IntervalClass) (c : LineCycle) : Prover :=
  if cls.received then
    if u.locked then u.track (payloadBits c.payload) else u.search (payloadBits c.payload)
  else if u.locked then u.lose
  else u

/-- R117: the content of a cycle event of port `p` goes to the prover while it claims the port. -/
def State.proverContent (s : State) (p : PortId) (cls : IntervalClass) (c : LineCycle) : State :=
  if s.claimed = some p then { s with prover := s.prover.check cls c } else s

end Sys2Proof.Machine
end

