-- ==== Sys2Proof/Machine/Settlement.lean ====
section
/-! DEFINITION. The Settlement Unit (chapter 8): composing a record and its check word, beginning a record,
the waits, and the completion of a record. -/

namespace Sys2Proof.Machine

/-- `n` words of a list, padded with 0 (S18 to S24). -/
def padWords (n : Nat) (ws : List Word) : List Word := (ws ++ List.replicate n 0).take n

/-- S3: W2 with the late flag at [17] and the end reason at [21:20] (11.8). -/
def recordFlags (x : Row) : Word := x.captured[2] ||| placeBit 17 x.late ||| place 20 x.endReason.code

/-- S0 to S30 (R144). -/
def recordBody (x : Row) (seq : Word) : List Word :=
  [seq, x.captured[0], x.captured[1], recordFlags x, x.captured[3],
    x.captured[4], x.captured[5] &&& 0xFF, x.captured[6], x.captured[7] &&& 0xFF,
    timeLow x.actualStart, timeHigh x.actualStart, timeLow x.actualEnd, timeHigh x.actualEnd,
    x.meter.carriage, x.meter.served, x.meter.outage,
    countsWord x.meter.outageCount x.meter.switchCount, BitVec.ofNat 32 x.meter.closed.length]
  ++ padWords 7 x.meter.closed ++ List.replicate 6 0

/-- The sum of words modulo 2^32 (R145). -/
def wordSum (ws : List Word) : Word := ws.foldl (· + ·) 0

/-- R144, R145: the 32 words of a record, closed by the check word. -/
def composeRecord (x : Row) (seq : Word) : List Word :=
  recordBody x seq ++ [0 - wordSum (recordBody x seq)]

/-- R143, R146: the record of row `r` begins; its halves are handed to the Outbound Queue in order. -/
def State.beginRecord (s : State) (r : RowId) (others : List RowId) : State :=
  let ws := composeRecord (s.row r) s.settle.nextSeq
  let i := s.settle.append
  (({ s with settle := { s.settle with queue := others, writing := some ⟨r, i, ws⟩, unit := .writing } } : State).offer
    .settlement (.recordHalf i false (ws.take 16))).offer .settlement (.recordHalf i true (ws.drop 16))

/-- R151: entry into WAIT_RING, with SETTLEMENT_WAIT when the unit was not in it before. -/
def State.waitRing (s : State) : State :=
  if s.settle.unit = .waitRing then s
  else
    ({ s with settle := { s.settle with unit := .waitRing } } : State).handNotice .settlementWait 0 0
      (BitVec.ofNat 32 s.settle.queue.length) (s.settle.release.setWidth 32)

/-- R143: the Settlement Unit takes the state that holds, and begins the head row's record when it may. -/
def State.settleStep (s : State) : State :=
  match s.settle.writing with
  | some _ => { s with settle := { s.settle with unit := .writing } }
  | none =>
    match s.settle.queue with
    | [] => { s with settle := { s.settle with unit := .idle } }
    | r :: others =>
      if s.settle.held = Config.ringSlots then s.waitRing
      else if (s.row r).inFlight ≠ .none then { s with settle := { s.settle with unit := .waitAction } }
      else s.beginRecord r others

/-- R142: row `r` joins the tail of the Settlement Queue. -/
def State.joinSettlement (s : State) (r : RowId) : State :=
  { s with settle := { s.settle with queue := s.settle.queue ++ [r] } }

/-- R153: the sequence after `q`, passing over 0. -/
def seqAfter (q : Word) : Word := if q + 1 = 0 then 1 else q + 1

/-- R147 steps 3 and 4: the row of a completed record. -/
def Row.settled (x : Row) (seq : Word) : Row :=
  { x with
    state := .empty, lastResult := .settled, settleSeq := seq, inFlight := .none, health := .healthy
    meter := Meter.zero }

/-- R147: the record in writing is complete. -/
def State.completeRecord (s : State) : State :=
  match s.settle.writing with
  | none => s
  | some w =>
    let x := s.row w.row
    let seq := s.settle.nextSeq
    let t : State :=
      { s with
        settle := { s.settle with append := s.settle.append + 1, nextSeq := seqAfter seq, writing := none }
        rows := s.rows.set w.row (x.settled seq) }
    (t.handNotice .settled w.row.val x.endReason.code seq (w.index.setWidth 32)).settleStep

/-- R148: slot `i` of the ring holds a held record. -/
def Settlement.heldSlot (u : Settlement) (i : Fin 512) : Bool :=
  decide ((i.val + 1024 - u.release.toNat) % 512 < u.held)

/-- R146: slot `i` of the ring is in writing. -/
def Settlement.slotInWriting (u : Settlement) (i : Fin 512) : Bool :=
  match u.writing with
  | some w => w.index.toNat % 512 == i.val
  | none => false

/-- R150: a release to `v` is acceptable. -/
def Settlement.releaseOk (u : Settlement) (v : Word) : Bool :=
  v.extractLsb' 10 22 == 0 && decide (ringDist (v.extractLsb' 0 10) u.release ≤ u.held)

/-- R150, R152: an accepted release; one that is not acceptable never gets here and would change nothing. -/
def State.takeRelease (s : State) (v : Word) : State :=
  if s.settle.releaseOk v then
    let t : State := { s with settle := { s.settle with release := v.extractLsb' 0 10 } }
    if s.settle.unit = .waitRing then t.settleStep else t
  else s

end Sys2Proof.Machine
end

