-- ==== Sys2Proof/Machine/Scheduler.lean ====
section
/-! DEFINITION. The Time Base and the Scheduler (chapter 2): ends and go-lives of rows, START and STOP, the
ms event and its handling. -/

namespace Sys2Proof.Machine

/-- R37: an end in STOPPING that leaves no row LIVE returns the fabric to HALTED. -/
def State.haltIfDone (s : State) : State :=
  if s.fabric = .stopping ∧ s.anyRow Row.isLive = false then s.setFabric .halted else s

/-- R43, R37: a LIVE row is ended: slots freed, meter closed, ENDED, joined to the Settlement Queue,
BOOKING_ENDED handed, and FABRIC_STATE when it was the last in STOPPING. -/
def State.endLive (s : State) (r : RowId) (reason : EndReason) : State :=
  let y := (s.row r).endLive reason s.now
  ((((s.freeSlotsOf r).setRow r y).joinSettlement r).handNotice .bookingEnded r.val reason.code
    (timeLow y.actualStart) (timeLow (s.now - y.actualStart))).haltIfDone

/-- R43, R143: an end by the Scheduler, and what it lets the Settlement Unit do in the same event. -/
def State.scheduleEnd (s : State) (r : RowId) (reason : EndReason) : State := (s.endLive r reason).settleStep

/-- R45: a HELD row ends MISSED. -/
def State.endMissed (s : State) (r : RowId) : State :=
  (((s.setRow r ((s.row r).endMissed s.now)).joinSettlement r).handNotice .bookingEnded r.val
    EndReason.missed.code (timeLow s.now) 0).settleStep

/-- R41 step 3: the row at its go-live. -/
def Row.started (x : Row) (now : Time) (late : Bool) : Row :=
  { x with state := .live, actualStart := now, late := late, meter := Meter.started now, health := .healthy }

/-- R41: row `r` goes live: any claim is preempted, slots are allocated, the row enters LIVE with its meter
started, its health is evaluated, and BOOKING_LIVE is handed. -/
def State.goLiveRow (s : State) (r : RowId) (late : Bool) : State :=
  let x := s.row r
  let t := (s.proverPreempt x.captured).allocate r
  let u := (t.setRow r ((t.row r).started s.now late)).reevaluate r
  u.handNotice .bookingLive r.val late.toNat (timeLow x.currentEnd) (timeLow (bookedStart x.captured))

/-! START and STOP (R34 to R37) -/

/-- R35: START judges one row. -/
def State.startRow (s : State) (r : RowId) : State :=
  let x := s.row r
  let begins := bookedStart x.captured
  if x.state = .held then
    if x.currentEnd.toNat ≤ s.now.toNat then s.endMissed r
    else if begins.toNat < s.now.toNat then
      if lateOk x.captured then s.goLiveRow r true else s.endMissed r
    else if begins = s.now then s.goLiveRow r false
    else s
  else s

/-- R35: START is taken. -/
def State.takeStart (s : State) : State := (s.setFabric .running).forRows fun r s => s.startRow r

/-- R36, R37: STOP is taken. -/
def State.takeStop (s : State) : State := (s.setFabric .stopping).haltIfDone

/-- R33: SET_TIME is taken. -/
def State.takeSetTime (s : State) : State := { s with now := timeOf s.setTimeLow s.setTimeHigh }

/-! The ms event (R30, R38) -/

/-- The row is LIVE and its current end has been reached (R38). -/
def State.endDue (s : State) (r : RowId) : Bool :=
  (s.row r).state == .live && decide ((s.row r).currentEnd.toNat ≤ s.now.toNat)

/-- The row is HELD, its booked start has come, and its current end has not (R38). -/
def State.startDue (s : State) (r : RowId) : Bool :=
  (s.row r).state == .held && decide ((bookedStart (s.row r).captured).toNat ≤ s.now.toNat)
    && decide (s.now.toNat < (s.row r).currentEnd.toNat)

/-- R38: the row's booked start is earlier than now, which sets the late flag at its go-live. -/
def State.isLate (s : State) (r : RowId) : Bool :=
  decide ((bookedStart (s.row r).captured).toNat < s.now.toNat)

/-- R38: the ends from row `lo` upward. -/
def State.runEnds (s : State) (lo : Nat) : State :=
  s.forRows fun r s => if lo ≤ r.val ∧ s.endDue r = true then s.scheduleEnd r .scheduled else s

/-- R38: the starts from row `lo` upward, in RUNNING only. -/
def State.runStarts (s : State) (lo : Nat) : State :=
  s.forRows fun r s =>
    if lo ≤ r.val ∧ s.fabric = .running ∧ s.startDue r = true then s.goLiveRow r (s.isLate r) else s

/-- R38: the Scheduler handles what is left of the ms event. -/
def State.schedulerHandle (s : State) : State :=
  match s.pass with
  | .none => s
  | .ends lo =>
    if s.fabric = .halted then { s with pass := .none }
    else { (s.runEnds lo).runStarts 0 with pass := .none }
  | .starts lo => { s.runStarts lo with pass := .none }

/-- R30: the Time Base advances, unless it stands at its end. Every block has handled an ms event before the
next one is raised (R129): what is left is handled first, by the Meter Unit, the Line Prover and the
Scheduler in this order (log 10). -/
def State.advanceTime (s : State) : State :=
  if s.now = BitVec.allOnes 40 then s
  else
    let t := s.meterHandle.proverHandle.schedulerHandle
    { t with now := t.now + 1, meterDue := true, proverDue := true, pass := .ends 0 }

/-- One part of the ms event. -/
def State.msPart (s : State) : MsPart → State
  | .advance => s.advanceTime
  | .meter => s.meterHandle
  | .prover => s.proverHandle
  | .scheduler => s.schedulerHandle

/-- R43, R38: the Scheduler's next end of the ms event it is handling, if one is due. -/
def State.nextEnd (s : State) : Option RowId :=
  match s.pass with
  | .ends lo =>
    if s.fabric = .halted then none else State.findRow fun r => decide (lo ≤ r.val) && s.endDue r
  | _ => none

/-- R41, R38: the Scheduler's next go-live of the ms event it is handling, if one is due: after the ends,
in RUNNING. -/
def State.nextStart (s : State) : Option RowId :=
  if s.fabric = .running then
    match s.pass with
    | .none => none
    | .ends _ => if s.nextEnd = none then State.findRow fun r => s.startDue r else none
    | .starts lo => State.findRow fun r => decide (lo ≤ r.val) && s.startDue r
  else none

end Sys2Proof.Machine
end

