-- ==== Sys2Proof/Machine/Supervisor.lean ====
section
/-! DEFINITION. The Span Supervisor (chapter 4): alignment, counts, error window, status filter, the link
step, the outage capture, the eight steps of a cycle event, transmission, and P0 (R51 to R53). -/

namespace Sys2Proof.Machine

/-! Alignment (R73) -/

/-- The receiver is aligned. -/
def Receiver.isAligned : Receiver → Bool
  | .aligned _ _ => true
  | .searching _ _ => false

/-- The aligned offset, if there is one. -/
def Receiver.offset : Receiver → Option Nat
  | .aligned o _ => some o
  | .searching _ _ => none

/-- R73: a searching receiver takes the first marker of the interval, if there is one. -/
def Receiver.search (candidate : Option Nat) (run : Nat) (first : Option Nat) : Receiver :=
  match first with
  | none => .searching none 0
  | some o =>
    if candidate = some o then
      if run + 1 = 3 then .aligned o 0 else .searching (some o) (run + 1)
    else .searching (some o) 1

/-- R73, step 1 of R77: the receiver after the interval, the last offset, and the interval's class (R71). -/
def Port.receive (o : Port) (iv : Interval) : Receiver × Option Nat × IntervalClass :=
  match o.receiver with
  | .searching candidate run => (Receiver.search candidate run iv.markers.head?, o.lastOffset, .nothing)
  | .aligned off missRun =>
    if off ∈ iv.markers then (.aligned off 0, o.lastOffset, classOfCycle iv.cycle)
    else if missRun + 1 = 4 then (.searching none 0, some off, .missing)
    else (.aligned off (missRun + 1), o.lastOffset, .missing)

/-! Counts and error window (R83, R84, R86) -/

/-- R86: a new window. -/
def ErrorWindow.fresh : ErrorWindow := ⟨0, 0, false⟩

/-- R86: the window counts an interval. -/
def ErrorWindow.count1 (w : ErrorWindow) (fails masked : Bool) : ErrorWindow :=
  ⟨w.position + 1, if fails then w.count + 1 else w.count, w.masked || masked⟩

/-- R83: this interval grows the near-end count. -/
def Port.nearCounts (o : Port) (cls : IntervalClass) : Bool :=
  o.link.inService && cls.fails && (!o.channel.corrupt || o.cfg.countDuringCheck)

/-- R84: this interval grows the far-end count. -/
def Port.farCounts (o : Port) (cls : IntervalClass) (c : LineCycle) : Bool :=
  o.link.inService && cls == .good && fbeOf c

/-- Step 2 of R77. -/
def Port.countInterval (o : Port) (cls : IntervalClass) (c : LineCycle) : Port :=
  { o with
    nearEnd := if o.nearCounts cls then satInc o.nearEnd else o.nearEnd
    farEnd := if o.farCounts cls c then satInc o.farEnd else o.farEnd
    window := o.window.map fun w => w.count1 cls.fails o.channel.corrupt }

/-! Status filter (R80) -/

/-- R80: a filtered bit after a GOOD cycle that shows `b`, with the look count in force. -/
def Filtered.take (f : Filtered) (b : Bool) (look : Nat) : Filtered :=
  if b = f.value then ⟨f.value, 0⟩
  else if look ≤ f.run + 1 then ⟨b, 0⟩
  else ⟨f.value, f.run + 1⟩

/-- R80: the run cleared. -/
def Filtered.clearRun (f : Filtered) : Filtered := ⟨f.value, 0⟩

/-- R80: the look count in force. -/
def Port.look (o : Port) : Nat := if o.cfg.oneLook then 1 else 3

/-- Step 3 of R77. -/
def Port.filterStatus (o : Port) (cls : IntervalClass) (c : LineCycle) : Port :=
  if cls = .good then
    { o with
      rdy := o.rdy.take (rdyOf c) o.look, backup := o.backup.take (backupOf c) o.look
      inputLoss := o.inputLoss.take (inputLossOf c) o.look }
  else { o with rdy := o.rdy.clearRun, backup := o.backup.clearRun, inputLoss := o.inputLoss.clearRun }

/-- Steps 1 to 3 of R77 on the port. -/
def Port.takeInterval (o : Port) (iv : Interval) : Port :=
  let x := o.receive iv
  let y := (o.countInterval x.2.2 iv.cycle).filterStatus x.2.2 iv.cycle
  { y with receiver := x.1, lastOffset := x.2.1, lastClass := some x.2.2 }

/-! The link step (R75, R76, R77 step 4, R87) -/

/-- R87: the error window declares; the link is judged by the caller. -/
def Port.declares (o : Port) : Bool :=
  match o.window with
  | some w => decide (1 ≤ o.cfg.threshold.toNat ∧ o.cfg.threshold.toNat ≤ w.count) && !w.masked
  | none => false

/-- R75: a running timer expires at the cycle event that brings its count to its length. -/
def timerExpires (t : Option Nat) (length : Nat) : Bool :=
  match t with
  | some n => decide (length ≤ n + 1)
  | none => false

/-- R76, R77 step 4: the first condition of the present state that holds. -/
def Port.linkDecision (o : Port) (gained lost : Bool) : Option (LinkState × Cause) :=
  match o.link with
  | .off => none
  | .acquire => if gained then some (.awaitReady, .alignmentGained) else none
  | .awaitReady =>
    if o.rdy.value then some (.up, .remoteReady)
    else if lost then some (.acquire, .alignmentLost)
    else if timerExpires o.tReady Config.tReadyLength then some (.acquire, .readyTimeout)
    else none
  | .up =>
    if o.declares then some (.down, .errors)
    else if !o.rdy.value then some (.down, .remoteNotReady)
    else if lost then some (.suspect, .alignmentLost)
    else none
  | .suspect =>
    if gained then some (.up, .alignmentGained)
    else if timerExpires o.tHold Config.tHoldLength then some (.down, .alignmentLost)
    else none
  | .down => if gained then some (.restore, .alignmentGained) else none
  | .restore =>
    if lost then some (.down, .alignmentLost)
    else if o.declares then some (.down, .errors)
    else if o.tRestore.isSome && !o.rdy.value then some (.down, .remoteNotReady)
    else if timerExpires o.tRestore Config.tRestoreLength then some (.up, .guardExpired)
    else if o.tRestore.isNone && !o.rdy.value && timerExpires o.tReady Config.tReadyLength then
      some (.down, .remoteNotReady)
    else none

/-- R77 step 4 without a transition: the running timer advances, or T_restore starts (R75). -/
def Port.advanceTimers (o : Port) : Port :=
  match o.link with
  | .awaitReady => { o with tReady := o.tReady.map (· + 1) }
  | .suspect => { o with tHold := o.tHold.map (· + 1) }
  | .restore =>
    match o.tRestore with
    | some n => { o with tRestore := some (n + 1) }
    | none =>
      if o.rdy.value then { o with tRestore := some 0, tReady := none }
      else { o with tReady := o.tReady.map (· + 1) }
  | _ => o

/-- The DOWN reason of a cause (R76). -/
def Cause.downReason : Cause → DownReason
  | .alignmentLost => .alignmentLost
  | .remoteNotReady => .remoteNotReady
  | .errors => .errors
  | _ => .none

/-- R78: entering OFF, ACQUIRE or DOWN restarts the search and clears the filtered and reported status. -/
def Port.restartSearch (o : Port) : Port :=
  { o with
    receiver := .searching none 0, lastOffset := none, rdy := ⟨false, 0⟩, backup := ⟨false, 0⟩
    inputLoss := ⟨false, 0⟩, repBackup := false, repInputLoss := false }

/-- R78: entering a state other than UP or SUSPECT zeroes the four values. -/
def Port.zeroCounts (o : Port) : Port := { o with nearEnd := 0, farEnd := 0, hits := 0, slip := false }

/-- R79: a return from SUSPECT to UP counts a hit, and a slip when the offset has moved. -/
def Port.countHit (o : Port) : Port :=
  { o with hits := satInc o.hits, slip := o.slip || o.receiver.offset != o.lastOffset }

/-- R75, R78: the timers that run in the state entered. -/
def Port.startTimers (o : Port) (dest : LinkState) : Port :=
  { o with
    link := dest
    tReady := if dest = .awaitReady ∨ dest = .restore then some 0 else none
    tHold := if dest = .suspect then some 0 else none
    tRestore := none }

/-- R78: the effects of entering a state. -/
def Port.enter (o : Port) (dest : LinkState) (cause : Cause) : Port :=
  match dest with
  | .off => { ((o.restartSearch).zeroCounts).startTimers dest with window := none }
  | .acquire => { ((o.restartSearch).zeroCounts).startTimers dest with window := none }
  | .awaitReady => { (o.zeroCounts).startTimers dest with window := none }
  | .up =>
    if o.link = .suspect then (o.countHit).startTimers dest
    else if o.link = .awaitReady then { o.startTimers dest with window := some ErrorWindow.fresh }
    else o.startTimers dest
  | .suspect => o.startTimers dest
  | .down =>
    { ((o.restartSearch).zeroCounts).startTimers dest with window := none, lastDown := cause.downReason }
  | .restore => { (o.zeroCounts).startTimers dest with window := some ErrorWindow.fresh }

/-- R76, R78: one transition of a port's link; LINK_STATE is handed. -/
def State.transition (s : State) (p : PortId) (dest : LinkState) (cause : Cause) : State :=
  (s.setPort p ((s.port p).enter dest cause)).handNotice .linkState p.val dest.code
    (BitVec.ofNat 32 (s.port p).link.code) (BitVec.ofNat 32 cause.code)

/-- Step 4 of R77. -/
def State.linkStep (s : State) (p : PortId) (gained lost : Bool) : State :=
  match (s.port p).linkDecision gained lost with
  | some (dest, cause) => s.transition p dest cause
  | none => s.setPort p (s.port p).advanceTimers

/-- R86: a window whose position has reached 500 closes after the link step, and a new one opens. -/
def Port.closeWindow (o : Port) : Port :=
  { o with window := o.window.map fun w => if Config.windowLength ≤ w.position then ErrorWindow.fresh else w }

/-! Outage capture (R89, R90) -/

/-- R90: the capture takes the transition of its port's link from `old` to the link as it stands. -/
def State.captureStep (s : State) (p : PortId) (old : LinkState) : State :=
  let o := s.port p
  if o.link = old then s
  else if o.link = .up then
    if o.capture.state = .waitUp then s.setPort p { o with capture := { o.capture with state := .armed } }
    else if o.capture.state = .timing then
      let d := captureSpan s.now o.capture.start
      (s.setPort p { o with capture := { o.capture with state := .done, duration := d } }).handNotice
        .captureDone p.val 0 (timeLow o.capture.start) d
    else s
  else if o.link = .down ∧ o.capture.state = .armed then
    s.setPort p { o with capture := { o.capture with state := .timing, start := s.now } }
  else if o.link = .off then s.setPort p { o with capture := { o.capture with state := .idle } }
  else s

/-- R89: ARM is taken, by the link state at its effect event. -/
def State.takeArm (s : State) (p : PortId) : State :=
  let o := s.port p
  s.setPort p { o with capture := ⟨if o.link.inService then .armed else .waitUp, 0, 0⟩ }

/-- R89: DISARM is taken. -/
def State.takeDisarm (s : State) (p : PortId) : State :=
  let o := s.port p
  s.setPort p { o with capture := { o.capture with state := .idle } }

/-! The cycle event (R77) -/

/-- R109: the link left UP or SUSPECT for DOWN in this event (step 5 of R77). -/
def State.lossStep (s : State) (p : PortId) (old : LinkState) : State :=
  if old.inService ∧ (s.port p).link = .down then s.linkLoss p else s

/-- The reported status pair as a number: BACKUP_POWER in bit 0, INPUT_LOSS in bit 1 (11.7). -/
def statusPair (backup inputLoss : Bool) : Nat := backup.toNat + 2 * inputLoss.toNat

/-- R81, step 6 of R77. -/
def State.reportStatus (s : State) (p : PortId) : State :=
  let o := s.port p
  if o.link.inService = true ∧ (o.backup.value ≠ o.repBackup ∨ o.inputLoss.value ≠ o.repInputLoss) then
    (s.setPort p { o with repBackup := o.backup.value, repInputLoss := o.inputLoss.value }).handNotice
      .remoteStatus p.val (statusPair o.backup.value o.inputLoss.value)
      (BitVec.ofNat 32 (statusPair o.repBackup o.repInputLoss)) 0
  else s

/-- Step 7 of R77: the receive slots, the Maintenance Channel and the Line Prover take the content. -/
def State.handContent (s : State) (p : PortId) (cls : IntervalClass) (c : LineCycle) : State :=
  let t := s.setPort p { s.port p with rx := if cls.received then c.payload else idlePayload }
  (t.channelContent p cls c).proverContent p cls c

/-- R82, step 8 of R77: a change of carrying is handed; otherwise a change of filtered INPUT_LOSS. -/
def State.carryStep (s : State) (p : PortId) (oldInputLoss : Bool) : State :=
  if s.mayCarry p ≠ (s.port p).carrying then s.recompose p
  else if (s.port p).inputLoss.value ≠ oldInputLoss then s.reevaluateInput p
  else s

/-- Steps 4 to 8 of R77 for an interval of class `cls`, on a state whose port has taken steps 1 to 3. -/
def State.afterFilter (s : State) (p : PortId) (old : Port) (cls : IntervalClass) (c : LineCycle) : State :=
  let now := s.port p
  let gained := !old.receiver.isAligned && now.receiver.isAligned
  let lost := old.receiver.isAligned && !now.receiver.isAligned
  let t := s.linkStep p gained lost
  let u := t.setPort p (t.port p).closeWindow
  ((((u.captureStep p old.link).lossStep p old.link).reportStatus p).handContent p cls c).carryStep p
    old.inputLoss.value

/-- R77: the Span Supervisor handles a cycle event of port `p`; a port in OFF raises none (R71). -/
def State.cycleEvent (s : State) (p : PortId) (iv : Interval) : State :=
  let o := s.port p
  if o.link = .off then s
  else (s.setPort p (o.takeInterval iv)).afterFilter p o (o.receive iv).2.2 iv.cycle

/-! Transmission (R70, R72, R108, R116) -/

/-- RDY of a transmitted cycle (R70, R74). -/
def LinkState.sendsReady : LinkState → Bool
  | .awaitReady => true
  | .restore => true
  | .up => true
  | .suspect => true
  | _ => false

/-- FBE of a transmitted cycle (R72). -/
def Port.sendsFbe (o : Port) : Bool :=
  match o.lastClass with
  | some cls => cls.fails
  | none => false

/-- R70: the cycle that port `p` sends with a given payload. -/
def Port.compose (o : Port) (payload : Payload) : LineCycle :=
  let overhead := overheadOf o.link.sendsReady false false o.sendsFbe o.channel.field.1
  let check := cycleCheck payload overhead
  ⟨payload, overhead, if o.channel.hubCorrupting then ~~~check else check⟩

/-- R70, R100: the port after it has sent a cycle with a given payload. -/
def Port.sent (o : Port) (payload : Payload) : Port :=
  { o with
    lane := some (o.compose payload)
    channel := { o.channel with sent := if o.channel.field.2 then o.channel.sent + 1 else o.channel.sent } }

/-- R57, R58, R116: the payload that port `p` sends: the pattern while the Line Prover claims the port. -/
def State.payloadFor (s : State) (p : PortId) : Payload :=
  if s.claimed == some p then patternPayload s.prover.generator else s.crossPayload p

/-- R116: the generator after port `p` has sent a cycle. -/
def State.proverAfterSend (s : State) (p : PortId) : Prover :=
  if s.claimed == some p then { s.prover with generator := patternAdvance Config.cycleBits s.prover.generator }
  else s.prover

/-- R70: an enabled port composes and sends one cycle; a port in OFF sends nothing. -/
def State.transmit (s : State) (p : PortId) : State :=
  if (s.port p).link = .off then s
  else { s.setPort p ((s.port p).sent (s.payloadFor p)) with prover := s.proverAfterSend p }

/-! P0 (R51 to R53, R92, R93) -/

/-- R51: a P0 write of `v` to port `p` is acceptable. -/
def State.configOk (s : State) (p : PortId) (v : Word) : Bool :=
  let old := (s.port p).cfg
  let new := configOf v
  let l := s.logical p
  p0SpareClear v
    && !(isOdd p && new.pairMode)
    && !(old.enable && !new.enable && (s.bookedUses l || s.inPair p))
    && !(!isOdd p && new.pairMode != old.pairMode
      && (s.bookedNames p || s.bookedNames (oddPort (pairOf p)) || !s.actionQueue.isEmpty
        || s.claimed == some p || s.claimed == some (oddPort (pairOf p))))
    && !(!isOdd p && new.pairMode && !old.pairMode
      && (!new.enable || !(s.port (oddPort (pairOf p))).cfg.enable))

/-- R92: enable from 0 to 1. -/
def State.enablePort (s : State) (p : PortId) : State := s.transition p .acquire .enabled

/-- R93: enable from 1 to 0. -/
def State.disablePort (s : State) (p : PortId) : State :=
  let o := s.port p
  let old := o.link
  let t := s.setPort p { o with rx := idlePayload, lane := none, lastClass := none }
  (((((t.transition p .off .disabled).captureStep p old).linkLoss p).proverDisable p).recompose p)

/-- R53: pair mode of the pair of `p` turned on. -/
def State.pairOn (s : State) (p : PortId) : State :=
  ({ s with active := s.active.set (pairOf p) .even } : State).selectReceive (pairOf p)

/-- R53: pair mode of the pair of `p` turned off. -/
def State.pairOff (s : State) (p : PortId) : State := { s with active := s.active.set (pairOf p) .even }

/-- The configuration items other than pair mode and enable take effect in place. -/
def State.setConfig (s : State) (p : PortId) (c : PortConfig) : State := s.setPort p { s.port p with cfg := c }

/-- R50, R52: the fields of a P0 write are captured and its changes are taken in the order of the list of R52. -/
def State.applyConfig (s : State) (p : PortId) (v : Word) : State :=
  let old := (s.port p).cfg
  let new := configOf v
  let t := s.setConfig p { new with pairMode := old.pairMode }
  let u :=
    if !old.enable && new.enable then t.enablePort p
    else if old.enable && !new.enable then t.disablePort p
    else t
  if new.pairMode = old.pairMode then u
  else
    let w := u.setConfig p { (u.port p).cfg with pairMode := new.pairMode }
    if new.pairMode then w.pairOn p else w.pairOff p

/-- R50: an accepted P0 write; one that is not acceptable never gets here and would change nothing. -/
def State.takeConfig (s : State) (p : PortId) (v : Word) : State :=
  if s.configOk p v then s.applyConfig p v else s

/-! SELECT (R64) -/

/-- The member that a SELECT value names. -/
def memberOf (v : Word) : Option Member := if v = 0 then some .even else if v = 1 then some .odd else none

/-- R64: a P12 write of `v` to port `p` is acceptable. -/
def State.selectOk (s : State) (p : PortId) (v : Word) : Bool :=
  match memberOf v with
  | some m => !isOdd p && s.inPair p && (s.port (memberPort (pairOf p) m)).carrying
  | none => false

/-- R163, R64: SELECT is taken against the state at its effect event. -/
def State.takeSelect (s : State) (p : PortId) (v : Word) : State :=
  match memberOf v with
  | some m =>
    if s.inPair p = true ∧ s.active[pairOf p] ≠ m ∧ (s.port (memberPort (pairOf p) m)).carrying = true then
      (s.switchover (pairOf p) m .select).reevaluateSourced (evenPort (pairOf p))
    else s
  | none => s

end Sys2Proof.Machine
end

