-- ==== Sys2Proof/Machine/Admission.lean ====
section
/-! DEFINITION. The Admission Unit (chapter 1): the checks of POST, AMEND and CANCEL, and their execution. -/

namespace Sys2Proof.Machine

/-! Checks (R19 to R22) -/

/-- A spare bit of W2, W3, W5 or W7 is 1 (R2, 11.5). -/
def spareSet (w : Vector Word 8) : Bool :=
  (w[2]).extractLsb' 5 3 != 0 || (w[2]).extractLsb' 14 2 != 0 || (w[2]).extractLsb' 17 15 != 0
    || (w[3]).extractLsb' 23 9 != 0 || (w[5]).extractLsb' 8 24 != 0 || (w[7]).extractLsb' 8 24 != 0

/-- R19: the booking is MALFORMED. -/
def State.malformed (s : State) (w : Vector Word 8) : Bool :=
  spareSet w
    || slotCount w == 0 || decide (8 < slotCount w)
    || destCount w == 0 || decide (4 < destCount w)
    || ((destFields w).drop (destCount w)).any (· != 0)
    || decide (23 < sourceField w) || ((destFields w).take (destCount w)).any (fun d => decide (23 < d))
    || !decide ((namedPorts w).map s.logical).Nodup
    || decide ((bookedEnd w).toNat ≤ (bookedStart w).toNat)
    || decide (Config.longestBooking < (bookedEnd w).toNat - (bookedStart w).toNat)

/-- R20: the booking is BAD_PORT. -/
def State.badPort (s : State) (w : Vector Word 8) : Bool :=
  (namedPorts w).any fun p => !(s.port p).cfg.enable || (isOdd p && s.inPair p)

/-- R21: the booking is TOO_LATE. -/
def State.postTooLate (s : State) (w : Vector Word 8) : Bool :=
  decide ((bookedEnd w).toNat ≤ s.now.toNat)
    || (decide ((bookedStart w).toNat < s.now.toNat) && !lateOk w)

/-- R22: the start of a row's window: the booked start while HELD, the actual start while LIVE. -/
def Row.windowStart (x : Row) : Nat :=
  if x.state = .live then x.actualStart.toNat else (bookedStart x.captured).toNat

/-- R22: the row is counted against the window [lo, hi): HELD or LIVE, with a window that overlaps it. The window of an
overdue row lies before now and overlaps none that begins at now or later (R39); one that begins before now, as with
LATE_OK, can overlap it, and the row is then counted as any HELD row: DEDUCED (log 33). -/
def Row.overlaps (x : Row) (lo hi : Nat) : Bool :=
  x.isBooked && decide (x.windowStart < hi) && decide (lo < x.currentEnd.toNat)

/-- R22: slots of the rows other than `r` that satisfy `uses` and overlap [lo, hi). -/
def State.slotsKept (s : State) (r : RowId) (uses : Row → Bool) (lo hi : Nat) : Nat :=
  ((List.finRange 256).map fun q =>
    if q ≠ r ∧ uses (s.row q) = true ∧ (s.row q).overlaps lo hi = true then slotCount (s.row q).captured
    else 0).sum

/-- R22: the capacity check of booking `w` of row `r` over [lo, hi), on every logical port it uses. -/
def State.capacityOk (s : State) (r : RowId) (w : Vector Word 8) (lo hi : Nat) : Bool :=
  decide (s.slotsKept r (fun x => s.usesRx x.captured (s.logical (sourcePort w))) lo hi + slotCount w
      ≤ Config.slotsPerPort)
    && (destPorts w).all fun d =>
      decide (s.slotsKept r (fun x => s.usesTx x.captured (s.logical d)) lo hi + slotCount w
        ≤ Config.slotsPerPort)

/-- R19 to R22: the result of a POST of row `r` with booking `w`; the first failing class decides. -/
def State.postResult (s : State) (r : RowId) (w : Vector Word 8) : LastResult :=
  if s.malformed w then .malformed
  else if s.badPort w then .badPort
  else if s.postTooLate w then .tooLate
  else if s.capacityOk r w (bookedStart w).toNat (bookedEnd w).toNat then .ok
  else .noCapacity

/-! AMEND (R24, R25) -/

/-- R25: the end that the amend staging proposes. -/
def Row.proposedEnd (x : Row) : Time := timeOf x.stageLow x.stageHigh

/-- R25: the checks of an AMEND whose window begins at `lo`; `early` is the further MALFORMED case of a HELD
amend. -/
def State.amendChecks (s : State) (r : RowId) (lo : Nat) (early : Bool) : LastResult :=
  let x := s.row r
  let e := x.proposedEnd
  if x.stageHigh.extractLsb' 8 24 ≠ 0 then .malformed
  else if early = true ∨ Config.longestBooking < e.toNat - lo then .malformed
  else if e.toNat ≤ s.now.toNat then .tooLate
  else if x.currentEnd.toNat < e.toNat ∧ s.capacityOk r x.captured lo e.toNat = false then .noCapacity
  else .ok

/-- R24, R25: the result of an AMEND. A row in EMPTY or POSTING and a LIVE row in HALTED cannot be met
(R7, R24); they answer as an ENDED row and as in STOPPING (log 19). -/
def State.amendResult (s : State) (r : RowId) : LastResult :=
  let x := s.row r
  match x.state with
  | .held =>
    let start := (bookedStart x.captured).toNat
    s.amendChecks r start (decide (x.proposedEnd.toNat ≤ start))
  | .live => if s.fabric = .running then s.amendChecks r x.actualStart.toNat false else .wrongState
  | .empty => .tooLate
  | .posting => .tooLate
  | .ended => .tooLate

/-! Execution -/

/-- R23: the ACTION_RESULT of an executed action, from the row as it was left. -/
def State.actionResult (s : State) (r : RowId) (a : Action) : State :=
  let x := s.row r
  s.handNotice .actionResult r.val x.lastResult.code (place 0 a.code ||| place 8 x.state.code)
    (if x.state = .empty then 0 else timeLow x.currentEnd)

/-- The executed entry leaves the Action Queue and the unit is IDLE (R17). -/
def State.entryDone (s : State) : State := { s with actionQueue := s.actionQueue.tail, admission := .idle }

/-- R17, R18: a POST at the head is begun when the unit is IDLE; its row read is issued. -/
def State.beginPost (s : State) : State :=
  match s.admission, s.actionQueue with
  | .idle, ⟨r, .post⟩ :: _ => ({ s with admission := .reading r } : State).offer .admission (.rowRead r)
  | _, _ => s

/-- R18: the row with the captured copy and the amend staging of the words read. -/
def Row.load (x : Row) (ws : Vector Word 16) : Row :=
  { x with
    captured := #v[ws[0], ws[1], ws[2], ws[3], ws[4], ws[5], ws[6], ws[7]], stageLow := ws[8], stageHigh := ws[9] }

/-- R23: the row after its POST is judged. -/
def Row.posted (x : Row) (result : LastResult) : Row :=
  if result = .ok then { x with state := .held, currentEnd := bookedEnd x.captured, lastResult := .ok }
  else { x with state := .empty, lastResult := result }

/-- R18 to R23: the row read of a POST has completed with words `ws`. -/
def State.finishPost (s : State) (r : RowId) (ws : Vector Word 16) : State :=
  let x := (s.row r).load ws
  ((s.setRow r (x.posted (s.postResult r x.captured))).actionResult r .post).entryDone

/-- R25: the row after its AMEND. -/
def Row.amended (x : Row) (result : LastResult) : Row :=
  { x with
    inFlight := .none, lastResult := result
    currentEnd := if result = .ok then x.proposedEnd else x.currentEnd }

/-- R24, R25: an AMEND of row `r` executes. -/
def State.runAmend (s : State) (r : RowId) : State :=
  (((s.setRow r ((s.row r).amended (s.amendResult r))).actionResult r .amend).entryDone).settleStep

/-- The row's action is finished with a result (R26). -/
def Row.answered (x : Row) (result : LastResult) : Row := { x with inFlight := .none, lastResult := result }

/-- R26: what CANCEL does to the row before its result is recorded. -/
def State.cancelEffect (s : State) (r : RowId) : State :=
  match (s.row r).state with
  | .held => s.setRow r { s.row r with state := .empty }
  | .live => s.endLive r .cancelled
  | .empty => s
  | .posting => s
  | .ended => s

/-- R26: the result of a CANCEL; a row in EMPTY or POSTING cannot be met (R7, log 19). -/
def State.cancelResult (s : State) (r : RowId) : LastResult := if (s.row r).isBooked then .ok else .tooLate

/-- R26: a CANCEL of row `r` executes. -/
def State.runCancel (s : State) (r : RowId) : State :=
  let t := s.cancelEffect r
  (((t.setRow r ((t.row r).answered (s.cancelResult r))).actionResult r .cancel).entryDone).settleStep

end Sys2Proof.Machine
end

