-- ==== Sys2Proof/Machine/MemoryPath.lean ====
section
/-! DEFINITION. The Memory Path (chapter 9): the class of a word, the judgement of a transaction, captures,
forwarded runs, the effects of actions, answered reads, the response, and the M-side arbiter. -/

namespace Sys2Proof.Machine

/-! Judgement of one written word (R8, R10, R12 to R15, R32 to R34, R50, R51, R64, R85, R88, R89, R98, R113,
R114, R137, R148 to R150, R159, R173, R174) -/

/-- R173: entry `i` of the Notice Ring is unconsumed or in writing. -/
def NoticeWriter.protects (u : NoticeWriter) (i : Fin 512) : Bool :=
  decide ((i.val + 1024 - u.consume.toNat) % 512 < ringDist u.produce u.consume + u.inWriting.length)

/-- R174: a consume to `v` is acceptable. -/
def NoticeWriter.consumeOk (u : NoticeWriter) (v : Word) : Bool :=
  v.extractLsb' 10 22 == 0 && decide (ringDist (v.extractLsb' 0 10) u.consume ≤ ringDist u.produce u.consume)

/-- R33: the staged high word is one that SET_TIME takes. -/
def State.timeStaged (s : State) : Bool := s.setTimeHigh.extractLsb' 8 24 == 0

/-- R12: the Action Queue has room. -/
def State.queueRoom (s : State) : Bool := decide (s.actionQueue.length < Config.actionQueueMax)

/-- R12 to R15: a control write of `v` to row `r` is accepted. -/
def State.controlOk (s : State) (r : RowId) (v : Word) : Bool :=
  let x := s.row r
  if v = 1 then x.state == .empty && s.queueRoom
  else if v = 2 ∨ v = 3 then x.isBooked && x.inFlight == .none && s.queueRoom
  else if v = 4 then x.isLive && decide (x.meter.closed.length < Config.segmentMax)
  else false

/-- R8, R10: a write of `v` to word `i` of row `r` is accepted. -/
def State.rowWriteOk (s : State) (r : RowId) (i : Fin 16) (v : Word) : Bool :=
  let x := s.row r
  if i.val < 8 then x.state == .empty
  else if i.val < 10 then x.state == .empty || (x.isBooked && x.inFlight == .none)
  else if i.val < 12 then false
  else if i.val < 15 then true
  else s.controlOk r v

/-- The maintenance command of a P5 value (R98). -/
def commandOf (v : Word) : Option MaintCommand :=
  if v = 1 then some .loopAll else if v = 2 then some .corruptCheck else if v = 3 then some .normal else none

/-- R98: a P5 write is accepted. -/
def State.commandOk (s : State) (p : PortId) (v : Word) : Bool :=
  (commandOf v).isSome && (s.port p).cfg.enable && (s.port p).channel.outstanding.isNone

/-- R89: a P8 write is accepted. -/
def State.captureOk (s : State) (p : PortId) (v : Word) : Bool :=
  if v = 1 then (s.port p).capture.state == .idle || (s.port p).capture.state == .done else v == 2

/-- A write of `v` to an anchor word is accepted. -/
def State.anchorWriteOk (s : State) (a : Anchor) (v : Word) : Bool :=
  match a with
  | .a1 => (v == 1 && s.fabric == .halted) || (v == 2 && s.fabric == .running)
  | .a5 => true
  | .a6 => true
  | .a7 => s.fabric == .halted && s.timeStaged
  | .a9 => s.notice.consumeOk v
  | .a11 => s.settle.releaseOk v
  | .a16 => (v == 1 && s.attachOk) || (v == 2 && s.prover.running)
  | .a17 => !s.prover.running
  | .a18 => !s.prover.running
  | .a0 => false
  | .a2 => false
  | .a3 => false
  | .a4 => false
  | .a8 => false
  | .a10 => false
  | .a12 => false
  | .a19 => false
  | .a20 => false
  | .a21 => false
  | .a22 => false

/-- A write of `v` to a port word is accepted. -/
def State.portWriteOk (s : State) (p : PortId) (w : PortWord) (v : Word) : Bool :=
  match w with
  | .p0 => s.configOk p v
  | .p5 => s.commandOk p v
  | .p8 => s.captureOk p v
  | .p12 => s.selectOk p v
  | .p1 => false
  | .p2 => false
  | .p3 => false
  | .p4 => false
  | .p6 => false
  | .p7 => false
  | .p9 => false
  | .p10 => false
  | .p11 => false

/-- R159: a write of `v` to a word of the window is accepted. -/
def State.writeOk (s : State) (w : WinWord) (v : Word) : Bool :=
  match w with
  | .anchor a => s.anchorWriteOk a v
  | .port p w => s.portWriteOk p w v
  | .slot _ _ => false
  | .row r i => s.rowWriteOk r i v
  | .meter _ _ => false
  | .notice i => !s.notice.protects i
  | .ring i => !(s.settle.heldSlot i || s.settle.slotInWriting i)
  | .plain => true

/-- R159: an accepted write of the word is consumed as an action, and not forwarded. -/
def WinWord.isAction : WinWord → Bool
  | .anchor .a1 => true
  | .anchor .a7 => true
  | .anchor .a16 => true
  | .port _ .p5 => true
  | .port _ .p8 => true
  | .port _ .p12 => true
  | .row _ i => i == 15
  | _ => false

/-- R159, R160: a read of the word is answered by its owner. -/
def WinWord.isAnswered : WinWord → Bool
  | .anchor .a5 => false
  | .anchor .a6 => false
  | .anchor .a17 => false
  | .anchor .a18 => false
  | .anchor _ => true
  | .port _ .p0 => false
  | .port _ _ => true
  | .slot _ _ => true
  | .row _ i => i == 10 || i == 11 || i == 15
  | .meter _ _ => true
  | .notice _ => false
  | .ring _ => false
  | .plain => false

/-! Captures of GUARDED words (R161) -/

/-- R10: the amend staging of a HELD or LIVE row takes a written value; other writes of row words are not
captured. -/
def Row.captureWord (x : Row) (i : Fin 16) (v : Word) : Row :=
  if x.isBooked then
    if i = 8 then { x with stageLow := v } else if i = 9 then { x with stageHigh := v } else x
  else x

/-- R161: the owner's capture of a value written to a staging word; A17 and A18 are not accepted while a test
runs (R113). -/
def State.captureStaging (s : State) (w : WinWord) (v : Word) : State :=
  match w with
  | .anchor .a5 => { s with setTimeLow := v }
  | .anchor .a6 => { s with setTimeHigh := v }
  | .anchor .a17 => if s.prover.running then s else { s with prover := { s.prover with port := v } }
  | .anchor .a18 => if s.prover.running then s else { s with prover := { s.prover with duration := v } }
  | .row r i => s.setRow r ((s.row r).captureWord i v)
  | _ => s

/-- R174: an accepted consume write; one that is not acceptable never gets here and would change nothing. -/
def State.takeConsume (s : State) (v : Word) : State :=
  if s.notice.consumeOk v then
    { s with notice := { s.notice with consume := v.extractLsb' 0 10, overflow := false } }
  else s

/-- R161: the owner's capture of a value written to a GUARDED word. -/
def State.captureWord (s : State) (w : WinWord) (v : Word) : State :=
  match w with
  | .anchor .a9 => s.takeConsume v
  | .anchor .a11 => s.takeRelease v
  | .port p .p0 => s.takeConfig p v
  | _ => s.captureStaging w v

/-! Effects of actions (R162, R163) -/

/-- R13: the record of a row whose POST is accepted. -/
def Row.postAccepted (x : Row) : Row :=
  { x with
    state := .posting, lastResult := .none, late := false, endReason := .scheduled, currentEnd := 0
    actualStart := 0, actualEnd := 0, captured := Vector.replicate 8 0, hold := MeterHold.zero }

/-- R13, R16: POST is taken. -/
def State.takePost (s : State) (r : RowId) : State :=
  { s.setRow r (s.row r).postAccepted with actionQueue := s.actionQueue ++ [⟨r, .post⟩] }

/-- R14, R16: AMEND or CANCEL is taken. -/
def State.takeQueued (s : State) (r : RowId) (f : InFlight) (a : Action) : State :=
  { s.setRow r { s.row r with inFlight := f } with actionQueue := s.actionQueue ++ [⟨r, a⟩] }

/-- R163: a control action is taken against the row as it stands at the effect event. -/
def State.takeControl (s : State) (r : RowId) (v : Word) : State :=
  let x := s.row r
  if v = 1 then (if x.state = .empty then s.takePost r else s)
  else if v = 2 then (if x.isBooked then s.takeQueued r .amend .amend else s)
  else if v = 3 then (if x.isBooked then s.takeQueued r .cancel .cancel else s)
  else if v = 4 then (if x.isLive then s.setRow r x.markSegment else s)
  else s

/-- R34, R163: A1 is taken. -/
def State.takeFabric (s : State) (v : Word) : State :=
  if v = 1 ∧ s.fabric = .halted then s.takeStart
  else if v = 2 ∧ s.fabric = .running then s.takeStop
  else s

/-- R163: A16 is taken. -/
def State.takeProver (s : State) (v : Word) : State :=
  if v = 1 then (if s.attachOk then s.takeAttach else s) else if v = 2 then s.takeDetach else s

/-- R163: P5 is taken. -/
def State.takeMaint (s : State) (p : PortId) (v : Word) : State :=
  match commandOf v with
  | some c => s.takeCommand p c
  | none => s

/-- R89: P8 is taken. -/
def State.takeCapture (s : State) (p : PortId) (v : Word) : State :=
  if v = 1 then s.takeArm p else s.takeDisarm p

/-- R162, R163: an action is taken by its owner at the effect event. -/
def State.takeAction (s : State) (w : WinWord) (v : Word) : State :=
  match w with
  | .anchor .a1 => s.takeFabric v
  | .anchor .a7 => if s.fabric = .halted then s.takeSetTime else s
  | .anchor .a16 => s.takeProver v
  | .port p .p5 => s.takeMaint p v
  | .port p .p8 => s.takeCapture p v
  | .port p .p12 => s.takeSelect p v
  | .row r _ => s.takeControl r v
  | _ => s

/-- R162: the actions of a burst in ascending address order. -/
def State.takeActions (s : State) (actions : List (WinWord × Word)) : State :=
  actions.foldl (fun s a => s.takeAction a.1 a.2) s

/-! Answered reads (R159, R164) -/

/-- The value that an answered word's owner gives (R6, R31, R85, R88, R91, R97, R113, R138, R149, R168,
R174, R175); an ACTION word answers 0. -/
def State.answer (s : State) (w : WinWord) : Word :=
  match w with
  | .anchor .a0 => Config.identity
  | .anchor .a2 => s.fabricWord
  | .anchor .a3 => timeLow s.now
  | .anchor .a4 => s.timeHold.setWidth 32
  | .anchor .a8 => s.notice.produce.setWidth 32
  | .anchor .a9 => s.notice.consume.setWidth 32
  | .anchor .a10 => s.settle.append.setWidth 32
  | .anchor .a11 => s.settle.release.setWidth 32
  | .anchor .a12 => s.settle.nextSeq
  | .anchor .a19 => s.prover.word
  | .anchor .a20 => s.prover.errorBits
  | .anchor .a21 => s.prover.elapsed
  | .anchor .a22 => s.prover.lockedTime
  | .port p .p1 => s.linkWord p
  | .port p .p2 => (s.port p).nearEnd.setWidth 32
  | .port p .p3 => (s.port p).farEnd.setWidth 32
  | .port p .p4 => (s.port p).hitWord
  | .port p .p6 => (s.port p).channel.word
  | .port p .p7 => (s.port p).channel.lastReport.setWidth 32
  | .port p .p9 => BitVec.ofNat 32 (s.port p).capture.state.code
  | .port p .p10 => timeLow (s.port p).capture.start
  | .port p .p11 => (s.port p).capture.durationWord s.now
  | .slot p i => s.slotWord p i
  | .row r i => if i = 10 then (s.row r).statusWord else if i = 11 then (s.row r).endWord else 0
  | .meter r i => if i = 0 then (s.row r).shownMeter.carriage else (s.row r).hold.word i
  | _ => 0

/-- What answering a clearing or snapshot word does in the same event (R31, R85, R138). -/
def State.answerEffect (s : State) (w : WinWord) : State :=
  match w with
  | .anchor .a3 => { s with timeHold := s.now.extractLsb' 32 8 }
  | .port p .p2 => s.setPort p { s.port p with nearEnd := 0 }
  | .port p .p3 => s.setPort p { s.port p with farEnd := 0 }
  | .port p .p4 => s.setPort p { s.port p with hits := 0, slip := false }
  | .meter r i => if i = 0 then s.setRow r (s.row r).fillHold else s
  | _ => s

/-! The transaction as a whole (R157, R158, R161, R162, R164) -/

/-- The byte addresses of `n` words from `a`. -/
def spanFrom (a : Nat) : Nat → List Nat
  | 0 => []
  | n + 1 => a :: spanFrom (a + 4) n

/-- The byte addresses of a transaction's span. -/
def spanOf (t : Transaction) : List Nat := spanFrom t.addr.toNat t.length

/-- R157: the first and last words of the span lie in different 64-byte blocks. -/
def crosses (t : Transaction) : Bool :=
  decide (t.addr.toNat / 64 ≠ (t.addr.toNat + 4 * (t.length - 1)) / 64)

/-- R157: the written words of a write, with their addresses. -/
def writtenFrom (a : Nat) : List WriteWord → List (Nat × Word)
  | [] => []
  | w :: ws => if w.enable then (a, w.value) :: writtenFrom (a + 4) ws else writtenFrom (a + 4) ws

/-- R162: words grouped into runs of consecutive addresses, ascending. -/
def groupRuns : List (Nat × Word) → List (List (Nat × Word))
  | [] => []
  | x :: xs =>
    match groupRuns xs with
    | (y :: ys) :: rest => if y.1 = x.1 + 4 then (x :: y :: ys) :: rest else [x] :: (y :: ys) :: rest
    | rest => [x] :: rest

/-- R164: the pieces of a read of consecutive addresses inside the window. -/
def State.readPieces (s : State) : List Nat → List ReadPiece
  | [] => []
  | a :: rest =>
    if (s.wordAt a).isAnswered then .answer (s.wordAt a) :: s.readPieces rest
    else
      match s.readPieces rest with
      | .run b n :: more => if b = a + 4 then .run a (n + 1) :: more else .run a 1 :: .run b n :: more
      | more => .run a 1 :: more

/-- R33: a burst that carries both an A1 action and A7 is refused. -/
def hasFabricAndTime (ws : List (WinWord × Word)) : Bool :=
  ws.any (fun x => x.1 == .anchor .a1) && ws.any (fun x => x.1 == .anchor .a7)

/-- R161: every written word is accepted against the state before the burst, the staging words of the burst
standing at the values it writes. -/
def State.burstOk (s : State) (ws : List (WinWord × Word)) : Bool :=
  let staged := ws.foldl (fun s x => s.captureStaging x.1 x.2) s
  ws.all (fun x => staged.writeOk x.1 x.2) && !hasFabricAndTime ws

/-- The current P-side transaction stands at a phase. -/
def State.setPhase (s : State) (t : Transaction) (ph : PsidePhase) : State :=
  { s with path := { s.path with current := some ⟨t, ph⟩ } }

/-- R158 step 4, R166: the host is answered, M-side becomes free, and a waiting Outbound entry is granted. -/
def State.respond (s : State) (a : Response) : State :=
  { s with path := ({ s.path with current := none, response := some a } : Path).grantOutbound }

/-- R161, R162: the judgement of a write burst inside the window that writes `ws` (address and value). -/
def State.judgeBurst (s : State) (t : Transaction) (ws : List (Nat × Word)) : State :=
  let named := ws.map fun x => (s.wordAt x.1, x.2)
  if s.burstOk named then
    let u := named.foldl (fun s x => s.captureWord x.1 x.2) s
    let actions := named.filter fun x => x.1.isAction
    let runs := groupRuns (ws.filter fun x => !(s.wordAt x.1).isAction)
    if runs = [] then (u.takeActions actions).respond .done else u.setPhase t (.writing runs actions)
  else s.respond .refused

/-- R157, R158 step 2: the judgement of a write. A span that crosses, lies half outside the window and writes
nothing inside it is forwarded (log 18). -/
def State.judgeWrite (s : State) (t : Transaction) (ws : List WriteWord) : State :=
  let written := writtenFrom t.addr.toNat ws
  if (spanOf t).all (fun a => !s.inWindow a) then s.setPhase t (.writing [written] [])
  else if crosses t then
    if written.any (fun x => s.inWindow x.1) then s.respond .refused
    else if (spanOf t).all s.inWindow then s.respond .done
    else s.setPhase t (.writing [written] [])
  else if written = [] then s.respond .done
  else s.judgeBurst t written

/-- R157, R158 step 2, R164: the judgement of a read. -/
def State.judgeRead (s : State) (t : Transaction) : State :=
  if (spanOf t).all (fun a => !s.inWindow a) then s.setPhase t (.reading [] [.run t.addr.toNat t.length])
  else if crosses t then s.respond .refused
  else s.setPhase t (.reading [] (s.readPieces (spanOf t)))

/-- R158 step 2: the judgement of a transaction in the event of its grant. -/
def State.judge (s : State) (t : Transaction) : State :=
  match t with
  | .read _ _ => s.judgeRead t
  | .write _ ws => s.judgeWrite t ws

/-- R166: M-side is granted to the P-side transaction, which is judged in this event. -/
def State.grantPside (s : State) (t : Transaction) : State :=
  ({ s with path := { s.path with mside := .pside, lastGrant := .pside } } : State).judge t

/-- R166: free M-side is granted to the requester that waits, or, where both wait, to the one that was not
granted last. -/
def State.arbitrate (s : State) : State :=
  if s.path.mside = .free then
    match s.path.current with
    | some ⟨t, .arrived⟩ =>
      if s.path.outbound = [] ∨ s.path.lastGrant = .outbound then s.grantPside t
      else { s with path := s.path.grantOutbound }
    | _ => { s with path := s.path.grantOutbound }
  else s

/-- R158 step 1: a transaction arrives on P-side and asks for M-side. -/
def State.arrive (s : State) (t : Transaction) : State := (s.setPhase t .arrived).arbitrate

/-- R158: the host issues a transaction, which it does only when it has the response to the one before
(log 5). -/
def State.hostIssue (s : State) (t : Transaction) : State := if s.path.current.isSome then s else s.arrive t

/-- R164: the next piece of a read has been dealt with. -/
def State.readOn (s : State) (t : Transaction) (got : List Word) (pieces : List ReadPiece) : State :=
  if pieces = [] then s.respond (.data got) else s.setPhase t (.reading got pieces)

/-- R158 step 3, R162, R164: the next part of the granted transaction's work is done: the M-side run in
progress completes, or the next answered word is answered (log 7). After the last run of a write its actions
take effect; after the last part the host is answered. -/
def State.progress (s : State) : State :=
  match s.path.mside, s.path.current with
  | .pside, some ⟨t, .writing (run :: runs) actions⟩ =>
    let u : State := { s with mem := s.mem.writeRun run }
    if runs = [] then (u.takeActions actions).respond .done else u.setPhase t (.writing runs actions)
  | .pside, some ⟨t, .reading got (.run a n :: pieces)⟩ => s.readOn t (got ++ s.mem.readWords a n) pieces
  | .pside, some ⟨t, .reading got (.answer w :: pieces)⟩ =>
    (s.answerEffect w).readOn t (got ++ [s.answer w]) pieces
  | _, _ => s

/-- The host's read of one answered word: when it is granted at its arrival, it is answered in the same
command (log 7). -/
def State.hostReadOne (s : State) (off : Nat) : State :=
  if s.path.current.isSome then s else (s.arrive (s.readOne off)).progress

/-! Completions of the part's own transactions (R165, R166) -/

/-- The Outbound entry in progress at M-side. -/
def State.inProgress (s : State) : Option OutEntry :=
  if s.path.mside = .outbound then s.path.outbound.head? else none

/-- R165: the head entry completes: memory takes it, it leaves the queue, and the longest-waiting producer's
transaction joins. M-side is still held. The place is filled before the producer that is told of the completion
hands anything in the same event: DESIGN CHOICE (log 34). -/
def State.completeHead (s : State) (e : OutEntry) : State :=
  { s with mem := e.apply s.base s.mem, path := s.path.leave }

/-- R166: M-side becomes free and is granted in the same event. -/
def State.freeMside (s : State) : State := ({ s with path := { s.path with mside := .free } } : State).arbitrate

/-- R172: the notice at the head of the list is in memory. -/
def NoticeWriter.produced (u : NoticeWriter) : NoticeWriter :=
  match u.inWriting with
  | [] => u
  | _ :: rest => { u with inWriting := rest, produce := u.produce + 1 }

/-- R172: the Notice Writer takes the completion of its head notice's write. -/
def State.noticeProduced (s : State) : State := { s with notice := s.notice.produced }

/-- R18: the words W0 to W15 of row `r` in memory. -/
def State.rowWords (s : State) (r : RowId) : Vector Word 16 :=
  vecOf fun i => s.mem.readWord (s.base + rowOffset r i)

/-- R169: what a transaction in progress at M-side does to memory when RESET_N goes low. -/
def State.memAtReset (s : State) : Memory :=
  match s.path.mside, s.path.current, s.path.outbound with
  | .pside, some ⟨_, .writing (run :: _) _⟩, _ => s.mem.writeRun run
  | .outbound, _, e :: _ => e.apply s.base s.mem
  | _, _, _ => s.mem

end Sys2Proof.Machine
end

