-- ==== Sys2Proof/Machine/BlockCommands.lean ====
section
/-! DEFINITION. The meanings of the commands by which the part's own blocks act: the arbiter and M-side, the
Admission Unit, the Scheduler, the Line Prover, the Notice Writer and the Settlement Unit. An event that is not
due leaves the state as it is (log 12). -/

namespace Sys2Proof.Machine

/-! M-side -/

/-- MSIDE_GRANT (R166): free M-side is granted to a requester that waits (log 8). -/
def execMsideGrant (s : State) : Host.Outcome State Fault Refusal := .next s.arbitrate

/-- FORWARD_COMPLETE (R158, R162, R164): the current host transaction's next part of work is done (log 7). -/
def execForwardComplete (s : State) : Host.Outcome State Fault Refusal := .next s.progress

/-! Admission Unit -/

/-- POST_BEGIN (R17, R18). -/
def execPostBegin (s : State) : Host.Outcome State Fault Refusal := .next s.beginPost

/-- R17, R18: a completed row read is handed over, the POST is judged, and M-side becomes free. The place that it
frees is filled before ACTION_RESULT is handed: DESIGN CHOICE (log 34). -/
def State.rowReadDone (s : State) : State :=
  match s.inProgress with
  | some (.rowRead r) => ((s.completeHead (.rowRead r)).finishPost r (s.rowWords r)).freeMside
  | _ => s

/-- ADMISSION_ROW_READ_DONE (R18 to R23). -/
def execAdmissionRowReadDone (s : State) : Host.Outcome State Fault Refusal := .next s.rowReadDone

/-- The row of the action at the head of the Action Queue, when it is `a` and the unit is IDLE (R17). -/
def State.headAction (s : State) (a : Action) : Option RowId :=
  match s.admission, s.actionQueue with
  | .idle, e :: _ => if e.action = a then some e.row else none
  | _, _ => none

/-- AMEND_EXECUTE (R17, R24, R25). -/
def execAmendExecute (s : State) : Host.Outcome State Fault Refusal :=
  .next (match s.headAction .amend with
    | some r => s.runAmend r
    | none => s)

/-- CANCEL_EXECUTE (R17, R26). -/
def execCancelExecute (s : State) : Host.Outcome State Fault Refusal :=
  .next (match s.headAction .cancel with
    | some r => s.runCancel r
    | none => s)

/-! Scheduler -/

/-- GO_LIVE (R38, R41): the Scheduler's next start of the ms event it is handling. -/
def execGoLive (s : State) : Host.Outcome State Fault Refusal :=
  .next (match s.nextStart with
    | some r => { s.goLiveRow r (s.isLate r) with pass := .starts (r.val + 1) }
    | none => s)

/-- SCHEDULED_END (R38, R43): the Scheduler's next end of the ms event it is handling. -/
def execScheduledEnd (s : State) : Host.Outcome State Fault Refusal :=
  .next (match s.nextEnd with
    | some r => { s.scheduleEnd r .scheduled with pass := .ends (r.val + 1) }
    | none => s)

/-- R36: the row that the next STOP end takes. -/
def State.stopRow (s : State) : Option RowId :=
  if s.fabric = .stopping then State.findRow fun r => (s.row r).isLive else none

/-- STOP_END (R36, R43). -/
def execStopEnd (s : State) : Host.Outcome State Fault Refusal :=
  .next (match s.stopRow with
    | some r => s.scheduleEnd r .stopped
    | none => s)

/-! Line Prover -/

/-- PROVER_EXPIRY (R119): the prover handles the ms event that completes its test. -/
def execProverExpiry (s : State) : Host.Outcome State Fault Refusal :=
  .next (if s.proverExpires then s.proverHandle else s)

/-! Notice Writer -/

/-- R172: the completed write of the notice at the head of the list. -/
def State.noticeWritten (s : State) : State :=
  match s.inProgress with
  | some (.noticeWrite n) => ((s.completeHead (.noticeWrite n)).noticeProduced).freeMside
  | _ => s

/-- NOTICE_WRITE_DONE (R172). -/
def execNoticeWriteDone (s : State) : Host.Outcome State Fault Refusal := .next s.noticeWritten

/-! Settlement Unit -/

/-- RECORD_BEGIN (R143, log 9). -/
def execRecordBegin (s : State) : Host.Outcome State Fault Refusal := .next s.settleStep

/-- R146: the first half of a record completes at M-side. -/
def State.firstHalfDone (s : State) : State :=
  match s.inProgress with
  | some (.recordHalf i false ws) => (s.completeHead (.recordHalf i false ws)).freeMside
  | _ => s

/-- SETTLEMENT_FIRST_HALF_DONE (R146). -/
def execSettlementFirstHalfDone (s : State) : Host.Outcome State Fault Refusal := .next s.firstHalfDone

/-- R147: the second half of a record completes at M-side. The place that it frees is filled before SETTLED and the
next record's halves are handed: DESIGN CHOICE (log 34). -/
def State.secondHalfDone (s : State) : State :=
  match s.inProgress with
  | some (.recordHalf i true ws) => ((s.completeHead (.recordHalf i true ws)).completeRecord).freeMside
  | _ => s

/-- RECORD_COMPLETE (R147). -/
def execRecordComplete (s : State) : Host.Outcome State Fault Refusal := .next s.secondHalfDone

end Sys2Proof.Machine
end

