-- ==== Sys2Proof/Machine/HostCommands.lean ====
section
/-! DEFINITION. The meanings of the commands that the host causes: each is one bus transaction of one word
(logs 5, 6, 25), and HOST_TRANSACTION_ARRIVAL is any bus transaction. -/

namespace Sys2Proof.Machine

/-- The host writes one word of the window. -/
def State.hostWrite (s : State) (off : Nat) (v : Word) : Host.Outcome State Fault Refusal :=
  .next (s.hostIssue (s.writeOne off v))

/-- The host writes an anchor word. -/
def State.hostAnchor (s : State) (a : Anchor) (v : Word) : Host.Outcome State Fault Refusal :=
  s.hostWrite (anchorOffset a) v

/-- The host writes a port word. -/
def State.hostPort (s : State) (p : PortId) (w : PortWord) (v : Word) : Host.Outcome State Fault Refusal :=
  s.hostWrite (portOffset p w) v

/-- The host writes a word of a booking row. -/
def State.hostRow (s : State) (r : RowId) (i : Fin 16) (v : Word) : Host.Outcome State Fault Refusal :=
  s.hostWrite (rowOffset r i) v

/-- A transaction that the host issues; an operand that is no bus transaction stops (R157, log 17). -/
def State.hostIssueChecked (s : State) (t : Transaction) : Host.Outcome State Fault Refusal :=
  if t.wf then .next (s.hostIssue t) else .fault .notATransaction

/-! Bus -/

/-- HOST_TRANSACTION_ARRIVAL (R158). -/
def execHostTransactionArrival (t : Transaction) (s : State) : Host.Outcome State Fault Refusal :=
  s.hostIssueChecked t

/-- PLAIN_WRITE (R157, R159): a write of one word at any address. -/
def execPlainWrite (addr value : Word) (s : State) : Host.Outcome State Fault Refusal :=
  s.hostIssueChecked (.write addr [⟨true, value⟩])

/-! Booking actions: W15 and the amend staging -/

/-- POST (R13): W15 = 1. -/
def execPost (r : RowId) (s : State) : Host.Outcome State Fault Refusal := s.hostRow r 15 1

/-- AMEND (R14): W15 = 2. -/
def execAmend (r : RowId) (s : State) : Host.Outcome State Fault Refusal := s.hostRow r 15 2

/-- CANCEL (R14): W15 = 3. -/
def execCancel (r : RowId) (s : State) : Host.Outcome State Fault Refusal := s.hostRow r 15 3

/-- MARK (R15, R133): W15 = 4. -/
def execMark (r : RowId) (s : State) : Host.Outcome State Fault Refusal := s.hostRow r 15 4

/-- The row word of a half of the amend staging (R10). -/
def stagingRowWord : StagingHalf → Fin 16
  | .low => 8
  | .high => 9

/-- AMEND_STAGING_WRITE (R10): a write of W8 or W9. -/
def execAmendStagingWrite (r : RowId) (half : StagingHalf) (value : Word) (s : State) :
    Host.Outcome State Fault Refusal :=
  s.hostRow r (stagingRowWord half) value

/-! Fabric and time -/

/-- START (R35): A1 = 1. -/
def execStart (s : State) : Host.Outcome State Fault Refusal := s.hostAnchor .a1 1

/-- STOP (R36): A1 = 2. -/
def execStop (s : State) : Host.Outcome State Fault Refusal := s.hostAnchor .a1 2

/-- SET_TIME (R33): a write of any value to A7. -/
def execSetTime (value : Word) (s : State) : Host.Outcome State Fault Refusal := s.hostAnchor .a7 value

/-- The anchor word of a half of the SET_TIME staging (R32). -/
def stagingTimeWord : StagingHalf → Anchor
  | .low => .a5
  | .high => .a6

/-- SET_TIME_STAGING_WRITE (R32): a write of A5 or A6. -/
def execSetTimeStagingWrite (half : StagingHalf) (value : Word) (s : State) : Host.Outcome State Fault Refusal :=
  s.hostAnchor (stagingTimeWord half) value

/-- TIME_READ (R31): a read of A3. -/
def execTimeRead (s : State) : Host.Outcome State Fault Refusal := .next (s.hostReadOne (anchorOffset .a3))

/-! Ports -/

/-- PORT_ENABLE (R52, R92): a P0 word with enable 1. -/
def execPortEnable (p : PortId) (value : Word) (s : State) : Host.Outcome State Fault Refusal :=
  s.hostPort p .p0 (setBit value 0 true)

/-- PORT_DISABLE (R52, R93): a P0 word with enable 0. -/
def execPortDisable (p : PortId) (value : Word) (s : State) : Host.Outcome State Fault Refusal :=
  s.hostPort p .p0 (setBit value 0 false)

/-- PAIR_MODE_ON (R53): a P0 word of the even port with pair mode 1. -/
def execPairModeOn (k : PairId) (value : Word) (s : State) : Host.Outcome State Fault Refusal :=
  s.hostPort (evenPort k) .p0 (setBit value 1 true)

/-- PAIR_MODE_OFF (R53): a P0 word of the even port with pair mode 0. -/
def execPairModeOff (k : PairId) (value : Word) (s : State) : Host.Outcome State Fault Refusal :=
  s.hostPort (evenPort k) .p0 (setBit value 1 false)

/-- A P0 word with the enable and pair mode in force for port `p`. -/
def State.optionsWord (s : State) (p : PortId) (value : Word) : Word :=
  setBit (setBit value 0 (s.port p).cfg.enable) 1 (s.port p).cfg.pairMode

/-- PORT_OPTIONS_WRITE (R52): a P0 word that leaves enable and pair mode as they are. -/
def execPortOptionsWrite (p : PortId) (value : Word) (s : State) : Host.Outcome State Fault Refusal :=
  s.hostPort p .p0 (s.optionsWord p value)

/-- SELECT (R64): a write of P12. -/
def execSelect (p : PortId) (value : Word) (s : State) : Host.Outcome State Fault Refusal :=
  s.hostPort p .p12 value

/-- LOOP_ALL (R98): P5 = 1. -/
def execLoopAll (p : PortId) (s : State) : Host.Outcome State Fault Refusal := s.hostPort p .p5 1

/-- CORRUPT_CHECK (R98): P5 = 2. -/
def execCorruptCheck (p : PortId) (s : State) : Host.Outcome State Fault Refusal := s.hostPort p .p5 2

/-- NORMAL (R98): P5 = 3. -/
def execNormal (p : PortId) (s : State) : Host.Outcome State Fault Refusal := s.hostPort p .p5 3

/-- ARM (R89): P8 = 1. -/
def execArm (p : PortId) (s : State) : Host.Outcome State Fault Refusal := s.hostPort p .p8 1

/-- DISARM (R89): P8 = 2. -/
def execDisarm (p : PortId) (s : State) : Host.Outcome State Fault Refusal := s.hostPort p .p8 2

/-- The port word of a clearing count (R85). -/
def counterPortWord : CounterWord → PortWord
  | .nearEnd => .p2
  | .farEnd => .p3
  | .hits => .p4

/-- COUNTER_READ (R85): a read of P2, P3 or P4. -/
def execCounterRead (p : PortId) (which : CounterWord) (s : State) : Host.Outcome State Fault Refusal :=
  .next (s.hostReadOne (portOffset p (counterPortWord which)))

/-! Line Prover -/

/-- ATTACH (R114, R115): A16 = 1. -/
def execAttach (s : State) : Host.Outcome State Fault Refusal := s.hostAnchor .a16 1

/-- DETACH (R121): A16 = 2. -/
def execDetach (s : State) : Host.Outcome State Fault Refusal := s.hostAnchor .a16 2

/-- The anchor word of a staging word of the prover (R113). -/
def proverAnchor : ProverWord → Anchor
  | .port => .a17
  | .duration => .a18

/-- PROVER_STAGING_WRITE (R113): a write of A17 or A18. -/
def execProverStagingWrite (which : ProverWord) (value : Word) (s : State) : Host.Outcome State Fault Refusal :=
  s.hostAnchor (proverAnchor which) value

/-! Rings and meters -/

/-- RELEASE_WRITE (R150): a write of A11. -/
def execReleaseWrite (value : Word) (s : State) : Host.Outcome State Fault Refusal := s.hostAnchor .a11 value

/-- CONSUME_WRITE (R174): a write of A9. -/
def execConsumeWrite (value : Word) (s : State) : Host.Outcome State Fault Refusal := s.hostAnchor .a9 value

/-- METER_SNAPSHOT_READ (R138): a read of M0 of a row. -/
def execMeterSnapshotRead (r : RowId) (s : State) : Host.Outcome State Fault Refusal :=
  .next (s.hostReadOne (meterOffset r 0))

end Sys2Proof.Machine
end

