-- ==== Sys2Proof/Machine/ResetTime.lean ====
section
/-! DEFINITION. The meanings of COLD_RESET and MS_EVENT (R29, R30, R48, R69, R94, R111, R124, R141, R155, R156,
R169, R176). -/

namespace Sys2Proof.Machine

/-- The part after a cold reset: memory as the transaction in progress left it, the straps sampled, the
commands still waiting kept (R169, log 24). -/
def State.resetWith (s : State) (straps : BitVec 8) : State := State.cold straps s.memAtReset s.pending

/-- COLD_RESET (R169): RESET_N goes low and is released. A transaction that arrived while it was low is then
granted and judged against the window as newly placed. -/
def execColdReset (straps : BitVec 8) (arrived : Option Transaction) (s : State) :
    Host.Outcome State Fault Refusal :=
  match arrived with
  | none => .next (s.resetWith straps)
  | some t => if t.wf then .next ((s.resetWith straps).arrive t) else .fault .notATransaction

/-- MS_EVENT (R30, R38, R119, R129): the parts of the ms event that are taken now, in order (log 10). -/
def execMsEvent (parts : List MsPart) (s : State) : Host.Outcome State Fault Refusal :=
  .next (parts.foldl State.msPart s)

end Sys2Proof.Machine
end

