-- ==== Sys2Proof/Machine/Spans.lean ====
section
/-! DEFINITION. The meanings of the commands on the spans: a cycle event, the cycle events named by what they
bring about, and the transmission of a cycle (R70 to R109). -/

namespace Sys2Proof.Machine

/-- A cycle event of port `p` that is due to bring something about, where `due` says that it is; a command for
an event that is not due leaves the state as it is (log 12). An operand that spells no span cycle stops. -/
def State.spanEvent (s : State) (p : PortId) (iv : Interval) (due : Bool) : Host.Outcome State Fault Refusal :=
  if iv.wf then .next (if due then s.cycleEvent p iv else s) else .fault .notACycle

/-- CYCLE_EVENT (R77). -/
def execCycleEvent (p : PortId) (iv : Interval) (s : State) : Host.Outcome State Fault Refusal :=
  s.spanEvent p iv true

/-- CYCLE_TRANSMIT (R70). -/
def execCycleTransmit (p : PortId) (s : State) : Host.Outcome State Fault Refusal := .next (s.transmit p)

/-- T_READY_EXPIRY (R75, R76): the cycle event that brings T_ready to 500. -/
def execTReadyExpiry (p : PortId) (iv : Interval) (s : State) : Host.Outcome State Fault Refusal :=
  s.spanEvent p iv (timerExpires (s.port p).tReady Config.tReadyLength)

/-- T_HOLD_EXPIRY (R75, R79): the cycle event that brings T_hold to 25. -/
def execTHoldExpiry (p : PortId) (iv : Interval) (s : State) : Host.Outcome State Fault Refusal :=
  s.spanEvent p iv (timerExpires (s.port p).tHold Config.tHoldLength)

/-- T_RESTORE_EXPIRY (R75, R76): the cycle event that brings T_restore to 1000. -/
def execTRestoreExpiry (p : PortId) (iv : Interval) (s : State) : Host.Outcome State Fault Refusal :=
  s.spanEvent p iv (timerExpires (s.port p).tRestore Config.tRestoreLength)

/-- The error window reaches position 500 at the next cycle event (R86). -/
def Port.windowFills (o : Port) : Bool :=
  match o.window with
  | some w => decide (Config.windowLength ≤ w.position + 1)
  | none => false

/-- ERROR_WINDOW_CLOSE (R86): the cycle event that brings the window's position to 500. -/
def execErrorWindowClose (p : PortId) (iv : Interval) (s : State) : Host.Outcome State Fault Refusal :=
  s.spanEvent p iv (s.port p).windowFills

/-- R102: an outstanding command has been sent in 125 cycles, so that the next cycle event settles it. -/
def Port.commandExhausted (o : Port) : Bool :=
  o.link.inService && o.channel.outstanding.isSome && decide (Config.sentMax ≤ o.channel.sent)

/-- COMMAND_NO_ANSWER (R102): the first cycle event after the 125th cycle that carried the command. -/
def execCommandNoAnswer (p : PortId) (iv : Interval) (s : State) : Host.Outcome State Fault Refusal :=
  s.spanEvent p iv (s.port p).commandExhausted

end Sys2Proof.Machine
end

