-- ==== Sys2Proof/Machine/Dispatch.lean ====
section
/-! DEFINITION. One arm for each command: the direct call of its meaning. -/

namespace Sys2Proof.Machine

/-- A command's effect on everything but the queue of commands. -/
def exec (i : Instr) (s : State) : Host.Outcome State Fault Refusal :=
  match i with
  | .coldReset straps arrived => Sys2Proof.Machine.execColdReset straps arrived s
  | .msEvent parts => Sys2Proof.Machine.execMsEvent parts s
  | .cycleEvent p iv => Sys2Proof.Machine.execCycleEvent p iv s
  | .cycleTransmit p => Sys2Proof.Machine.execCycleTransmit p s
  | .hostTransactionArrival t => Sys2Proof.Machine.execHostTransactionArrival t s
  | .msideGrant => Sys2Proof.Machine.execMsideGrant s
  | .forwardComplete => Sys2Proof.Machine.execForwardComplete s
  | .post r => Sys2Proof.Machine.execPost r s
  | .amend r => Sys2Proof.Machine.execAmend r s
  | .cancel r => Sys2Proof.Machine.execCancel r s
  | .mark r => Sys2Proof.Machine.execMark r s
  | .start => Sys2Proof.Machine.execStart s
  | .stop => Sys2Proof.Machine.execStop s
  | .setTime value => Sys2Proof.Machine.execSetTime value s
  | .setTimeStagingWrite half value => Sys2Proof.Machine.execSetTimeStagingWrite half value s
  | .amendStagingWrite r half value => Sys2Proof.Machine.execAmendStagingWrite r half value s
  | .portEnable p value => Sys2Proof.Machine.execPortEnable p value s
  | .portDisable p value => Sys2Proof.Machine.execPortDisable p value s
  | .pairModeOn k value => Sys2Proof.Machine.execPairModeOn k value s
  | .pairModeOff k value => Sys2Proof.Machine.execPairModeOff k value s
  | .portOptionsWrite p value => Sys2Proof.Machine.execPortOptionsWrite p value s
  | .select p value => Sys2Proof.Machine.execSelect p value s
  | .loopAll p => Sys2Proof.Machine.execLoopAll p s
  | .corruptCheck p => Sys2Proof.Machine.execCorruptCheck p s
  | .normal p => Sys2Proof.Machine.execNormal p s
  | .arm p => Sys2Proof.Machine.execArm p s
  | .disarm p => Sys2Proof.Machine.execDisarm p s
  | .attach => Sys2Proof.Machine.execAttach s
  | .detach => Sys2Proof.Machine.execDetach s
  | .proverStagingWrite which value => Sys2Proof.Machine.execProverStagingWrite which value s
  | .releaseWrite value => Sys2Proof.Machine.execReleaseWrite value s
  | .consumeWrite value => Sys2Proof.Machine.execConsumeWrite value s
  | .timeRead => Sys2Proof.Machine.execTimeRead s
  | .counterRead p which => Sys2Proof.Machine.execCounterRead p which s
  | .meterSnapshotRead r => Sys2Proof.Machine.execMeterSnapshotRead r s
  | .plainWrite addr value => Sys2Proof.Machine.execPlainWrite addr value s
  | .postBegin => Sys2Proof.Machine.execPostBegin s
  | .admissionRowReadDone => Sys2Proof.Machine.execAdmissionRowReadDone s
  | .amendExecute => Sys2Proof.Machine.execAmendExecute s
  | .cancelExecute => Sys2Proof.Machine.execCancelExecute s
  | .goLive => Sys2Proof.Machine.execGoLive s
  | .scheduledEnd => Sys2Proof.Machine.execScheduledEnd s
  | .stopEnd => Sys2Proof.Machine.execStopEnd s
  | .tReadyExpiry p iv => Sys2Proof.Machine.execTReadyExpiry p iv s
  | .tHoldExpiry p iv => Sys2Proof.Machine.execTHoldExpiry p iv s
  | .tRestoreExpiry p iv => Sys2Proof.Machine.execTRestoreExpiry p iv s
  | .errorWindowClose p iv => Sys2Proof.Machine.execErrorWindowClose p iv s
  | .proverExpiry => Sys2Proof.Machine.execProverExpiry s
  | .commandNoAnswer p iv => Sys2Proof.Machine.execCommandNoAnswer p iv s
  | .noticeWriteDone => Sys2Proof.Machine.execNoticeWriteDone s
  | .recordBegin => Sys2Proof.Machine.execRecordBegin s
  | .settlementFirstHalfDone => Sys2Proof.Machine.execSettlementFirstHalfDone s
  | .recordComplete => Sys2Proof.Machine.execRecordComplete s

end Sys2Proof.Machine
end

