-- ==== Sys2Proof/Safety.lean ====
section
/-! DEFINITION. The laws that the manual states of the part and that every step keeps, as properties of a state;
and the conditions and results in which the statements about commands are written. -/

namespace Sys2Proof.Machine

/-! Laws -/

/-- Control memory is in its canonical form. -/
def MemoryLaw (s : State) : Prop := Memory.wf s.mem

/-- R165: the Outbound Queue holds at most 8 entries, it is full while a producer waits, and the producers
that wait are, each once, those with a transaction that has not joined. -/
def OutboundLaw (s : State) : Prop :=
  s.path.outbound.length ≤ Config.outboundMax
    ∧ (s.path.waiting ≠ [] → s.path.outbound.length = Config.outboundMax)
    ∧ s.path.waiting.Nodup
    ∧ ∀ pr, pr ∈ s.path.waiting ↔ s.path.backlog pr ≠ []

/-- R171, R172: the unconsumed entries and the notices in writing are at most 512 together. -/
def NoticeLaw (s : State) : Prop :=
  ringDist s.notice.produce s.notice.consume + s.notice.inWriting.length ≤ Config.ringSlots

/-- R148: at most 512 records are held, and fewer while a record is in writing. -/
def SettlementLaw (s : State) : Prop :=
  s.settle.held ≤ Config.ringSlots ∧ (s.settle.writing.isSome = true → s.settle.held < Config.ringSlots)

/-- R109: the latched remote set is empty and the hub-corrupting flag is 0 whenever the link state is neither UP
nor SUSPECT. -/
def ChannelLaw (s : State) : Prop :=
  ∀ p, (s.port p).link.inService = false →
    (s.port p).channel.loop = false ∧ (s.port p).channel.corrupt = false ∧ (s.port p).channel.hubCorrupting = false

/-- R52, R74, R92, R93: a port is in OFF exactly while it is disabled. -/
def EnableLaw (s : State) : Prop := ∀ p, (s.port p).link = .off ↔ (s.port p).cfg.enable = false

/-- R59: the carrying flag of every port is what its four inputs make it. -/
def CarryingLaw (s : State) : Prop := ∀ p, (s.port p).carrying = s.mayCarry p

/-- R51: a pair in pair mode has both members enabled, and every port that a HELD or LIVE booking names is
enabled. -/
def ConfigLaw (s : State) : Prop :=
  (∀ k, (s.port (evenPort k)).cfg.pairMode = true →
      (s.port (evenPort k)).cfg.enable = true ∧ (s.port (oddPort k)).cfg.enable = true)
    ∧ ∀ r, (s.row r).isBooked = true → ∀ p ∈ namedPorts (s.row r).captured, (s.port p).cfg.enable = true

/-- R61: no pair in pair mode has an active member that is not carrying together with a partner that is; pair mode is
of even ports alone (R51). -/
def SelectionLaw (s : State) : Prop :=
  (∀ k, (s.port (oddPort k)).cfg.pairMode = false)
    ∧ ∀ k, (s.port (evenPort k)).cfg.pairMode = true →
      (s.port (memberPort k s.active[k])).carrying = false → (s.port (memberPort k s.active[k].other)).carrying = false

/-- R119: the locked time is never more than the elapsed time, and a running test has not reached its duration. -/
def ProverLaw (s : State) : Prop :=
  s.prover.lockedTime.toNat ≤ s.prover.elapsed.toNat
    ∧ (s.prover.running = true → s.prover.elapsed.toNat < s.prover.duration.toNat)

/-- R132, R136: the carriage of every row is the sum of its closed segments and its current segment. -/
def MeterLaw (s : State) : Prop := ∀ r, (s.row r).meter.carriage = wordSum (s.row r).meter.closed + (s.row r).meter.segment

/-! Conditions and results -/

/-- M-side is free and nothing waits for it, so that a host transaction is granted at its arrival (R166). -/
def State.busIdle (s : State) : Prop :=
  s.path.current = none ∧ s.path.mside = .free ∧ s.path.outbound = []

/-- The state in the judgement event of host transaction `t`: M-side is granted to P-side (R158, R166). -/
def State.granted (s : State) (t : Transaction) : State :=
  { s with path := { s.path with current := some ⟨t, .arrived⟩, mside := .pside, lastGrant := .pside } }

/-- The state after a host transaction that changed nothing else and handed nothing: it was granted M-side,
answered `a`, and M-side is free (R158). -/
def State.answered (s : State) (a : Response) : State :=
  { s with path := { s.path with lastGrant := .pside, response := some a } }

/-- The state after a one-word write to window offset `off` has been accepted and forwarded: the run of one word
is in progress at M-side, and no action follows (R162). -/
def State.forwarding (s : State) (off : Nat) (v : Word) : State :=
  { s with
    path := { s.path with
      mside := .pside, lastGrant := .pside
      current := some ⟨s.writeOne off v, .writing [[((s.busAddr off).toNat, v)]] []⟩ } }

/-- The bus transaction that a command of the host issues (logs 6, 25). -/
def State.hostTransaction (s : State) : Instr → Option Transaction
  | .hostTransactionArrival t => some t
  | .plainWrite a v => some (.write a [⟨true, v⟩])
  | .post r => some (s.writeOne (rowOffset r 15) 1)
  | .amend r => some (s.writeOne (rowOffset r 15) 2)
  | .cancel r => some (s.writeOne (rowOffset r 15) 3)
  | .mark r => some (s.writeOne (rowOffset r 15) 4)
  | .amendStagingWrite r half v => some (s.writeOne (rowOffset r (stagingRowWord half)) v)
  | .start => some (s.writeOne (anchorOffset .a1) 1)
  | .stop => some (s.writeOne (anchorOffset .a1) 2)
  | .setTime v => some (s.writeOne (anchorOffset .a7) v)
  | .setTimeStagingWrite half v => some (s.writeOne (anchorOffset (stagingTimeWord half)) v)
  | .timeRead => some (s.readOne (anchorOffset .a3))
  | .portEnable p v => some (s.writeOne (portOffset p .p0) (setBit v 0 true))
  | .portDisable p v => some (s.writeOne (portOffset p .p0) (setBit v 0 false))
  | .pairModeOn k v => some (s.writeOne (portOffset (evenPort k) .p0) (setBit v 1 true))
  | .pairModeOff k v => some (s.writeOne (portOffset (evenPort k) .p0) (setBit v 1 false))
  | .portOptionsWrite p v => some (s.writeOne (portOffset p .p0) (s.optionsWord p v))
  | .select p v => some (s.writeOne (portOffset p .p12) v)
  | .loopAll p => some (s.writeOne (portOffset p .p5) 1)
  | .corruptCheck p => some (s.writeOne (portOffset p .p5) 2)
  | .normal p => some (s.writeOne (portOffset p .p5) 3)
  | .arm p => some (s.writeOne (portOffset p .p8) 1)
  | .disarm p => some (s.writeOne (portOffset p .p8) 2)
  | .counterRead p which => some (s.readOne (portOffset p (counterPortWord which)))
  | .attach => some (s.writeOne (anchorOffset .a16) 1)
  | .detach => some (s.writeOne (anchorOffset .a16) 2)
  | .proverStagingWrite which v => some (s.writeOne (anchorOffset (proverAnchor which)) v)
  | .releaseWrite v => some (s.writeOne (anchorOffset .a11) v)
  | .consumeWrite v => some (s.writeOne (anchorOffset .a9) v)
  | .meterSnapshotRead r => some (s.readOne (meterOffset r 0))
  | _ => none

/-- The host's read of the window word at offset `off` is answered `v`, and it changes nothing else (R158, R164);
the read is taken at its arrival and its one word with the next part of its work (log 7). -/
def State.reads (s : State) (off : Nat) (v : Word) : Prop :=
  ∃ t, exec (.hostTransactionArrival (s.readOne off)) s = .next t
    ∧ exec .forwardComplete t = .next (s.answered (.data [v]))

/-- From `s` to `t` a notice of this content was given an index and put in writing, composed at the time of `s`
(R170, R171). -/
def State.hands (s t : State) (kind : NoticeKind) (subject code : Nat) (n2 n3 : Word) : Prop :=
  ∃ (more : List Notice) (n : Notice), t.notice.inWriting = s.notice.inWriting ++ more ∧ n ∈ more
    ∧ n.n0 = noticeHead kind subject code ∧ n.n1 = timeLow s.now ∧ n.n2 = n2 ∧ n.n3 = n3

/-- There is room for `k` more notices (R171). -/
def State.roomFor (s : State) (k : Nat) : Prop :=
  ringDist s.notice.produce s.notice.consume + s.notice.inWriting.length + k ≤ Config.ringSlots

/-- The condition of R87 on the error window, threshold and latched set as they stand before a cycle event whose
interval has class `cls`, which adds 1 to the count where it fails its check (R86). -/
def Port.windowReaches (o : Port) (cls : IntervalClass) : Prop :=
  1 ≤ o.cfg.threshold.toNat ∧ o.channel.corrupt = false
    ∧ ∃ w, o.window = some w ∧ w.masked = false
      ∧ o.cfg.threshold.toNat ≤ w.count + (if cls = .inverted ∨ cls = .bad then 1 else 0)

/-- A booking with captured copy `w` uses logical port `l`, as its source or as a destination (R2). -/
def State.booksPort (s : State) (w : Vector Word 8) (l : PortId) : Prop :=
  s.logical (sourcePort w) = l ∨ ∃ d ∈ destPorts w, s.logical d = l

/-- The conditions of R114 for ATTACH on port `p`. -/
def State.attachAllowed (s : State) (p : PortId) : Prop :=
  s.prover.running = false ∧ s.prover.port = BitVec.ofNat 32 p.val ∧ (s.port p).cfg.enable = true
    ∧ 1 ≤ s.prover.duration.toNat ∧ s.prover.duration.toNat ≤ 3600000
    ∧ (((s.port (evenPort (pairOf p))).cfg.pairMode = true → memberPort (pairOf p) s.active[pairOf p] = p) →
      ∀ r, ((s.row r).state = .live → ¬s.booksPort (s.row r).captured (s.logical p))
        ∧ ((s.row r).state = .held → s.booksPort (s.row r).captured (s.logical p) →
          s.now.toNat + s.prover.duration.toNat ≤ (bookedStart (s.row r).captured).toNat))

/-- The interval leaves an aligned receiver aligned (R73). -/
def Port.staysAligned (o : Port) (iv : Interval) : Prop :=
  o.receiver.isAligned = true → (o.takeInterval iv).receiver.isAligned = true

/-- How many slots below slot `i` have owner `o`; with `none`, how many are free. -/
def slotsBelow (v : Vector (Option RowId) 40) (o : Option RowId) (i : SlotId) : Nat :=
  (List.finRange 40).countP fun j => decide (j < i) && v[j] == o

/-- A transaction whose span lies wholly outside the window (R157). -/
def State.outsideWindow (s : State) (t : Transaction) : Bool := (spanOf t).all fun a => !s.inWindow a

/-- A transaction whose span lies wholly inside the window (R157). -/
def State.insideWindow (s : State) (t : Transaction) : Bool := (spanOf t).all s.inWindow

/-- The byte addresses of the words that a transaction touches: each that it reads and each that it writes (R157). -/
def touched (t : Transaction) : List Nat :=
  match t with
  | .read a n => spanFrom a.toNat n
  | .write a ws => (writtenFrom a.toNat ws).map (·.1)

/-- The memory work of a transaction that is forwarded unchanged (R157). -/
def forwardedPhase (t : Transaction) : PsidePhase :=
  match t with
  | .read a n => .reading [] [.run a.toNat n]
  | .write a ws => .writing [writtenFrom a.toNat ws] []

/-- A word that is ANSWERED, ANSWERED-CLEARING or ANSWERED-SNAPSHOT: its owner answers it, and it is neither an
ACTION word nor one of the two GUARDED words whose read is answered (R159, R160). -/
def WinWord.answersOnly (w : WinWord) : Bool :=
  w.isAnswered && !w.isAction && w != .anchor .a9 && w != .anchor .a11

end Sys2Proof.Machine
end

