-- ==== Sys2Proof/Certificates/Slice0/Obligations.lean ====
section
/-! DEFINITION. The statements for the provers: what each command does, and the laws that every step keeps. -/

open Sys2Proof Sys2Proof.Machine

/-! ## A step -/

/-- A step is exec of the command at the front of the queue on the state with the queue's rest; with no command
waiting the state stays (idling is the model's choice, log 1). -/
def Obligations.StepRunsFrontCommand : Prop :=
  ∀ s : State,
    (∀ (c : Instr) (rest : List Instr), s.pending = c :: rest → step s = exec c { s with pending := rest })
    ∧ (s.pending = [] → step s = .next s)

/-- In every state a well-formed command answers a next state with the same queue of commands, and any other stops with
a fault; no command is refused (R158: the bus gives no error; the fault is the model's choice, log 17). -/
def Obligations.CommandsAnswerNextExactlyWhenWellFormed : Prop :=
  ∀ (i : Instr) (s : State),
    (i.wf = true → ∃ t, exec i s = .next t ∧ t.pending = s.pending) ∧ (i.wf = false → ∃ f, exec i s = .fault f)

/-! ## Reset -/

/-- COLD_RESET (R29, R48, R50, R54, R69, R94, R141, R155, R156, R169, R176): rows, meters and holds, time, fabric,
queues, settlement, the path and the straps; every port is disabled, OFF and empty; the notice indices, flag and list are
clear, NOTE_N is high, A2, A8 and A9 read 0 and every entry of the Notice Ring can be written. Two clauses are the model's
reading: memory keeps what the transaction in progress at M-side leaves in it, that one whole and none after it, an entry
of the Notice Ring among them (log 30), and is not touched otherwise; and a transaction that arrived meanwhile is then
taken in the same command, as by HOST_TRANSACTION_ARRIVAL (log 24). -/
def Obligations.ColdResetRecordsAndNotices : Prop :=
  ∀ (straps : BitVec 8) (s : State), ∃ t, exec (.coldReset straps none) s = .next t
    ∧ t.regionSel = straps ∧ t.mem = s.memAtReset
    ∧ (s.path.mside = .free → t.mem = s.mem)
    ∧ t.now = 0 ∧ t.setTimeLow = 0 ∧ t.setTimeHigh = 0 ∧ t.timeHold = 0 ∧ t.fabric = .halted
    ∧ (∀ r, (t.row r).state = .empty ∧ (t.row r).captured = Vector.replicate 8 0 ∧ (t.row r).currentEnd = 0
        ∧ (t.row r).stageLow = 0 ∧ (t.row r).stageHigh = 0 ∧ (t.row r).inFlight = .none
        ∧ (t.row r).lastResult = .none ∧ (t.row r).late = false ∧ (t.row r).endReason = .scheduled
        ∧ (t.row r).actualStart = 0 ∧ (t.row r).actualEnd = 0 ∧ (t.row r).settleSeq = 0
        ∧ (t.row r).shownHealth = .healthy ∧ (t.row r).meter = ⟨0, 0, 0, [], 0, 0, 0, 0, 0⟩
        ∧ (t.row r).hold = ⟨0, 0, 0, 0⟩ ∧ (t.row r).endWord = 0)
    ∧ t.actionQueue = [] ∧ t.admission = .idle
    ∧ t.settle = ⟨[], none, .idle, 0, 0, 1⟩
    ∧ (∀ k : PairId, t.active[k] = .even)
    ∧ t.path.outbound = [] ∧ t.path.waiting = [] ∧ t.path.mside = .free ∧ t.path.lastGrant = .outbound
    ∧ t.path.current = none
    ∧ (∀ p, (t.port p).cfg = ⟨false, false, false, false, 0⟩ ∧ (t.port p).link = .off
        ∧ (t.port p).receiver = .searching none 0 ∧ (t.port p).lastOffset = none
        ∧ (t.port p).rdy = ⟨false, 0⟩ ∧ (t.port p).backup = ⟨false, 0⟩ ∧ (t.port p).inputLoss = ⟨false, 0⟩
        ∧ (t.port p).repBackup = false ∧ (t.port p).repInputLoss = false
        ∧ (t.port p).nearEnd = 0 ∧ (t.port p).farEnd = 0 ∧ (t.port p).hits = 0 ∧ (t.port p).slip = false
        ∧ (t.port p).window = none ∧ (t.port p).tReady = none ∧ (t.port p).tHold = none
        ∧ (t.port p).tRestore = none ∧ (t.port p).lastDown = .none ∧ (t.port p).capture = ⟨.idle, 0, 0⟩
        ∧ (t.port p).carrying = false
        ∧ (∀ i : SlotId, (t.port p).rx[i] = [] ∧ (t.port p).rxOwner[i] = none ∧ (t.port p).txOwner[i] = none)
        ∧ t.linkWord p = 0)
    ∧ t.notice = ⟨0, 0, false, []⟩ ∧ t.noteLow = false
    ∧ t.answer (.anchor .a8) = 0 ∧ t.answer (.anchor .a9) = 0 ∧ t.answer (.anchor .a2) = 0
    ∧ (∀ n rest, s.path.mside = .outbound → s.path.outbound = .noticeWrite n :: rest →
        t.mem = s.mem.writeWords (s.base + noticeOffset n.index) [n.n0, n.n1, n.n2, n.n3])
    ∧ (∀ i : Fin 512, ∀ v, t.writeOk (.notice i) v = true)
    ∧ ∀ a : Transaction, a.wf = true →
        exec (.coldReset straps (some a)) s = exec (.hostTransactionArrival a) t

/-- COLD_RESET and the Maintenance Channels (R111): every channel has its reset values, P6 and P7 read 0, every write
to P5 is refused, no notice is written, and memory is not touched. -/
def Obligations.ColdResetChannels : Prop :=
  ∀ (straps : BitVec 8) (s : State), ∃ t, exec (.coldReset straps none) s = .next t
    ∧ (∀ p, (t.port p).channel.outstanding = none ∧ (t.port p).channel.lastCommand = 0
        ∧ (t.port p).channel.lastResult = .none ∧ (t.port p).channel.sent = 0
        ∧ (t.port p).channel.loop = false ∧ (t.port p).channel.corrupt = false
        ∧ (t.port p).channel.hubCorrupting = false ∧ (t.port p).channel.present = none
        ∧ (t.port p).channel.candidate = none ∧ (t.port p).channel.messageRun = 0
        ∧ (t.port p).channel.answerRun = 0 ∧ (t.port p).channel.answerKind = none
        ∧ (t.port p).channel.lastReport = 0
        ∧ t.answer (.port p .p6) = 0 ∧ t.answer (.port p .p7) = 0
        ∧ ∀ v, t.writeOk (.port p .p5) v = false)
    ∧ t.notice.inWriting = [] ∧ t.path.outbound = [] ∧ (s.path.mside = .free → t.mem = s.mem)

/-- COLD_RESET and the Line Prover (R124): the prover has its reset values, no port is claimed, A2 bit [4] and A19 to
A22 read 0, no notice is written, and memory keeps A17 and A18. -/
def Obligations.ColdResetProver : Prop :=
  ∀ (straps : BitVec 8) (s : State), ∃ t, exec (.coldReset straps none) s = .next t
    ∧ t.prover = ⟨false, 0, 0, .none, false, 0, 0, 0, 0, BitVec.allOnes 23, BitVec.allOnes 23⟩
    ∧ t.claimed = none
    ∧ (t.answer (.anchor .a2)).getLsbD 4 = false
    ∧ t.answer (.anchor .a19) = 0 ∧ t.answer (.anchor .a20) = 0 ∧ t.answer (.anchor .a21) = 0
    ∧ t.answer (.anchor .a22) = 0
    ∧ t.notice.inWriting = [] ∧ t.path.outbound = []
    ∧ (s.path.mside = .free → t.mem = s.mem)

/-! ## Booking actions at the bus -/

/-- POST (R13): taken on an EMPTY row with room in the Action Queue, and refused otherwise. -/
def Obligations.PostTakenOrRefused : Prop :=
  ∀ (r : RowId) (s : State), s.busIdle →
    (((s.row r).state = .empty ∧ s.actionQueue.length < 16) →
      ∃ t, exec (.post r) s = .next t
        ∧ t = ({ s with
            rows := s.rows.set r { s.row r with
              state := .posting, lastResult := .none, late := false, endReason := .scheduled, currentEnd := 0
              actualStart := 0, actualEnd := 0, captured := Vector.replicate 8 0, hold := ⟨0, 0, 0, 0⟩ }
            actionQueue := s.actionQueue ++ [⟨r, .post⟩] } : State).answered .done
        ∧ (∀ (i : Fin 16) (v : Word), i.val < 10 → t.rowWriteOk r i v = false)
        ∧ (t.row r).endWord = 0)
    ∧ (¬((s.row r).state = .empty ∧ s.actionQueue.length < 16) → exec (.post r) s = .next (s.answered .refused))

/-- AMEND and CANCEL (R14): taken on a HELD or LIVE row with no action in flight and room in the Action Queue,
and refused otherwise. -/
def Obligations.AmendCancelTakenOrRefused : Prop :=
  ∀ (r : RowId) (s : State), s.busIdle →
    ((((s.row r).state = .held ∨ (s.row r).state = .live) ∧ (s.row r).inFlight = .none ∧ s.actionQueue.length < 16) →
      exec (.amend r) s = .next (({ s with
          rows := s.rows.set r { s.row r with inFlight := .amend }
          actionQueue := s.actionQueue ++ [⟨r, .amend⟩] } : State).answered .done)
      ∧ exec (.cancel r) s = .next (({ s with
          rows := s.rows.set r { s.row r with inFlight := .cancel }
          actionQueue := s.actionQueue ++ [⟨r, .cancel⟩] } : State).answered .done))
    ∧ (¬(((s.row r).state = .held ∨ (s.row r).state = .live) ∧ (s.row r).inFlight = .none
          ∧ s.actionQueue.length < 16) →
      exec (.amend r) s = .next (s.answered .refused) ∧ exec (.cancel r) s = .next (s.answered .refused))

/-- MARK (R15, R132, R133): on a LIVE row with fewer than 6 closed segments it closes the current segment, billing
a started unit whole; it is refused otherwise. -/
def Obligations.MarkClosesSegmentOrRefused : Prop :=
  ∀ (r : RowId) (s : State), s.busIdle →
    (((s.row r).state = .live ∧ (s.row r).meter.closed.length < 6) →
      ∃ bill : Word, bill = (if 0 < (s.row r).meter.prescaler then 1 else 0)
        ∧ exec (.mark r) s = .next (({ s with
            rows := s.rows.set r { s.row r with meter := { (s.row r).meter with
              prescaler := 0, segment := 0, carriage := (s.row r).meter.carriage + bill
              closed := (s.row r).meter.closed ++ [(s.row r).meter.segment + bill] } } } : State).answered .done))
    ∧ (¬((s.row r).state = .live ∧ (s.row r).meter.closed.length < 6) →
      exec (.mark r) s = .next (s.answered .refused))

/-- A write to a row word (R8, R9, R10, R12): W0 to W7 are forwarded in EMPTY and refused in every other state; W8 and W9
(AMEND_STAGING_WRITE) are forwarded in EMPTY, forwarded and loaded into the amend staging in HELD and LIVE with no action
in flight, and refused otherwise; W12 to W14 are forwarded in every state; a value of W15 other than 1 to 4 is refused. -/
def Obligations.RowWordWritesByRowState : Prop :=
  ∀ (r : RowId) (v : Word) (s : State), s.busIdle →
    (∀ (i : Fin 16) (off : Nat), off = 0x10000 + 64 * r.val + 4 * i.val →
      (i.val < 8 →
        ((s.row r).state = .empty →
          exec (.hostTransactionArrival (s.writeOne off v)) s = .next (s.forwarding off v))
        ∧ ((s.row r).state ≠ .empty →
          exec (.hostTransactionArrival (s.writeOne off v)) s = .next (s.answered .refused)))
      ∧ (12 ≤ i.val → i.val ≤ 14 →
        exec (.hostTransactionArrival (s.writeOne off v)) s = .next (s.forwarding off v))
      ∧ (i.val = 15 → v ≠ 1 → v ≠ 2 → v ≠ 3 → v ≠ 4 →
        exec (.hostTransactionArrival (s.writeOne off v)) s = .next (s.answered .refused)))
    ∧ ((s.row r).state = .empty → ∀ half,
      exec (.amendStagingWrite r half v) s = .next (s.forwarding (rowOffset r (stagingRowWord half)) v))
    ∧ ((((s.row r).state = .held ∨ (s.row r).state = .live) ∧ (s.row r).inFlight = .none) →
      exec (.amendStagingWrite r .low v) s
        = .next (({ s with rows := s.rows.set r { s.row r with stageLow := v } } : State).forwarding (rowOffset r 8) v)
      ∧ exec (.amendStagingWrite r .high v) s
        = .next (({ s with rows := s.rows.set r { s.row r with stageHigh := v } } : State).forwarding (rowOffset r 9) v))
    ∧ (((s.row r).state = .posting ∨ (s.row r).state = .ended ∨
        ((s.row r).state ≠ .empty ∧ (s.row r).inFlight ≠ .none)) → ∀ half,
      exec (.amendStagingWrite r half v) s = .next (s.answered .refused))

/-! ## Fabric and time words -/

/-- START (R35, R45): in HALTED the fabric enters RUNNING, handing FABRIC_STATE, and every HELD row is judged against now.
A missed row is ENDED with reason MISSED, its meters 0 but for one final segment of 0, and joins the Settlement Queue,
from which its record may begin at once; one that goes live has its meter started; one whose booked start is to come stays.
BOOKING_ENDED and BOOKING_LIVE are handed where the ring still has room afterwards. In every other fabric state START is
refused. (The counted-to of a missed row is not stated: log 35.) -/
def Obligations.StartJudgesHeldRows : Prop :=
  ∀ s : State, s.busIdle →
    (s.fabric = .halted → ∃ t, exec .start s = .next t
      ∧ t.fabric = .running ∧ t.now = s.now ∧ t.mem = s.mem ∧ t.actionQueue = s.actionQueue
      ∧ t.path.response = some .done
      ∧ (s.roomFor 1 → s.hands t .fabricState 0 1 0 0)
      ∧ ∀ r, ((s.row r).state ≠ .held →
          (t.row r).state = (s.row r).state ∧ ((s.row r).state ≠ .live → t.row r = s.row r))
        ∧ ((s.row r).state = .held →
          if (s.row r).currentEnd.toNat ≤ s.now.toNat
              ∨ ((bookedStart (s.row r).captured).toNat < s.now.toNat ∧ lateOk (s.row r).captured = false) then
            t.row r = { s.row r with
              state := .ended, endReason := .missed, late := false, actualStart := s.now, actualEnd := s.now
              health := .healthy, meter := ⟨(t.row r).meter.countedTo, 0, 0, [0], 0, 0, 0, 0, 0⟩ }
            ∧ (r ∈ t.settle.queue ∨ ∃ w, t.settle.writing = some w ∧ w.row = r)
            ∧ (t.roomFor 1 → s.hands t .bookingEnded r.val 3 (s.now.extractLsb' 0 32) 0)
          else if (bookedStart (s.row r).captured).toNat ≤ s.now.toNat then
            (t.row r).state = .live ∧ (t.row r).actualStart = s.now
              ∧ (t.row r).late = decide ((bookedStart (s.row r).captured).toNat < s.now.toNat)
              ∧ (t.row r).currentEnd = (s.row r).currentEnd ∧ (t.row r).captured = (s.row r).captured
              ∧ (t.row r).meter.countedTo = s.now ∧ (t.row r).meter.served = 0 ∧ (t.row r).meter.outage = 0
              ∧ (t.row r).meter.prescaler = 0 ∧ (t.row r).meter.segment = 0 ∧ (t.row r).meter.carriage = 0
              ∧ (t.row r).meter.closed = []
              ∧ (t.roomFor 1 → s.hands t .bookingLive r.val (t.row r).late.toNat
                ((s.row r).currentEnd.extractLsb' 0 32) ((bookedStart (s.row r).captured).extractLsb' 0 32))
          else t.row r = s.row r))
    ∧ (s.fabric ≠ .halted → exec .start s = .next (s.answered .refused))

/-- STOP (R36, R37): in RUNNING the fabric enters STOPPING, handing FABRIC_STATE, and passes on to HALTED with a
second FABRIC_STATE when no row is LIVE; in every other fabric state STOP is refused. -/
def Obligations.StopEntersStoppingOrHalted : Prop :=
  ∀ s : State, s.busIdle →
    (s.fabric = .running →
      ∃ u : State, u = ({ s.granted (s.writeOne (anchorOffset .a1) 2) with fabric := .stopping } : State).handNotice
          .fabricState 0 2 1 0
        ∧ ((∃ r, (s.row r).state = .live) → exec .stop s = .next (u.respond .done))
        ∧ ((∀ r, (s.row r).state ≠ .live) →
          exec .stop s = .next ((({ u with fabric := .halted } : State).handNotice .fabricState 0 0 2 0).respond .done)))
    ∧ (s.fabric ≠ .running → exec .stop s = .next (s.answered .refused))

/-- SET_TIME (R33): accepted with any value in HALTED when the staged high word has bits [31:8] 0; now becomes the
staged value and nothing else changes; refused otherwise. SET_TIME_STAGING_WRITE (R32) is accepted in every state with
any value, captured and forwarded; PROVER_STAGING_WRITE (R113) likewise while no test runs, and it is refused while
one runs. -/
def Obligations.StagedValuesCapturedAndLoaded : Prop :=
  ∀ (v : Word) (s : State), s.busIdle →
    ((s.fabric = .halted ∧ s.setTimeHigh.extractLsb' 8 24 = 0) →
      exec (.setTime v) s
        = .next (({ s with now := s.setTimeHigh.extractLsb' 0 8 ++ s.setTimeLow } : State).answered .done))
    ∧ (¬(s.fabric = .halted ∧ s.setTimeHigh.extractLsb' 8 24 = 0) →
      exec (.setTime v) s = .next (s.answered .refused))
    ∧ exec (.setTimeStagingWrite .low v) s
        = .next (({ s with setTimeLow := v } : State).forwarding 0x14 v)
    ∧ exec (.setTimeStagingWrite .high v) s
        = .next (({ s with setTimeHigh := v } : State).forwarding 0x18 v)
    ∧ (s.prover.running = false →
      exec (.proverStagingWrite .port v) s
        = .next (({ s with prover := { s.prover with port := v } } : State).forwarding 0x44 v)
      ∧ exec (.proverStagingWrite .duration v) s
        = .next (({ s with prover := { s.prover with duration := v } } : State).forwarding 0x48 v))
    ∧ (s.prover.running = true → ∀ which, exec (.proverStagingWrite which v) s = .next (s.answered .refused))

/-! ## The bus -/

/-- Every command of the host waits as the current transaction while M-side is held, changing nothing else (R158,
R166); while a transaction is current it is not issued (R158, log 5). -/
def Obligations.HostCommandWaitsForMside : Prop :=
  ∀ (i : Instr) (s : State) (t : Transaction), s.hostTransaction i = some t → t.wf = true →
    ((s.path.current = none ∧ s.path.mside ≠ .free) →
      exec i s = .next { s with path := { s.path with current := some ⟨t, .arrived⟩ } })
    ∧ (s.path.current ≠ none → exec i s = .next s)

/-- HOST_TRANSACTION_ARRIVAL by where the span lies (R157): outside the window it is forwarded unchanged; crossing
a 64-byte boundary and touching the window it is refused; a write inside the window with no written word is
answered DONE with no effect. Any other write burst inside the window is judged whole (R161, R162, R33): each written
word against the state before the burst with its staging words at the values it writes; with a refused word, or with A1
and A7 together, it is refused and changes nothing; else the GUARDED words are captured and the forwarded runs begin,
the actions to follow them, or at once where nothing is forwarded. So A5, A6 and A7 in one burst load the new time. -/
def Obligations.SpanDecidesTreatment : Prop :=
  ∀ (t : Transaction) (s : State), s.busIdle → t.wf = true →
    (s.outsideWindow t = true →
      exec (.hostTransactionArrival t) s = .next { s with path := { s.path with
        current := some ⟨t, forwardedPhase t⟩, mside := .pside, lastGrant := .pside } })
    ∧ ((crosses t = true ∧ ∃ a ∈ touched t, s.inWindow a = true) →
      exec (.hostTransactionArrival t) s = .next (s.answered .refused))
    ∧ ((s.insideWindow t = true ∧ touched t = []) →
      exec (.hostTransactionArrival t) s = .next (s.answered .done))
    ∧ (∀ (a : Word) (ws : List WriteWord), t = .write a ws →
      s.insideWindow t = true → crosses t = false → touched t ≠ [] →
      ∃ (words : List (Nat × Word)) (named : List (WinWord × Word)) (staged u : State), words = writtenFrom a.toNat ws
        ∧ named = words.map (fun x => (s.wordAt x.1, x.2))
        ∧ staged = named.foldl (fun g x => g.captureStaging x.1 x.2) s
        ∧ u = named.foldl (fun g x => g.captureWord x.1 x.2) (s.granted t)
        ∧ (((∃ x ∈ named, staged.writeOk x.1 x.2 = false)
              ∨ ((∃ v, (WinWord.anchor .a1, v) ∈ named) ∧ ∃ v, (WinWord.anchor .a7, v) ∈ named)) →
          exec (.hostTransactionArrival t) s = .next (s.answered .refused))
        ∧ (((∀ x ∈ named, staged.writeOk x.1 x.2 = true)
              ∧ ¬((∃ v, (WinWord.anchor .a1, v) ∈ named) ∧ ∃ v, (WinWord.anchor .a7, v) ∈ named)) →
          ((∀ x ∈ named, x.1.isAction = true) →
            exec (.hostTransactionArrival t) s = .next ((u.takeActions named).respond .done))
          ∧ ((∃ x ∈ named, x.1.isAction = false) →
            exec (.hostTransactionArrival t) s = .next (u.setPhase t (.writing
              (groupRuns (words.filter fun x => !(s.wordAt x.1).isAction))
              (named.filter fun x => x.1.isAction))))))
    ∧ ∀ low high v : Word,
      t = .write (s.busAddr 0x14) [⟨true, low⟩, ⟨true, high⟩, ⟨true, v⟩] →
      ((s.fabric = .halted ∧ high.extractLsb' 8 24 = 0) →
        ∃ g u, exec (.hostTransactionArrival t) s = .next g ∧ g.now = s.now ∧ g.mem = s.mem
          ∧ exec .forwardComplete g = .next u
          ∧ u = ({ s with
              now := high.extractLsb' 0 8 ++ low, setTimeLow := low, setTimeHigh := high, mem := u.mem } : State).answered
            .done
          ∧ u.mem = s.mem.writeWords (s.base + 0x14) [low, high])
      ∧ (¬(s.fabric = .halted ∧ high.extractLsb' 8 24 = 0) →
        exec (.hostTransactionArrival t) s = .next (s.answered .refused))

/-- A read inside the window that crosses no 64-byte boundary (R164, R8, R159, R160): its pieces, in the order of the
addresses, are the answered words, each answered by its owner, and the longest runs of words between them, each forwarded
as one read; together they are the words of the span. The read of one word that is not answered returns memory. The words
answered are those of the anchor but A5, A6, A17 and A18, of the ports but P0, of the Slot Table, W10, W11 and W15 of a row,
and the meter words. That arrival, grant and judgement are one event, and each piece the next, is the model's reading
(log 7). -/
def Obligations.ReadsInsideWindow : Prop :=
  ∀ s : State, s.busIdle →
    (∀ (a : Word) (n : Nat), (Transaction.read a n).wf = true → s.insideWindow (.read a n) = true →
      crosses (.read a n) = false →
      ∃ pieces : List ReadPiece,
        exec (.hostTransactionArrival (.read a n)) s = .next { s with path := { s.path with
          current := some ⟨.read a n, .reading [] pieces⟩, mside := .pside, lastGrant := .pside } }
        ∧ (pieces.flatMap fun x => match x with
            | .run b m => (spanFrom b m).map fun y => ReadPiece.run y 1
            | .answer w => [.answer w])
          = (spanFrom a.toNat n).map (fun y =>
            if (s.wordAt y).isAnswered then .answer (s.wordAt y) else .run y 1)
        ∧ (∀ b m, ReadPiece.run b m ∈ pieces → 0 < m)
        ∧ ∀ i b m x l, pieces[i]? = some (.run b m) → pieces[i + 1]? ≠ some (.run x l))
    ∧ (∀ off, off < Config.windowBytes → off % 4 = 0 → (locate off).isAnswered = false →
      s.reads off (s.mem.readWord (s.base + off)))
    ∧ ∀ w : WinWord, w.isAnswered = true ↔
      ((∃ x, w = .anchor x ∧ x ≠ .a5 ∧ x ≠ .a6 ∧ x ≠ .a17 ∧ x ≠ .a18) ∨ (∃ p x, w = .port p x ∧ x ≠ .p0)
        ∨ (∃ p i, w = .slot p i) ∨ (∃ r i, w = .row r i ∧ (i.val = 10 ∨ i.val = 11 ∨ i.val = 15))
        ∨ ∃ r i, w = .meter r i)

/-- MSIDE_GRANT (R166), shown with a host transaction outside the window: the requester that waits alone is granted,
of two the one that was not granted last. That a grant can still be open when the command comes is the model's reading
(log 8); that M-side held, or wanted by nobody, stays as it is, is the model's choice (log 12). -/
def Obligations.ArbiterGrants : Prop :=
  ∀ (t : Transaction) (s : State), s.outsideWindow t = true →
    ((s.path.mside = .free ∧ s.path.current = some ⟨t, .arrived⟩
        ∧ (s.path.outbound = [] ∨ s.path.lastGrant = .outbound)) →
      exec .msideGrant s = .next { s with path := { s.path with
        current := some ⟨t, forwardedPhase t⟩, mside := .pside, lastGrant := .pside } })
    ∧ ((s.path.mside = .free ∧ s.path.outbound ≠ [] ∧ (s.path.current = none
          ∨ (s.path.current = some ⟨t, .arrived⟩ ∧ s.path.lastGrant = .pside))) →
      exec .msideGrant s = .next { s with path := { s.path with mside := .outbound, lastGrant := .outbound } })
    ∧ ((s.path.mside ≠ .free ∨ (s.path.outbound = [] ∧ s.path.current = none)) → exec .msideGrant s = .next s)

/-- FORWARD_COMPLETE (R162, R163, R164): a completed run of a write is in memory, and after the last one the burst's
actions are taken in order against the state of that event and the host is answered DONE; a read takes its next run from
memory, or its next answered word from the owner with what answering does, and is answered with the words after the
last. How much one command does, with the last run, the actions and the response in one event, is the model's reading
(log 7). The actions then: AMEND and CANCEL are queued on a row HELD or LIVE and change nothing on any other; MARK changes
nothing on a row not LIVE; SELECT changes nothing out of pair mode, on the active member, or naming a partner that is not
carrying, and else makes it active;
ATTACH starts the test where the conditions of R114 still hold, and changes nothing elsewhere; DETACH ends a running
test ABORTED and changes nothing without one; ARM enters by the link state of that event. -/
def Obligations.ForwardCompleteDoesNextPart : Prop :=
  ∀ (t : Transaction) (s : State), s.path.mside = .pside →
    (∀ run runs acts, s.path.current = some ⟨t, .writing (run :: runs) acts⟩ →
      (runs ≠ [] → exec .forwardComplete s = .next { s with
        mem := s.mem.writeRun run, path := { s.path with current := some ⟨t, .writing runs acts⟩ } })
      ∧ (runs = [] → exec .forwardComplete s
          = .next ((({ s with mem := s.mem.writeRun run } : State).takeActions acts).respond .done)))
    ∧ (∀ got a n rest, s.path.current = some ⟨t, .reading got (.run a n :: rest)⟩ →
      (rest ≠ [] → exec .forwardComplete s = .next { s with
        path := { s.path with current := some ⟨t, .reading (got ++ s.mem.readWords a n) rest⟩ } })
      ∧ (rest = [] → exec .forwardComplete s = .next (s.respond (.data (got ++ s.mem.readWords a n)))))
    ∧ (∀ got w rest, s.path.current = some ⟨t, .reading got (.answer w :: rest)⟩ →
      (rest ≠ [] → exec .forwardComplete s
        = .next ((s.answerEffect w).setPhase t (.reading (got ++ [s.answer w]) rest)))
      ∧ (rest = [] → exec .forwardComplete s
        = .next ((s.answerEffect w).respond (.data (got ++ [s.answer w])))))
    ∧ (s.takeActions [] = s
      ∧ ∀ w v more, s.takeActions ((w, v) :: more) = (s.takeActions [(w, v)]).takeActions more)
    ∧ (∀ (r : RowId) (v : Word) (f : InFlight) (a : Action),
      ((v = 2 ∧ f = .amend ∧ a = .amend) ∨ (v = 3 ∧ f = .cancel ∧ a = .cancel)) →
      (((s.row r).state = .held ∨ (s.row r).state = .live) →
        s.takeActions [(.row r 15, v)] = { s with
          rows := s.rows.set r { s.row r with inFlight := f }, actionQueue := s.actionQueue ++ [⟨r, a⟩] })
      ∧ (((s.row r).state ≠ .held ∧ (s.row r).state ≠ .live) → s.takeActions [(.row r 15, v)] = s))
    ∧ (∀ r : RowId, (s.row r).state ≠ .live → s.takeActions [(.row r 15, 4)] = s)
    ∧ (∀ (k : PairId) (m : Member) (v : Word), v = BitVec.ofNat 32 m.code →
      (((s.port (evenPort k)).cfg.pairMode = false ∨ s.active[k] = m
          ∨ (s.port (memberPort k m)).carrying = false) →
        s.takeActions [(.port (evenPort k) .p12, v)] = s)
      ∧ (((s.port (evenPort k)).cfg.pairMode = true ∧ s.active[k] ≠ m ∧ (s.port (memberPort k m)).carrying = true) →
        ∃ u, s.takeActions [(.port (evenPort k) .p12, v)] = u ∧ u.active = s.active.set k m ∧ u.ports = s.ports))
    ∧ (∀ p, s.attachAllowed p →
      (s.takeActions [(.anchor .a16, 1)]).prover = ⟨true, s.prover.port, s.prover.duration, .none, false, 0, 0, 0, 0,
          BitVec.allOnes 23, BitVec.allOnes 23⟩
        ∧ (s.takeActions [(.anchor .a16, 1)]).claimed = some p)
    ∧ ((∀ p, ¬s.attachAllowed p) → s.takeActions [(.anchor .a16, 1)] = s)
    ∧ (s.prover.running = true →
      (s.takeActions [(.anchor .a16, 2)]).prover = { s.prover with running := false, outcome := .aborted })
    ∧ (s.prover.running = false → s.takeActions [(.anchor .a16, 2)] = s)
    ∧ ∀ p, s.takeActions [(.port p .p8, 1)] = s.setPort p { s.port p with
        capture := ⟨if (s.port p).link = .up ∨ (s.port p).link = .suspect then .armed else .waitUp, 0, 0⟩ }

/-- A forwarded word of the window, and by PLAIN_WRITE one outside it or one inside it that no chapter names, is in
memory when the host is answered DONE, and every byte outside it reads as before (R157, R158, R159, R162; the bytes'
order in a word is the model's, log 3). -/
def Obligations.ForwardedWordsReachMemory : Prop :=
  ∀ s : State, s.busIdle → Memory.wf s.mem →
    (∀ (off : Nat) (v : Word), off < Config.windowBytes → off % 4 = 0 →
      ∃ u, exec .forwardComplete (s.forwarding off v) = .next u
        ∧ u = ({ s with mem := u.mem } : State).answered .done
        ∧ u.mem.readWord (s.base + off) = v
        ∧ ∀ a, a < s.base + off ∨ s.base + off + 4 ≤ a → u.mem.readByte a = s.mem.readByte a)
    ∧ ∀ addr v : Word, addr.toNat % 4 = 0 → (s.inWindow addr.toNat = false ∨ s.wordAt addr.toNat = .plain) →
      ∃ t u, exec (.plainWrite addr v) s = .next t
        ∧ t = { s with path := { s.path with
            mside := .pside, lastGrant := .pside
            current := some ⟨.write addr [⟨true, v⟩], .writing [[(addr.toNat, v)]] []⟩ } }
        ∧ exec .forwardComplete t = .next u
        ∧ u = ({ s with mem := u.mem } : State).answered .done
        ∧ u.mem.readWord addr.toNat = v
        ∧ ∀ a, a < addr.toNat ∨ addr.toNat + 4 ≤ a → u.mem.readByte a = s.mem.readByte a

/-- A0 (R168): a read answers the identity whatever the state, and a write is refused. -/
def Obligations.IdentityWord : Prop :=
  ∀ s : State, s.busIdle →
    (∃ t, exec (.hostTransactionArrival (s.readOne 0)) s = .next t
      ∧ exec .forwardComplete t = .next (s.answered (.data [0x24400103])))
    ∧ ∀ v, exec (.hostTransactionArrival (s.writeOne 0 v)) s = .next (s.answered .refused)

/-- The answered words that a read does not change: W10 and W11 column by column of the table of R6, P1 (R88), the Slot
Table words from the entries of the port's logical port (R54), A2 (R175), the other status words, counts and indices of
the anchor, the ports and the meters (R31, R91, R97, R113, R138, R149, R174), and 0 for an ACTION word (R159); each in
every state, and the read changes nothing. Arrival, grant and judgement are one event and the answer the next, by the
model's reading (log 7). -/
def Obligations.AnsweredWordValues : Prop :=
  ∀ (r : RowId) (p : PortId) (i : SlotId) (s : State), s.busIdle →
    (∃ x, x = s.row r
      ∧ s.reads (0x10000 + 64 * r.val + 40) (BitVec.ofNat 32 x.state.code
        ||| (if x.state = .empty ∨ x.state = .posting then 0 else BitVec.ofNat 32 (2 ^ 3 * x.inFlight.code))
        ||| (if x.state = .posting then 0 else BitVec.ofNat 32 (2 ^ 5 * x.lastResult.code))
        ||| (if x.state = .live ∨ x.state = .ended then
            BitVec.ofNat 32 (2 ^ 10 * x.health.code) ||| BitVec.ofNat 32 (2 ^ 12 * x.meter.closed.length) else 0)
        ||| (if x.state = .posting ∨ x.state = .held then 0 else BitVec.ofNat 32 (2 ^ 15 * x.late.toNat))
        ||| (if x.state = .empty ∨ x.state = .ended then BitVec.ofNat 32 (2 ^ 16 * x.endReason.code) else 0)
        ||| (if x.state = .empty then 0 else BitVec.ofNat 32 (2 ^ 24 * (x.currentEnd.toNat / 2 ^ 32))))
      ∧ s.reads (0x10000 + 64 * r.val + 44)
        (if x.state = .empty then x.settleSeq else x.currentEnd.extractLsb' 0 32)
      ∧ s.reads (0x14000 + 16 * r.val + 4) x.hold.served ∧ s.reads (0x14000 + 16 * r.val + 8) x.hold.outage
      ∧ s.reads (0x14000 + 16 * r.val + 12) (x.hold.switchCount ++ x.hold.outageCount))
    ∧ (∃ o b, o = s.port p ∧ b = 0x1000 + 128 * p.val
      ∧ s.reads (b + 4) (BitVec.ofNat 32 o.link.code ||| BitVec.ofNat 32 (2 ^ 3 * o.carrying.toNat)
        ||| BitVec.ofNat 32 (2 ^ 4 * o.rdy.value.toNat) ||| BitVec.ofNat 32 (2 ^ 5 * o.backup.value.toNat)
        ||| BitVec.ofNat 32 (2 ^ 6 * o.inputLoss.value.toNat) ||| BitVec.ofNat 32 (2 ^ 7 * o.channel.loop.toNat)
        ||| BitVec.ofNat 32 (2 ^ 8 * o.channel.corrupt.toNat)
        ||| BitVec.ofNat 32 (2 ^ 9 * o.channel.hubCorrupting.toNat)
        ||| (if s.claimed = some p then BitVec.ofNat 32 (2 ^ 10) else 0)
        ||| (if s.inPair p = true ∧ s.active[pairOf p] = .odd then BitVec.ofNat 32 (2 ^ 11) else 0)
        ||| BitVec.ofNat 32 (2 ^ 12 * o.lastDown.code))
      ∧ s.reads (b + 24) ((if o.channel.outstanding = none then 0 else 1)
        ||| BitVec.ofNat 32 (2 * o.channel.lastCommand.toNat) ||| BitVec.ofNat 32 (2 ^ 4 * o.channel.lastResult.code)
        ||| BitVec.ofNat 32 (2 ^ 8 * o.channel.sent))
      ∧ s.reads (b + 28) (o.channel.lastReport.setWidth 32)
      ∧ s.reads (b + 36) (BitVec.ofNat 32 o.capture.state.code)
      ∧ s.reads (b + 40) (o.capture.start.extractLsb' 0 32)
      ∧ s.reads (b + 44) (if o.capture.state = .timing then
          BitVec.ofNat 32 (min (2 ^ 32 - 1) (s.now.toNat - o.capture.start.toNat)) else o.capture.duration))
    ∧ (∃ l, l = s.port (s.logical p) ∧ s.reads (0x2000 + 160 * p.val + 4 * i.val)
      ((match l.txOwner[i] with
        | some q => BitVec.ofNat 32 (2 ^ 31 + 2 ^ 16 * q.val)
        | none => 0)
      ||| (match l.rxOwner[i] with
        | some q => BitVec.ofNat 32 (2 ^ 15 + q.val)
        | none => 0)))
    ∧ s.reads 0x08 (BitVec.ofNat 32 s.fabric.code ||| BitVec.ofNat 32 (2 ^ 2 * s.notice.overflow.toNat)
      ||| (if s.settle.unit = .waitRing then 8 else 0) ||| BitVec.ofNat 32 (2 ^ 4 * s.prover.running.toNat))
    ∧ s.reads 0x10 (s.timeHold.setWidth 32)
    ∧ s.reads 0x20 (s.notice.produce.setWidth 32) ∧ s.reads 0x24 (s.notice.consume.setWidth 32)
    ∧ s.reads 0x28 (s.settle.append.setWidth 32) ∧ s.reads 0x2C (s.settle.release.setWidth 32)
    ∧ s.reads 0x30 s.settle.nextSeq
    ∧ s.reads 0x4C (BitVec.ofNat 32 s.prover.running.toNat ||| BitVec.ofNat 32 (2 * s.prover.locked.toNat)
      ||| BitVec.ofNat 32 (2 ^ 2 * s.prover.outcome.code) ||| BitVec.ofNat 32 (2 ^ 8 * (s.prover.port.toNat % 32)))
    ∧ s.reads 0x50 s.prover.errorBits ∧ s.reads 0x54 s.prover.elapsed ∧ s.reads 0x58 s.prover.lockedTime
    ∧ ∀ off, off < Config.windowBytes → off % 4 = 0 → (locate off).isAction = true → s.reads off 0

/-- A write to an ANSWERED, ANSWERED-CLEARING or ANSWERED-SNAPSHOT word is refused whatever value it carries, and
changes nothing (R159). A write to a word of a held settlement record or of the slot in writing is refused (R148, R146),
and so is one to an unconsumed entry of the Notice Ring or to the entry of a notice in writing, which are the entries that
follow (R171, R173); a write to any other word of the two rings is forwarded. A value that names no action is refused:
in A1 and A16 other than 1 and 2 (R34, R113), in P5 other than 1 to 3 (R98), in P8 other than 1 and 2 (R89). -/
def Obligations.AnsweredWordsRefuseWrites : Prop :=
  ∀ s : State, s.busIdle →
    (∀ (off : Nat) (v : Word), off < Config.windowBytes → off % 4 = 0 → (locate off).answersOnly = true →
      exec (.hostTransactionArrival (s.writeOne off v)) s = .next (s.answered .refused))
    ∧ (∀ (off : Nat) (v : Word) (p : PortId),
      (((off = 0x04 ∨ off = 0x40 ∨ off = 0x1000 + 128 * p.val + 32) ∧ v ≠ 1 ∧ v ≠ 2)
        ∨ (off = 0x1000 + 128 * p.val + 20 ∧ v ≠ 1 ∧ v ≠ 2 ∧ v ≠ 3)) →
      exec (.hostTransactionArrival (s.writeOne off v)) s = .next (s.answered .refused))
    ∧ (∀ (i : Fin 512) (j : Fin 32) (v : Word), ∃ off, off = 0x40000 + 128 * i.val + 4 * j.val
      ∧ (((∃ k : BitVec 10, k.toNat % 512 = i.val
            ∧ ringDist k s.settle.release < ringDist s.settle.append s.settle.release)
          ∨ ∃ w, s.settle.writing = some w ∧ w.index.toNat % 512 = i.val) →
        exec (.hostTransactionArrival (s.writeOne off v)) s = .next (s.answered .refused))
      ∧ (¬((∃ k : BitVec 10, k.toNat % 512 = i.val
            ∧ ringDist k s.settle.release < ringDist s.settle.append s.settle.release)
          ∨ ∃ w, s.settle.writing = some w ∧ w.index.toNat % 512 = i.val) →
        exec (.hostTransactionArrival (s.writeOne off v)) s = .next (s.forwarding off v)))
    ∧ ∀ (i : Fin 512) (j : Fin 4) (v : Word), ∃ off, off = 0x20000 + 16 * i.val + 4 * j.val
      ∧ ((∃ k : BitVec 10, k.toNat % 512 = i.val ∧ ringDist k s.notice.consume
            < ringDist s.notice.produce s.notice.consume + s.notice.inWriting.length) →
        exec (.hostTransactionArrival (s.writeOne off v)) s = .next (s.answered .refused))
      ∧ ((¬∃ k : BitVec 10, k.toNat % 512 = i.val ∧ ringDist k s.notice.consume
            < ringDist s.notice.produce s.notice.consume + s.notice.inWriting.length) →
        exec (.hostTransactionArrival (s.writeOne off v)) s = .next (s.forwarding off v))

/-- TIME_READ (R31): A3 answers the low 32 bits of now and its high 8 bits fill the time hold. METER_SNAPSHOT_READ
(R138, R139): M0 answers the carriage and fills the row's hold from the same moment. COUNTER_READ (R85): P2 answers and
zeroes the near-end count, P3 the far-end count, P4 the hit count and the slip flag. Everything else stays. That the
arrival, the grant and the answer are one event is the model's reading (log 7). -/
def Obligations.ClearingAndSnapshotReads : Prop :=
  ∀ (r : RowId) (p : PortId) (s : State), s.busIdle →
    exec .timeRead s
      = .next (({ s with timeHold := s.now.extractLsb' 32 8 } : State).answered (.data [s.now.extractLsb' 0 32]))
    ∧ (((s.row r).state = .live ∨ (s.row r).state = .ended) →
      exec (.meterSnapshotRead r) s = .next (({ s with rows := s.rows.set r { s.row r with
          hold := ⟨(s.row r).meter.served, (s.row r).meter.outage, (s.row r).meter.outageCount,
            (s.row r).meter.switchCount⟩ } } : State).answered (.data [(s.row r).meter.carriage])))
    ∧ (((s.row r).state ≠ .live ∧ (s.row r).state ≠ .ended) →
      exec (.meterSnapshotRead r) s = .next (({ s with rows := s.rows.set r { s.row r with
          hold := ⟨0, 0, 0, 0⟩ } } : State).answered (.data [0])))
    ∧ exec (.counterRead p .nearEnd) s
      = .next ((s.setPort p { s.port p with nearEnd := 0 }).answered (.data [(s.port p).nearEnd.setWidth 32]))
    ∧ exec (.counterRead p .farEnd) s
      = .next ((s.setPort p { s.port p with farEnd := 0 }).answered (.data [(s.port p).farEnd.setWidth 32]))
    ∧ exec (.counterRead p .hits) s
      = .next ((s.setPort p { s.port p with hits := 0, slip := false }).answered
          (.data [(BitVec.ofBool (s.port p).slip ++ (s.port p).hits).setWidth 32]))

/-! ## Port words -/

/-- A P0 write is refused exactly when R51 says so: a spare bit is 1; pair mode on an odd port; a disable of a port that a
HELD or LIVE booking uses, or of a member of a pair in pair mode; a change of pair mode while a HELD or LIVE booking names
either port, the Action Queue is not empty, or the Line Prover is attached to either; pair mode turned on with either port
not enabled. A refused write changes nothing. -/
def Obligations.ConfigWriteRefusals : Prop :=
  ∀ (p : PortId) (v : Word) (s : State),
    (s.configOk p v = false ↔
      (v.extractLsb' 4 4 ≠ 0 ∨ v.extractLsb' 16 16 ≠ 0)
      ∨ (p.val % 2 = 1 ∧ v.getLsbD 1 = true)
      ∨ ((s.port p).cfg.enable = true ∧ v.getLsbD 0 = false
        ∧ ((∃ r, ((s.row r).state = .held ∨ (s.row r).state = .live)
            ∧ (s.logical (sourcePort (s.row r).captured) = s.logical p
              ∨ ∃ d ∈ destPorts (s.row r).captured, s.logical d = s.logical p))
          ∨ (s.port (evenPort (pairOf p))).cfg.pairMode = true))
      ∨ (p.val % 2 = 0 ∧ v.getLsbD 1 ≠ (s.port p).cfg.pairMode
        ∧ ((∃ r q, ((s.row r).state = .held ∨ (s.row r).state = .live) ∧ (q = p ∨ q = oddPort (pairOf p))
            ∧ (q = sourcePort (s.row r).captured ∨ q ∈ destPorts (s.row r).captured))
          ∨ s.actionQueue ≠ []
          ∨ (s.prover.running = true
            ∧ (s.prover.port = BitVec.ofNat 32 p.val ∨ s.prover.port = BitVec.ofNat 32 (p.val + 1)))))
      ∨ (p.val % 2 = 0 ∧ v.getLsbD 1 = true ∧ (s.port p).cfg.pairMode = false
        ∧ (v.getLsbD 0 = false ∨ (s.port (oddPort (pairOf p))).cfg.enable = false)))
    ∧ (s.busIdle → s.configOk p v = false →
      exec (.hostTransactionArrival (s.writeOne (0x1000 + 128 * p.val) v)) s = .next (s.answered .refused))

/-- PORT_ENABLE (R51, R92): an accepted word that enables the port takes it to ACQUIRE, handing LINK_STATE, with its
counts and status clear, and is forwarded; nothing of the other ports, the rows or the channel changes. A word that
R51 refuses changes nothing. -/
def Obligations.PortEnableEntersAcquire : Prop :=
  ∀ (p : PortId) (v : Word) (s : State), s.busIdle →
    ((s.configOk p (setBit v 0 true) = true ∧ (s.port p).cfg.enable = false
        ∧ v.getLsbD 1 = (s.port p).cfg.pairMode) →
      ∃ w : Word, w = setBit v 0 true
        ∧ exec (.portEnable p v) s = .next
        ((((s.granted (s.writeOne (portOffset p .p0) w)).setPort p { s.port p with
            cfg := ⟨true, v.getLsbD 1, v.getLsbD 2, v.getLsbD 3, v.extractLsb' 8 8⟩
            link := .acquire, receiver := .searching none 0, lastOffset := none
            rdy := ⟨false, 0⟩, backup := ⟨false, 0⟩, inputLoss := ⟨false, 0⟩
            repBackup := false, repInputLoss := false, nearEnd := 0, farEnd := 0, hits := 0, slip := false
            window := none, tReady := none, tHold := none, tRestore := none }).handNotice .linkState p.val 1
              (BitVec.ofNat 32 (s.port p).link.code) 1).setPhase (s.writeOne (portOffset p .p0) w)
            (.writing [[((s.busAddr (portOffset p .p0)).toNat, w)]] [])))
    ∧ (s.configOk p (setBit v 0 true) = false → exec (.portEnable p v) s = .next (s.answered .refused))

/-- PORT_DISABLE (R51, R93, R109, R121): an accepted word that disables the port takes it to OFF with its counts,
status, window and timers clear, its capture IDLE, its channel emptied and any command ended NO_LINK, a test on it
ended ABORTED, and not carrying; the last down reason is kept, and no other port and no row changes. -/
def Obligations.PortDisableEntersOff : Prop :=
  ∀ (p : PortId) (v : Word) (s : State), s.busIdle →
    ((s.configOk p (setBit v 0 false) = true ∧ (s.port p).cfg.enable = true ∧ (s.port p).link ≠ .off
        ∧ v.getLsbD 1 = (s.port p).cfg.pairMode) →
      ∃ t, exec (.portDisable p v) s = .next t
        ∧ (t.port p).cfg = ⟨false, v.getLsbD 1, v.getLsbD 2, v.getLsbD 3, v.extractLsb' 8 8⟩
        ∧ (t.port p).link = .off ∧ (t.port p).receiver = .searching none 0 ∧ (t.port p).lastOffset = none
        ∧ (t.port p).rdy.value = false ∧ (t.port p).backup.value = false ∧ (t.port p).inputLoss.value = false
        ∧ (t.port p).repBackup = false ∧ (t.port p).repInputLoss = false
        ∧ (t.port p).nearEnd = 0 ∧ (t.port p).farEnd = 0 ∧ (t.port p).hits = 0 ∧ (t.port p).slip = false
        ∧ (t.port p).window = none ∧ (t.port p).tReady = none ∧ (t.port p).tHold = none ∧ (t.port p).tRestore = none
        ∧ (t.port p).lastDown = (s.port p).lastDown
        ∧ (t.port p).capture = { (s.port p).capture with state := .idle }
        ∧ (t.port p).rx = idlePayload ∧ (t.port p).carrying = false
        ∧ (t.port p).channel.loop = false ∧ (t.port p).channel.corrupt = false
        ∧ (t.port p).channel.hubCorrupting = false ∧ (t.port p).channel.lastReport = 0
        ∧ (t.port p).channel.outstanding = none
        ∧ (t.port p).channel.lastResult = (if (s.port p).channel.outstanding = none then
            (s.port p).channel.lastResult else .noLink)
        ∧ (s.claimed = some p → t.prover = { s.prover with running := false, outcome := .aborted })
        ∧ (s.claimed ≠ some p → t.prover = s.prover)
        ∧ (∀ q, q ≠ p → t.port q = s.port q) ∧ t.rows = s.rows ∧ t.mem = s.mem
        ∧ t.path.current = some ⟨s.writeOne (portOffset p .p0) (setBit v 0 false),
            .writing [[((s.busAddr (portOffset p .p0)).toNat, setBit v 0 false)]] []⟩)
    ∧ (s.configOk p (setBit v 0 false) = false → exec (.portDisable p v) s = .next (s.answered .refused))

/-- PAIR_MODE_ON (R51, R53): an accepted word that joins the pair makes the even member active, or the odd one when
only that is carrying, with SWITCHOVER, which counts no booking, where the ring has room; it is forwarded, and no port
changes but for its configuration. A word of PORT_ENABLE that also joins the pair (R52, R92) first takes the even port to
ACQUIRE, with LINK_STATE, and then joins it likewise. PAIR_MODE_OFF (R51, R53): an accepted word that splits the pair
records the even member as active and is forwarded. PORT_OPTIONS_WRITE (R50, R51, R52): an accepted word sets one-look,
count-during-check and the error threshold, leaves the span running, and is forwarded. Nothing else changes; a word that
R51 refuses changes nothing. -/
def Obligations.PairModeAndOptionsWrites : Prop :=
  ∀ (k : PairId) (p : PortId) (v : Word) (s : State), s.busIdle →
    ((s.configOk (evenPort k) (setBit v 1 true) = true ∧ (s.port (evenPort k)).cfg.pairMode = false
        ∧ (s.port (evenPort k)).cfg.enable = true) →
      ∃ t, exec (.pairModeOn k v) s = .next t
        ∧ (t.port (evenPort k)) = { s.port (evenPort k) with
            cfg := ⟨true, true, v.getLsbD 2, v.getLsbD 3, v.extractLsb' 8 8⟩ }
        ∧ t.active[k] = (if (s.port (evenPort k)).carrying = false ∧ (s.port (oddPort k)).carrying = true then .odd
            else .even)
        ∧ (∀ j : PairId, j ≠ k → t.active[j] = s.active[j])
        ∧ (∀ q, q ≠ evenPort k → t.port q = s.port q) ∧ t.rows = s.rows ∧ t.mem = s.mem
        ∧ ((s.port (evenPort k)).carrying = false → (s.port (oddPort k)).carrying = true → s.roomFor 1 →
          s.hands t .switchover (evenPort k).val 1 1 0)
        ∧ t.path.current = some ⟨s.writeOne (portOffset (evenPort k) .p0) (setBit v 1 true),
            .writing [[((s.busAddr (portOffset (evenPort k) .p0)).toNat, setBit v 1 true)]] []⟩)
    ∧ (s.configOk (evenPort k) (setBit v 1 true) = false → exec (.pairModeOn k v) s = .next (s.answered .refused))
    ∧ ((s.configOk (evenPort k) (setBit v 0 true) = true ∧ (s.port (evenPort k)).cfg.enable = false
        ∧ (s.port (evenPort k)).cfg.pairMode = false ∧ v.getLsbD 1 = true) →
      ∃ t, exec (.portEnable (evenPort k) v) s = .next t
        ∧ t.port (evenPort k) = { s.port (evenPort k) with
            cfg := ⟨true, true, v.getLsbD 2, v.getLsbD 3, v.extractLsb' 8 8⟩
            link := .acquire, receiver := .searching none 0, lastOffset := none
            rdy := ⟨false, 0⟩, backup := ⟨false, 0⟩, inputLoss := ⟨false, 0⟩
            repBackup := false, repInputLoss := false, nearEnd := 0, farEnd := 0, hits := 0, slip := false
            window := none, tReady := none, tHold := none, tRestore := none }
        ∧ t.active = s.active.set k (if (s.port (evenPort k)).carrying = false
            ∧ (s.port (oddPort k)).carrying = true then .odd else .even)
        ∧ (∀ q, q ≠ evenPort k → t.port q = s.port q) ∧ t.rows = s.rows ∧ t.mem = s.mem
        ∧ (s.roomFor 1 → s.hands t .linkState (evenPort k).val 1 (BitVec.ofNat 32 (s.port (evenPort k)).link.code) 1)
        ∧ ((s.port (evenPort k)).carrying = false → (s.port (oddPort k)).carrying = true → s.roomFor 2 →
          s.hands t .switchover (evenPort k).val 1 1 0)
        ∧ t.path.current = some ⟨s.writeOne (portOffset (evenPort k) .p0) (setBit v 0 true),
            .writing [[((s.busAddr (portOffset (evenPort k) .p0)).toNat, setBit v 0 true)]] []⟩)
    ∧ ((s.configOk (evenPort k) (setBit v 1 false) = true ∧ (s.port (evenPort k)).cfg.pairMode = true
        ∧ v.getLsbD 0 = (s.port (evenPort k)).cfg.enable) →
      exec (.pairModeOff k v) s = .next (({ s with
          active := s.active.set k .even
          ports := s.ports.set (evenPort k) { s.port (evenPort k) with
            cfg := ⟨v.getLsbD 0, false, v.getLsbD 2, v.getLsbD 3, v.extractLsb' 8 8⟩ } } : State).forwarding
        (portOffset (evenPort k) .p0) (setBit v 1 false)))
    ∧ (s.configOk (evenPort k) (setBit v 1 false) = false → exec (.pairModeOff k v) s = .next (s.answered .refused))
    ∧ (s.configOk p (s.optionsWord p v) = true →
      exec (.portOptionsWrite p v) s = .next ((s.setPort p { s.port p with
          cfg := ⟨(s.port p).cfg.enable, (s.port p).cfg.pairMode, v.getLsbD 2, v.getLsbD 3, v.extractLsb' 8 8⟩ }).forwarding
        (portOffset p .p0) (s.optionsWord p v)))
    ∧ (s.configOk p (s.optionsWord p v) = false → exec (.portOptionsWrite p v) s = .next (s.answered .refused))

/-- SELECT (R63, R64): refused for an odd port, a value other than 0 and 1, a pair not in pair mode or a named
member that is not carrying; with no effect when the named member is active; otherwise a switchover that counts the
LIVE rows sourced on the pair and leaves every other row as it is, with SWITCHOVER and its number of rows, and FEED_HEALTH
for each health that changed, where the ring still has room afterwards (a count at its maximum is not counted: log 29). -/
def Obligations.SelectSwitchesMember : Prop :=
  ∀ (p : PortId) (v : Word) (s : State), s.busIdle →
    ((p.val % 2 = 1 ∨ (v ≠ 0 ∧ v ≠ 1) ∨ s.inPair p = false) → exec (.select p v) s = .next (s.answered .refused))
    ∧ ∀ m : Member, p.val % 2 = 0 → v = BitVec.ofNat 32 m.code → s.inPair p = true →
      ((s.port (memberPort (pairOf p) m)).carrying = false → exec (.select p v) s = .next (s.answered .refused))
      ∧ (((s.port (memberPort (pairOf p) m)).carrying = true ∧ s.active[pairOf p] = m) →
        exec (.select p v) s = .next (s.answered .done))
      ∧ (((s.port (memberPort (pairOf p) m)).carrying = true ∧ s.active[pairOf p] ≠ m) →
        ∃ t, exec (.select p v) s = .next t
          ∧ t.active = s.active.set (pairOf p) m ∧ t.ports = s.ports ∧ t.mem = s.mem ∧ t.settle = s.settle
          ∧ t.path.response = some .done
          ∧ (t.roomFor 1 → s.hands t .switchover p.val m.code 2
            (BitVec.ofNat 32 ((List.finRange 256).countP fun r => (s.row r).state == .live
              && s.logical (sourcePort (s.row r).captured) == p
              && (s.row r).meter.switchCount != BitVec.allOnes 16)))
          ∧ ∀ r, (((s.row r).state = .live ∧ s.logical (sourcePort (s.row r).captured) = p) →
                (t.row r).meter.switchCount = satInc (s.row r).meter.switchCount
                  ∧ (t.row r).health = t.feedHealth (s.row r).captured
                  ∧ (t.feedHealth (s.row r).captured ≠ (s.row r).health → t.roomFor 1 →
                    s.hands t .feedHealth r.val (t.feedHealth (s.row r).captured).code
                      (BitVec.ofNat 32 (s.row r).health.code) (BitVec.ofNat 32 (memberPort (pairOf p) m).val)))
              ∧ (¬((s.row r).state = .live ∧ s.logical (sourcePort (s.row r).captured) = p) → t.row r = s.row r))

/-- LOOP_ALL, CORRUPT_CHECK and NORMAL (R98, R99, R102): refused on a disabled port or with a command outstanding;
otherwise the command becomes the last command with sent count 0, and ends at once with NO_LINK when the link is
neither UP nor SUSPECT, or, for LOOP_ALL, with IN_SERVICE on a path that a LIVE booking uses; else it stays
outstanding. -/
def Obligations.MaintenanceCommandJudged : Prop :=
  ∀ (c : MaintCommand) (p : PortId) (s : State), s.busIdle →
    ∃ (i : Instr) (g : State) (ch : Channel),
      i = (match c with | .loopAll => .loopAll p | .corruptCheck => .corruptCheck p | .normal => .normal p)
      ∧ g = s.granted (s.writeOne (portOffset p .p5) (BitVec.ofNat 32 c.code))
      ∧ ch = { (s.port p).channel with
          outstanding := some c, lastCommand := BitVec.ofNat 2 c.code, lastResult := .none, sent := 0
          answerKind := none, answerRun := 0 }
      ∧ (((s.port p).cfg.enable = false ∨ (s.port p).channel.outstanding ≠ none) →
        exec i s = .next (s.answered .refused))
      ∧ (((s.port p).cfg.enable = true ∧ (s.port p).channel.outstanding = none
            ∧ (s.port p).link ≠ .up ∧ (s.port p).link ≠ .suspect) →
        exec i s = .next (((g.setChannel p { ch with outstanding := none, lastResult := .noLink }).handNotice .maintResult
          p.val 4 (BitVec.ofNat 32 c.code) 0).respond .done))
      ∧ (((s.port p).cfg.enable = true ∧ (s.port p).channel.outstanding = none
            ∧ ((s.port p).link = .up ∨ (s.port p).link = .suspect)) →
        ((c = .loopAll ∧ s.rxPath p = p ∧ s.liveUses (s.logical p) = true) →
          exec i s = .next (((g.setChannel p { ch with outstanding := none, lastResult := .inService }).handNotice
            .maintResult p.val 5 (BitVec.ofNat 32 c.code) 0).respond .done))
        ∧ (¬(c = .loopAll ∧ s.rxPath p = p ∧ s.liveUses (s.logical p) = true) →
          exec i s = .next ((s.setChannel p ch).answered .done)))

/-- ARM and DISARM (R89): ARM is accepted in IDLE and DONE and enters ARMED when the link is UP or SUSPECT, WAIT_UP
otherwise, with start time and duration 0; it is refused in the other states. DISARM sets the capture to IDLE. -/
def Obligations.ArmAndDisarm : Prop :=
  ∀ (p : PortId) (s : State), s.busIdle →
    (((s.port p).capture.state = .idle ∨ (s.port p).capture.state = .done) →
      exec (.arm p) s = .next ((s.setPort p { s.port p with
        capture := ⟨if (s.port p).link = .up ∨ (s.port p).link = .suspect then .armed else .waitUp, 0, 0⟩ }).answered
          .done))
    ∧ (((s.port p).capture.state ≠ .idle ∧ (s.port p).capture.state ≠ .done) →
      exec (.arm p) s = .next (s.answered .refused))
    ∧ exec (.disarm p) s = .next ((s.setPort p { s.port p with
        capture := { (s.port p).capture with state := .idle } }).answered .done)

/-! ## The Line Prover's words -/

/-- ATTACH (R114, R115): accepted under the conditions of R114, `attachAllowed` for the staged port, it starts the test
and claims the port, which stops carrying; no row's booking, and of the ports only the carrying flag of the claimed one,
changes. Where they hold of no port it is refused: a test runs, the staged port is above 23 or disabled, the duration is 0
or above 3600000, a LIVE booking uses the path, or a HELD one starts before now plus the duration. DETACH (R120, R121):
while RUNNING the test ends ABORTED with its counts kept and the claim over, with PROVER_DONE where the ring has room; it
is refused otherwise. -/
def Obligations.AttachAndDetach : Prop :=
  ∀ (p : PortId) (s : State), s.busIdle →
    (s.attachAllowed p →
      ∃ t, exec .attach s = .next t
        ∧ t.prover = ⟨true, s.prover.port, s.prover.duration, .none, false, 0, 0, 0, 0, BitVec.allOnes 23,
            BitVec.allOnes 23⟩
        ∧ t.claimed = some p
        ∧ t.port p = { s.port p with carrying := false }
        ∧ (∀ q, q ≠ p → t.port q = s.port q) ∧ t.mem = s.mem
        ∧ (∀ r, (t.row r).state = (s.row r).state ∧ (t.row r).captured = (s.row r).captured)
        ∧ t.path.response = some .done)
    ∧ ((∀ q, ¬s.attachAllowed q) → exec .attach s = .next (s.answered .refused))
    ∧ (s.prover.running = true → ∃ t, exec .detach s = .next t
      ∧ t.prover = { s.prover with running := false, outcome := .aborted } ∧ t.claimed = none
      ∧ t.path.response = some .done ∧ t.mem = s.mem
      ∧ (s.roomFor 1 → s.hands t .proverDone (s.prover.port.toNat % 256) 2 s.prover.elapsed s.prover.errorBits)
      ∧ ∀ q, t.port q = { s.port q with carrying := (t.port q).carrying })
    ∧ (s.prover.running = false → exec .detach s = .next (s.answered .refused))

/-! ## Ring indices -/

/-- RELEASE_WRITE (R150, R152) and CONSUME_WRITE (R174): a value with bits [31:10] 0 and within the held, or the
unconsumed, range sets the release index, or the consume index with the overflow flag cleared, and is forwarded; any other
is refused. A release in WAIT_RING that leaves room ends the wait, with A2 bit [3] 0: the head row's record begins, its
halves in the Outbound Queue, or with an action in flight the unit enters WAIT_ACTION; one that leaves the ring full
ends no wait. -/
def Obligations.RingIndexWrites : Prop :=
  ∀ (v : Word) (s : State), s.busIdle →
    ((v.toNat < 1024 ∧ ringDist (v.setWidth 10) s.settle.release ≤ ringDist s.settle.append s.settle.release) →
      ∃ t, exec (.releaseWrite v) s = .next t
        ∧ t.settle.release = v.setWidth 10 ∧ t.settle.append = s.settle.append
        ∧ t.settle.nextSeq = s.settle.nextSeq ∧ t.rows = s.rows ∧ t.mem = s.mem
        ∧ (s.settle.unit ≠ .waitRing →
          t = ({ s with settle := { s.settle with release := v.setWidth 10 } } : State).forwarding 0x2C v)
        ∧ (∀ r others, s.settle.unit = .waitRing → s.settle.writing = none → s.settle.queue = r :: others →
          (ringDist s.settle.append (v.setWidth 10) = 512 →
            t = ({ s with settle := { s.settle with release := v.setWidth 10 } } : State).forwarding 0x2C v
              ∧ (t.answer (.anchor .a2)).getLsbD 3 = true)
          ∧ (ringDist s.settle.append (v.setWidth 10) ≠ 512 → (s.row r).inFlight ≠ .none →
            t = ({ s with settle := { s.settle with
                release := v.setWidth 10, unit := .waitAction } } : State).forwarding 0x2C v
              ∧ (t.answer (.anchor .a2)).getLsbD 3 = false)
          ∧ (ringDist s.settle.append (v.setWidth 10) ≠ 512 → (s.row r).inFlight = .none → OutboundLaw s →
            ∃ ws : List Word, ws = composeRecord (s.row r) s.settle.nextSeq
              ∧ t = ({ s with
                  settle := ⟨others, some ⟨r, s.settle.append, ws⟩, .writing, s.settle.append, v.setWidth 10,
                    s.settle.nextSeq⟩
                  path := { s.path with outbound := [.recordHalf s.settle.append false (ws.take 16),
                    .recordHalf s.settle.append true (ws.drop 16)] } } : State).forwarding 0x2C v
              ∧ (t.answer (.anchor .a2)).getLsbD 3 = false))
        ∧ t.path.current = some ⟨s.writeOne 0x2C v, .writing [[((s.busAddr 0x2C).toNat, v)]] []⟩)
    ∧ (¬(v.toNat < 1024 ∧ ringDist (v.setWidth 10) s.settle.release ≤ ringDist s.settle.append s.settle.release) →
      exec (.releaseWrite v) s = .next (s.answered .refused))
    ∧ ((v.toNat < 1024 ∧ ringDist (v.setWidth 10) s.notice.consume ≤ ringDist s.notice.produce s.notice.consume) →
      exec (.consumeWrite v) s = .next (({ s with notice := { s.notice with
        consume := v.setWidth 10, overflow := false } } : State).forwarding 0x24 v))
    ∧ (¬(v.toNat < 1024 ∧ ringDist (v.setWidth 10) s.notice.consume ≤ ringDist s.notice.produce s.notice.consume) →
      exec (.consumeWrite v) s = .next (s.answered .refused))

/-! ## The Admission Unit -/

/-- The checks of a POST (R2, R19 to R22) on the captured words `w`, the ports, now and the kept rows. MALFORMED: a spare bit,
a slot count not 1 to 8, a destination count not 1 to 4, an unused destination field not 0, a port above 23, two of the
ports named on one logical port, an end not later than the start or more than 604800000 ms after it. BAD_PORT: a named
port disabled, or the odd member of a pair in pair mode. TOO_LATE: an end not later than now, or a start earlier than now
without LATE_OK. The capacity check: with the slots of the other HELD and LIVE rows whose windows overlap, at most 40 on the
source and on each destination. A row whose end is not later than now, as an overdue row's, bars no window that begins at
now or later (R39); that an overdue row, being HELD, is counted where a window that begins before now overlaps its own is
the model's reading (log 33). -/
def Obligations.PostChecksOnCapturedWords : Prop :=
  ∀ (w : Vector Word 8) (s : State),
    ∃ (slots src count : Nat) (dest : Nat → Nat) (start stop : Time),
      slots = (w[2].extractLsb' 8 4).toNat ∧ src = (w[2].extractLsb' 0 5).toNat
      ∧ count = (w[3].extractLsb' 20 3).toNat ∧ (∀ i, dest i = (w[3].extractLsb' (5 * i) 5).toNat)
      ∧ start = w[5].extractLsb' 0 8 ++ w[4] ∧ stop = w[7].extractLsb' 0 8 ++ w[6]
      ∧ slotCount w = slots ∧ bookedStart w = start ∧ bookedEnd w = stop
      ∧ (∀ p : PortId, p.val = src → sourcePort w = p)
      ∧ (∀ p : PortId, (∀ i, i < 4 → i < count → dest i ≤ 23) →
        (p ∈ destPorts w ↔ ∃ i, i < 4 ∧ i < count ∧ dest i = p.val))
      ∧ (∀ p : PortId, (s.logical p).val
        = if (s.port (evenPort (pairOf p))).cfg.pairMode = true then p.val / 2 * 2 else p.val)
      ∧ (s.malformed w = true ↔
        (w[2].extractLsb' 5 3 ≠ 0 ∨ w[2].extractLsb' 14 2 ≠ 0 ∨ w[2].extractLsb' 17 15 ≠ 0
          ∨ w[3].extractLsb' 23 9 ≠ 0 ∨ w[5].extractLsb' 8 24 ≠ 0 ∨ w[7].extractLsb' 8 24 ≠ 0)
        ∨ slots = 0 ∨ 8 < slots ∨ count = 0 ∨ 4 < count
        ∨ (∃ i, i < 4 ∧ count ≤ i ∧ dest i ≠ 0)
        ∨ 23 < src ∨ (∃ i, i < 4 ∧ i < count ∧ 23 < dest i)
        ∨ (∃ p q : PortId, s.logical p = s.logical q
          ∧ ((∃ i j, i < j ∧ j < 4 ∧ j < count ∧ dest i = p.val ∧ dest j = q.val)
            ∨ (src = p.val ∧ ∃ j, j < 4 ∧ j < count ∧ dest j = q.val)))
        ∨ stop.toNat ≤ start.toNat ∨ start.toNat + 604800000 < stop.toNat)
      ∧ (s.malformed w = false →
        (s.badPort w = true ↔ ∃ p : PortId, (p.val = src ∨ ∃ i, i < count ∧ p.val = dest i)
          ∧ ((s.port p).cfg.enable = false
            ∨ (p.val % 2 = 1 ∧ (s.port (evenPort (pairOf p))).cfg.pairMode = true))))
      ∧ (s.postTooLate w = true ↔
        stop.toNat ≤ s.now.toNat ∨ (start.toNat < s.now.toNat ∧ w[2].getLsbD 16 = false))
      ∧ ∀ (r : RowId) (lo hi : Nat), ∃ (kept : RowId → Bool) (rx tx : PortId → Nat),
        (∀ q, kept q = true ↔ q ≠ r ∧ ((s.row q).state = .held ∨ (s.row q).state = .live)
          ∧ (if (s.row q).state = .live then (s.row q).actualStart else bookedStart (s.row q).captured).toNat < hi
          ∧ lo < (s.row q).currentEnd.toNat)
        ∧ (∀ q, (s.row q).currentEnd.toNat ≤ s.now.toNat → s.now.toNat ≤ lo → kept q = false)
        ∧ (∀ l, rx l = ((List.finRange 256).map fun q =>
            if kept q = true ∧ s.logical (sourcePort (s.row q).captured) = l then slotCount (s.row q).captured else 0).sum)
        ∧ (∀ l, tx l = ((List.finRange 256).map fun q =>
            if kept q = true ∧ (∃ d ∈ destPorts (s.row q).captured, s.logical d = l) then slotCount (s.row q).captured
            else 0).sum)
        ∧ (s.capacityOk r w lo hi = true ↔
          rx (s.logical (sourcePort w)) + slots ≤ 40
            ∧ ∀ d ∈ destPorts w, tx (s.logical d) + slots ≤ 40)

/-- POST_BEGIN (R17, R18): with a POST at the head and the unit IDLE, the unit enters READING and its 16-word row read
is offered to the Outbound Queue; that nothing is begun otherwise is the model's choice (log 12).
ADMISSION_ROW_READ_DONE (R18 to R23): the row's words are loaded, the booking is judged in the order MALFORMED,
BAD_PORT, TOO_LATE, NO_CAPACITY, and the row is left HELD with its booked end, or EMPTY with the first failing class;
the entry leaves the Action Queue, ACTION_RESULT is handed where the ring has room, other rows, ports and memory stay, and
M-side becomes free for the arbiter. -/
def Obligations.PostExecutes : Prop :=
  ∀ s : State,
    (∀ r rest, s.admission = .idle → s.actionQueue = ⟨r, .post⟩ :: rest →
      exec .postBegin s = .next (({ s with admission := .reading r } : State).offer .admission (.rowRead r)))
    ∧ ((s.admission ≠ .idle ∨ ∀ r rest, s.actionQueue ≠ ⟨r, .post⟩ :: rest) → exec .postBegin s = .next s)
    ∧ ∀ (r : RowId) (rest : List OutEntry), s.path.mside = .outbound → s.path.outbound = .rowRead r :: rest →
    ∃ (w : Vector Word 8) (u : State), exec .admissionRowReadDone s = .next u.arbitrate
      ∧ (∀ i : Fin 8, w[i] = s.mem.readWord (s.base + 0x10000 + 64 * r.val + 4 * i.val))
      ∧ (u.row r).captured = w
      ∧ (u.row r).stageLow = s.mem.readWord (s.base + 0x10000 + 64 * r.val + 32)
      ∧ (u.row r).stageHigh = s.mem.readWord (s.base + 0x10000 + 64 * r.val + 36)
      ∧ (u.row r).lastResult = (if s.malformed w then .malformed else if s.badPort w then .badPort
          else if s.postTooLate w then .tooLate
          else if s.capacityOk r w (bookedStart w).toNat (bookedEnd w).toNat then .ok else .noCapacity)
      ∧ ((u.row r).lastResult = .ok → (u.row r).state = .held ∧ (u.row r).currentEnd = bookedEnd w)
      ∧ ((u.row r).lastResult ≠ .ok → (u.row r).state = .empty ∧ (u.row r).endWord = (s.row r).settleSeq)
      ∧ (∀ q, q ≠ r → u.row q = s.row q) ∧ u.ports = s.ports ∧ u.mem = s.mem
      ∧ u.actionQueue = s.actionQueue.tail ∧ u.admission = .idle ∧ u.path.mside = .free
      ∧ (s.roomFor 1 → s.hands u .actionResult r.val (u.row r).lastResult.code
        (if (u.row r).lastResult = .ok then 0x201 else 1) (if (u.row r).lastResult = .ok then w[6] else 0))

/-- AMEND_EXECUTE (R24, R25): an ENDED row answers TOO_LATE and a LIVE row in STOPPING WRONG_STATE. A HELD row, and a
LIVE row in RUNNING, answer the first that holds: MALFORMED for a spare bit of the staged high word; MALFORMED for an
end not later than the booked start of a HELD row, or more than 604800000 ms past the start, booked while HELD and actual
while LIVE; TOO_LATE for an end not later than now; NO_CAPACITY for an end later than the current one that fails the
capacity check from that start (an overdue row that overlaps is counted, by the model's reading, log 33); OK, with which
the row takes the end. The action in flight is over, the entry leaves the queue, ACTION_RESULT with the result, the state
and the current end is handed where the ring has room, and no other row, port or memory changes. -/
def Obligations.AmendExecutes : Prop :=
  ∀ (r : RowId) (rest : List QueuedAction) (s : State),
    s.admission = .idle → s.actionQueue = ⟨r, .amend⟩ :: rest →
    ∃ (e : Time) (start : Nat) (u : State), e = (s.row r).stageHigh.extractLsb' 0 8 ++ (s.row r).stageLow
      ∧ start = (if (s.row r).state = .held then (bookedStart (s.row r).captured).toNat
          else (s.row r).actualStart.toNat)
      ∧ exec .amendExecute s = .next u
      ∧ u.row r = { s.row r with
          inFlight := .none, lastResult := (u.row r).lastResult
          currentEnd := if (u.row r).lastResult = .ok then e else (s.row r).currentEnd }
      ∧ ((s.row r).state = .ended → (u.row r).lastResult = .tooLate)
      ∧ (((s.row r).state = .live ∧ s.fabric = .stopping) → (u.row r).lastResult = .wrongState)
      ∧ (((s.row r).state = .held ∨ ((s.row r).state = .live ∧ s.fabric = .running)) →
          (u.row r).lastResult =
            if (s.row r).stageHigh.extractLsb' 8 24 ≠ 0 then .malformed
            else if ((s.row r).state = .held ∧ e.toNat ≤ start) ∨ start + 604800000 < e.toNat then .malformed
            else if e.toNat ≤ s.now.toNat then .tooLate
            else if (s.row r).currentEnd.toNat < e.toNat ∧ s.capacityOk r (s.row r).captured start e.toNat = false then
              .noCapacity
            else .ok)
      ∧ u.actionQueue = rest ∧ u.admission = .idle ∧ (∀ q, q ≠ r → u.row q = s.row q)
      ∧ (s.roomFor 1 → s.hands u .actionResult r.val (u.row r).lastResult.code
        (BitVec.ofNat 32 (2 + 2 ^ 8 * (s.row r).state.code))
        (if (s.row r).state = .empty then 0 else (u.row r).currentEnd.extractLsb' 0 32))
      ∧ u.ports = s.ports ∧ u.mem = s.mem ∧ u.fabric = s.fabric

/-- CANCEL_EXECUTE (R26, R37, R43, R56): a HELD row returns to EMPTY with OK; an ENDED row answers TOO_LATE and keeps all
else. A LIVE row ends CANCELLED at now with OK: exactly its slots are freed, its final segment is closed, it joins the tail
of the Settlement Queue, from which the head's record may begin at once, and in STOPPING, when no row is LIVE any more, the
fabric is HALTED. The action in flight is over, the entry leaves the queue, and no other row changes. BOOKING_ENDED,
FABRIC_STATE and ACTION_RESULT are handed in this order, where the ring has room. -/
def Obligations.CancelExecutes : Prop :=
  ∀ (r : RowId) (rest : List QueuedAction) (s : State),
    s.admission = .idle → s.actionQueue = ⟨r, .cancel⟩ :: rest →
    ∃ u, exec .cancelExecute s = .next u
      ∧ ((s.row r).state = .held →
          u.row r = { s.row r with state := .empty, inFlight := .none, lastResult := .ok } ∧ u.ports = s.ports
          ∧ u.fabric = s.fabric ∧ (s.roomFor 1 → s.hands u .actionResult r.val 1 3 0))
      ∧ ((s.row r).state = .ended →
          u.row r = { s.row r with inFlight := .none, lastResult := .tooLate } ∧ u.ports = s.ports
          ∧ u.fabric = s.fabric
          ∧ (s.roomFor 1 → s.hands u .actionResult r.val 5 0x403 ((s.row r).currentEnd.extractLsb' 0 32)))
      ∧ ((s.row r).state = .live →
          u.row r = { s.row r with
            state := .ended, endReason := .cancelled, actualEnd := s.now, inFlight := .none, lastResult := .ok
            meter := ((s.row r).countMs s.now).meter.close }
          ∧ (∀ p : PortId, u.port p = { s.port p with rxOwner := (u.port p).rxOwner, txOwner := (u.port p).txOwner })
          ∧ (∀ (p : PortId) (i : SlotId),
            (u.port p).rxOwner[i] = (if (s.port p).rxOwner[i] = some r then none else (s.port p).rxOwner[i])
            ∧ (u.port p).txOwner[i] = (if (s.port p).txOwner[i] = some r then none else (s.port p).txOwner[i]))
          ∧ (r ∈ u.settle.queue ∨ ∃ w, u.settle.writing = some w ∧ w.row = r)
          ∧ (s.settle.writing ≠ none → u.settle.queue = s.settle.queue ++ [r])
          ∧ u.fabric = (if s.fabric = .stopping ∧ (∀ q, (u.row q).state ≠ .live) then .halted else s.fabric)
          ∧ (s.roomFor 1 → s.hands u .bookingEnded r.val 1 ((s.row r).actualStart.extractLsb' 0 32)
            ((s.now - (s.row r).actualStart).extractLsb' 0 32))
          ∧ (u.fabric ≠ s.fabric → s.roomFor 2 → s.hands u .fabricState 0 0 2 0)
          ∧ (s.roomFor 3 → s.hands u .actionResult r.val 1 0x403 ((s.row r).currentEnd.extractLsb' 0 32)))
      ∧ u.actionQueue = rest ∧ u.admission = .idle ∧ (∀ q, q ≠ r → u.row q = s.row q) ∧ u.mem = s.mem

/-! ## The Time Base and the Scheduler -/

/-- MS_EVENT (R30): once every block has handled the ms event before, now grows by 1 and the
new ms event is there to be handled; at 2^40 - 1 time stands and no ms event is raised. The Meter Unit's part (R127,
R129): every LIVE row whose counted-to is earlier than now counts one millisecond, served with the gate open and outage
with it closed, a full prescaler billing one unit; no other row and nothing else changes. The Line Prover's part, and
PROVER_EXPIRY (R119, R120): while RUNNING the elapsed time grows by 1 and, with the checker LOCKED, the locked time; the
test ends COMPLETE when the elapsed time reaches the duration, with PROVER_DONE where the ring has room; in IDLE the event
is ignored. The parts of one command are taken in order. (That a block's handling can be a part of its own is the model's
reading, log 10.) -/
def Obligations.MsEventPartsCountTheMillisecond : Prop :=
  ∀ s : State,
    (∀ x more u, exec (.msEvent [x]) s = .next u → exec (.msEvent (x :: more)) s = exec (.msEvent more) u)
    ∧ exec (.msEvent []) s = .next s
    ∧ (s.now = BitVec.allOnes 40 → exec (.msEvent [.advance]) s = .next s)
    ∧ ((s.now ≠ BitVec.allOnes 40 ∧ s.meterDue = false ∧ s.proverDue = false ∧ s.pass = .none) →
      exec (.msEvent [.advance]) s
        = .next { s with now := s.now + 1, meterDue := true, proverDue := true, pass := .ends 0 })
    ∧ (s.meterDue = true →
      ∃ t, exec (.msEvent [.meter]) s = .next t ∧ t = { s with meterDue := false, rows := t.rows }
        ∧ ∀ r, ∃ m : Meter, m = (s.row r).meter
          ∧ (((s.row r).state ≠ .live ∨ s.now.toNat ≤ m.countedTo.toNat) → t.row r = s.row r)
          ∧ (((s.row r).state = .live ∧ m.countedTo.toNat < s.now.toNat) →
            (((s.row r).health = .partialFeed ∨ (s.row r).health = .lost) →
              t.row r = { s.row r with meter := { m with outage := m.outage + 1, countedTo := s.now } })
            ∧ (((s.row r).health = .healthy ∨ (s.row r).health = .silent) →
              (m.prescaler + 1 = unitOf (s.row r).captured → t.row r = { s.row r with meter := { m with
                  served := m.served + 1, prescaler := 0, segment := m.segment + 1, carriage := m.carriage + 1
                  countedTo := s.now } })
              ∧ (m.prescaler + 1 ≠ unitOf (s.row r).captured → t.row r = { s.row r with meter := { m with
                  served := m.served + 1, prescaler := m.prescaler + 1, countedTo := s.now } }))))
    ∧ (s.proverDue = true →
      (s.prover.running = false → exec (.msEvent [.prover]) s = .next { s with proverDue := false })
      ∧ (s.prover.running = true →
        ∃ (u : Prover) (t : State), u = { s.prover with
            elapsed := s.prover.elapsed + 1
            lockedTime := if s.prover.locked then s.prover.lockedTime + 1 else s.prover.lockedTime }
          ∧ exec (.msEvent [.prover]) s = .next t
          ∧ (s.prover.elapsed + 1 ≠ s.prover.duration → t = { s with proverDue := false, prover := u })
          ∧ (s.prover.elapsed + 1 = s.prover.duration →
            exec .proverExpiry s = .next t ∧ t.prover = { u with running := false, outcome := .complete }
              ∧ t.claimed = none ∧ t.proverDue = false ∧ t.now = s.now ∧ t.mem = s.mem
              ∧ (s.roomFor 1 → s.hands t .proverDone (s.prover.port.toNat % 256) 1 u.elapsed u.errorBits))))

/-- The Scheduler's part of the ms event, SCHEDULED_END and GO_LIVE (R38): the ends are taken before the starts, each in
ascending row order. In the ends of a fabric that is not HALTED the lowest LIVE row whose end has come is ended, and no
start is taken while there is one; then, in RUNNING only, the lowest HELD row whose start has come and whose end has not
goes live; each time the pass goes on above that row, and the whole part is this work until nothing is due. In HALTED
nothing is ended, and out of RUNNING nothing starts. (That an end or a start can be a command of its own is the model's
reading, log 10.) -/
def Obligations.SchedulerTakesEndsThenStarts : Prop :=
  ∀ s : State,
    (s.pass = .none → exec (.msEvent [.scheduler]) s = .next s)
    ∧ (∀ lo, s.pass = .ends lo →
      (s.fabric = .halted → exec (.msEvent [.scheduler]) s = .next { s with pass := .none })
      ∧ (∀ r : RowId, s.fabric ≠ .halted → lo ≤ r.val → (s.row r).state = .live →
        (s.row r).currentEnd.toNat ≤ s.now.toNat →
        (∀ q : RowId, lo ≤ q.val → q < r → (s.row q).state = .live → s.now.toNat < (s.row q).currentEnd.toNat) →
        ∃ u, exec .scheduledEnd s = .next u ∧ u.pass = .ends (r.val + 1) ∧ (u.row r).state = .ended
          ∧ exec .goLive s = .next s ∧ exec (.msEvent [.scheduler]) s = exec (.msEvent [.scheduler]) u)
      ∧ ((s.fabric ≠ .halted ∧ ∀ q : RowId, lo ≤ q.val → (s.row q).state = .live →
          s.now.toNat < (s.row q).currentEnd.toNat) →
        exec (.msEvent [.scheduler]) s = exec (.msEvent [.scheduler]) { s with pass := .starts 0 }))
    ∧ ∀ lo, s.pass = .starts lo →
      exec .scheduledEnd s = .next s
      ∧ (∀ r : RowId, s.fabric = .running → lo ≤ r.val → (s.row r).state = .held →
        (bookedStart (s.row r).captured).toNat ≤ s.now.toNat → s.now.toNat < (s.row r).currentEnd.toNat →
        (∀ q : RowId, lo ≤ q.val → q < r → (s.row q).state = .held →
          (bookedStart (s.row q).captured).toNat ≤ s.now.toNat → (s.row q).currentEnd.toNat ≤ s.now.toNat) →
        ∃ u, exec .goLive s = .next u ∧ u.pass = .starts (r.val + 1)
          ∧ exec (.msEvent [.scheduler]) s = exec (.msEvent [.scheduler]) u)
      ∧ ((s.fabric ≠ .running ∨ ∀ q : RowId, lo ≤ q.val → (s.row q).state = .held →
          (bookedStart (s.row q).captured).toNat ≤ s.now.toNat → (s.row q).currentEnd.toNat ≤ s.now.toNat) →
        exec (.msEvent [.scheduler]) s = .next { s with pass := .none } ∧ exec .goLive s = .next s)

/-- GO_LIVE (R38, R41): the row that the Scheduler takes is HELD and due in RUNNING; it becomes LIVE with actual start
now, the late flag by its booked start and its meter started; its captured copy, current end and action in flight stay,
and no other row changes its state. The Slot Table (R55): the row takes the lowest free receive slots of its source
logical port, as many as its slot count, and, its destinations being distinct logical ports, as many of the lowest free
transmit slots of each; every other slot keeps its owner; where fewer are free, which the law of R22 rules out, it takes
those there are, by the model's choice (log 22). The Line Prover (R122): a test on an unpaired port or an active
member of a logical port that the row uses ends PREEMPTED, with PROVER_DONE where the ring has room, and any other is left
as it is. FEED_HEALTH, for a health other than HEALTHY, and BOOKING_LIVE are handed where the ring still has room
afterwards. -/
def Obligations.GoLiveStartsBooking : Prop :=
  ∀ (r : RowId) (s : State), s.nextStart = some r →
    s.fabric = .running ∧ (s.row r).state = .held ∧ (bookedStart (s.row r).captured).toNat ≤ s.now.toNat
    ∧ s.now.toNat < (s.row r).currentEnd.toNat
    ∧ ∃ (t : State) (c : Vector Word 8), exec .goLive s = .next t ∧ c = (s.row r).captured
      ∧ (t.row r).state = .live ∧ (t.row r).actualStart = s.now
      ∧ (t.row r).late = decide ((bookedStart (s.row r).captured).toNat < s.now.toNat)
      ∧ (t.row r).meter.countedTo = s.now ∧ (t.row r).meter.served = 0 ∧ (t.row r).meter.outage = 0
      ∧ (t.row r).meter.prescaler = 0 ∧ (t.row r).meter.segment = 0 ∧ (t.row r).meter.carriage = 0
      ∧ (t.row r).meter.closed = [] ∧ (t.row r).meter.switchCount = 0
      ∧ (t.row r).health = t.feedHealth (s.row r).captured
      ∧ (t.row r).meter.outageCount = (if (t.row r).health = .healthy ∨ (t.row r).health = .silent then 0 else 1)
      ∧ (t.row r).captured = (s.row r).captured ∧ (t.row r).currentEnd = (s.row r).currentEnd
      ∧ (t.row r).inFlight = (s.row r).inFlight ∧ (t.row r).hold = (s.row r).hold
      ∧ (∀ q, q ≠ r → (t.row q).state = (s.row q).state ∧ (t.row q).captured = (s.row q).captured)
      ∧ t.fabric = s.fabric ∧ t.now = s.now ∧ t.mem = s.mem ∧ t.settle = s.settle
      ∧ (∀ (q : PortId) (i : SlotId), (t.port q).rxOwner[i] =
          if q = s.logical (sourcePort c) ∧ (s.port q).rxOwner[i] = none
              ∧ slotsBelow (s.port q).rxOwner none i < slotCount c then some r
          else (s.port q).rxOwner[i])
      ∧ (((destPorts c).map s.logical).Nodup → ∀ (q : PortId) (i : SlotId), (t.port q).txOwner[i] =
          if q ∈ (destPorts c).map s.logical ∧ (s.port q).txOwner[i] = none
              ∧ slotsBelow (s.port q).txOwner none i < slotCount c then some r
          else (s.port q).txOwner[i])
      ∧ (∀ p : PortId, s.prover.running = true → s.prover.port = BitVec.ofNat 32 p.val →
        ((s.booksPort c (s.logical p)
            ∧ ((s.port (evenPort (pairOf p))).cfg.pairMode = true → memberPort (pairOf p) s.active[pairOf p] = p)) →
          t.prover = { s.prover with running := false, outcome := .preempted }
          ∧ (s.roomFor 1 → s.hands t .proverDone p.val 3 s.prover.elapsed s.prover.errorBits))
        ∧ (¬(s.booksPort c (s.logical p)
            ∧ ((s.port (evenPort (pairOf p))).cfg.pairMode = true → memberPort (pairOf p) s.active[pairOf p] = p)) →
          t.prover = s.prover))
      ∧ (s.prover.running = false → t.prover = s.prover)
      ∧ (t.roomFor 1 →
        ((t.row r).health ≠ .healthy → s.hands t .feedHealth r.val (t.row r).health.code 0
          (BitVec.ofNat 32 (t.sourcePath c).val))
        ∧ s.hands t .bookingLive r.val (t.row r).late.toNat ((s.row r).currentEnd.extractLsb' 0 32)
          ((bookedStart c).extractLsb' 0 32))

/-- SCHEDULED_END and STOP_END (R36, R37, R38, R43, R44, R56): the row taken becomes ENDED with its reason and actual end
now, its meter caught up and closed, exactly its slots freed; it joins the tail of the Settlement Queue, from which the
head's record may begin at once; no other row changes; and an end in STOPPING that leaves no row LIVE halts the fabric.
BOOKING_ENDED, and then FABRIC_STATE, are handed where the ring has room. -/
def Obligations.EndsFinishBooking : Prop :=
  ∀ (r : RowId) (s : State) (i : Instr) (reason : EndReason),
    ((i = .scheduledEnd ∧ reason = .scheduled ∧ s.nextEnd = some r)
      ∨ (i = .stopEnd ∧ reason = .stopped ∧ s.stopRow = some r)) →
    (s.row r).state = .live
    ∧ (i = .scheduledEnd → (s.row r).currentEnd.toNat ≤ s.now.toNat)
    ∧ (i = .stopEnd → s.fabric = .stopping ∧ ∀ q, q < r → (s.row q).state ≠ .live)
    ∧ ∃ t, exec i s = .next t
      ∧ t.row r = { s.row r with
          state := .ended, endReason := reason, actualEnd := s.now
          meter := ((s.row r).countMs s.now).meter.close }
      ∧ (∀ q, q ≠ r → t.row q = s.row q)
      ∧ (∀ p : PortId, t.port p = { s.port p with rxOwner := (t.port p).rxOwner, txOwner := (t.port p).txOwner })
      ∧ (∀ (p : PortId) (j : SlotId),
        (t.port p).rxOwner[j] = (if (s.port p).rxOwner[j] = some r then none else (s.port p).rxOwner[j])
        ∧ (t.port p).txOwner[j] = (if (s.port p).txOwner[j] = some r then none else (s.port p).txOwner[j]))
      ∧ (r ∈ t.settle.queue ∨ ∃ w, t.settle.writing = some w ∧ w.row = r)
      ∧ (s.settle.writing ≠ none → t.settle.queue = s.settle.queue ++ [r])
      ∧ (s.roomFor 1 → s.hands t .bookingEnded r.val reason.code ((s.row r).actualStart.extractLsb' 0 32)
        ((s.now - (s.row r).actualStart).extractLsb' 0 32))
      ∧ (t.fabric ≠ s.fabric → s.roomFor 2 → s.hands t .fabricState 0 0 2 0)
      ∧ t.fabric = (if s.fabric = .stopping ∧ (∀ q, (t.row q).state ≠ .live) then .halted else s.fabric)
      ∧ t.mem = s.mem ∧ t.now = s.now

/-! ## Spans -/

/-- CYCLE_EVENT (R71, R77, R82): a port in OFF raises none; otherwise the port's receive slots take the payload of a
received cycle or idle fill, its carrying flag is what its four inputs make it, and every other port, memory, time,
settlement and the rows' states stay. -/
def Obligations.CycleEventFrame : Prop :=
  ∀ (p : PortId) (iv : Interval) (s : State), iv.wf = true →
    ((s.port p).link = .off → exec (.cycleEvent p iv) s = .next s)
    ∧ ((s.port p).link ≠ .off → ∃ t cls, exec (.cycleEvent p iv) s = .next t
      ∧ (t.port p).lastClass = some cls
      ∧ (t.port p).rx = (if cls = .good ∨ cls = .inverted ∨ cls = .bad then iv.cycle.payload else idlePayload)
      ∧ (t.port p).carrying = t.mayCarry p
      ∧ (∀ q, q ≠ p → t.port q = s.port q)
      ∧ (t.port p).cfg = (s.port p).cfg ∧ (t.port p).txOwner = (s.port p).txOwner
      ∧ (t.port p).rxOwner = (s.port p).rxOwner
      ∧ (∀ r, (t.row r).state = (s.row r).state ∧ (t.row r).captured = (s.row r).captured)
      ∧ t.mem = s.mem ∧ t.now = s.now ∧ t.fabric = s.fabric ∧ t.settle = s.settle ∧ t.actionQueue = s.actionQueue)

/-- The feed health by the table of R66, from the source path and the destinations' carrying. A change of the carrying flag
of a port (R60 to R63, R66, R67), at a cycle event, at the start or the end of a line test on it: in pair mode an active
member that is not carrying gives way to a carrying partner, with SWITCHOVER and the count of every LIVE row sourced on the
pair, and is blocked without one, with SWITCHOVER_BLOCKED when the active member is the one that stops; every LIVE row that
uses the logical port takes its feed health anew, an outage counted when its gate closes, with FEED_HEALTH for each that
changed; no other row changes. With no such change a cycle event that changes the filtered INPUT_LOSS (R67, R82)
re-evaluates the LIVE rows whose source path the port is, and nothing else. Notices are shown where the ring still has room
afterwards. By the model's reading a count at its maximum is not counted in SWITCHOVER (log 29), and the rows of R63 are
among those of R60 (log 32). -/
def Obligations.CarryingChangeSelectsAndReevaluates : Prop :=
  ∀ s : State,
    (∀ w : Vector Word 8, ∃ (path : PortId) (carries : PortId → Prop),
      path = (if (s.port (evenPort (pairOf (sourcePort w)))).cfg.pairMode = true then
          memberPort (pairOf (sourcePort w)) s.active[pairOf (sourcePort w)] else sourcePort w)
      ∧ s.sourcePath w = path
      ∧ (∀ d, carries d ↔ if (s.port (evenPort (pairOf d))).cfg.pairMode = true then
          (s.port (evenPort (pairOf d))).carrying = true ∨ (s.port (oddPort (pairOf d))).carrying = true
          else (s.port d).carrying = true)
      ∧ (s.feedHealth w = .lost ↔ (s.port path).carrying = false ∨ ∀ d ∈ destPorts w, ¬carries d)
      ∧ (s.feedHealth w = .partialFeed ↔ (s.port path).carrying = true ∧ (∃ d ∈ destPorts w, carries d)
          ∧ ∃ d ∈ destPorts w, ¬carries d)
      ∧ (s.feedHealth w = .silent ↔ (s.port path).carrying = true ∧ (∃ d ∈ destPorts w, carries d)
          ∧ (∀ d ∈ destPorts w, carries d) ∧ (s.port path).inputLoss.value = true)
      ∧ (s.feedHealth w = .healthy ↔ (s.port path).carrying = true ∧ (∃ d ∈ destPorts w, carries d)
          ∧ (∀ d ∈ destPorts w, carries d) ∧ (s.port path).inputLoss.value = false))
    ∧ ∀ (i : Instr) (p : PortId) (t : State), exec i s = .next t →
      ((∃ iv, i = .cycleEvent p iv) ∨ ((i = .proverExpiry ∨ ((i = .attach ∨ i = .detach) ∧ s.busIdle))
        ∧ s.prover.port = BitVec.ofNat 32 p.val)) →
      ∃ (k : PairId) (a b : Member) (paired switched : Bool) (l : PortId) (uses : RowId → Prop), k = pairOf p
        ∧ a = s.active[k] ∧ b = a.other ∧ paired = (s.port (evenPort k)).cfg.pairMode
        ∧ switched = (paired && !(t.port (memberPort k a)).carrying && (t.port (memberPort k b)).carrying)
        ∧ l = (if paired = true then evenPort k else p)
        ∧ (∀ r, uses r ↔ (s.row r).state = .live ∧ (s.logical (sourcePort (s.row r).captured) = l
            ∨ ∃ d ∈ destPorts (s.row r).captured, s.logical d = l))
        ∧ ((t.port p).carrying ≠ (s.port p).carrying →
          t.active = (if switched = true then s.active.set k b else s.active)
          ∧ (switched = true → t.roomFor 1 → s.hands t .switchover (evenPort k).val b.code 1
            (BitVec.ofNat 32 ((List.finRange 256).countP fun r => (s.row r).state == .live
              && s.logical (sourcePort (s.row r).captured) == evenPort k
              && (s.row r).meter.switchCount != BitVec.allOnes 16)))
          ∧ ((paired = true ∧ p = memberPort k a ∧ (t.port p).carrying = false
              ∧ (t.port (memberPort k b)).carrying = false) → t.roomFor 1 →
            s.hands t .switchoverBlocked (evenPort k).val a.code
              (BitVec.ofNat 32 ((List.finRange 256).countP fun r => (s.row r).state == .live
                && s.logical (sourcePort (s.row r).captured) == evenPort k)) 0)
          ∧ ∀ r, (uses r →
              t.row r = { s.row r with
                health := t.feedHealth (s.row r).captured
                meter := { (s.row r).meter with
                  outageCount :=
                    if ((s.row r).health = .healthy ∨ (s.row r).health = .silent)
                        ∧ (t.feedHealth (s.row r).captured = .partialFeed
                          ∨ t.feedHealth (s.row r).captured = .lost) then
                      satInc (s.row r).meter.outageCount
                    else (s.row r).meter.outageCount
                  switchCount :=
                    if switched = true ∧ s.logical (sourcePort (s.row r).captured) = evenPort k then
                      satInc (s.row r).meter.switchCount
                    else (s.row r).meter.switchCount } }
              ∧ (t.feedHealth (s.row r).captured ≠ (s.row r).health → t.roomFor 1 →
                s.hands t .feedHealth r.val (t.feedHealth (s.row r).captured).code
                  (BitVec.ofNat 32 (s.row r).health.code)
                  (BitVec.ofNat 32 (t.sourcePath (s.row r).captured).val)))
            ∧ (¬uses r → t.row r = s.row r))
        ∧ ((t.port p).carrying = (s.port p).carrying → t.active = s.active
          ∧ ∀ r, (((s.row r).state = .live ∧ s.sourcePath (s.row r).captured = p
                ∧ (t.port p).inputLoss.value ≠ (s.port p).inputLoss.value) →
              (t.row r).health = t.feedHealth (s.row r).captured
              ∧ (t.feedHealth (s.row r).captured ≠ (s.row r).health → t.roomFor 1 →
                s.hands t .feedHealth r.val (t.feedHealth (s.row r).captured).code
                  (BitVec.ofNat 32 (s.row r).health.code) (BitVec.ofNat 32 p.val)))
            ∧ (¬((s.row r).state = .live ∧ s.sourcePath (s.row r).captured = p
                ∧ (t.port p).inputLoss.value ≠ (s.port p).inputLoss.value) → t.row r = s.row r))

/-- CYCLE_EVENT, alignment (R73, R76, R78, R79): the third marker in a row at the candidate offset aligns a searching
receiver; it takes a link in ACQUIRE to AWAIT_READY, one in SUSPECT to UP with one more hit, at most 255, and the slip
flag set when the offset is not the one lost, and one in DOWN to RESTORE with a new error window. The fourth miss in a row
loses alignment: a link in AWAIT_READY with the remote not ready goes to ACQUIRE, one in UP with the remote ready and the
window not declaring goes to SUSPECT with the offset recorded, and one in RESTORE goes to DOWN with reason
ALIGNMENT_LOST. LINK_STATE is handed with the two states and the cause, where the ring has room. -/
def Obligations.CycleEventMovesAlignment : Prop :=
  ∀ (p : PortId) (iv : Interval) (o : Nat) (s : State), iv.wf = true →
    (((s.port p).receiver = .searching (some o) 2 ∧ iv.markers.head? = some o) →
      ((s.port p).link = .acquire → ∃ t, exec (.cycleEvent p iv) s = .next t
        ∧ (t.port p).link = .awaitReady ∧ (t.port p).receiver = .aligned o 0 ∧ (t.port p).tReady = some 0
        ∧ (t.port p).lastClass = some .nothing ∧ (s.roomFor 1 → s.hands t .linkState p.val 2 1 3))
      ∧ ((s.port p).link = .suspect → ∃ t, exec (.cycleEvent p iv) s = .next t
        ∧ (t.port p).link = .up ∧ (t.port p).receiver = .aligned o 0 ∧ (t.port p).tHold = none
        ∧ (t.port p).hits = (if (s.port p).hits = 255 then 255 else (s.port p).hits + 1)
        ∧ (t.port p).slip = ((s.port p).slip || decide ((s.port p).lastOffset ≠ some o))
        ∧ (t.port p).nearEnd = (s.port p).nearEnd ∧ (t.port p).farEnd = (s.port p).farEnd
        ∧ (t.port p).rdy.value = (s.port p).rdy.value
        ∧ (t.port p).lastClass = some .nothing ∧ (s.roomFor 1 → s.hands t .linkState p.val 3 4 3))
      ∧ ((s.port p).link = .down → ∃ t, exec (.cycleEvent p iv) s = .next t
        ∧ (t.port p).link = .restore ∧ (t.port p).receiver = .aligned o 0 ∧ (t.port p).tReady = some 0
        ∧ (t.port p).tRestore = none ∧ (t.port p).window = some ⟨0, 0, false⟩
        ∧ (t.port p).nearEnd = 0 ∧ (t.port p).farEnd = 0 ∧ (t.port p).hits = 0 ∧ (t.port p).slip = false
        ∧ (t.port p).lastDown = (s.port p).lastDown
        ∧ (t.port p).lastClass = some .nothing ∧ (s.roomFor 1 → s.hands t .linkState p.val 6 5 3)))
    ∧ (((s.port p).receiver = .aligned o 3 ∧ o ∉ iv.markers) →
      (((s.port p).link = .awaitReady ∧ (s.port p).rdy.value = false) → ∃ t, exec (.cycleEvent p iv) s = .next t
        ∧ (t.port p).link = .acquire ∧ (t.port p).receiver = .searching none 0 ∧ (t.port p).tReady = none
        ∧ (t.port p).lastClass = some .missing ∧ (s.roomFor 1 → s.hands t .linkState p.val 1 2 5))
      ∧ (((s.port p).link = .up ∧ (s.port p).rdy.value = true ∧ ¬(s.port p).windowReaches .missing) →
        ∃ t, exec (.cycleEvent p iv) s = .next t ∧ (t.port p).link = .suspect ∧ (t.port p).receiver = .searching none 0
          ∧ (t.port p).lastOffset = some o ∧ (t.port p).tHold = some 0
          ∧ (t.port p).lastClass = some .missing ∧ (s.roomFor 1 → s.hands t .linkState p.val 4 3 5))
      ∧ ((s.port p).link = .restore → ∃ t, exec (.cycleEvent p iv) s = .next t
        ∧ (t.port p).link = .down ∧ (t.port p).lastDown = .alignmentLost ∧ (t.port p).receiver = .searching none 0
        ∧ (t.port p).window = none ∧ (t.port p).tReady = none ∧ (t.port p).tRestore = none
        ∧ (t.port p).lastClass = some .missing ∧ (s.roomFor 1 → s.hands t .linkState p.val 5 6 5)))

/-- CYCLE_EVENT, the remote's RDY and the error window (R75, R76, R78, R86, R87), by the filtered RDY and the class that
the interval leaves. AWAIT_READY with the remote ready goes to UP with a new error window. A window of UP, or of RESTORE
whose alignment holds, that is not masked and whose count reaches a threshold of 1 to 255 declares: the link goes to
DOWN with reason ERRORS, its window and four counts cleared and its channel emptied when it was UP. A window that does
not declare leaves UP, with the remote not ready, to DOWN with reason REMOTE_NOT_READY, as it does RESTORE while
T_restore runs; with the remote ready UP stays, aligned, and RESTORE starts T_restore. LINK_STATE is handed with the two
states and the cause, where the ring has room. -/
def Obligations.CycleEventJudgesReadyAndErrors : Prop :=
  ∀ (p : PortId) (iv : Interval) (cls : IntervalClass) (s : State), iv.wf = true →
    ((s.port p).takeInterval iv).lastClass = some cls →
    (((s.port p).link = .awaitReady ∧ ((s.port p).takeInterval iv).rdy.value = true) →
      ∃ t, exec (.cycleEvent p iv) s = .next t ∧ (t.port p).link = .up ∧ (t.port p).window = some ⟨0, 0, false⟩
        ∧ (t.port p).tReady = none ∧ ((s.port p).capture.state = .waitUp → (t.port p).capture.state = .armed)
        ∧ (s.roomFor 1 → s.hands t .linkState p.val 3 2 4))
    ∧ ((((s.port p).link = .up ∨ ((s.port p).link = .restore ∧ (s.port p).staysAligned iv))
          ∧ (s.port p).windowReaches cls) →
      ∃ t, exec (.cycleEvent p iv) s = .next t ∧ (t.port p).link = .down ∧ (t.port p).lastDown = .errors
        ∧ (t.port p).window = none ∧ (t.port p).receiver = .searching none 0 ∧ (t.port p).rdy = ⟨false, 0⟩
        ∧ (t.port p).nearEnd = 0 ∧ (t.port p).farEnd = 0 ∧ (t.port p).hits = 0 ∧ (t.port p).slip = false
        ∧ (t.port p).tReady = none ∧ (t.port p).tRestore = none ∧ (t.port p).carrying = false
        ∧ ((s.port p).link = .up → (t.port p).channel.loop = false ∧ (t.port p).channel.hubCorrupting = false
          ∧ (t.port p).channel.outstanding = none)
        ∧ (s.roomFor 1 → s.hands t .linkState p.val 5 (BitVec.ofNat 32 (s.port p).link.code) 7))
    ∧ ((((s.port p).link = .up ∨ ((s.port p).link = .restore ∧ (s.port p).staysAligned iv
            ∧ (s.port p).tRestore ≠ none))
          ∧ ¬(s.port p).windowReaches cls ∧ ((s.port p).takeInterval iv).rdy.value = false) →
      ∃ t, exec (.cycleEvent p iv) s = .next t ∧ (t.port p).link = .down ∧ (t.port p).lastDown = .remoteNotReady
        ∧ (t.port p).window = none ∧ (t.port p).receiver = .searching none 0 ∧ (t.port p).carrying = false
        ∧ (s.roomFor 1 → s.hands t .linkState p.val 5 (BitVec.ofNat 32 (s.port p).link.code) 8))
    ∧ (((s.port p).link = .up ∧ (s.port p).staysAligned iv ∧ ¬(s.port p).windowReaches cls
          ∧ ((s.port p).takeInterval iv).rdy.value = true) →
      ∃ t, exec (.cycleEvent p iv) s = .next t ∧ (t.port p).link = .up ∧ (t.port p).lastDown = (s.port p).lastDown
        ∧ (t.port p).hits = (s.port p).hits ∧ (t.port p).slip = (s.port p).slip)
    ∧ (((s.port p).link = .restore ∧ (s.port p).staysAligned iv ∧ ¬(s.port p).windowReaches cls
          ∧ (s.port p).tRestore = none ∧ ((s.port p).takeInterval iv).rdy.value = true) →
      ∃ t, exec (.cycleEvent p iv) s = .next t ∧ (t.port p).link = .restore ∧ (t.port p).tRestore = some 0
        ∧ (t.port p).tReady = none)

/-- CYCLE_EVENT, counts (R83, R84): in UP a received cycle that fails its check grows the near-end count
unless CORRUPT is latched and count-during-check is 0, and a GOOD cycle with FBE 1 grows the far-end count; both are
kept while the link stays in service. The filtered RDY, BACKUP_POWER and INPUT_LOSS (R80, R78), unless the link enters
ACQUIRE or DOWN, where they become 0: a GOOD cycle with the filtered value clears the run, one that differs grows it,
and at the look count in force, 3 or 1 with one-look, the value changes; any other class clears the run. REMOTE_STATUS
(R81): with the link in UP or SUSPECT after its step the reported pair is the filtered pair, and where it differed a
notice gives the new pair and the old, where the ring has room. -/
def Obligations.CycleEventCountsAndFilters : Prop :=
  ∀ (p : PortId) (iv : Interval) (s : State), iv.wf = true →
    (∀ o m : Nat, (s.port p).link = .up → (s.port p).receiver = .aligned o m → o ∈ iv.markers →
      ∃ t, exec (.cycleEvent p iv) s = .next t
        ∧ (t.port p).lastClass = some (classOfCycle iv.cycle)
        ∧ ((t.port p).link = .up →
          (t.port p).nearEnd = (if (classOfCycle iv.cycle).fails = true
              ∧ ((s.port p).channel.corrupt = false ∨ (s.port p).cfg.countDuringCheck = true)
              then satInc (s.port p).nearEnd else (s.port p).nearEnd)
          ∧ (t.port p).farEnd = (if classOfCycle iv.cycle = .good ∧ fbeOf iv.cycle = true
              then satInc (s.port p).farEnd else (s.port p).farEnd)))
    ∧ ((s.port p).link ≠ .off → ∃ t cls, exec (.cycleEvent p iv) s = .next t ∧ (t.port p).lastClass = some cls
      ∧ (∀ (f g : Filtered) (b : Bool),
        ((f = (s.port p).rdy ∧ g = (t.port p).rdy ∧ b = rdyOf iv.cycle)
          ∨ (f = (s.port p).backup ∧ g = (t.port p).backup ∧ b = backupOf iv.cycle)
          ∨ (f = (s.port p).inputLoss ∧ g = (t.port p).inputLoss ∧ b = inputLossOf iv.cycle)) →
        (((t.port p).link ≠ (s.port p).link ∧ ((t.port p).link = .acquire ∨ (t.port p).link = .down)) →
          g = ⟨false, 0⟩)
        ∧ (((t.port p).link = (s.port p).link ∨ ((t.port p).link ≠ .acquire ∧ (t.port p).link ≠ .down)) →
          g = if cls = .good ∧ b ≠ f.value then
                (if (if (s.port p).cfg.oneLook then 1 else 3) ≤ f.run + 1 then ⟨b, 0⟩ else ⟨f.value, f.run + 1⟩)
              else ⟨f.value, 0⟩))
      ∧ (((t.port p).link = .up ∨ (t.port p).link = .suspect) →
        (t.port p).repBackup = (t.port p).backup.value ∧ (t.port p).repInputLoss = (t.port p).inputLoss.value
        ∧ (((t.port p).backup.value ≠ (s.port p).repBackup ∨ (t.port p).inputLoss.value ≠ (s.port p).repInputLoss) →
          s.roomFor 3 → s.hands t .remoteStatus p.val
            ((t.port p).backup.value.toNat + 2 * (t.port p).inputLoss.value.toNat)
            (BitVec.ofNat 32 ((s.port p).repBackup.toNat + 2 * (s.port p).repInputLoss.toNat)) 0))
      ∧ (((t.port p).link = .awaitReady ∨ (t.port p).link = .restore) →
        (t.port p).repBackup = (s.port p).repBackup ∧ (t.port p).repInputLoss = (s.port p).repInputLoss)
      ∧ (((t.port p).link ≠ (s.port p).link ∧ ((t.port p).link = .acquire ∨ (t.port p).link = .down)) →
        (t.port p).repBackup = false ∧ (t.port p).repInputLoss = false))

/-- CYCLE_EVENT, the Maintenance Channel (R96, R101, R105, R106, R107), with the link in UP or SUSPECT after its step.
The answer run counts readable ECHO, or CANNOT, cycles with the outstanding command's code; at 3 the command ends ACKED,
changing the latched set, or DECLINED, keeping it, and anything else clears the run. The message run counts readable
cycles with one message; at 3 the message is verified and present, a REPORT becomes the last verified report and a
COMMAND of code 2 sets the hub-corrupting flag and of code 3 clears it. MAINT_RESULT, and REMOTE_REPORT for a new
report, are handed where the ring has room. -/
def Obligations.CycleEventTakesMessages : Prop :=
  ∀ (p : PortId) (iv : Interval) (s : State), iv.wf = true → (s.port p).link ≠ .off →
    ∃ (t : State) (cls : IntervalClass) (ch new : Channel) (m : Option Message), exec (.cycleEvent p iv) s = .next t
      ∧ (t.port p).lastClass = some cls ∧ ch = (s.port p).channel ∧ new = (t.port p).channel
      ∧ m = (if cls = .good ∨ cls = .inverted then some (messageOf iv.cycle) else none)
      ∧ (((t.port p).link = .up ∨ (t.port p).link = .suspect) →
        (ch.outstanding = none → new.outstanding = none ∧ new.lastResult = ch.lastResult ∧ new.loop = ch.loop
          ∧ new.corrupt = ch.corrupt)
        ∧ (∀ (c : MaintCommand) (k : AnswerKind) (n : Nat), ch.outstanding = some c →
          m = some ⟨if k = .echo then 2 else 3, BitVec.ofNat 8 c.code⟩ →
          n = (if ch.answerKind = some k then ch.answerRun + 1 else 1) →
          ((n < 3 ∧ ch.sent < 125) → new.outstanding = some c ∧ new.answerKind = some k ∧ new.answerRun = n
            ∧ new.loop = ch.loop ∧ new.corrupt = ch.corrupt ∧ new.lastResult = ch.lastResult)
          ∧ (3 ≤ n → new.outstanding = none ∧ new.lastResult = (if k = .echo then .acked else .declined)
            ∧ new.sent = ch.sent
            ∧ new.loop = (if k = .echo ∧ c = .loopAll then true else if k = .echo ∧ c = .normal then false else ch.loop)
            ∧ new.corrupt = (if k = .echo ∧ c = .corruptCheck then true else if k = .echo ∧ c = .normal then false
                else ch.corrupt)
            ∧ (s.roomFor 4 → s.hands t .maintResult p.val (if k = .echo then 1 else 2) (BitVec.ofNat 32 c.code)
                (BitVec.ofNat 32 ch.sent))))
        ∧ (∀ c : MaintCommand, ch.outstanding = some c → ch.sent < 125 →
          (∀ k : AnswerKind, m ≠ some ⟨if k = .echo then 2 else 3, BitVec.ofNat 8 c.code⟩) →
          new.outstanding = some c ∧ new.answerKind = none ∧ new.answerRun = 0 ∧ new.lastResult = ch.lastResult
            ∧ new.loop = ch.loop ∧ new.corrupt = ch.corrupt)
        ∧ (m = none → new.candidate = none ∧ new.messageRun = 0 ∧ new.present = ch.present
          ∧ new.lastReport = ch.lastReport ∧ new.hubCorrupting = ch.hubCorrupting)
        ∧ (∀ x : Message, m = some x → ch.candidate ≠ some x → new.candidate = some x ∧ new.messageRun = 1
          ∧ new.present = (if ch.present = some x then some x else none)
          ∧ new.lastReport = ch.lastReport ∧ new.hubCorrupting = ch.hubCorrupting)
        ∧ (∀ x : Message, m = some x → ch.candidate = some x → ch.messageRun ≠ 2 → new.candidate = some x
          ∧ new.messageRun = min 3 (ch.messageRun + 1) ∧ new.present = ch.present
          ∧ new.lastReport = ch.lastReport ∧ new.hubCorrupting = ch.hubCorrupting)
        ∧ (∀ x : Message, m = some x → ch.candidate = some x → ch.messageRun = 2 → new.candidate = some x
          ∧ new.messageRun = 3 ∧ new.present = some x
          ∧ new.lastReport = (if x.kind = 4 then x.code else ch.lastReport)
          ∧ new.hubCorrupting = (if x.kind = 1 ∧ x.code = 2 then true else if x.kind = 1 ∧ x.code = 3 then false
              else ch.hubCorrupting)
          ∧ ((x.kind = 4 ∧ x.code ≠ ch.lastReport) → s.roomFor 5 →
            s.hands t .remoteReport p.val x.code.toNat (ch.lastReport.setWidth 32) 0)))

/-- CYCLE_EVENT, the Line Prover (R117, R118): a port that is not claimed leaves the prover as it is, and on the claimed
port only the checker changes. In SEARCH a received cycle loads the predictor with its first 23 bits, and the checker is
LOCKED, with a bad run of 0, when the rest match what the predictor produces; an interval that is not received changes
nothing. In LOCKED a received cycle adds its differing bits to the error bits, at most 2^32 - 1, and grows the bad run
with more than 1000 of them and clears it otherwise; an interval that is not received advances the predictor and grows
the bad run; at a bad run of 4 the checker returns to SEARCH with a bad run of 0. -/
def Obligations.CycleEventFeedsLineProver : Prop :=
  ∀ (p : PortId) (iv : Interval) (s : State), iv.wf = true → (s.port p).link ≠ .off →
    ∃ (t : State) (cls : IntervalClass) (u new : Prover) (bits : List Bool), exec (.cycleEvent p iv) s = .next t
      ∧ (t.port p).lastClass = some cls ∧ u = s.prover ∧ new = t.prover ∧ bits = payloadBits iv.cycle.payload
      ∧ (s.claimed ≠ some p → new = u)
      ∧ (s.claimed = some p →
        new = { u with
          locked := new.locked, badRun := new.badRun, errorBits := new.errorBits, predictor := new.predictor }
        ∧ (((cls = .good ∨ cls = .inverted ∨ cls = .bad) ∧ u.locked = false) →
          ∃ wrong after, patternCompare (bits.drop 23) (patternLoad (bits.take 23)) = (wrong, after)
            ∧ new = { u with
              locked := decide (wrong = 0), badRun := if wrong = 0 then 0 else u.badRun, predictor := after })
        ∧ ((cls = .missing ∨ cls = .nothing) → u.locked = false → new = u)
        ∧ (((cls = .good ∨ cls = .inverted ∨ cls = .bad) ∧ u.locked = true) →
          ∃ wrong after run, patternCompare bits u.predictor = (wrong, after)
            ∧ run = (if 1000 < wrong then u.badRun + 1 else 0)
            ∧ new = { u with
              locked := decide (run < 4), badRun := if run < 4 then run else 0, predictor := after
              errorBits := BitVec.ofNat 32 (min (2 ^ 32 - 1) (u.errorBits.toNat + wrong)) })
        ∧ ((cls = .missing ∨ cls = .nothing) → u.locked = true →
          new = { u with
            locked := decide (u.badRun + 1 < 4), badRun := if u.badRun + 1 < 4 then u.badRun + 1 else 0
            predictor := patternAdvance Config.cycleBits u.predictor }))

/-- T_READY_EXPIRY, T_HOLD_EXPIRY and T_RESTORE_EXPIRY (R75, R76, R77, R90, R109). T_ready at 500 without the remote
ready takes AWAIT_READY to ACQUIRE and RESTORE to DOWN with reason REMOTE_NOT_READY; T_hold at 25 takes SUSPECT to DOWN
with reason ALIGNMENT_LOST, its counts zeroed, its channel emptied, not carrying; T_restore at 1000 with the remote
ready takes RESTORE to UP, and a TIMING capture is DONE, with CAPTURE_DONE. In RESTORE this is where the window does not
declare. LINK_STATE is handed with each, where the ring has room. A timer that is not due leaves all as it is (log 12). -/
def Obligations.LinkTimersExpire : Prop :=
  ∀ (p : PortId) (iv : Interval) (s : State), iv.wf = true →
    ((∀ n, (s.port p).tReady = some n → n + 1 < 500) → exec (.tReadyExpiry p iv) s = .next s)
    ∧ (∀ n, (s.port p).tReady = some n → 500 ≤ n + 1 →
      ((s.port p).takeInterval iv).rdy.value = false →
      ((s.port p).receiver.isAligned = true → ((s.port p).takeInterval iv).receiver.isAligned = true) →
      ((s.port p).link = .awaitReady →
        ∃ t, exec (.tReadyExpiry p iv) s = .next t ∧ (t.port p).link = .acquire ∧ (t.port p).tReady = none
          ∧ (t.port p).receiver = .searching none 0 ∧ (t.port p).lastDown = (s.port p).lastDown
          ∧ (s.roomFor 1 → s.hands t .linkState p.val 1 2 6))
      ∧ (∀ cls, ((s.port p).link = .restore ∧ (s.port p).tRestore = none
          ∧ ((s.port p).takeInterval iv).lastClass = some cls ∧ ¬(s.port p).windowReaches cls) →
        ∃ t, exec (.tReadyExpiry p iv) s = .next t ∧ (t.port p).link = .down ∧ (t.port p).tReady = none
          ∧ (t.port p).receiver = .searching none 0 ∧ (t.port p).lastDown = .remoteNotReady
          ∧ (s.roomFor 1 → s.hands t .linkState p.val 5 6 8)))
    ∧ ((∀ n, (s.port p).tHold = some n → n + 1 < 25) → exec (.tHoldExpiry p iv) s = .next s)
    ∧ (∀ n, (s.port p).tHold = some n → 25 ≤ n + 1 → (s.port p).link = .suspect →
      ((s.port p).receiver.isAligned = true ∨ ((s.port p).takeInterval iv).receiver.isAligned = false) →
      ∃ t, exec (.tHoldExpiry p iv) s = .next t ∧ (t.port p).link = .down ∧ (t.port p).lastDown = .alignmentLost
        ∧ (t.port p).tHold = none ∧ (t.port p).window = none ∧ (t.port p).receiver = .searching none 0
        ∧ (t.port p).nearEnd = 0 ∧ (t.port p).farEnd = 0 ∧ (t.port p).hits = 0 ∧ (t.port p).slip = false
        ∧ (t.port p).channel.loop = false ∧ (t.port p).channel.corrupt = false
        ∧ (t.port p).channel.hubCorrupting = false ∧ (t.port p).channel.outstanding = none
        ∧ (t.port p).carrying = false ∧ (s.roomFor 1 → s.hands t .linkState p.val 5 4 5))
    ∧ ((∀ n, (s.port p).tRestore = some n → n + 1 < 1000) → exec (.tRestoreExpiry p iv) s = .next s)
    ∧ (∀ n cls, (s.port p).tRestore = some n → 1000 ≤ n + 1 → (s.port p).link = .restore →
      ((s.port p).takeInterval iv).lastClass = some cls → ¬(s.port p).windowReaches cls →
      ((s.port p).takeInterval iv).rdy.value = true →
      ((s.port p).receiver.isAligned = true → ((s.port p).takeInterval iv).receiver.isAligned = true) →
      ∃ t, exec (.tRestoreExpiry p iv) s = .next t ∧ (t.port p).link = .up ∧ (t.port p).tRestore = none
        ∧ ((s.port p).capture.state = .timing → (t.port p).capture = { (s.port p).capture with
            state := .done, duration := captureSpan s.now (s.port p).capture.start }
          ∧ (s.roomFor 2 → s.hands t .captureDone p.val 0 ((s.port p).capture.start.extractLsb' 0 32)
            (captureSpan s.now (s.port p).capture.start)))
        ∧ ((s.port p).capture.state = .waitUp → (t.port p).capture.state = .armed)
        ∧ (s.roomFor 1 → s.hands t .linkState p.val 3 6 9))

/-- ERROR_WINDOW_CLOSE (R86): the cycle event that brings the position to 500 closes the window and opens a new one,
all clear, when the link stays in its state. COMMAND_NO_ANSWER (R101, R102): with the command sent in 125 cycles and the
link staying in service, a cycle event at which the answer run does not reach 3 ends it NO_ANSWER, keeping the sent
count and the latched set. Not due, nothing happens (log 12). -/
def Obligations.WindowAndCommandReachTheirCounts : Prop :=
  ∀ (p : PortId) (iv : Interval) (s : State), iv.wf = true →
    ((∀ w, (s.port p).window = some w → w.position + 1 < 500) → exec (.errorWindowClose p iv) s = .next s)
    ∧ (∀ w, (s.port p).window = some w → 500 ≤ w.position + 1 →
      ((s.port p).link = .up ∨ (s.port p).link = .suspect ∨ (s.port p).link = .restore) →
      ∃ t, exec (.errorWindowClose p iv) s = .next t
        ∧ ((t.port p).link = (s.port p).link → (t.port p).window = some ⟨0, 0, false⟩))
    ∧ (((s.port p).channel.outstanding = none ∨ (s.port p).channel.sent < 125) →
      exec (.commandNoAnswer p iv) s = .next s)
    ∧ ∀ c cls, (s.port p).channel.outstanding = some c → 125 ≤ (s.port p).channel.sent →
      ((s.port p).link = .up ∨ (s.port p).link = .suspect) →
      ((s.port p).takeInterval iv).lastClass = some cls →
      ((s.port p).channel.stepAnswer c (if cls.readable then some (messageOf iv.cycle) else none)).answerRun < 3 →
      ∃ t, exec (.commandNoAnswer p iv) s = .next t
        ∧ (((t.port p).link = .up ∨ (t.port p).link = .suspect) →
          (t.port p).channel.outstanding = none ∧ (t.port p).channel.lastResult = .noAnswer
            ∧ (t.port p).channel.sent = (s.port p).channel.sent ∧ (t.port p).channel.loop = (s.port p).channel.loop
            ∧ (t.port p).channel.corrupt = (s.port p).channel.corrupt)

/-- CYCLE_TRANSMIT (R70, R72, R100, R107, R108, R116): a port in OFF sends nothing; any other sends one cycle with the
prover's pattern while it is claimed and the Cross-Connect's payload otherwise, RDY by the link state, FBE by the last
class, and the check, inverted while the hub-corrupting flag is set. Its message is, while a COMMAND is present, ECHO of
codes 2 and 3 and CANNOT of any other, with its code; else, with a command outstanding and sent in fewer than 125 cycles,
COMMAND with its code, which grows the sent count; else IDLE with code 0. Nothing else changes. The
Cross-Connect's payload (R57, R58): a transmit slot that no row owns carries idle fill, and a row's transmit slot
carries the receive slot of the same rank among the row's slots on its source path. -/
def Obligations.CycleTransmitComposesCycle : Prop :=
  ∀ (p : PortId) (s : State),
    ((s.port p).link = .off → exec (.cycleTransmit p) s = .next s)
    ∧ ((s.port p).link ≠ .off → ∃ (t : State) (cyc : LineCycle) (l : PortId) (sent : Nat),
      exec (.cycleTransmit p) s = .next t
      ∧ l = s.logical p
      ∧ cyc.payload = (if s.claimed = some p then patternPayload s.prover.generator else s.crossPayload p)
      ∧ rdyOf cyc = decide ((s.port p).link = .awaitReady ∨ (s.port p).link = .restore ∨ (s.port p).link = .up
          ∨ (s.port p).link = .suspect)
      ∧ backupOf cyc = false ∧ inputLossOf cyc = false
      ∧ fbeOf cyc = decide ((s.port p).lastClass = some .inverted ∨ (s.port p).lastClass = some .bad)
      ∧ (∀ m, (s.port p).channel.present = some m → m.kind = 1 →
        messageOf cyc = ⟨if m.code = 2 ∨ m.code = 3 then 2 else 3, m.code⟩ ∧ sent = (s.port p).channel.sent)
      ∧ ((∀ m, (s.port p).channel.present = some m → m.kind ≠ 1) →
        (∀ x : MaintCommand, (s.port p).channel.outstanding = some x → (s.port p).channel.sent < 125 →
          messageOf cyc = ⟨1, BitVec.ofNat 8 x.code⟩ ∧ sent = (s.port p).channel.sent + 1)
        ∧ (((s.port p).channel.outstanding = none ∨ 125 ≤ (s.port p).channel.sent) →
          messageOf cyc = ⟨0, 0⟩ ∧ sent = (s.port p).channel.sent))
      ∧ cyc.check = (if (s.port p).channel.hubCorrupting then ~~~cycleCheck cyc.payload cyc.overhead
          else cycleCheck cyc.payload cyc.overhead)
      ∧ t.port p = { s.port p with
          lane := some cyc, channel := { (s.port p).channel with sent := sent } }
      ∧ (∀ q, q ≠ p → t.port q = s.port q)
      ∧ t = { s with ports := t.ports, prover := t.prover }
      ∧ (s.claimed ≠ some p → t.prover = s.prover)
      ∧ (s.claimed = some p →
        t.prover = { s.prover with generator := patternAdvance 1310720 s.prover.generator })
      ∧ (s.claimed ≠ some p → (∀ i : SlotId, (s.port l).txOwner[i] = none → cyc.payload[i] = [])
        ∧ ∀ (r : RowId) (src : PortId) (i j : SlotId), src = sourcePort (s.row r).captured →
          (s.port l).txOwner[i] = some r → (s.port (s.logical src)).rxOwner[j] = some r →
          slotsBelow (s.port l).txOwner (some r) i = slotsBelow (s.port (s.logical src)).rxOwner (some r) j →
          cyc.payload[i] = (s.port (s.rxPath src)).rx[j]))

/-! ## Notices and settlement -/

/-- The handing of a notice (R170, R171): with room it is given the next index, composed with the time of the handing,
put in writing and offered to the Outbound Queue; without room it is dropped and the overflow flag is set. Nothing
else changes. NOTICE_WRITE_DONE (R170, R172, R175): the entry is in memory, the notice leaves the list, the produce index
grows by 1, and M-side becomes free for the arbiter; NOTE_N is low exactly while the indices differ or the overflow flag
is 1. That nothing happens with no notice write in progress is the model's choice (log 12). -/
def Obligations.NoticesHandedAndProduced : Prop :=
  ∀ s : State,
    (∀ (k : NoticeKind) (subject code : Nat) (n2 n3 : Word),
      (ringDist s.notice.produce s.notice.consume + s.notice.inWriting.length < 512 →
        ∃ n : Notice, n = ⟨s.notice.produce + BitVec.ofNat 10 s.notice.inWriting.length,
            BitVec.ofNat 32 (k.code + 2 ^ 8 * (subject % 2 ^ 8) + 2 ^ 16 * (code % 2 ^ 8)),
            s.now.extractLsb' 0 32, n2, n3⟩
          ∧ (subject < 256 → code < 256 → s.handNotice k subject code n2 n3 = { s with
            notice := { s.notice with inWriting := s.notice.inWriting ++ [n] }
            path := s.path.offer .notice (.noticeWrite n) }))
      ∧ (¬(ringDist s.notice.produce s.notice.consume + s.notice.inWriting.length < 512) →
        s.handNotice k subject code n2 n3 = { s with notice := { s.notice with overflow := true } }))
    ∧ (∀ n rest more, s.path.mside = .outbound → s.path.outbound = .noticeWrite n :: rest →
      s.notice.inWriting = n :: more →
      ∃ u : State, exec .noticeWriteDone s = .next u.arbitrate
        ∧ u = { s with
          mem := s.mem.writeWords (s.base + 0x20000 + 16 * (n.index.toNat % 512)) [n.n0, n.n1, n.n2, n.n3]
          notice := { s.notice with inWriting := more, produce := s.notice.produce + 1 }
          path := { s.path.leave with mside := .free } }
        ∧ (u.noteLow = true ↔ u.notice.produce ≠ u.notice.consume ∨ u.notice.overflow = true))
    ∧ ((s.path.mside ≠ .outbound ∨ ∀ n rest, s.path.outbound ≠ .noticeWrite n :: rest) →
      exec .noticeWriteDone s = .next s)

/-- RECORD_BEGIN (R143, R144, R145, R146, R151): with rows queued, no record in writing, room in the ring and no action
in flight for the head row, the head row's record begins and its two halves are offered in order; with the ring full
(512 held) the unit waits in WAIT_RING, and with an action in flight in WAIT_ACTION. No row changes. That the command
takes this step as the state stands is the model's reading (log 9). -/
def Obligations.RecordBegins : Prop :=
  ∀ (r : RowId) (others : List RowId) (s : State), s.settle.writing = none → s.settle.queue = r :: others →
    ((ringDist s.settle.append s.settle.release ≠ 512 ∧ (s.row r).inFlight = .none) →
      ∃ ws : List Word, ws = composeRecord (s.row r) s.settle.nextSeq
        ∧ exec .recordBegin s = .next { s with
          settle := { s.settle with queue := others, writing := some ⟨r, s.settle.append, ws⟩, unit := .writing }
          path := (s.path.offer .settlement (.recordHalf s.settle.append false (ws.take 16))).offer .settlement
            (.recordHalf s.settle.append true (ws.drop 16)) })
    ∧ (ringDist s.settle.append s.settle.release = 512 →
      (s.settle.unit = .waitRing → exec .recordBegin s = .next s)
      ∧ (s.settle.unit ≠ .waitRing → exec .recordBegin s
        = .next (({ s with settle := { s.settle with unit := .waitRing } } : State).handNotice .settlementWait 0 0
          (BitVec.ofNat 32 (others.length + 1)) (s.settle.release.setWidth 32))))
    ∧ ((ringDist s.settle.append s.settle.release ≠ 512 ∧ (s.row r).inFlight ≠ .none) →
      exec .recordBegin s = .next { s with settle := { s.settle with unit := .waitAction } })

/-- The settlement record (R144, R145): its 32 words, in order, from the row's record and its frozen meter; the check
word is the two's complement of the sum of the 31 words before it, and the 32 words sum to 0 modulo 2^32. -/
def Obligations.RecordWordsAndCheck : Prop :=
  ∀ (x : Row) (seq : Word), ∃ ws : List Word, ws = composeRecord x seq ∧ ws.length = 32
    ∧ ws.take 18 = [seq, x.captured[0], x.captured[1],
        x.captured[2] ||| BitVec.ofNat 32 (2 ^ 17 * x.late.toNat) ||| BitVec.ofNat 32 (2 ^ 20 * x.endReason.code),
        x.captured[3], x.captured[4], (x.captured[5].extractLsb' 0 8).setWidth 32,
        x.captured[6], (x.captured[7].extractLsb' 0 8).setWidth 32,
        x.actualStart.extractLsb' 0 32, (x.actualStart.extractLsb' 32 8).setWidth 32,
        x.actualEnd.extractLsb' 0 32, (x.actualEnd.extractLsb' 32 8).setWidth 32,
        x.meter.carriage, x.meter.served, x.meter.outage, x.meter.switchCount ++ x.meter.outageCount,
        BitVec.ofNat 32 x.meter.closed.length]
    ∧ (x.meter.closed.length ≤ 7 → ∀ i, i < 7 → ws[18 + i]? = some (x.meter.closed.getD i 0))
    ∧ (∀ i, 25 ≤ i → i ≤ 30 → ws[i]? = some 0)
    ∧ ws[31]? = some (0 - (ws.take 31).foldl (· + ·) 0) ∧ ws.foldl (· + ·) 0 = 0

/-- SETTLEMENT_FIRST_HALF_DONE (R146): the first half is in memory at the record's offset, the entry leaves the
Outbound Queue, and M-side becomes free for the arbiter; the record is not complete. With no first half in progress
nothing happens, by the model's choice (log 12). RECORD_COMPLETE (R147, R153): the second half is in memory; the append
index and the sequence advance, the sequence passing over 0; the row becomes EMPTY with SETTLED, its sequence recorded
and its meter cleared, its late flag and end reason kept and its feed health HEALTHY (the record's own value in EMPTY:
log 20); SETTLED is handed where the ring has room; no other row changes. -/
def Obligations.RecordHalvesComplete : Prop :=
  ∀ s : State,
    (∀ i ws rest, s.path.mside = .outbound → s.path.outbound = .recordHalf i false ws :: rest →
      exec .settlementFirstHalfDone s = .next (({ s with
        mem := s.mem.writeWords (s.base + 0x40000 + 128 * (i.toNat % 512)) ws
        path := { s.path.leave with mside := .free } } : State).arbitrate))
    ∧ ((s.path.mside ≠ .outbound ∨ ∀ i ws rest, s.path.outbound ≠ .recordHalf i false ws :: rest) →
      exec .settlementFirstHalfDone s = .next s)
    ∧ ∀ (w : RecordInWriting) (i : BitVec 10) (ws : List Word) (rest : List OutEntry),
      s.path.mside = .outbound → s.path.outbound = .recordHalf i true ws :: rest → s.settle.writing = some w →
      ∃ u : State, exec .recordComplete s = .next u.arbitrate
        ∧ u.settle.append = s.settle.append + 1 ∧ u.settle.release = s.settle.release
        ∧ u.settle.nextSeq = (if s.settle.nextSeq = BitVec.allOnes 32 then 1 else s.settle.nextSeq + 1)
        ∧ u.row w.row = { s.row w.row with
            state := .empty, lastResult := .settled, settleSeq := s.settle.nextSeq, inFlight := .none
            health := .healthy, meter := ⟨0, 0, 0, [], 0, 0, 0, 0, 0⟩ }
        ∧ (∀ q, q ≠ w.row → u.row q = s.row q)
        ∧ (s.roomFor 1 → s.hands u .settled w.row.val (s.row w.row).endReason.code s.settle.nextSeq
          (w.index.setWidth 32))
        ∧ u.mem = s.mem.writeWords (s.base + 0x40000 + 128 * (i.toNat % 512) + 64) ws
        ∧ u.path.mside = .free ∧ u.ports = s.ports ∧ u.now = s.now

/-! ## Laws that every step keeps -/

/-- Every law below, and with them those of the notices, the prover and the meters, holds at State.reset. -/
def Obligations.LawsHoldAtReset : Prop :=
  MemoryLaw State.reset ∧ OutboundLaw State.reset ∧ NoticeLaw State.reset ∧ SettlementLaw State.reset
    ∧ ChannelLaw State.reset ∧ EnableLaw State.reset ∧ CarryingLaw State.reset ∧ ConfigLaw State.reset
    ∧ SelectionLaw State.reset ∧ ProverLaw State.reset ∧ MeterLaw State.reset

/-- Control memory keeps its canonical form at every step. -/
def Obligations.StepKeepsMemoryLaw : Prop :=
  ∀ s t : State, MemoryLaw s → step s = .next t → MemoryLaw t

/-- The Outbound Queue keeps at most 8 entries, and it is full while a producer waits; the producers that wait are,
each once, those with a transaction that has not joined, at every step (R165). -/
def Obligations.StepKeepsOutboundLaw : Prop :=
  ∀ s t : State, OutboundLaw s → step s = .next t → OutboundLaw t

/-- Unconsumed notices and notices in writing stay at most 512, and held settlement records at most 512 (R171, R172,
R148); the locked time stays at most the elapsed time, and the carriage of every row the sum of its segments (R119, R132,
R136); each at every step. -/
def Obligations.StepKeepsRingAndCountLaws : Prop :=
  ∀ s t : State, step s = .next t →
    (NoticeLaw s → NoticeLaw t) ∧ (SettlementLaw s → SettlementLaw t) ∧ (ProverLaw s → ProverLaw t)
      ∧ (MeterLaw s → MeterLaw t)

/-- On every port, out of UP and SUSPECT nothing is latched and the hub does not corrupt, and OFF is the state of the
disabled ports (R109, R52); every port that a HELD or LIVE booking names, and both members of a pair in pair mode, stay
enabled (R51); at every step. -/
def Obligations.StepKeepsPortLaws : Prop :=
  ∀ s t : State, step s = .next t →
    (ChannelLaw s ∧ EnableLaw s → ChannelLaw t ∧ EnableLaw t) ∧ (ConfigLaw s → ConfigLaw t)

/-- The carrying flag of every port stays what its four inputs make it, at every step (R59). -/
def Obligations.StepKeepsCarryingLaw : Prop :=
  ∀ s t : State, CarryingLaw s → step s = .next t → CarryingLaw t

/-- No pair in pair mode comes to have an active member that is not carrying together with a partner that is, at any step
(R61). -/
def Obligations.StepKeepsSelectionLaw : Prop :=
  ∀ s t : State, SelectionLaw s → step s = .next t → SelectionLaw t
end

