-- ==== Sys2Proof/Laws/State.lean ====
section
/-! SUPPORT. What each named update of State leaves alone, field by field, and what a row, a port or a channel
reads after one: all true by unfolding one record update. -/

namespace Sys2Proof.Machine

/-! `setRow` -/

@[simp] theorem setRow_regionSel (s : State) (r : RowId) (x : Row) : (s.setRow r x).regionSel = s.regionSel := rfl
@[simp] theorem setRow_mem (s : State) (r : RowId) (x : Row) : (s.setRow r x).mem = s.mem := rfl
@[simp] theorem setRow_now (s : State) (r : RowId) (x : Row) : (s.setRow r x).now = s.now := rfl
@[simp] theorem setRow_setTimeLow (s : State) (r : RowId) (x : Row) : (s.setRow r x).setTimeLow = s.setTimeLow := rfl
@[simp] theorem setRow_setTimeHigh (s : State) (r : RowId) (x : Row) : (s.setRow r x).setTimeHigh = s.setTimeHigh := rfl
@[simp] theorem setRow_timeHold (s : State) (r : RowId) (x : Row) : (s.setRow r x).timeHold = s.timeHold := rfl
@[simp] theorem setRow_fabric (s : State) (r : RowId) (x : Row) : (s.setRow r x).fabric = s.fabric := rfl
@[simp] theorem setRow_meterDue (s : State) (r : RowId) (x : Row) : (s.setRow r x).meterDue = s.meterDue := rfl
@[simp] theorem setRow_proverDue (s : State) (r : RowId) (x : Row) : (s.setRow r x).proverDue = s.proverDue := rfl
@[simp] theorem setRow_pass (s : State) (r : RowId) (x : Row) : (s.setRow r x).pass = s.pass := rfl
@[simp] theorem setRow_actionQueue (s : State) (r : RowId) (x : Row) : (s.setRow r x).actionQueue = s.actionQueue := rfl
@[simp] theorem setRow_admission (s : State) (r : RowId) (x : Row) : (s.setRow r x).admission = s.admission := rfl
@[simp] theorem setRow_ports (s : State) (r : RowId) (x : Row) : (s.setRow r x).ports = s.ports := rfl
@[simp] theorem setRow_active (s : State) (r : RowId) (x : Row) : (s.setRow r x).active = s.active := rfl
@[simp] theorem setRow_prover (s : State) (r : RowId) (x : Row) : (s.setRow r x).prover = s.prover := rfl
@[simp] theorem setRow_settle (s : State) (r : RowId) (x : Row) : (s.setRow r x).settle = s.settle := rfl
@[simp] theorem setRow_notice (s : State) (r : RowId) (x : Row) : (s.setRow r x).notice = s.notice := rfl
@[simp] theorem setRow_path (s : State) (r : RowId) (x : Row) : (s.setRow r x).path = s.path := rfl
@[simp] theorem setRow_pending (s : State) (r : RowId) (x : Row) : (s.setRow r x).pending = s.pending := rfl

/-! `setPort` -/

@[simp] theorem setPort_regionSel (s : State) (p : PortId) (x : Port) : (s.setPort p x).regionSel = s.regionSel := rfl
@[simp] theorem setPort_mem (s : State) (p : PortId) (x : Port) : (s.setPort p x).mem = s.mem := rfl
@[simp] theorem setPort_now (s : State) (p : PortId) (x : Port) : (s.setPort p x).now = s.now := rfl
@[simp] theorem setPort_setTimeLow (s : State) (p : PortId) (x : Port) : (s.setPort p x).setTimeLow = s.setTimeLow := rfl
@[simp] theorem setPort_setTimeHigh (s : State) (p : PortId) (x : Port) : (s.setPort p x).setTimeHigh = s.setTimeHigh := rfl
@[simp] theorem setPort_timeHold (s : State) (p : PortId) (x : Port) : (s.setPort p x).timeHold = s.timeHold := rfl
@[simp] theorem setPort_fabric (s : State) (p : PortId) (x : Port) : (s.setPort p x).fabric = s.fabric := rfl
@[simp] theorem setPort_meterDue (s : State) (p : PortId) (x : Port) : (s.setPort p x).meterDue = s.meterDue := rfl
@[simp] theorem setPort_proverDue (s : State) (p : PortId) (x : Port) : (s.setPort p x).proverDue = s.proverDue := rfl
@[simp] theorem setPort_pass (s : State) (p : PortId) (x : Port) : (s.setPort p x).pass = s.pass := rfl
@[simp] theorem setPort_rows (s : State) (p : PortId) (x : Port) : (s.setPort p x).rows = s.rows := rfl
@[simp] theorem setPort_actionQueue (s : State) (p : PortId) (x : Port) : (s.setPort p x).actionQueue = s.actionQueue := rfl
@[simp] theorem setPort_admission (s : State) (p : PortId) (x : Port) : (s.setPort p x).admission = s.admission := rfl
@[simp] theorem setPort_active (s : State) (p : PortId) (x : Port) : (s.setPort p x).active = s.active := rfl
@[simp] theorem setPort_prover (s : State) (p : PortId) (x : Port) : (s.setPort p x).prover = s.prover := rfl
@[simp] theorem setPort_settle (s : State) (p : PortId) (x : Port) : (s.setPort p x).settle = s.settle := rfl
@[simp] theorem setPort_notice (s : State) (p : PortId) (x : Port) : (s.setPort p x).notice = s.notice := rfl
@[simp] theorem setPort_path (s : State) (p : PortId) (x : Port) : (s.setPort p x).path = s.path := rfl
@[simp] theorem setPort_pending (s : State) (p : PortId) (x : Port) : (s.setPort p x).pending = s.pending := rfl

/-! `setChannel` -/

@[simp] theorem setChannel_regionSel (s : State) (p : PortId) (c : Channel) : (s.setChannel p c).regionSel = s.regionSel := rfl
@[simp] theorem setChannel_mem (s : State) (p : PortId) (c : Channel) : (s.setChannel p c).mem = s.mem := rfl
@[simp] theorem setChannel_now (s : State) (p : PortId) (c : Channel) : (s.setChannel p c).now = s.now := rfl
@[simp] theorem setChannel_setTimeLow (s : State) (p : PortId) (c : Channel) : (s.setChannel p c).setTimeLow = s.setTimeLow := rfl
@[simp] theorem setChannel_setTimeHigh (s : State) (p : PortId) (c : Channel) : (s.setChannel p c).setTimeHigh = s.setTimeHigh := rfl
@[simp] theorem setChannel_timeHold (s : State) (p : PortId) (c : Channel) : (s.setChannel p c).timeHold = s.timeHold := rfl
@[simp] theorem setChannel_fabric (s : State) (p : PortId) (c : Channel) : (s.setChannel p c).fabric = s.fabric := rfl
@[simp] theorem setChannel_meterDue (s : State) (p : PortId) (c : Channel) : (s.setChannel p c).meterDue = s.meterDue := rfl
@[simp] theorem setChannel_proverDue (s : State) (p : PortId) (c : Channel) : (s.setChannel p c).proverDue = s.proverDue := rfl
@[simp] theorem setChannel_pass (s : State) (p : PortId) (c : Channel) : (s.setChannel p c).pass = s.pass := rfl
@[simp] theorem setChannel_rows (s : State) (p : PortId) (c : Channel) : (s.setChannel p c).rows = s.rows := rfl
@[simp] theorem setChannel_actionQueue (s : State) (p : PortId) (c : Channel) : (s.setChannel p c).actionQueue = s.actionQueue := rfl
@[simp] theorem setChannel_admission (s : State) (p : PortId) (c : Channel) : (s.setChannel p c).admission = s.admission := rfl
@[simp] theorem setChannel_active (s : State) (p : PortId) (c : Channel) : (s.setChannel p c).active = s.active := rfl
@[simp] theorem setChannel_prover (s : State) (p : PortId) (c : Channel) : (s.setChannel p c).prover = s.prover := rfl
@[simp] theorem setChannel_settle (s : State) (p : PortId) (c : Channel) : (s.setChannel p c).settle = s.settle := rfl
@[simp] theorem setChannel_notice (s : State) (p : PortId) (c : Channel) : (s.setChannel p c).notice = s.notice := rfl
@[simp] theorem setChannel_path (s : State) (p : PortId) (c : Channel) : (s.setChannel p c).path = s.path := rfl
@[simp] theorem setChannel_pending (s : State) (p : PortId) (c : Channel) : (s.setChannel p c).pending = s.pending := rfl

/-! `offer` -/

@[simp] theorem offer_regionSel (s : State) (pr : Producer) (e : OutEntry) : (s.offer pr e).regionSel = s.regionSel := rfl
@[simp] theorem offer_mem (s : State) (pr : Producer) (e : OutEntry) : (s.offer pr e).mem = s.mem := rfl
@[simp] theorem offer_now (s : State) (pr : Producer) (e : OutEntry) : (s.offer pr e).now = s.now := rfl
@[simp] theorem offer_setTimeLow (s : State) (pr : Producer) (e : OutEntry) : (s.offer pr e).setTimeLow = s.setTimeLow := rfl
@[simp] theorem offer_setTimeHigh (s : State) (pr : Producer) (e : OutEntry) : (s.offer pr e).setTimeHigh = s.setTimeHigh := rfl
@[simp] theorem offer_timeHold (s : State) (pr : Producer) (e : OutEntry) : (s.offer pr e).timeHold = s.timeHold := rfl
@[simp] theorem offer_fabric (s : State) (pr : Producer) (e : OutEntry) : (s.offer pr e).fabric = s.fabric := rfl
@[simp] theorem offer_meterDue (s : State) (pr : Producer) (e : OutEntry) : (s.offer pr e).meterDue = s.meterDue := rfl
@[simp] theorem offer_proverDue (s : State) (pr : Producer) (e : OutEntry) : (s.offer pr e).proverDue = s.proverDue := rfl
@[simp] theorem offer_pass (s : State) (pr : Producer) (e : OutEntry) : (s.offer pr e).pass = s.pass := rfl
@[simp] theorem offer_rows (s : State) (pr : Producer) (e : OutEntry) : (s.offer pr e).rows = s.rows := rfl
@[simp] theorem offer_actionQueue (s : State) (pr : Producer) (e : OutEntry) : (s.offer pr e).actionQueue = s.actionQueue := rfl
@[simp] theorem offer_admission (s : State) (pr : Producer) (e : OutEntry) : (s.offer pr e).admission = s.admission := rfl
@[simp] theorem offer_ports (s : State) (pr : Producer) (e : OutEntry) : (s.offer pr e).ports = s.ports := rfl
@[simp] theorem offer_active (s : State) (pr : Producer) (e : OutEntry) : (s.offer pr e).active = s.active := rfl
@[simp] theorem offer_prover (s : State) (pr : Producer) (e : OutEntry) : (s.offer pr e).prover = s.prover := rfl
@[simp] theorem offer_settle (s : State) (pr : Producer) (e : OutEntry) : (s.offer pr e).settle = s.settle := rfl
@[simp] theorem offer_notice (s : State) (pr : Producer) (e : OutEntry) : (s.offer pr e).notice = s.notice := rfl
@[simp] theorem offer_pending (s : State) (pr : Producer) (e : OutEntry) : (s.offer pr e).pending = s.pending := rfl

/-! `handNotice` -/

@[simp] theorem handNotice_regionSel (s : State) (k : NoticeKind) (a b : Nat) (c d : Word) : (s.handNotice k a b c d).regionSel = s.regionSel := rfl
@[simp] theorem handNotice_mem (s : State) (k : NoticeKind) (a b : Nat) (c d : Word) : (s.handNotice k a b c d).mem = s.mem := rfl
@[simp] theorem handNotice_now (s : State) (k : NoticeKind) (a b : Nat) (c d : Word) : (s.handNotice k a b c d).now = s.now := rfl
@[simp] theorem handNotice_setTimeLow (s : State) (k : NoticeKind) (a b : Nat) (c d : Word) : (s.handNotice k a b c d).setTimeLow = s.setTimeLow := rfl
@[simp] theorem handNotice_setTimeHigh (s : State) (k : NoticeKind) (a b : Nat) (c d : Word) : (s.handNotice k a b c d).setTimeHigh = s.setTimeHigh := rfl
@[simp] theorem handNotice_timeHold (s : State) (k : NoticeKind) (a b : Nat) (c d : Word) : (s.handNotice k a b c d).timeHold = s.timeHold := rfl
@[simp] theorem handNotice_fabric (s : State) (k : NoticeKind) (a b : Nat) (c d : Word) : (s.handNotice k a b c d).fabric = s.fabric := rfl
@[simp] theorem handNotice_meterDue (s : State) (k : NoticeKind) (a b : Nat) (c d : Word) : (s.handNotice k a b c d).meterDue = s.meterDue := rfl
@[simp] theorem handNotice_proverDue (s : State) (k : NoticeKind) (a b : Nat) (c d : Word) : (s.handNotice k a b c d).proverDue = s.proverDue := rfl
@[simp] theorem handNotice_pass (s : State) (k : NoticeKind) (a b : Nat) (c d : Word) : (s.handNotice k a b c d).pass = s.pass := rfl
@[simp] theorem handNotice_rows (s : State) (k : NoticeKind) (a b : Nat) (c d : Word) : (s.handNotice k a b c d).rows = s.rows := rfl
@[simp] theorem handNotice_actionQueue (s : State) (k : NoticeKind) (a b : Nat) (c d : Word) : (s.handNotice k a b c d).actionQueue = s.actionQueue := rfl
@[simp] theorem handNotice_admission (s : State) (k : NoticeKind) (a b : Nat) (c d : Word) : (s.handNotice k a b c d).admission = s.admission := rfl
@[simp] theorem handNotice_ports (s : State) (k : NoticeKind) (a b : Nat) (c d : Word) : (s.handNotice k a b c d).ports = s.ports := rfl
@[simp] theorem handNotice_active (s : State) (k : NoticeKind) (a b : Nat) (c d : Word) : (s.handNotice k a b c d).active = s.active := rfl
@[simp] theorem handNotice_prover (s : State) (k : NoticeKind) (a b : Nat) (c d : Word) : (s.handNotice k a b c d).prover = s.prover := rfl
@[simp] theorem handNotice_settle (s : State) (k : NoticeKind) (a b : Nat) (c d : Word) : (s.handNotice k a b c d).settle = s.settle := rfl
@[simp] theorem handNotice_pending (s : State) (k : NoticeKind) (a b : Nat) (c d : Word) : (s.handNotice k a b c d).pending = s.pending := rfl

/-! `setPhase` -/

@[simp] theorem setPhase_regionSel (s : State) (t : Transaction) (ph : PsidePhase) : (s.setPhase t ph).regionSel = s.regionSel := rfl
@[simp] theorem setPhase_mem (s : State) (t : Transaction) (ph : PsidePhase) : (s.setPhase t ph).mem = s.mem := rfl
@[simp] theorem setPhase_now (s : State) (t : Transaction) (ph : PsidePhase) : (s.setPhase t ph).now = s.now := rfl
@[simp] theorem setPhase_setTimeLow (s : State) (t : Transaction) (ph : PsidePhase) : (s.setPhase t ph).setTimeLow = s.setTimeLow := rfl
@[simp] theorem setPhase_setTimeHigh (s : State) (t : Transaction) (ph : PsidePhase) : (s.setPhase t ph).setTimeHigh = s.setTimeHigh := rfl
@[simp] theorem setPhase_timeHold (s : State) (t : Transaction) (ph : PsidePhase) : (s.setPhase t ph).timeHold = s.timeHold := rfl
@[simp] theorem setPhase_fabric (s : State) (t : Transaction) (ph : PsidePhase) : (s.setPhase t ph).fabric = s.fabric := rfl
@[simp] theorem setPhase_meterDue (s : State) (t : Transaction) (ph : PsidePhase) : (s.setPhase t ph).meterDue = s.meterDue := rfl
@[simp] theorem setPhase_proverDue (s : State) (t : Transaction) (ph : PsidePhase) : (s.setPhase t ph).proverDue = s.proverDue := rfl
@[simp] theorem setPhase_pass (s : State) (t : Transaction) (ph : PsidePhase) : (s.setPhase t ph).pass = s.pass := rfl
@[simp] theorem setPhase_rows (s : State) (t : Transaction) (ph : PsidePhase) : (s.setPhase t ph).rows = s.rows := rfl
@[simp] theorem setPhase_actionQueue (s : State) (t : Transaction) (ph : PsidePhase) : (s.setPhase t ph).actionQueue = s.actionQueue := rfl
@[simp] theorem setPhase_admission (s : State) (t : Transaction) (ph : PsidePhase) : (s.setPhase t ph).admission = s.admission := rfl
@[simp] theorem setPhase_ports (s : State) (t : Transaction) (ph : PsidePhase) : (s.setPhase t ph).ports = s.ports := rfl
@[simp] theorem setPhase_active (s : State) (t : Transaction) (ph : PsidePhase) : (s.setPhase t ph).active = s.active := rfl
@[simp] theorem setPhase_prover (s : State) (t : Transaction) (ph : PsidePhase) : (s.setPhase t ph).prover = s.prover := rfl
@[simp] theorem setPhase_settle (s : State) (t : Transaction) (ph : PsidePhase) : (s.setPhase t ph).settle = s.settle := rfl
@[simp] theorem setPhase_notice (s : State) (t : Transaction) (ph : PsidePhase) : (s.setPhase t ph).notice = s.notice := rfl
@[simp] theorem setPhase_pending (s : State) (t : Transaction) (ph : PsidePhase) : (s.setPhase t ph).pending = s.pending := rfl

/-! `respond` -/

@[simp] theorem respond_regionSel (s : State) (a : Response) : (s.respond a).regionSel = s.regionSel := rfl
@[simp] theorem respond_mem (s : State) (a : Response) : (s.respond a).mem = s.mem := rfl
@[simp] theorem respond_now (s : State) (a : Response) : (s.respond a).now = s.now := rfl
@[simp] theorem respond_setTimeLow (s : State) (a : Response) : (s.respond a).setTimeLow = s.setTimeLow := rfl
@[simp] theorem respond_setTimeHigh (s : State) (a : Response) : (s.respond a).setTimeHigh = s.setTimeHigh := rfl
@[simp] theorem respond_timeHold (s : State) (a : Response) : (s.respond a).timeHold = s.timeHold := rfl
@[simp] theorem respond_fabric (s : State) (a : Response) : (s.respond a).fabric = s.fabric := rfl
@[simp] theorem respond_meterDue (s : State) (a : Response) : (s.respond a).meterDue = s.meterDue := rfl
@[simp] theorem respond_proverDue (s : State) (a : Response) : (s.respond a).proverDue = s.proverDue := rfl
@[simp] theorem respond_pass (s : State) (a : Response) : (s.respond a).pass = s.pass := rfl
@[simp] theorem respond_rows (s : State) (a : Response) : (s.respond a).rows = s.rows := rfl
@[simp] theorem respond_actionQueue (s : State) (a : Response) : (s.respond a).actionQueue = s.actionQueue := rfl
@[simp] theorem respond_admission (s : State) (a : Response) : (s.respond a).admission = s.admission := rfl
@[simp] theorem respond_ports (s : State) (a : Response) : (s.respond a).ports = s.ports := rfl
@[simp] theorem respond_active (s : State) (a : Response) : (s.respond a).active = s.active := rfl
@[simp] theorem respond_prover (s : State) (a : Response) : (s.respond a).prover = s.prover := rfl
@[simp] theorem respond_settle (s : State) (a : Response) : (s.respond a).settle = s.settle := rfl
@[simp] theorem respond_notice (s : State) (a : Response) : (s.respond a).notice = s.notice := rfl
@[simp] theorem respond_pending (s : State) (a : Response) : (s.respond a).pending = s.pending := rfl

/-! `joinSettlement` -/

@[simp] theorem joinSettlement_regionSel (s : State) (r : RowId) : (s.joinSettlement r).regionSel = s.regionSel := rfl
@[simp] theorem joinSettlement_mem (s : State) (r : RowId) : (s.joinSettlement r).mem = s.mem := rfl
@[simp] theorem joinSettlement_now (s : State) (r : RowId) : (s.joinSettlement r).now = s.now := rfl
@[simp] theorem joinSettlement_setTimeLow (s : State) (r : RowId) : (s.joinSettlement r).setTimeLow = s.setTimeLow := rfl
@[simp] theorem joinSettlement_setTimeHigh (s : State) (r : RowId) : (s.joinSettlement r).setTimeHigh = s.setTimeHigh := rfl
@[simp] theorem joinSettlement_timeHold (s : State) (r : RowId) : (s.joinSettlement r).timeHold = s.timeHold := rfl
@[simp] theorem joinSettlement_fabric (s : State) (r : RowId) : (s.joinSettlement r).fabric = s.fabric := rfl
@[simp] theorem joinSettlement_meterDue (s : State) (r : RowId) : (s.joinSettlement r).meterDue = s.meterDue := rfl
@[simp] theorem joinSettlement_proverDue (s : State) (r : RowId) : (s.joinSettlement r).proverDue = s.proverDue := rfl
@[simp] theorem joinSettlement_pass (s : State) (r : RowId) : (s.joinSettlement r).pass = s.pass := rfl
@[simp] theorem joinSettlement_rows (s : State) (r : RowId) : (s.joinSettlement r).rows = s.rows := rfl
@[simp] theorem joinSettlement_actionQueue (s : State) (r : RowId) : (s.joinSettlement r).actionQueue = s.actionQueue := rfl
@[simp] theorem joinSettlement_admission (s : State) (r : RowId) : (s.joinSettlement r).admission = s.admission := rfl
@[simp] theorem joinSettlement_ports (s : State) (r : RowId) : (s.joinSettlement r).ports = s.ports := rfl
@[simp] theorem joinSettlement_active (s : State) (r : RowId) : (s.joinSettlement r).active = s.active := rfl
@[simp] theorem joinSettlement_prover (s : State) (r : RowId) : (s.joinSettlement r).prover = s.prover := rfl
@[simp] theorem joinSettlement_notice (s : State) (r : RowId) : (s.joinSettlement r).notice = s.notice := rfl
@[simp] theorem joinSettlement_path (s : State) (r : RowId) : (s.joinSettlement r).path = s.path := rfl
@[simp] theorem joinSettlement_pending (s : State) (r : RowId) : (s.joinSettlement r).pending = s.pending := rfl

/-! `freeSlotsOf` -/

@[simp] theorem freeSlotsOf_regionSel (s : State) (r : RowId) : (s.freeSlotsOf r).regionSel = s.regionSel := rfl
@[simp] theorem freeSlotsOf_mem (s : State) (r : RowId) : (s.freeSlotsOf r).mem = s.mem := rfl
@[simp] theorem freeSlotsOf_now (s : State) (r : RowId) : (s.freeSlotsOf r).now = s.now := rfl
@[simp] theorem freeSlotsOf_setTimeLow (s : State) (r : RowId) : (s.freeSlotsOf r).setTimeLow = s.setTimeLow := rfl
@[simp] theorem freeSlotsOf_setTimeHigh (s : State) (r : RowId) : (s.freeSlotsOf r).setTimeHigh = s.setTimeHigh := rfl
@[simp] theorem freeSlotsOf_timeHold (s : State) (r : RowId) : (s.freeSlotsOf r).timeHold = s.timeHold := rfl
@[simp] theorem freeSlotsOf_fabric (s : State) (r : RowId) : (s.freeSlotsOf r).fabric = s.fabric := rfl
@[simp] theorem freeSlotsOf_meterDue (s : State) (r : RowId) : (s.freeSlotsOf r).meterDue = s.meterDue := rfl
@[simp] theorem freeSlotsOf_proverDue (s : State) (r : RowId) : (s.freeSlotsOf r).proverDue = s.proverDue := rfl
@[simp] theorem freeSlotsOf_pass (s : State) (r : RowId) : (s.freeSlotsOf r).pass = s.pass := rfl
@[simp] theorem freeSlotsOf_rows (s : State) (r : RowId) : (s.freeSlotsOf r).rows = s.rows := rfl
@[simp] theorem freeSlotsOf_actionQueue (s : State) (r : RowId) : (s.freeSlotsOf r).actionQueue = s.actionQueue := rfl
@[simp] theorem freeSlotsOf_admission (s : State) (r : RowId) : (s.freeSlotsOf r).admission = s.admission := rfl
@[simp] theorem freeSlotsOf_active (s : State) (r : RowId) : (s.freeSlotsOf r).active = s.active := rfl
@[simp] theorem freeSlotsOf_prover (s : State) (r : RowId) : (s.freeSlotsOf r).prover = s.prover := rfl
@[simp] theorem freeSlotsOf_settle (s : State) (r : RowId) : (s.freeSlotsOf r).settle = s.settle := rfl
@[simp] theorem freeSlotsOf_notice (s : State) (r : RowId) : (s.freeSlotsOf r).notice = s.notice := rfl
@[simp] theorem freeSlotsOf_path (s : State) (r : RowId) : (s.freeSlotsOf r).path = s.path := rfl
@[simp] theorem freeSlotsOf_pending (s : State) (r : RowId) : (s.freeSlotsOf r).pending = s.pending := rfl

/-! `entryDone` -/

@[simp] theorem entryDone_regionSel (s : State) : (s.entryDone).regionSel = s.regionSel := rfl
@[simp] theorem entryDone_mem (s : State) : (s.entryDone).mem = s.mem := rfl
@[simp] theorem entryDone_now (s : State) : (s.entryDone).now = s.now := rfl
@[simp] theorem entryDone_setTimeLow (s : State) : (s.entryDone).setTimeLow = s.setTimeLow := rfl
@[simp] theorem entryDone_setTimeHigh (s : State) : (s.entryDone).setTimeHigh = s.setTimeHigh := rfl
@[simp] theorem entryDone_timeHold (s : State) : (s.entryDone).timeHold = s.timeHold := rfl
@[simp] theorem entryDone_fabric (s : State) : (s.entryDone).fabric = s.fabric := rfl
@[simp] theorem entryDone_meterDue (s : State) : (s.entryDone).meterDue = s.meterDue := rfl
@[simp] theorem entryDone_proverDue (s : State) : (s.entryDone).proverDue = s.proverDue := rfl
@[simp] theorem entryDone_pass (s : State) : (s.entryDone).pass = s.pass := rfl
@[simp] theorem entryDone_rows (s : State) : (s.entryDone).rows = s.rows := rfl
@[simp] theorem entryDone_ports (s : State) : (s.entryDone).ports = s.ports := rfl
@[simp] theorem entryDone_active (s : State) : (s.entryDone).active = s.active := rfl
@[simp] theorem entryDone_prover (s : State) : (s.entryDone).prover = s.prover := rfl
@[simp] theorem entryDone_settle (s : State) : (s.entryDone).settle = s.settle := rfl
@[simp] theorem entryDone_notice (s : State) : (s.entryDone).notice = s.notice := rfl
@[simp] theorem entryDone_path (s : State) : (s.entryDone).path = s.path := rfl
@[simp] theorem entryDone_pending (s : State) : (s.entryDone).pending = s.pending := rfl

/-! `completeHead` -/

@[simp] theorem completeHead_regionSel (s : State) (e : OutEntry) : (s.completeHead e).regionSel = s.regionSel := rfl
@[simp] theorem completeHead_now (s : State) (e : OutEntry) : (s.completeHead e).now = s.now := rfl
@[simp] theorem completeHead_setTimeLow (s : State) (e : OutEntry) : (s.completeHead e).setTimeLow = s.setTimeLow := rfl
@[simp] theorem completeHead_setTimeHigh (s : State) (e : OutEntry) : (s.completeHead e).setTimeHigh = s.setTimeHigh := rfl
@[simp] theorem completeHead_timeHold (s : State) (e : OutEntry) : (s.completeHead e).timeHold = s.timeHold := rfl
@[simp] theorem completeHead_fabric (s : State) (e : OutEntry) : (s.completeHead e).fabric = s.fabric := rfl
@[simp] theorem completeHead_meterDue (s : State) (e : OutEntry) : (s.completeHead e).meterDue = s.meterDue := rfl
@[simp] theorem completeHead_proverDue (s : State) (e : OutEntry) : (s.completeHead e).proverDue = s.proverDue := rfl
@[simp] theorem completeHead_pass (s : State) (e : OutEntry) : (s.completeHead e).pass = s.pass := rfl
@[simp] theorem completeHead_rows (s : State) (e : OutEntry) : (s.completeHead e).rows = s.rows := rfl
@[simp] theorem completeHead_actionQueue (s : State) (e : OutEntry) : (s.completeHead e).actionQueue = s.actionQueue := rfl
@[simp] theorem completeHead_admission (s : State) (e : OutEntry) : (s.completeHead e).admission = s.admission := rfl
@[simp] theorem completeHead_ports (s : State) (e : OutEntry) : (s.completeHead e).ports = s.ports := rfl
@[simp] theorem completeHead_active (s : State) (e : OutEntry) : (s.completeHead e).active = s.active := rfl
@[simp] theorem completeHead_prover (s : State) (e : OutEntry) : (s.completeHead e).prover = s.prover := rfl
@[simp] theorem completeHead_settle (s : State) (e : OutEntry) : (s.completeHead e).settle = s.settle := rfl
@[simp] theorem completeHead_notice (s : State) (e : OutEntry) : (s.completeHead e).notice = s.notice := rfl
@[simp] theorem completeHead_pending (s : State) (e : OutEntry) : (s.completeHead e).pending = s.pending := rfl

/-! `noticeProduced` -/

@[simp] theorem noticeProduced_regionSel (s : State) : (s.noticeProduced).regionSel = s.regionSel := rfl
@[simp] theorem noticeProduced_mem (s : State) : (s.noticeProduced).mem = s.mem := rfl
@[simp] theorem noticeProduced_now (s : State) : (s.noticeProduced).now = s.now := rfl
@[simp] theorem noticeProduced_setTimeLow (s : State) : (s.noticeProduced).setTimeLow = s.setTimeLow := rfl
@[simp] theorem noticeProduced_setTimeHigh (s : State) : (s.noticeProduced).setTimeHigh = s.setTimeHigh := rfl
@[simp] theorem noticeProduced_timeHold (s : State) : (s.noticeProduced).timeHold = s.timeHold := rfl
@[simp] theorem noticeProduced_fabric (s : State) : (s.noticeProduced).fabric = s.fabric := rfl
@[simp] theorem noticeProduced_meterDue (s : State) : (s.noticeProduced).meterDue = s.meterDue := rfl
@[simp] theorem noticeProduced_proverDue (s : State) : (s.noticeProduced).proverDue = s.proverDue := rfl
@[simp] theorem noticeProduced_pass (s : State) : (s.noticeProduced).pass = s.pass := rfl
@[simp] theorem noticeProduced_rows (s : State) : (s.noticeProduced).rows = s.rows := rfl
@[simp] theorem noticeProduced_actionQueue (s : State) : (s.noticeProduced).actionQueue = s.actionQueue := rfl
@[simp] theorem noticeProduced_admission (s : State) : (s.noticeProduced).admission = s.admission := rfl
@[simp] theorem noticeProduced_ports (s : State) : (s.noticeProduced).ports = s.ports := rfl
@[simp] theorem noticeProduced_active (s : State) : (s.noticeProduced).active = s.active := rfl
@[simp] theorem noticeProduced_prover (s : State) : (s.noticeProduced).prover = s.prover := rfl
@[simp] theorem noticeProduced_settle (s : State) : (s.noticeProduced).settle = s.settle := rfl
@[simp] theorem noticeProduced_path (s : State) : (s.noticeProduced).path = s.path := rfl
@[simp] theorem noticeProduced_pending (s : State) : (s.noticeProduced).pending = s.pending := rfl

/-! Rows and ports -/

@[simp] theorem row_setRow (s : State) (r q : RowId) (x : Row) :
    (s.setRow r x).row q = if q = r then x else s.row q := by
  simp only [State.row, State.setRow, Fin.getElem_fin, Vector.getElem_set, Fin.ext_iff, eq_comm]

@[simp] theorem port_setPort (s : State) (p q : PortId) (x : Port) :
    (s.setPort p x).port q = if q = p then x else s.port q := by
  simp only [State.port, State.setPort, Fin.getElem_fin, Vector.getElem_set, Fin.ext_iff, eq_comm]

@[simp] theorem port_setChannel (s : State) (p q : PortId) (c : Channel) :
    (s.setChannel p c).port q = if q = p then { s.port p with channel := c } else s.port q :=
  port_setPort s p q _

@[simp] theorem setRow_port (s : State) (r : RowId) (x : Row) (q : PortId) : (s.setRow r x).port q = s.port q := rfl
@[simp] theorem setPort_row (s : State) (p : PortId) (x : Port) (q : RowId) : (s.setPort p x).row q = s.row q := rfl
@[simp] theorem setChannel_row (s : State) (p : PortId) (c : Channel) (q : RowId) : (s.setChannel p c).row q = s.row q := rfl
@[simp] theorem offer_row (s : State) (pr : Producer) (e : OutEntry) (q : RowId) : (s.offer pr e).row q = s.row q := rfl
@[simp] theorem offer_port (s : State) (pr : Producer) (e : OutEntry) (q : PortId) : (s.offer pr e).port q = s.port q := rfl
@[simp] theorem handNotice_row (s : State) (k : NoticeKind) (a b : Nat) (c d : Word) (q : RowId) : (s.handNotice k a b c d).row q = s.row q := rfl
@[simp] theorem handNotice_port (s : State) (k : NoticeKind) (a b : Nat) (c d : Word) (q : PortId) : (s.handNotice k a b c d).port q = s.port q := rfl
@[simp] theorem setPhase_row (s : State) (t : Transaction) (ph : PsidePhase) (q : RowId) : (s.setPhase t ph).row q = s.row q := rfl
@[simp] theorem setPhase_port (s : State) (t : Transaction) (ph : PsidePhase) (q : PortId) : (s.setPhase t ph).port q = s.port q := rfl
@[simp] theorem respond_row (s : State) (a : Response) (q : RowId) : (s.respond a).row q = s.row q := rfl
@[simp] theorem respond_port (s : State) (a : Response) (q : PortId) : (s.respond a).port q = s.port q := rfl
@[simp] theorem joinSettlement_row (s : State) (r : RowId) (q : RowId) : (s.joinSettlement r).row q = s.row q := rfl
@[simp] theorem joinSettlement_port (s : State) (r : RowId) (q : PortId) : (s.joinSettlement r).port q = s.port q := rfl
@[simp] theorem freeSlotsOf_row (s : State) (r : RowId) (q : RowId) : (s.freeSlotsOf r).row q = s.row q := rfl
@[simp] theorem entryDone_row (s : State) (q : RowId) : (s.entryDone).row q = s.row q := rfl
@[simp] theorem entryDone_port (s : State) (q : PortId) : (s.entryDone).port q = s.port q := rfl
@[simp] theorem completeHead_row (s : State) (e : OutEntry) (q : RowId) : (s.completeHead e).row q = s.row q := rfl
@[simp] theorem completeHead_port (s : State) (e : OutEntry) (q : PortId) : (s.completeHead e).port q = s.port q := rfl
@[simp] theorem noticeProduced_row (s : State) (q : RowId) : (s.noticeProduced).row q = s.row q := rfl
@[simp] theorem noticeProduced_port (s : State) (q : PortId) : (s.noticeProduced).port q = s.port q := rfl

theorem row_eq_of_rows {s t : State} (h : s.rows = t.rows) (q : RowId) : s.row q = t.row q := by
  simp only [State.row, h]

theorem port_eq_of_ports {s t : State} (h : s.ports = t.ports) (q : PortId) : s.port q = t.port q := by
  simp only [State.port, h]

end Sys2Proof.Machine
end

