-- ==== Sys2Proof/Laws/HostWord.lean ====
section
/-! SUPPORT. What a host transaction of one word does when M-side is free and nothing waits: the address and
the word it names, its judgement, and its three endings. -/

namespace Sys2Proof.Machine

/-! Addresses -/

theorem base_le (s : State) : s.base ≤ 0xFF000000 := by
  unfold State.base
  have := s.regionSel.isLt
  omega

/-- A window offset is the distance of its bus address from the base (R156). -/
theorem busAddr_toNat (s : State) {off : Nat} (h : off < Config.windowBytes) :
    (s.busAddr off).toNat = s.base + off := by
  have := base_le s
  unfold State.busAddr
  rw [BitVec.toNat_ofNat, Nat.mod_eq_of_lt]
  simp only [Config.windowBytes] at h
  omega

theorem inWindow_busAddr (s : State) {off : Nat} (h : off < Config.windowBytes) :
    s.inWindow (s.busAddr off).toNat = true := by
  rw [busAddr_toNat s h]
  simp only [State.inWindow, decide_eq_true_eq]
  omega

theorem wordAt_busAddr (s : State) {off : Nat} (h : off < Config.windowBytes) :
    s.wordAt (s.busAddr off).toNat = locate off := by
  rw [busAddr_toNat s h]
  simp only [State.wordAt, Nat.add_sub_cancel_left]

/-! Words by offset (R1, R137, R160, 11.1) -/

theorem locate_anchor (a : Anchor) : locate (anchorOffset a) = .anchor a := by cases a <;> rfl

theorem anchorOffset_lt (a : Anchor) : anchorOffset a < Config.windowBytes := by cases a <;> decide

theorem PortWord.index_lt (w : PortWord) : w.index < 13 := by cases w <;> decide

theorem PortWord.ofIndex_index (w : PortWord) : PortWord.ofIndex w.index = some w := by cases w <;> rfl

theorem portOffset_lt (p : PortId) (w : PortWord) : portOffset p w < Config.windowBytes := by
  have := p.isLt
  have := w.index_lt
  simp only [portOffset, portBase, Config.windowBytes]
  omega

theorem locate_port (p : PortId) (w : PortWord) : locate (portOffset p w) = .port p w := by
  have hp := p.isLt
  have hw := w.index_lt
  have hoff : portOffset p w = 0x1000 + 128 * p.val + 4 * w.index := rfl
  have h1 : ¬portOffset p w < 0x1000 := by omega
  have h2 : portOffset p w < 0x1C00 := by omega
  have h3 : (portOffset p w - portBase) % 128 / 4 = w.index := by simp only [portBase]; omega
  have h4 : (portOffset p w - portBase) / 128 = p.val := by simp only [portBase]; omega
  unfold locate
  rw [if_neg h1, if_pos h2, h3, h4, w.ofIndex_index]
  simp only [Fin.ofNat, Nat.mod_eq_of_lt hp]

theorem rowOffset_lt (r : RowId) (i : Fin 16) : rowOffset r i < Config.windowBytes := by
  have := r.isLt
  have := i.isLt
  simp only [rowOffset, rowBase, Config.windowBytes]
  omega

theorem locate_row (r : RowId) (i : Fin 16) : locate (rowOffset r i) = .row r i := by
  have hr := r.isLt
  have hi := i.isLt
  have hoff : rowOffset r i = 0x10000 + 64 * r.val + 4 * i.val := rfl
  have h3 : (rowOffset r i - rowBase) % 64 / 4 = i.val := by simp only [rowBase]; omega
  have h4 : (rowOffset r i - rowBase) / 64 = r.val := by simp only [rowBase]; omega
  unfold locate
  repeat rw [if_neg (by omega)]
  rw [if_pos (by omega), h3, h4]
  simp only [Fin.ofNat, Nat.mod_eq_of_lt hr, Nat.mod_eq_of_lt hi]

theorem meterOffset_lt (r : RowId) (i : Fin 4) : meterOffset r i < Config.windowBytes := by
  have := r.isLt
  have := i.isLt
  simp only [meterOffset, meterBase, Config.windowBytes]
  omega

theorem locate_meter (r : RowId) (i : Fin 4) : locate (meterOffset r i) = .meter r i := by
  have hr := r.isLt
  have hi := i.isLt
  have hoff : meterOffset r i = 0x14000 + 16 * r.val + 4 * i.val := rfl
  have h3 : (meterOffset r i - meterBase) % 16 / 4 = i.val := by simp only [meterBase]; omega
  have h4 : (meterOffset r i - meterBase) / 16 = r.val := by simp only [meterBase]; omega
  unfold locate
  repeat rw [if_neg (by omega)]
  rw [if_pos (by omega), h3, h4]
  simp only [Fin.ofNat, Nat.mod_eq_of_lt hr, Nat.mod_eq_of_lt hi]

/-! The transaction -/

/-- One word never crosses a 64-byte boundary. -/
theorem crosses_one {t : Transaction} (h : t.length = 1) : crosses t = false := by simp [crosses, h]

/-- Granted at its arrival, a transaction is judged in the same event (R166, R158). -/
theorem hostIssue_idle {s : State} (h : s.busIdle) (t : Transaction) :
    s.hostIssue t = (s.granted t).judge t := by
  obtain ⟨h1, h2, h3⟩ := h
  simp only [State.hostIssue, h1, Option.isSome_none, Bool.false_eq_true, if_false, State.arrive, State.arbitrate,
    State.setPhase, h2, if_true, h3, true_or, State.grantPside, State.granted]

/-- While M-side is held, a transaction that arrives waits and changes nothing else (R158, R166). -/
theorem hostIssue_busy {s : State} (h : s.path.current = none) (hm : s.path.mside ≠ .free) (t : Transaction) :
    s.hostIssue t = s.setPhase t .arrived := by
  have hm' : (s.setPhase t .arrived).path.mside ≠ .free := hm
  rw [State.hostIssue, h, Option.isSome_none, if_neg (by decide), State.arrive, State.arbitrate, if_neg hm']

/-- The judgement of a one-word write inside the window: refused, taken as an action, or captured and
forwarded (R161, R162). -/
theorem judge_writeOne (s g : State) {off : Nat} (h : off < Config.windowBytes) (hb : g.regionSel = s.regionSel)
    (v : Word) :
    g.judge (s.writeOne off v) =
      if (g.captureStaging (locate off) v).writeOk (locate off) v then
        if (locate off).isAction then ((g.captureWord (locate off) v).takeAction (locate off) v).respond .done
        else (g.captureWord (locate off) v).setPhase (s.writeOne off v)
          (.writing [[((s.busAddr off).toNat, v)]] [])
      else g.respond .refused := by
  have hbase : g.base = s.base := by simp only [State.base, hb]
  have hin : g.inWindow (s.busAddr off).toNat = true := by
    have := inWindow_busAddr s h
    simpa only [State.inWindow, hbase] using this
  have hat : g.wordAt (s.busAddr off).toNat = locate off := by
    have := wordAt_busAddr s h
    simpa only [State.wordAt, hbase] using this
  have hc : crosses (s.writeOne off v) = false := crosses_one rfl
  simp only [State.writeOne] at hc
  simp only [State.writeOne, State.judge, State.judgeWrite, spanOf, spanFrom, Transaction.addr,
    Transaction.length, List.length_singleton, List.all_cons, List.all_nil, hin, Bool.not_true,
    Bool.false_eq_true, if_false, hc, writtenFrom, if_true, List.cons_ne_nil, State.judgeBurst, State.burstOk,
    List.map_cons, List.map_nil, hat, List.foldl_cons, List.foldl_nil, Bool.and_true, hasFabricAndTime,
    List.any_cons, List.any_nil, Bool.or_false, List.filter_cons, List.filter_nil]
  have hft : (locate off == WinWord.anchor .a1 && locate off == WinWord.anchor .a7) = false := by
    generalize locate off = w
    by_cases hw : w = .anchor .a1
    · subst hw; rfl
    · simp [hw]
  rw [hft, Bool.not_false, Bool.and_true]
  cases (locate off).isAction <;> simp [groupRuns, State.takeActions]

/-- A one-word read inside the window goes to its owner, or to memory (R164). -/
theorem judge_readOne (s g : State) {off : Nat} (h : off < Config.windowBytes) (hb : g.regionSel = s.regionSel) :
    g.judge (s.readOne off) =
      g.setPhase (s.readOne off) (.reading []
        [if (locate off).isAnswered then .answer (locate off) else .run (s.busAddr off).toNat 1]) := by
  have hbase : g.base = s.base := by simp only [State.base, hb]
  have hin : g.inWindow (s.busAddr off).toNat = true := by
    have := inWindow_busAddr s h
    simpa only [State.inWindow, hbase] using this
  have hat : g.wordAt (s.busAddr off).toNat = locate off := by
    have := wordAt_busAddr s h
    simpa only [State.wordAt, hbase] using this
  have hc : crosses (s.readOne off) = false := crosses_one rfl
  simp only [State.readOne] at hc
  simp only [State.readOne, State.judge, State.judgeRead, spanOf, spanFrom, Transaction.addr, Transaction.length,
    List.all_cons, List.all_nil, hin, Bool.not_true, Bool.false_and, Bool.false_eq_true, if_false, hc,
    State.readPieces, hat]
  split <;> rfl

/-! The endings -/

/-- A refused one-word write changes nothing but the arbiter's last grant and the response (0.9, R161). -/
theorem write_refused {s : State} (hi : s.busIdle) {off : Nat} (h : off < Config.windowBytes) {v : Word}
    (hr : ((s.granted (s.writeOne off v)).captureStaging (locate off) v).writeOk (locate off) v = false) :
    s.hostIssue (s.writeOne off v) = s.answered .refused := by
  rw [hostIssue_idle hi, judge_writeOne s (s.granted _) h rfl, hr]
  obtain ⟨h1, h2, h3⟩ := hi
  simp only [Bool.false_eq_true, if_false, State.respond, State.granted, State.answered, Path.grantOutbound, h3,
    if_true, ← h1, ← h2]

/-- An accepted action of one word is taken in the judgement event (R162). -/
theorem write_action {s : State} (hi : s.busIdle) {off : Nat} (h : off < Config.windowBytes) {v : Word}
    (ha : (locate off).isAction = true)
    (hr : ((s.granted (s.writeOne off v)).captureStaging (locate off) v).writeOk (locate off) v = true) :
    s.hostIssue (s.writeOne off v) =
      (((s.granted (s.writeOne off v)).captureWord (locate off) v).takeAction (locate off) v).respond .done := by
  rw [hostIssue_idle hi, judge_writeOne s (s.granted _) h rfl, hr, ha, if_pos rfl, if_pos rfl]

/-- An accepted write of one word that is no action is captured and forwarded (R161, R162). -/
theorem write_forwarded {s : State} (hi : s.busIdle) {off : Nat} (h : off < Config.windowBytes) {v : Word}
    (ha : (locate off).isAction = false)
    (hr : ((s.granted (s.writeOne off v)).captureStaging (locate off) v).writeOk (locate off) v = true) :
    s.hostIssue (s.writeOne off v) =
      ((s.granted (s.writeOne off v)).captureWord (locate off) v).setPhase (s.writeOne off v)
        (.writing [[((s.busAddr off).toNat, v)]] []) := by
  rw [hostIssue_idle hi, judge_writeOne s (s.granted _) h rfl, hr, ha, if_pos rfl, if_neg (by decide)]

/-- A read of one answered word is answered, with what answering it does (R159, R164). -/
theorem read_answered {s : State} (hi : s.busIdle) {off : Nat} (h : off < Config.windowBytes)
    (ha : (locate off).isAnswered = true) :
    s.hostReadOne off =
      (((s.granted (s.readOne off)).setPhase (s.readOne off) (.reading [] [.answer (locate off)])).answerEffect
        (locate off)).respond
          (.data [((s.granted (s.readOne off)).setPhase (s.readOne off)
            (.reading [] [.answer (locate off)])).answer (locate off)]) := by
  have hc : s.path.current = none := hi.1
  have hj : s.arrive (s.readOne off) = (s.granted (s.readOne off)).judge (s.readOne off) := by
    have := hostIssue_idle hi (s.readOne off)
    simpa only [State.hostIssue, hc, Option.isSome_none, Bool.false_eq_true, if_false] using this
  rw [State.hostReadOne, hc, Option.isSome_none, if_neg (by decide), hj, judge_readOne s (s.granted _) h rfl, ha, if_pos rfl]
  rfl

/-! One word of the host, in one rule each -/

/-- Whether a word is accepted does not depend on the bus. -/
theorem writeOk_granted (s : State) (t : Transaction) (w : WinWord) (v : Word) :
    (s.granted t).writeOk w v = s.writeOk w v := rfl

/-- An ACTION word captures nothing. -/
theorem capture_action {w : WinWord} (ha : w.isAction = true) (s : State) (v : Word) :
    s.captureStaging w v = s ∧ s.captureWord w v = s := by
  have hrow : ∀ r : RowId, s.setRow r ((s.row r).captureWord 15 v) = s := by
    intro r
    simp [State.setRow, Row.captureWord, State.row]
  cases w with
  | anchor a => cases a <;> first | exact ⟨rfl, rfl⟩ | cases ha
  | port p w => cases w <;> first | exact ⟨rfl, rfl⟩ | cases ha
  | row r i =>
    have hi : i = 15 := by simpa [WinWord.isAction] using ha
    subst hi
    exact ⟨hrow r, hrow r⟩
  | slot p i => cases ha
  | meter r i => cases ha
  | notice i => cases ha
  | ring i => cases ha
  | plain => cases ha

/-- Work that left the path alone, answered: the host sees the answer, and M-side is free again (R158). -/
theorem respond_granted {s : State} (hi : s.busIdle) (t : Transaction) (a : Response) {x : State}
    (hx : x.path = (s.granted t).path) : x.respond a = ({ x with path := s.path } : State).answered a := by
  obtain ⟨h1, h2, h3⟩ := hi
  simp only [State.respond, State.answered, hx, State.granted, Path.grantOutbound, h3, if_true, ← h1, ← h2]

/-- The host's write of an ACTION word (R159, R162). -/
theorem write_actionWord {s : State} (hi : s.busIdle) {off : Nat} (h : off < Config.windowBytes) {v : Word}
    {w : WinWord} (hw : locate off = w) (ha : w.isAction = true) :
    s.hostIssue (s.writeOne off v) =
      if s.writeOk w v then ((s.granted (s.writeOne off v)).takeAction w v).respond .done
      else s.answered .refused := by
  subst hw
  have hc := capture_action ha (s.granted (s.writeOne off v)) v
  split
  · rename_i ho
    rw [write_action hi h ha (by rw [hc.1]; exact ho), hc.2]
  · rename_i ho
    rw [write_refused hi h (by rw [hc.1]; exact eq_false_of_ne_true ho)]

/-- A capture that leaves the path alone, forwarded (R161, R162). -/
theorem setPhase_granted {s : State} {off : Nat} {v : Word} {x : State}
    (hx : x.path = (s.granted (s.writeOne off v)).path) (hr : x.regionSel = s.regionSel) :
    x.setPhase (s.writeOne off v) (.writing [[((s.busAddr off).toNat, v)]] [])
      = ({ x with path := s.path } : State).forwarding off v := by
  simp only [State.setPhase, State.forwarding, hx, State.granted, State.writeOne, State.busAddr, State.base, hr]

/-- The host's write of a word that is no ACTION word: captured and forwarded, or refused (R159, R161, R162). -/
theorem write_otherWord {s : State} (hi : s.busIdle) {off : Nat} (h : off < Config.windowBytes) {v : Word}
    {w : WinWord} (hw : locate off = w) (ha : w.isAction = false) :
    s.hostIssue (s.writeOne off v) =
      if ((s.granted (s.writeOne off v)).captureStaging w v).writeOk w v then
        ((s.granted (s.writeOne off v)).captureWord w v).setPhase (s.writeOne off v)
          (.writing [[((s.busAddr off).toNat, v)]] [])
      else s.answered .refused := by
  subst hw
  split
  · rename_i ho
    exact write_forwarded hi h ha ho
  · rename_i ho
    exact write_refused hi h (eq_false_of_ne_true ho)

/-- Answering never touches the path. -/
theorem answerEffect_path (x : State) (w : WinWord) : (x.answerEffect w).path = x.path := by
  unfold State.answerEffect
  split <;> first | rfl | (split <;> rfl)

/-- Answering does not look at the path. -/
theorem answerEffect_blind (x : State) (q : Path) (w : WinWord) :
    ({ x with path := q } : State).answerEffect w = { x.answerEffect w with path := q } := by
  unfold State.answerEffect
  split <;> first | rfl | (split <;> rfl)

/-- The host's read of an answered word (R159, R164). -/
theorem read_answeredWord {s : State} (hi : s.busIdle) {off : Nat} (h : off < Config.windowBytes) {w : WinWord}
    (hw : locate off = w) (ha : w.isAnswered = true) :
    s.hostReadOne off = (s.answerEffect w).answered (.data [s.answer w]) := by
  subst hw
  rw [read_answered hi h ha]
  have e : (s.granted (s.readOne off)).setPhase (s.readOne off) (.reading [] [.answer (locate off)])
      = { s with path := ((s.granted (s.readOne off)).setPhase (s.readOne off)
          (.reading [] [.answer (locate off)])).path } := rfl
  have ha' : ((s.granted (s.readOne off)).setPhase (s.readOne off) (.reading [] [.answer (locate off)])).answer
      (locate off) = s.answer (locate off) := rfl
  rw [ha', e, answerEffect_blind]
  obtain ⟨h1, h2, h3⟩ := hi
  simp only [State.respond, State.answered, answerEffect_path, State.granted, State.setPhase, Path.grantOutbound, h3, if_true, ← h1,
    ← h2]

/-! Spans (R157) -/

/-- The host's write of one window word is a transaction that the bus can carry. -/
theorem writeOne_wf (s : State) {off : Nat} (v : Word) (h : off < Config.windowBytes) (h4 : off % 4 = 0) :
    (s.writeOne off v).wf = true := by
  have := base_le s
  have h1 := busAddr_toNat s h
  simp only [State.writeOne, Transaction.wf, Transaction.length, Transaction.addr, h1, decide_eq_true_eq,
    List.length_singleton]
  unfold State.base at *
  simp only [Config.windowBytes] at h
  omega

theorem mem_spanFrom (a n x : Nat) : x ∈ spanFrom a n ↔ ∃ i, i < n ∧ x = a + 4 * i := by
  induction n generalizing a with
  | zero => simp [spanFrom]
  | succ n ih =>
    simp only [spanFrom, List.mem_cons, ih]
    constructor
    · rintro (rfl | ⟨i, hi, rfl⟩)
      · exact ⟨0, by omega, by omega⟩
      · exact ⟨i + 1, by omega, by omega⟩
    · rintro ⟨i, hi, rfl⟩
      cases i with
      | zero => left; omega
      | succ i => right; exact ⟨i, by omega, by omega⟩

/-- Every written word lies in the span. -/
theorem mem_writtenFrom (ws : List WriteWord) (a : Nat) : ∀ x ∈ writtenFrom a ws, x.1 ∈ spanFrom a ws.length := by
  induction ws generalizing a with
  | nil => simp [writtenFrom]
  | cons w ws ih =>
    intro x hx
    simp only [writtenFrom] at hx
    simp only [List.length_cons, spanFrom, List.mem_cons]
    split at hx
    · rcases List.mem_cons.mp hx with rfl | hx
      · exact Or.inl rfl
      · exact Or.inr (ih _ _ hx)
    · exact Or.inr (ih _ _ hx)

/-- A transaction outside the window is forwarded unchanged (R157). -/
theorem judge_outside {g s : State} {t : Transaction} (hb : g.regionSel = s.regionSel)
    (h : s.outsideWindow t = true) : g.judge t = g.setPhase t (forwardedPhase t) := by
  have hb' : g.base = s.base := by simp only [State.base, hb]
  have h' : (spanOf t).all (fun a => !g.inWindow a) = true := by
    simpa only [State.inWindow, hb', State.outsideWindow] using h
  cases t with
  | read a n =>
    show g.judgeRead _ = _
    unfold State.judgeRead
    rw [if_pos h']
    rfl
  | write a ws =>
    show g.judgeWrite _ _ = _
    unfold State.judgeWrite
    dsimp only
    rw [if_pos h']
    rfl

end Sys2Proof.Machine
end

