-- ==== Sys2Proof/Laws/Answers.lean ====
section
/-! SUPPORT. The host's read of an answered word that answering does not change, and the fields of answered words. -/

namespace Sys2Proof.Machine

/-- The host's read of one window word is a transaction that the bus can carry. -/
theorem readOne_wf (s : State) {off : Nat} (h : off < Config.windowBytes) (h4 : off % 4 = 0) :
    (s.readOne off).wf = true := by
  have := base_le s
  have h1 := busAddr_toNat s h
  simp only [State.readOne, Transaction.wf, Transaction.length, Transaction.addr, h1, decide_eq_true_eq]
  unfold State.base at *
  simp only [Config.windowBytes] at h
  omega

/-- A read of a word whose answer changes nothing gives the owner's value (R159, R164). -/
theorem reads_word {s : State} (hi : s.busIdle) {off : Nat} (h : off < Config.windowBytes) (h4 : off % 4 = 0)
    {w : WinWord} (hw : locate off = w) (ha : w.isAnswered = true) (he : s.answerEffect w = s) :
    s.reads off (s.answer w) := by
  refine ⟨s.hostIssue (s.readOne off), ?_, ?_⟩
  · show (if (s.readOne off).wf then _ else _) = _
    rw [if_pos (readOne_wf s h h4)]
  · show Host.Outcome.next (s.hostIssue (s.readOne off)).progress = _
    have : s.hostReadOne off = (s.hostIssue (s.readOne off)).progress := by
      unfold State.hostReadOne State.hostIssue
      rw [hi.1]
      rfl
    rw [← this, read_answeredWord hi h hw ha, he]

/-- A field of a word as a number. -/
theorem place_eq (lo value : Nat) : place lo value = BitVec.ofNat 32 (2 ^ lo * value) := by
  unfold place
  apply BitVec.eq_of_toNat_eq
  rw [BitVec.toNat_shiftLeft, BitVec.toNat_ofNat, BitVec.toNat_ofNat, Nat.shiftLeft_eq, Nat.mod_mul_mod, Nat.mul_comm]

/-- A2 bit [3] shows the wait for the ring (R151, R152). -/
theorem fabricWord_waiting (s : State) : s.fabricWord.getLsbD 3 = (s.settle.unit == .waitRing) := by
  unfold State.fabricWord placeBit place
  cases s.fabric <;> cases s.notice.overflow <;> cases s.settle.unit <;> cases s.prover.running <;> rfl

/-- Only the clearing and the snapshot words change something when they are answered (R31, R85, R138). -/
theorem answerEffect_plain (s : State) {w : WinWord} (h3 : w ≠ .anchor .a3) (hp : ∀ p, w ≠ .port p .p2 ∧ w ≠ .port p .p3
    ∧ w ≠ .port p .p4) (hm : ∀ r, w ≠ .meter r 0) : s.answerEffect w = s := by
  unfold State.answerEffect
  split
  · exact absurd rfl h3
  · rename_i p
    exact absurd rfl (hp p).1
  · rename_i p
    exact absurd rfl (hp p).2.1
  · rename_i p
    exact absurd rfl (hp p).2.2
  · rename_i r i
    exact if_neg fun h => hm r (by rw [h])
  · rfl

/-! The offsets of the slots and of the rings -/

theorem locate_slot (p : PortId) (i : SlotId) : locate (0x2000 + 160 * p.val + 4 * i.val) = .slot p i := by
  have hp := p.isLt
  have hi := i.isLt
  have h3 : (0x2000 + 160 * p.val + 4 * i.val - slotBase) % 160 / 4 = i.val := by simp only [slotBase]; omega
  have h4 : (0x2000 + 160 * p.val + 4 * i.val - slotBase) / 160 = p.val := by simp only [slotBase]; omega
  unfold locate
  repeat rw [if_neg (by omega)]
  rw [if_pos (by omega), h3, h4]
  simp only [Fin.ofNat, Nat.mod_eq_of_lt hp, Nat.mod_eq_of_lt hi]

theorem locate_notice (i : Fin 512) (j : Fin 4) : locate (0x20000 + 16 * i.val + 4 * j.val) = .notice i := by
  have hp := i.isLt
  have hi := j.isLt
  have h4 : (0x20000 + 16 * i.val + 4 * j.val - noticeBase) / 16 = i.val := by simp only [noticeBase]; omega
  unfold locate
  repeat rw [if_neg (by omega)]
  rw [if_pos (by omega), h4]
  simp only [Fin.ofNat, Nat.mod_eq_of_lt hp]

theorem locate_ring (i : Fin 512) (j : Fin 32) : locate (0x40000 + 128 * i.val + 4 * j.val) = .ring i := by
  have hp := i.isLt
  have hi := j.isLt
  have h4 : (0x40000 + 128 * i.val + 4 * j.val - ringBase) / 128 = i.val := by simp only [ringBase]; omega
  unfold locate
  repeat rw [if_neg (by omega)]
  rw [if_pos (by omega), h4]
  simp only [Fin.ofNat, Nat.mod_eq_of_lt hp]

/-- A ring position is among the first `n` from an index exactly when some index there is less than `n` ahead. -/
theorem ringDist_lt (i : Fin 512) (a : BitVec 10) (n : Nat) :
    (i.val + 1024 - a.toNat) % 512 < n ↔ ∃ k : BitVec 10, k.toNat % 512 = i.val ∧ ringDist k a < n := by
  have hi := i.isLt
  have ha := a.isLt
  constructor
  · intro h
    refine ⟨a + BitVec.ofNat 10 ((i.val + 1024 - a.toNat) % 512), ?_, ?_⟩
    · rw [BitVec.toNat_add, BitVec.toNat_ofNat]; omega
    · unfold ringDist
      rw [BitVec.add_comm, BitVec.add_sub_cancel, BitVec.toNat_ofNat]
      omega
  · rintro ⟨k, h1, h2⟩
    unfold ringDist at h2
    have hk := k.isLt
    rw [BitVec.toNat_sub] at h2
    omega

/-! The pieces of a read (R164) -/

/-- R164: the pieces name the read's words in order; no run is empty and no two runs stand side by side. -/
theorem readPieces_span (s : State) (n : Nat) : ∀ a : Nat, ∃ pieces, s.readPieces (spanFrom a n) = pieces
    ∧ (pieces.flatMap fun x => match x with
        | .run b m => (spanFrom b m).map fun y => ReadPiece.run y 1
        | .answer w => [.answer w])
      = (spanFrom a n).map (fun y => if (s.wordAt y).isAnswered then .answer (s.wordAt y) else .run y 1)
    ∧ (∀ b m, ReadPiece.run b m ∈ pieces → 0 < m)
    ∧ (∀ i b m c l, pieces[i]? = some (.run b m) → pieces[i + 1]? ≠ some (.run c l))
    ∧ (∀ b m more, pieces = .run b m :: more → b = a) := by
  induction n with
  | zero => exact fun a => ⟨[], rfl, rfl, by simp, by simp, by simp⟩
  | succ n ih =>
    intro a
    obtain ⟨ps, h0, h1, h2, h3, h4⟩ := ih (a + 4)
    refine ⟨_, rfl, ?_⟩
    simp only [spanFrom, State.readPieces, h0, List.map_cons]
    cases (s.wordAt a).isAnswered
    · simp only [Bool.false_eq_true, if_false]
      split
      · rename_i b m more
        have hb := h4 b m more rfl
        subst hb
        simp only [if_true]
        refine ⟨?_, fun b' m' hm => ?_, fun i b' m' c l hi hi' => ?_, fun b' m' more' h => ?_⟩
        · rw [← h1]
          simp [spanFrom]
        · rcases List.mem_cons.mp hm with h | h
          · cases h
            omega
          · exact h2 _ _ (List.mem_cons_of_mem _ h)
        · cases i with
          | zero => exact h3 0 (a + 4) m c l rfl (by simpa using hi')
          | succ i => exact h3 (i + 1) b' m' c l (by simpa using hi) (by simpa using hi')
        · cases h
          rfl
      · rename_i hno
        refine ⟨?_, fun b' m' hm => ?_, fun i b' m' c l hi hi' => ?_, fun b' m' more' h => ?_⟩
        · rw [List.flatMap_cons, h1]
          simp [spanFrom]
        · rcases List.mem_cons.mp hm with h | h
          · cases h
            omega
          · exact h2 _ _ h
        · cases i with
          | zero =>
            cases hps : ps with
            | nil =>
              rw [hps] at hi'
              simp at hi'
            | cons y ys =>
              rw [hps] at hi'
              simp at hi'
              exact hno c l ys (by rw [hps, hi'])
          | succ i => exact h3 i b' m' c l (by simpa using hi) (by simpa using hi')
        · cases h
          rfl
    · simp only [if_true]
      refine ⟨?_, fun b' m' hm => ?_, fun i b' m' c l hi hi' => ?_, fun b' m' more' h => ?_⟩
      · rw [List.flatMap_cons, h1]
        rfl
      · rcases List.mem_cons.mp hm with h | h
        · cases h
        · exact h2 _ _ h
      · cases i with
        | zero => simp at hi
        | succ i => exact h3 i b' m' c l (by simpa using hi) (by simpa using hi')
      · cases h

/-- The pieces depend on the window's base alone. -/
theorem readPieces_congr {s t : State} (h : t.regionSel = s.regionSel) (l : List Nat) : t.readPieces l = s.readPieces l := by
  have hw : ∀ a, t.wordAt a = s.wordAt a := fun a => by simp only [State.wordAt, State.base, h]
  induction l with
  | nil => rfl
  | cons a l ih => simp only [State.readPieces, hw, ih]

end Sys2Proof.Machine
end

