-- ==== Sys2Proof/Laws/Queues.lean ====
section
/-! SUPPORT. What the blocks' work leaves alone on the Memory Path: joining, leaving and granting keep the law of the
Outbound Queue, handing a notice keeps the law of the ring, and `Calm` collects what every operation but the bus
itself keeps. -/

namespace Sys2Proof.Machine

/-! The Outbound Queue (R165) -/

theorem backlog_setBacklog (q : Path) (a b : Producer) (es : List OutEntry) :
    (q.setBacklog a es).backlog b = if b = a then es else q.backlog b := by
  cases a <;> cases b <;> rfl

/-- The law of R165 on a path alone. -/
def Path.Law (q : Path) : Prop :=
  q.outbound.length ≤ Config.outboundMax
    ∧ (q.waiting ≠ [] → q.outbound.length = Config.outboundMax)
    ∧ q.waiting.Nodup
    ∧ ∀ pr, pr ∈ q.waiting ↔ q.backlog pr ≠ []

theorem outboundLaw_iff (s : State) : OutboundLaw s ↔ s.path.Law := Iff.rfl

theorem Path.Law.congr {q r : Path} (h : q.Law) (ho : r.outbound = q.outbound) (hw : r.waiting = q.waiting)
    (hb : ∀ pr, r.backlog pr = q.backlog pr) : r.Law := by
  simp only [Path.Law, ho, hw, hb]
  exact h

/-- A transaction handed keeps the law. -/
theorem offer_law {q : Path} (h : q.Law) (pr : Producer) (e : OutEntry) : (q.offer pr e).Law := by
  obtain ⟨h1, h2, h3, h4⟩ := h
  unfold Path.offer
  split
  · rename_i hc
    have hw : q.waiting = [] := by
      rcases hq : q.waiting with _ | ⟨x, xs⟩
      · rfl
      · have := h2 (by simp [hq]); omega
    refine ⟨?_, ?_, ?_, ?_⟩
    · show (q.outbound ++ [e]).length ≤ _
      rw [List.length_append, List.length_singleton]; omega
    · intro hn; exact absurd hw hn
    · exact h3
    · exact h4
  · rename_i hc
    have hb : ∀ b, (q.setBacklog pr (q.backlog pr ++ [e])).backlog b = if b = pr then q.backlog pr ++ [e] else q.backlog b :=
      fun b => backlog_setBacklog q pr b _
    have hfull : q.outbound.length = Config.outboundMax := by
      by_cases hl : q.outbound.length < Config.outboundMax
      · have hp : q.backlog pr ≠ [] := fun hp => hc ⟨hl, hp⟩
        have := (h4 pr).mpr hp
        exact h2 (List.ne_nil_of_mem this)
      · omega
    have ho : (q.setBacklog pr (q.backlog pr ++ [e])).outbound = q.outbound := by cases pr <;> rfl
    refine ⟨?_, ?_, ?_, ?_⟩
    · show (q.setBacklog pr (q.backlog pr ++ [e])).outbound.length ≤ _
      rw [ho]; exact h1
    · intro _
      show (q.setBacklog pr (q.backlog pr ++ [e])).outbound.length = _
      rw [ho]; exact hfull
    · show (if pr ∈ q.waiting then q.waiting else q.waiting ++ [pr]).Nodup
      split
      · exact h3
      · rename_i hn
        rw [List.nodup_append]
        exact ⟨h3, by simp, by simp; exact fun a ha hp => hn (hp ▸ ha)⟩
    · intro b
      have key : ({ q.setBacklog pr (q.backlog pr ++ [e]) with
          waiting := if pr ∈ q.waiting then q.waiting else q.waiting ++ [pr] } : Path).backlog b
          = if b = pr then q.backlog pr ++ [e] else q.backlog b := by
        rw [← hb b]; cases b <;> rfl
      rw [key]
      show b ∈ (if pr ∈ q.waiting then q.waiting else q.waiting ++ [pr]) ↔ _
      by_cases hbp : b = pr
      · subst hbp
        rw [if_pos rfl]
        split <;> simp_all
      · rw [if_neg hbp, ← h4 b]
        split <;> simp [hbp]

/-- The head's leaving keeps the law. -/
theorem leave_law {q : Path} (h : q.Law) (hne : q.outbound ≠ []) : q.leave.Law := by
  obtain ⟨h1, h2, h3, h4⟩ := h
  have hlen : q.outbound.tail.length + 1 = q.outbound.length := by
    rw [List.length_tail]; have := List.length_pos_iff.mpr hne; omega
  unfold Path.leave
  split
  · rename_i hw
    refine ⟨?_, ?_, ?_, ?_⟩
    · show q.outbound.tail.length ≤ _; omega
    · intro hn; exact absurd hw hn
    · exact h3
    · exact h4
  · rename_i pr others hw
    have hpr : q.backlog pr ≠ [] := (h4 pr).mp (by simp [hw])
    have hfull := h2 (by simp [hw])
    rw [hw] at h3
    have h3' := List.nodup_cons.mp h3
    split
    · rename_i hb; exact absurd hb hpr
    · rename_i e es hb
      have hkey : ∀ b, ({ q.setBacklog pr es with
          outbound := q.outbound.tail ++ [e], waiting := if es = [] then others else others ++ [pr] } : Path).backlog b
          = if b = pr then es else q.backlog b := by
        intro b; rw [← backlog_setBacklog q pr b es]; cases b <;> rfl
      refine ⟨?_, ?_, ?_, ?_⟩
      · show (q.outbound.tail ++ [e]).length ≤ _
        rw [List.length_append, List.length_singleton]; omega
      · intro _
        show (q.outbound.tail ++ [e]).length = _
        rw [List.length_append, List.length_singleton]; omega
      · show (if es = [] then others else others ++ [pr]).Nodup
        split
        · exact h3'.2
        · rw [List.nodup_append]
          exact ⟨h3'.2, by simp, by simp; exact fun a ha hp => h3'.1 (hp ▸ ha)⟩
      · intro b
        rw [hkey b]
        show b ∈ (if es = [] then others else others ++ [pr]) ↔ _
        have hb4 := h4 b
        rw [hw, List.mem_cons] at hb4
        by_cases hbp : b = pr
        · subst hbp
          rw [if_pos rfl]
          split
          · rename_i he; simp [he, h3'.1]
          · rename_i he; simp [he]
        · rw [if_neg hbp, ← hb4]
          split <;> simp [hbp]

theorem grantOutbound_law {q : Path} (h : q.Law) : q.grantOutbound.Law := by
  unfold Path.grantOutbound
  split
  · exact h.congr rfl rfl (fun pr => by cases pr <;> rfl)
  · exact h.congr rfl rfl (fun pr => by cases pr <;> rfl)

/-- What handing a transaction leaves alone: the host's transaction and response, and M-side while it is held. -/
theorem offer_frame (q : Path) (pr : Producer) (e : OutEntry) :
    (q.offer pr e).current = q.current ∧ (q.offer pr e).response = q.response
      ∧ (q.grantsAtOnce = false → (q.offer pr e).mside = q.mside ∧ (q.offer pr e).lastGrant = q.lastGrant) := by
  unfold Path.offer
  split
  · exact ⟨rfl, rfl, fun h => by simp [Path.join, h]⟩
  · cases pr <;> exact ⟨rfl, rfl, fun _ => ⟨rfl, rfl⟩⟩

/-! What every operation but the bus itself keeps -/

/-- The blocks' work and the host's captures: straps, memory, the queue of commands, the host's transaction and
response stay, M-side stays while it is held, the notices in writing stay in their places, and the laws of the queues
and rings are kept. -/
structure Tame (s t : State) : Prop where
  regionSel : t.regionSel = s.regionSel
  mem : t.mem = s.mem
  pending : t.pending = s.pending
  current : t.path.current = s.path.current
  response : t.path.response = s.path.response
  mside : s.path.grantsAtOnce = false → t.path.mside = s.path.mside ∧ t.path.lastGrant = s.path.lastGrant
  inWriting : s.notice.inWriting <+: t.notice.inWriting
  outbound : OutboundLaw s → OutboundLaw t
  notice : NoticeLaw s → NoticeLaw t
  settle : SettlementLaw s → SettlementLaw t

/-- The blocks' work, which leaves the two indices of the Notice Ring as well. -/
structure Calm (s t : State) : Prop extends Tame s t where
  produce : t.notice.produce = s.notice.produce
  consume : t.notice.consume = s.notice.consume

theorem Tame.rfl' {s : State} : Tame s s :=
  ⟨rfl, rfl, rfl, rfl, rfl, fun _ => ⟨rfl, rfl⟩, List.prefix_rfl, id, id, id⟩

theorem Calm.rfl' {s : State} : Calm s s := ⟨Tame.rfl', rfl, rfl⟩

theorem Tame.trans {s t u : State} (a : Tame s t) (b : Tame t u) : Tame s u where
  regionSel := b.regionSel.trans a.regionSel
  mem := b.mem.trans a.mem
  pending := b.pending.trans a.pending
  current := b.current.trans a.current
  response := b.response.trans a.response
  mside h := by
    have h1 := a.mside h
    have h2 : t.path.grantsAtOnce = false := by
      unfold Path.grantsAtOnce at h ⊢
      rw [h1.1, a.current]; exact h
    exact ⟨(b.mside h2).1.trans h1.1, (b.mside h2).2.trans h1.2⟩
  inWriting := a.inWriting.trans b.inWriting
  outbound h := b.outbound (a.outbound h)
  notice h := b.notice (a.notice h)
  settle h := b.settle (a.settle h)

theorem Calm.trans {s t u : State} (a : Calm s t) (b : Calm t u) : Calm s u :=
  ⟨a.toTame.trans b.toTame, b.produce.trans a.produce, b.consume.trans a.consume⟩

/-- Room that is left after the blocks' work was there before it (R171). -/
theorem Calm.room {s t : State} (h : Calm s t) {k : Nat} (hr : t.roomFor k) : s.roomFor k := by
  unfold State.roomFor at hr ⊢
  rw [h.produce, h.consume] at hr
  have := h.inWriting.length_le
  omega

/-- An update that leaves all these fields alone is calm. -/
theorem Calm.of_eq {s t : State} (h1 : t.regionSel = s.regionSel) (h2 : t.mem = s.mem) (h3 : t.pending = s.pending)
    (h4 : t.path = s.path) (h5 : t.notice = s.notice) (h6 : t.settle = s.settle) : Calm s t :=
  ⟨⟨h1, h2, h3, by rw [h4], by rw [h4], fun _ => by rw [h4]; exact ⟨rfl, rfl⟩, ⟨[], by rw [h5, List.append_nil]⟩,
    fun h => by rw [outboundLaw_iff, h4]; exact h, fun h => by unfold NoticeLaw; rw [h5]; exact h,
    fun h => by unfold SettlementLaw; rw [h6]; exact h⟩, by rw [h5], by rw [h5]⟩

theorem calm_setRow (s : State) (r : RowId) (x : Row) : Calm s (s.setRow r x) :=
  Calm.of_eq rfl rfl rfl rfl rfl rfl

theorem calm_setPort (s : State) (p : PortId) (x : Port) : Calm s (s.setPort p x) :=
  Calm.of_eq rfl rfl rfl rfl rfl rfl

theorem calm_setChannel (s : State) (p : PortId) (c : Channel) : Calm s (s.setChannel p c) :=
  Calm.of_eq rfl rfl rfl rfl rfl rfl

theorem calm_offer (s : State) (pr : Producer) (e : OutEntry) : Calm s (s.offer pr e) where
  regionSel := rfl
  mem := rfl
  pending := rfl
  current := (offer_frame s.path pr e).1
  response := (offer_frame s.path pr e).2.1
  mside := (offer_frame s.path pr e).2.2
  inWriting := List.prefix_rfl
  outbound h := offer_law h pr e
  notice h := h
  settle h := h
  produce := rfl
  consume := rfl

/-- Handing a notice keeps every law (R165, R171). -/
theorem calm_handNotice (s : State) (k : NoticeKind) (a b : Nat) (c d : Word) : Calm s (s.handNotice k a b c d) := by
  unfold State.handNotice
  cases hr : s.notice.hasRoom
  · exact ⟨⟨rfl, rfl, rfl, rfl, rfl, fun _ => ⟨rfl, rfl⟩, List.prefix_rfl, fun h => h, fun h => h, fun h => h⟩, rfl, rfl⟩
  · refine ⟨⟨rfl, rfl, rfl, (offer_frame s.path .notice _).1, (offer_frame s.path .notice _).2.1,
      (offer_frame s.path .notice _).2.2, List.prefix_append _ _, fun h => offer_law h _ _, fun _ => ?_, fun h => h⟩,
      rfl, rfl⟩
    have : ringDist s.notice.produce s.notice.consume + s.notice.inWriting.length < Config.ringSlots :=
      of_decide_eq_true hr
    unfold NoticeLaw
    simp only [if_true, List.length_append, List.length_singleton]
    omega

/-- Work on every row in turn is calm when each turn is. -/
theorem calm_forRows {f : RowId → State → State} (h : ∀ r s, Calm s (f r s)) (s : State) : Calm s (s.forRows f) := by
  unfold State.forRows
  generalize List.finRange 256 = l
  induction l generalizing s with
  | nil => exact Calm.rfl'
  | cons r l ih => exact (h r s).trans (ih (f r s))

theorem calm_pass (s : State) (x : SchedulerPass) : Calm s { s with pass := x } := Calm.of_eq rfl rfl rfl rfl rfl rfl

theorem calm_ite {s t u : State} {c : Prop} [Decidable c] (h1 : Calm s t) (h2 : Calm s u) :
    Calm s (if c then t else u) := by
  split
  · exact h1
  · exact h2

/-! Cross-Connect -/

theorem calm_reevaluate (s : State) (r : RowId) : Calm s (s.reevaluate r) := by
  unfold State.reevaluate
  exact calm_ite ((calm_setRow _ _ _).trans (calm_handNotice _ _ _ _ _ _)) Calm.rfl'

theorem calm_reevaluateUsers (s : State) (l : PortId) : Calm s (s.reevaluateUsers l) :=
  calm_forRows (fun r s => calm_ite (calm_reevaluate s r) Calm.rfl') s

theorem calm_reevaluateSourced (s : State) (l : PortId) : Calm s (s.reevaluateSourced l) :=
  calm_forRows (fun r s => calm_ite (calm_reevaluate s r) Calm.rfl') s

theorem calm_reevaluateInput (s : State) (p : PortId) : Calm s (s.reevaluateInput p) :=
  calm_forRows (fun r s => calm_ite (calm_reevaluate s r) Calm.rfl') s

theorem calm_switchover (s : State) (k : PairId) (m : Member) (c : SwitchCause) : Calm s (s.switchover k m c) := by
  unfold State.switchover
  refine Calm.trans ?_ (calm_handNotice _ _ _ _ _ _)
  exact Calm.of_eq rfl rfl rfl rfl rfl rfl

theorem calm_selectReceive (s : State) (k : PairId) : Calm s (s.selectReceive k) := by
  unfold State.selectReceive
  exact calm_ite (calm_switchover _ _ _ _) Calm.rfl'

theorem calm_selectAtChange (s : State) (p : PortId) : Calm s (s.selectAtChange p) := by
  unfold State.selectAtChange
  exact calm_ite (calm_ite (calm_handNotice _ _ _ _ _ _) (calm_selectReceive _ _)) Calm.rfl'

theorem calm_carryingChanged (s : State) (p : PortId) : Calm s (s.carryingChanged p) :=
  (calm_selectAtChange s p).trans (calm_reevaluateUsers _ _)

theorem calm_recompose (s : State) (p : PortId) : Calm s (s.recompose p) := by
  unfold State.recompose
  exact calm_ite Calm.rfl' ((calm_setPort _ _ _).trans (calm_carryingChanged _ _))

theorem calm_allocate (s : State) (r : RowId) : Calm s (s.allocate r) := by
  unfold State.allocate
  extract_lets c
  have h : ∀ (l : List PortId) (t : State), Calm s t →
      Calm s (l.foldl (fun s d => s.allocTx (s.logical d) (slotCount c) r) t) := by
    intro l
    induction l with
    | nil => exact fun t h => h
    | cons d l ih => exact fun t h => ih _ (h.trans (calm_setPort _ _ _))
  exact h _ _ (calm_setPort _ _ _)

/-! Maintenance Channel -/

theorem calm_endCommand (s : State) (p : PortId) (c : MaintCommand) (o : MaintResult) : Calm s (s.endCommand p c o) :=
  (calm_setChannel _ _ _).trans (calm_handNotice _ _ _ _ _ _)

theorem calm_takeCommand (s : State) (p : PortId) (c : MaintCommand) : Calm s (s.takeCommand p c) := by
  unfold State.takeCommand
  exact calm_ite ((calm_setChannel _ _ _).trans (calm_endCommand _ _ _ _))
    (calm_ite ((calm_setChannel _ _ _).trans (calm_endCommand _ _ _ _)) (calm_setChannel _ _ _))

theorem calm_takeAnswer (s : State) (p : PortId) (m : Option Message) : Calm s (s.takeAnswer p m) := by
  unfold State.takeAnswer
  split
  · exact Calm.rfl'
  · exact calm_ite (calm_ite ((calm_setChannel _ _ _).trans (calm_endCommand _ _ _ _))
      ((calm_setChannel _ _ _).trans (calm_endCommand _ _ _ _)))
      (calm_ite ((calm_setChannel _ _ _).trans (calm_endCommand _ _ _ _)) (calm_setChannel _ _ _))

theorem calm_takeVerified (s : State) (p : PortId) (m : Message) : Calm s (s.takeVerified p m) := by
  unfold State.takeVerified
  exact calm_ite (calm_ite Calm.rfl' ((calm_setChannel _ _ _).trans (calm_handNotice _ _ _ _ _ _)))
    (calm_ite (calm_setChannel _ _ _) (calm_ite (calm_setChannel _ _ _) Calm.rfl'))

theorem calm_takeMessage (s : State) (p : PortId) (m : Option Message) : Calm s (s.takeMessage p m) := by
  unfold State.takeMessage
  split
  · exact calm_ite ((calm_setChannel _ _ _).trans (calm_takeVerified _ _ _)) (calm_setChannel _ _ _)
  · exact calm_setChannel _ _ _

theorem calm_channelContent (s : State) (p : PortId) (cls : IntervalClass) (c : LineCycle) :
    Calm s (s.channelContent p cls c) := by
  unfold State.channelContent
  exact calm_ite ((calm_takeAnswer _ _ _).trans (calm_takeMessage _ _ _)) Calm.rfl'

theorem calm_linkLoss (s : State) (p : PortId) : Calm s (s.linkLoss p) := by
  unfold State.linkLoss
  split
  · exact (calm_setChannel _ _ _).trans (calm_endCommand _ _ _ _)
  · exact calm_setChannel _ _ _

/-! Line Prover -/

theorem calm_proverEnd (s : State) (o : ProverOutcome) : Calm s (s.proverEnd o) := by
  unfold State.proverEnd
  have h : Calm s (({ s with prover := { s.prover with running := false, outcome := o } } : State).handNotice
      .proverDone (s.prover.port.toNat % 256) o.code s.prover.elapsed s.prover.errorBits) := by
    refine Calm.trans ?_ (calm_handNotice _ _ _ _ _ _)
    exact Calm.of_eq rfl rfl rfl rfl rfl rfl
  split
  · exact h.trans (calm_recompose _ _)
  · exact h

theorem calm_takeAttach (s : State) : Calm s s.takeAttach := by
  unfold State.takeAttach
  have h : Calm s { s with prover := s.prover.begin, proverDue := false } := Calm.of_eq rfl rfl rfl rfl rfl rfl
  split
  · exact h.trans (calm_recompose _ _)
  · exact h

theorem calm_takeDetach (s : State) : Calm s s.takeDetach := by
  unfold State.takeDetach
  exact calm_ite (calm_proverEnd _ _) Calm.rfl'

theorem calm_proverDisable (s : State) (p : PortId) : Calm s (s.proverDisable p) := by
  unfold State.proverDisable
  exact calm_ite (calm_proverEnd _ _) Calm.rfl'

theorem calm_proverPreempt (s : State) (c : Vector Word 8) : Calm s (s.proverPreempt c) := by
  unfold State.proverPreempt
  split
  · exact calm_ite (calm_proverEnd _ _) Calm.rfl'
  · exact Calm.rfl'

theorem calm_proverHandle (s : State) : Calm s s.proverHandle := by
  unfold State.proverHandle
  split
  · split
    · have h : Calm s { s with proverDue := false, prover := s.prover.countMs } := Calm.of_eq rfl rfl rfl rfl rfl rfl
      exact calm_ite (h.trans (calm_proverEnd _ _)) h
    · exact Calm.of_eq rfl rfl rfl rfl rfl rfl
  · exact Calm.rfl'

theorem calm_proverContent (s : State) (p : PortId) (cls : IntervalClass) (c : LineCycle) :
    Calm s (s.proverContent p cls c) := by
  unfold State.proverContent
  exact calm_ite (Calm.of_eq rfl rfl rfl rfl rfl rfl) Calm.rfl'

/-! Settlement Unit -/

/-- A change of the Settlement Unit's queue and state alone is calm. -/
theorem calm_settle {s : State} {q : List RowId} {w : Option RecordInWriting} {u : SettleUnit}
    (h : w.isSome = true → s.settle.writing.isSome = true ∨ s.settle.held ≠ Config.ringSlots) :
    Calm s { s with settle := { s.settle with queue := q, writing := w, unit := u } } :=
  ⟨⟨rfl, rfl, rfl, rfl, rfl, fun _ => ⟨rfl, rfl⟩, List.prefix_rfl, id, id, fun hl => ⟨hl.1, fun hw => by
    rcases h hw with h | h
    · exact hl.2 h
    · exact Nat.lt_of_le_of_ne hl.1 h⟩⟩, rfl, rfl⟩

theorem calm_joinSettlement (s : State) (r : RowId) : Calm s (s.joinSettlement r) :=
  calm_settle (q := s.settle.queue ++ [r]) (w := s.settle.writing) (u := s.settle.unit) Or.inl

theorem calm_settleStep (s : State) : Calm s s.settleStep := by
  unfold State.settleStep
  split
  · exact calm_settle (q := s.settle.queue) (w := s.settle.writing) (u := .writing) Or.inl
  · split
    · exact calm_settle (q := s.settle.queue) (w := s.settle.writing) (u := .idle) Or.inl
    · rename_i r others hq
      split
      · unfold State.waitRing
        refine calm_ite Calm.rfl' (Calm.trans ?_ (calm_handNotice _ _ _ _ _ _))
        exact calm_settle (q := s.settle.queue) (w := s.settle.writing) (u := .waitRing) Or.inl
      · rename_i hheld
        refine calm_ite ?_ ?_
        · exact calm_settle (q := s.settle.queue) (w := s.settle.writing) (u := .waitAction) Or.inl
        · unfold State.beginRecord
          refine Calm.trans (Calm.trans ?_ (calm_offer _ _ _)) (calm_offer _ _ _)
          exact calm_settle (fun _ => Or.inr hheld)

/-! Scheduler -/

theorem calm_setFabric (s : State) (f : FabricState) : Calm s (s.setFabric f) := by
  unfold State.setFabric
  refine Calm.trans ?_ (calm_handNotice _ _ _ _ _ _)
  exact Calm.of_eq rfl rfl rfl rfl rfl rfl

theorem calm_haltIfDone (s : State) : Calm s s.haltIfDone := by
  unfold State.haltIfDone
  exact calm_ite (calm_setFabric _ _) Calm.rfl'

theorem calm_freeSlotsOf (s : State) (r : RowId) : Calm s (s.freeSlotsOf r) := Calm.of_eq rfl rfl rfl rfl rfl rfl

theorem calm_endLive (s : State) (r : RowId) (reason : EndReason) : Calm s (s.endLive r reason) := by
  unfold State.endLive
  exact ((((calm_freeSlotsOf _ _).trans (calm_setRow _ _ _)).trans (calm_joinSettlement _ _)).trans
    (calm_handNotice _ _ _ _ _ _)).trans (calm_haltIfDone _)

theorem calm_scheduleEnd (s : State) (r : RowId) (reason : EndReason) : Calm s (s.scheduleEnd r reason) :=
  (calm_endLive _ _ _).trans (calm_settleStep _)

theorem calm_endMissed (s : State) (r : RowId) : Calm s (s.endMissed r) :=
  (((calm_setRow _ _ _).trans (calm_joinSettlement _ _)).trans (calm_handNotice _ _ _ _ _ _)).trans (calm_settleStep _)

theorem calm_goLiveRow (s : State) (r : RowId) (late : Bool) : Calm s (s.goLiveRow r late) := by
  unfold State.goLiveRow
  exact ((((calm_proverPreempt _ _).trans (calm_allocate _ _)).trans (calm_setRow _ _ _)).trans
    (calm_reevaluate _ _)).trans (calm_handNotice _ _ _ _ _ _)

theorem calm_startRow (s : State) (r : RowId) : Calm s (s.startRow r) := by
  unfold State.startRow
  exact calm_ite (calm_ite (calm_endMissed _ _) (calm_ite (calm_ite (calm_goLiveRow _ _ _) (calm_endMissed _ _))
    (calm_ite (calm_goLiveRow _ _ _) Calm.rfl'))) Calm.rfl'

theorem calm_takeStart (s : State) : Calm s s.takeStart :=
  (calm_setFabric _ _).trans (calm_forRows (fun r s => calm_startRow s r) _)

theorem calm_takeStop (s : State) : Calm s s.takeStop := (calm_setFabric _ _).trans (calm_haltIfDone _)

theorem calm_meterHandle (s : State) : Calm s s.meterHandle := by
  unfold State.meterHandle
  exact calm_ite (Calm.of_eq rfl rfl rfl rfl rfl rfl) Calm.rfl'

theorem calm_runEnds (s : State) (lo : Nat) : Calm s (s.runEnds lo) :=
  calm_forRows (fun r s => calm_ite (calm_scheduleEnd s r _) Calm.rfl') s

theorem calm_runStarts (s : State) (lo : Nat) : Calm s (s.runStarts lo) :=
  calm_forRows (fun r s => calm_ite (calm_goLiveRow s r _) Calm.rfl') s

theorem calm_schedulerHandle (s : State) : Calm s s.schedulerHandle := by
  unfold State.schedulerHandle
  split
  · exact Calm.rfl'
  · rename_i lo _
    refine calm_ite (calm_pass s .none) ?_
    exact Calm.trans (t := (s.runEnds lo).runStarts 0) ((calm_runEnds _ _).trans (calm_runStarts _ _)) (calm_pass _ .none)
  · rename_i lo _
    exact Calm.trans (t := s.runStarts lo) (calm_runStarts _ _) (calm_pass _ .none)

theorem calm_advanceTime (s : State) : Calm s s.advanceTime := by
  unfold State.advanceTime
  refine calm_ite Calm.rfl' (Calm.trans (t := s.meterHandle.proverHandle.schedulerHandle)
    (((calm_meterHandle _).trans (calm_proverHandle _)).trans (calm_schedulerHandle _)) ?_)
  exact Calm.of_eq rfl rfl rfl rfl rfl rfl

theorem calm_msPart (s : State) (x : MsPart) : Calm s (s.msPart x) := by
  cases x
  · exact calm_advanceTime s
  · exact calm_meterHandle s
  · exact calm_proverHandle s
  · exact calm_schedulerHandle s

/-! Span Supervisor -/

theorem calm_transition (s : State) (p : PortId) (dest : LinkState) (c : Cause) : Calm s (s.transition p dest c) :=
  (calm_setPort _ _ _).trans (calm_handNotice _ _ _ _ _ _)

theorem calm_linkStep (s : State) (p : PortId) (g l : Bool) : Calm s (s.linkStep p g l) := by
  unfold State.linkStep
  split
  · exact calm_transition _ _ _ _
  · exact calm_setPort _ _ _

theorem calm_captureStep (s : State) (p : PortId) (old : LinkState) : Calm s (s.captureStep p old) := by
  unfold State.captureStep
  repeat' apply calm_ite
  all_goals first
    | exact Calm.rfl'
    | exact calm_setPort _ _ _
    | exact (calm_setPort _ _ _).trans (calm_handNotice _ _ _ _ _ _)

theorem calm_lossStep (s : State) (p : PortId) (old : LinkState) : Calm s (s.lossStep p old) := by
  unfold State.lossStep
  exact calm_ite (calm_linkLoss _ _) Calm.rfl'

theorem calm_reportStatus (s : State) (p : PortId) : Calm s (s.reportStatus p) := by
  unfold State.reportStatus
  exact calm_ite ((calm_setPort _ _ _).trans (calm_handNotice _ _ _ _ _ _)) Calm.rfl'

theorem calm_handContent (s : State) (p : PortId) (cls : IntervalClass) (c : LineCycle) :
    Calm s (s.handContent p cls c) := by
  unfold State.handContent
  exact ((calm_setPort _ _ _).trans (calm_channelContent _ _ _ _)).trans (calm_proverContent _ _ _ _)

theorem calm_carryStep (s : State) (p : PortId) (b : Bool) : Calm s (s.carryStep p b) := by
  unfold State.carryStep
  exact calm_ite (calm_recompose _ _) (calm_ite (calm_reevaluateInput _ _) Calm.rfl')

theorem calm_afterFilter (s : State) (p : PortId) (old : Port) (cls : IntervalClass) (c : LineCycle) :
    Calm s (s.afterFilter p old cls c) := by
  unfold State.afterFilter
  exact ((((((calm_linkStep _ _ _ _).trans (calm_setPort _ _ _)).trans (calm_captureStep _ _ _)).trans
    (calm_lossStep _ _ _)).trans (calm_reportStatus _ _)).trans (calm_handContent _ _ _ _)).trans (calm_carryStep _ _ _)

theorem calm_cycleEvent (s : State) (p : PortId) (iv : Interval) : Calm s (s.cycleEvent p iv) := by
  unfold State.cycleEvent
  exact calm_ite Calm.rfl' ((calm_setPort _ _ _).trans (calm_afterFilter _ _ _ _ _))

theorem calm_transmit (s : State) (p : PortId) : Calm s (s.transmit p) := by
  unfold State.transmit
  exact calm_ite Calm.rfl' (Calm.of_eq rfl rfl rfl rfl rfl rfl)

theorem calm_enablePort (s : State) (p : PortId) : Calm s (s.enablePort p) := calm_transition _ _ _ _

theorem calm_disablePort (s : State) (p : PortId) : Calm s (s.disablePort p) :=
  (((((calm_setPort _ _ _).trans (calm_transition _ _ _ _)).trans (calm_captureStep _ _ _)).trans
    (calm_linkLoss _ _)).trans (calm_proverDisable _ _)).trans (calm_recompose _ _)

theorem calm_setConfig (s : State) (p : PortId) (c : PortConfig) : Calm s (s.setConfig p c) := calm_setPort _ _ _

theorem calm_pairOff (s : State) (p : PortId) : Calm s (s.pairOff p) := Calm.of_eq rfl rfl rfl rfl rfl rfl

theorem calm_pairOn (s : State) (p : PortId) : Calm s (s.pairOn p) := by
  unfold State.pairOn
  refine Calm.trans ?_ (calm_selectReceive _ _)
  exact Calm.of_eq rfl rfl rfl rfl rfl rfl

theorem calm_applyConfig (s : State) (p : PortId) (v : Word) : Calm s (s.applyConfig p v) := by
  unfold State.applyConfig
  extract_lets old new t u w
  have h : Calm s u :=
    calm_ite ((calm_setConfig _ _ _).trans (calm_enablePort _ _))
      (calm_ite ((calm_setConfig _ _ _).trans (calm_disablePort _ _)) (calm_setConfig _ _ _))
  exact calm_ite h (calm_ite ((h.trans (calm_setConfig _ _ _)).trans (calm_pairOn _ _))
    ((h.trans (calm_setConfig _ _ _)).trans (calm_pairOff _ _)))

theorem calm_takeConfig (s : State) (p : PortId) (v : Word) : Calm s (s.takeConfig p v) := by
  unfold State.takeConfig
  exact calm_ite (calm_applyConfig _ _ _) Calm.rfl'

theorem calm_takeSelect (s : State) (p : PortId) (v : Word) : Calm s (s.takeSelect p v) := by
  unfold State.takeSelect
  split
  · exact calm_ite ((calm_switchover _ _ _ _).trans (calm_reevaluateSourced _ _)) Calm.rfl'
  · exact Calm.rfl'

theorem calm_takeArm (s : State) (p : PortId) : Calm s (s.takeArm p) := calm_setPort _ _ _

theorem calm_takeDisarm (s : State) (p : PortId) : Calm s (s.takeDisarm p) := calm_setPort _ _ _

/-! Admission Unit -/

theorem calm_actionResult (s : State) (r : RowId) (a : Action) : Calm s (s.actionResult r a) := calm_handNotice _ _ _ _ _ _

theorem calm_entryDone (s : State) : Calm s s.entryDone := Calm.of_eq rfl rfl rfl rfl rfl rfl

theorem calm_beginPost (s : State) : Calm s s.beginPost := by
  unfold State.beginPost
  split
  · refine Calm.trans ?_ (calm_offer _ _ _)
    exact Calm.of_eq rfl rfl rfl rfl rfl rfl
  · exact Calm.rfl'

theorem calm_finishPost (s : State) (r : RowId) (ws : Vector Word 16) : Calm s (s.finishPost r ws) :=
  ((calm_setRow _ _ _).trans (calm_actionResult _ _ _)).trans (calm_entryDone _)

theorem calm_runAmend (s : State) (r : RowId) : Calm s (s.runAmend r) :=
  (((calm_setRow _ _ _).trans (calm_actionResult _ _ _)).trans (calm_entryDone _)).trans (calm_settleStep _)

theorem calm_cancelEffect (s : State) (r : RowId) : Calm s (s.cancelEffect r) := by
  unfold State.cancelEffect
  split
  · exact calm_setRow _ _ _
  · exact calm_endLive _ _ _
  all_goals exact Calm.rfl'

theorem calm_runCancel (s : State) (r : RowId) : Calm s (s.runCancel r) :=
  ((((calm_cancelEffect _ _).trans (calm_setRow _ _ _)).trans (calm_actionResult _ _ _)).trans (calm_entryDone _)).trans
    (calm_settleStep _)

/-! Captures and actions of the host -/

theorem ringDist_le_of (a b c : BitVec 10) (h : ringDist c b ≤ ringDist a b) : ringDist a c ≤ ringDist a b := by
  unfold ringDist at *
  rw [BitVec.toNat_sub] at *
  rw [BitVec.toNat_sub] at h ⊢
  have := a.isLt
  have := b.isLt
  have := c.isLt
  omega

/-- R174: a consume moves the consume index, within the law of the ring. -/
theorem tame_takeConsume (s : State) (v : Word) : Tame s (s.takeConsume v) := by
  unfold State.takeConsume
  split
  · rename_i h
    refine ⟨rfl, rfl, rfl, rfl, rfl, fun _ => ⟨rfl, rfl⟩, List.prefix_rfl, id, fun hn => ?_, id⟩
    simp only [NoticeWriter.consumeOk, Bool.and_eq_true, decide_eq_true_eq] at h
    have := ringDist_le_of s.notice.produce s.notice.consume _ h.2
    unfold NoticeLaw at hn ⊢
    simp only
    omega
  · exact Tame.rfl'

theorem calm_takeRelease (s : State) (v : Word) : Calm s (s.takeRelease v) := by
  unfold State.takeRelease
  split
  · rename_i h
    have hc : Calm s { s with settle := { s.settle with release := v.extractLsb' 0 10 } } := by
      refine ⟨⟨rfl, rfl, rfl, rfl, rfl, fun _ => ⟨rfl, rfl⟩, List.prefix_rfl, id, id, fun hn => ?_⟩, rfl, rfl⟩
      simp only [Settlement.releaseOk, Bool.and_eq_true, decide_eq_true_eq] at h
      have := ringDist_le_of s.settle.append s.settle.release _ h.2
      unfold SettlementLaw Settlement.held at hn ⊢
      exact ⟨by simp only; omega, fun hw => by have := hn.2 hw; simp only; omega⟩
    exact calm_ite (hc.trans (calm_settleStep _)) hc
  · exact Calm.rfl'

theorem calm_captureStaging (s : State) (w : WinWord) (v : Word) : Calm s (s.captureStaging w v) := by
  unfold State.captureStaging
  split
  all_goals first
    | exact Calm.of_eq rfl rfl rfl rfl rfl rfl
    | (split
       · exact Calm.rfl'
       · exact Calm.of_eq rfl rfl rfl rfl rfl rfl)

theorem tame_captureWord (s : State) (w : WinWord) (v : Word) : Tame s (s.captureWord w v) := by
  unfold State.captureWord
  split
  · exact tame_takeConsume _ _
  · exact (calm_takeRelease _ _).toTame
  · exact (calm_takeConfig _ _ _).toTame
  · exact (calm_captureStaging _ _ _).toTame

theorem calm_takeControl (s : State) (r : RowId) (v : Word) : Calm s (s.takeControl r v) := by
  unfold State.takeControl
  repeat' apply calm_ite
  all_goals first
    | exact Calm.rfl'
    | exact Calm.of_eq rfl rfl rfl rfl rfl rfl

theorem calm_takeFabric (s : State) (v : Word) : Calm s (s.takeFabric v) := by
  unfold State.takeFabric
  exact calm_ite (calm_takeStart _) (calm_ite (calm_takeStop _) Calm.rfl')

theorem calm_takeProver (s : State) (v : Word) : Calm s (s.takeProver v) := by
  unfold State.takeProver
  exact calm_ite (calm_ite (calm_takeAttach _) Calm.rfl') (calm_ite (calm_takeDetach _) Calm.rfl')

theorem calm_takeAction (s : State) (w : WinWord) (v : Word) : Calm s (s.takeAction w v) := by
  unfold State.takeAction
  split
  · exact calm_takeFabric _ _
  · exact calm_ite (Calm.of_eq rfl rfl rfl rfl rfl rfl) Calm.rfl'
  · exact calm_takeProver _ _
  · unfold State.takeMaint
    split
    · exact calm_takeCommand _ _ _
    · exact Calm.rfl'
  · unfold State.takeCapture
    exact calm_ite (calm_takeArm _ _) (calm_takeDisarm _ _)
  · exact calm_takeSelect _ _ _
  · exact calm_takeControl _ _ _
  · exact Calm.rfl'

theorem calm_takeActions (s : State) (l : List (WinWord × Word)) : Calm s (s.takeActions l) := by
  unfold State.takeActions
  induction l generalizing s with
  | nil => exact Calm.rfl'
  | cons a l ih => exact (calm_takeAction s a.1 a.2).trans (ih _)

theorem tame_captures (s : State) (l : List (WinWord × Word)) : Tame s (l.foldl (fun s x => s.captureWord x.1 x.2) s) := by
  induction l generalizing s with
  | nil => exact Tame.rfl'
  | cons a l ih => exact (tame_captureWord s a.1 a.2).trans (ih _)

theorem calm_answerEffect (s : State) (w : WinWord) : Calm s (s.answerEffect w) := by
  unfold State.answerEffect
  split
  all_goals first
    | exact Calm.of_eq rfl rfl rfl rfl rfl rfl
    | exact calm_ite (calm_setRow _ _ _) Calm.rfl'

end Sys2Proof.Machine
end

