-- ==== Sys2Proof/Laws/Quiet.lean ====
section
/-! SUPPORT. What the Cross-Connect's work can change: `Quiet` says that re-evaluation, receive selection and the
recomposition of a carrying flag touch feed healths, two counts of LIVE rows, active members, carrying flags and
notices, and nothing else. -/

namespace Sys2Proof.Machine

/-- The row after feed-health and switchover work: only its health and its two counts may differ, and only while
LIVE. -/
def RowKept (x y : Row) : Prop :=
  y = { x with
    health := y.health
    meter := { x.meter with outageCount := y.meter.outageCount, switchCount := y.meter.switchCount } }
  ∧ (x.state ≠ .live → y = x)

theorem RowKept.refl (x : Row) : RowKept x x := ⟨rfl, fun _ => rfl⟩

theorem RowKept.trans {x y z : Row} (a : RowKept x y) (b : RowKept y z) : RowKept x z := by
  obtain ⟨a1, a2⟩ := a
  obtain ⟨b1, b2⟩ := b
  have hs : y.state = x.state := by rw [a1]
  refine ⟨?_, fun h => ?_⟩
  · rw [b1, a1]
  · rw [b2 (by rw [hs]; exact h), a2 h]

theorem RowKept.state {x y : Row} (h : RowKept x y) : y.state = x.state := by rw [h.1]
theorem RowKept.captured {x y : Row} (h : RowKept x y) : y.captured = x.captured := by rw [h.1]
theorem RowKept.currentEnd {x y : Row} (h : RowKept x y) : y.currentEnd = x.currentEnd := by rw [h.1]

/-- The Cross-Connect's work on the state. -/
structure Quiet (s t : State) : Prop where
  rest : t = { s with
    rows := t.rows, ports := t.ports, active := t.active, notice := t.notice, path := t.path }
  row : ∀ r, RowKept (s.row r) (t.row r)
  port : ∀ p, t.port p = { s.port p with carrying := (t.port p).carrying }
  calm : Calm s t

theorem Quiet.refl (s : State) : Quiet s s := ⟨rfl, fun _ => RowKept.refl _, fun _ => rfl, Calm.rfl'⟩

theorem Quiet.trans {s t u : State} (a : Quiet s t) (b : Quiet t u) : Quiet s u where
  rest := by rw [b.rest, a.rest]
  row r := (a.row r).trans (b.row r)
  port p := by rw [b.port p, a.port p]
  calm := a.calm.trans b.calm

theorem quiet_ite {s t u : State} {c : Prop} [Decidable c] (h1 : Quiet s t) (h2 : Quiet s u) :
    Quiet s (if c then t else u) := by
  split
  · exact h1
  · exact h2

theorem quiet_forRows {f : RowId → State → State} (h : ∀ r s, Quiet s (f r s)) (s : State) : Quiet s (s.forRows f) := by
  unfold State.forRows
  generalize List.finRange 256 = l
  induction l generalizing s with
  | nil => exact Quiet.refl s
  | cons r l ih => exact (h r s).trans (ih (f r s))

/-! Fields under quiet work -/

theorem Quiet.prover {s t : State} (h : Quiet s t) : t.prover = s.prover := by rw [h.rest]
theorem Quiet.now {s t : State} (h : Quiet s t) : t.now = s.now := by rw [h.rest]
theorem Quiet.fabric {s t : State} (h : Quiet s t) : t.fabric = s.fabric := by rw [h.rest]
theorem Quiet.settle {s t : State} (h : Quiet s t) : t.settle = s.settle := by rw [h.rest]
theorem Quiet.mem {s t : State} (h : Quiet s t) : t.mem = s.mem := by rw [h.rest]
theorem Quiet.actionQueue {s t : State} (h : Quiet s t) : t.actionQueue = s.actionQueue := by rw [h.rest]
theorem Quiet.admission {s t : State} (h : Quiet s t) : t.admission = s.admission := by rw [h.rest]
theorem Quiet.claimed {s t : State} (h : Quiet s t) : t.claimed = s.claimed := by
  simp only [State.claimed, h.prover]
theorem Quiet.cfg {s t : State} (h : Quiet s t) (p : PortId) : (t.port p).cfg = (s.port p).cfg := by rw [h.port p]
theorem Quiet.link {s t : State} (h : Quiet s t) (p : PortId) : (t.port p).link = (s.port p).link := by rw [h.port p]
theorem Quiet.channel {s t : State} (h : Quiet s t) (p : PortId) : (t.port p).channel = (s.port p).channel := by
  rw [h.port p]
theorem Quiet.inPair {s t : State} (h : Quiet s t) (p : PortId) : t.inPair p = s.inPair p := by
  simp only [State.inPair, h.cfg]
theorem Quiet.logical {s t : State} (h : Quiet s t) (p : PortId) : t.logical p = s.logical p := by
  simp only [State.logical, h.inPair]
theorem Quiet.mayCarry {s t : State} (h : Quiet s t) (p : PortId) : t.mayCarry p = s.mayCarry p := by
  simp only [State.mayCarry, h.cfg, h.link, h.channel, h.claimed]
theorem Quiet.usesRx {s t : State} (h : Quiet s t) (c : Vector Word 8) (l : PortId) : t.usesRx c l = s.usesRx c l := by
  simp only [State.usesRx, h.logical]
theorem Quiet.uses {s t : State} (h : Quiet s t) (c : Vector Word 8) (l : PortId) : t.uses c l = s.uses c l := by
  simp only [State.uses, State.usesRx, State.usesTx, h.logical]

/-! Handing and re-evaluation -/

theorem quiet_handNotice (s : State) (k : NoticeKind) (a b : Nat) (c d : Word) : Quiet s (s.handNotice k a b c d) :=
  ⟨rfl, fun _ => RowKept.refl _, fun _ => rfl, calm_handNotice s k a b c d⟩

theorem setHealth_kept {x : Row} (hl : x.state = .live) (h : Health) : RowKept x (x.setHealth h) := by
  refine ⟨?_, fun hn => absurd hl hn⟩
  unfold Row.setHealth
  split <;> rfl

theorem countSwitch_kept {x : Row} (hl : x.state = .live) : RowKept x x.countSwitch :=
  ⟨rfl, fun hn => absurd hl hn⟩

theorem reevaluate_eq (s : State) (r : RowId) : s.reevaluate r =
    if (s.row r).state = .live ∧ s.feedHealth (s.row r).captured ≠ (s.row r).health then
      (s.setRow r ((s.row r).setHealth (s.feedHealth (s.row r).captured))).handNotice .feedHealth r.val
        (s.feedHealth (s.row r).captured).code (BitVec.ofNat 32 (s.row r).health.code)
        (BitVec.ofNat 32 (s.sourcePath (s.row r).captured).val)
    else s := rfl

/-- R67: what a re-evaluation of row `r` can change. -/
theorem quiet_reevaluate (s : State) (r : RowId) : Quiet s (s.reevaluate r) := by
  rw [reevaluate_eq]
  split
  · rename_i h
    refine Quiet.trans ?_ (quiet_handNotice _ _ _ _ _ _)
    refine ⟨rfl, fun q => ?_, fun _ => rfl, calm_setRow _ _ _⟩
    rw [row_setRow]
    split
    · rename_i hq; subst hq; exact setHealth_kept h.1 _
    · exact RowKept.refl _
  · exact Quiet.refl s

/-- Re-evaluation touches no port and no active member. -/
theorem reevaluate_ports (s : State) (r : RowId) : (s.reevaluate r).ports = s.ports ∧ (s.reevaluate r).active = s.active := by
  rw [reevaluate_eq]
  split <;> exact ⟨rfl, rfl⟩

/-- Re-evaluation of one row touches no other row. -/
theorem reevaluate_row_ne (s : State) {r q : RowId} (h : q ≠ r) : (s.reevaluate r).row q = s.row q := by
  rw [reevaluate_eq]
  split
  · rw [handNotice_row, row_setRow, if_neg h]
  · rfl

/-- Health work on rows in turn: quiet, and no port and no active member changes. -/
structure QuietRows (s t : State) : Prop where
  quiet : Quiet s t
  ports : t.ports = s.ports
  active : t.active = s.active
  switches : ∀ r, (t.row r).meter.switchCount = (s.row r).meter.switchCount

theorem QuietRows.refl (s : State) : QuietRows s s := ⟨Quiet.refl s, rfl, rfl, fun _ => rfl⟩

theorem QuietRows.trans {s t u : State} (a : QuietRows s t) (b : QuietRows t u) : QuietRows s u :=
  ⟨a.quiet.trans b.quiet, b.ports.trans a.ports, b.active.trans a.active,
    fun r => (b.switches r).trans (a.switches r)⟩

theorem quietRows_reevaluate (s : State) (r : RowId) : QuietRows s (s.reevaluate r) := by
  refine ⟨quiet_reevaluate s r, (reevaluate_ports s r).1, (reevaluate_ports s r).2, fun q => ?_⟩
  by_cases h : q = r
  · subst h
    rw [reevaluate_eq]
    split
    · rw [handNotice_row, row_setRow, if_pos rfl]
      unfold Row.setHealth
      split <;> rfl
    · rfl
  · rw [reevaluate_row_ne s h]

theorem quietRows_forRows {f : RowId → State → State} (h : ∀ r s, QuietRows s (f r s)) (s : State) :
    QuietRows s (s.forRows f) := by
  unfold State.forRows
  generalize List.finRange 256 = l
  induction l generalizing s with
  | nil => exact QuietRows.refl s
  | cons r l ih => exact (h r s).trans (ih (f r s))

theorem quietRows_ite {s t u : State} {c : Prop} [Decidable c] (h1 : QuietRows s t) (h2 : QuietRows s u) :
    QuietRows s (if c then t else u) := by
  split
  · exact h1
  · exact h2

theorem quietRows_reevaluateUsers (s : State) (l : PortId) : QuietRows s (s.reevaluateUsers l) :=
  quietRows_forRows (fun r s => quietRows_ite (quietRows_reevaluate s r) (QuietRows.refl s)) s

theorem quietRows_reevaluateSourced (s : State) (l : PortId) : QuietRows s (s.reevaluateSourced l) :=
  quietRows_forRows (fun r s => quietRows_ite (quietRows_reevaluate s r) (QuietRows.refl s)) s

theorem quietRows_reevaluateInput (s : State) (p : PortId) : QuietRows s (s.reevaluateInput p) :=
  quietRows_forRows (fun r s => quietRows_ite (quietRows_reevaluate s r) (QuietRows.refl s)) s

/-! Receive selection -/

theorem vecMap_getElem {α β : Type} {n : Nat} (f : α → β) (v : Vector α n) (i : Nat) (h : i < n) :
    (vecMap f v)[i] = f v[i] := by
  simp [vecMap]

theorem vecOf_getElem {α : Type} {n : Nat} (f : Fin n → α) (i : Nat) (h : i < n) : (vecOf f)[i] = f ⟨i, h⟩ := by
  simp [vecOf]

/-- R63: the rows after a switchover. -/
theorem switchover_row (s : State) (k : PairId) (m : Member) (c : SwitchCause) (r : RowId) :
    (s.switchover k m c).row r = if s.countsSwitch (evenPort k) (s.row r) then (s.row r).countSwitch else s.row r := by
  unfold State.switchover
  rw [handNotice_row]
  simp only [State.row, Fin.getElem_fin]
  rw [vecMap_getElem]
  rfl

theorem switchover_ports (s : State) (k : PairId) (m : Member) (c : SwitchCause) :
    (s.switchover k m c).ports = s.ports ∧ (s.switchover k m c).active = s.active.set k m := ⟨rfl, rfl⟩

theorem quiet_switchover (s : State) (k : PairId) (m : Member) (c : SwitchCause) : Quiet s (s.switchover k m c) := by
  refine ⟨rfl, fun r => ?_, fun _ => rfl, calm_switchover s k m c⟩
  rw [switchover_row]
  split
  · rename_i h
    simp only [State.countsSwitch, Row.isLive, Bool.and_eq_true, beq_iff_eq] at h
    exact countSwitch_kept h.1
  · exact RowKept.refl _

theorem selectReceive_ports (s : State) (k : PairId) : (s.selectReceive k).ports = s.ports := by
  unfold State.selectReceive
  dsimp only
  split <;> rfl

theorem quiet_selectReceive (s : State) (k : PairId) : Quiet s (s.selectReceive k) := by
  unfold State.selectReceive
  exact quiet_ite (quiet_switchover _ _ _ _) (Quiet.refl s)

theorem quiet_selectAtChange (s : State) (p : PortId) : Quiet s (s.selectAtChange p) := by
  unfold State.selectAtChange
  exact quiet_ite (quiet_ite (quiet_handNotice _ _ _ _ _ _) (quiet_selectReceive _ _)) (Quiet.refl s)

theorem selectAtChange_ports (s : State) (p : PortId) : (s.selectAtChange p).ports = s.ports := by
  unfold State.selectAtChange
  dsimp only
  split
  · split
    · rfl
    · exact selectReceive_ports _ _
  · rfl

theorem quiet_carryingChanged (s : State) (p : PortId) : Quiet s (s.carryingChanged p) :=
  (quiet_selectAtChange s p).trans (quietRows_reevaluateUsers _ _).quiet

theorem carryingChanged_ports (s : State) (p : PortId) : (s.carryingChanged p).ports = s.ports :=
  (quietRows_reevaluateUsers _ _).ports.trans (selectAtChange_ports s p)

/-! Carrying -/

theorem quiet_carrying (s : State) (p : PortId) (b : Bool) : Quiet s (s.setPort p { s.port p with carrying := b }) := by
  refine ⟨rfl, fun _ => RowKept.refl _, fun q => ?_, calm_setPort _ _ _⟩
  rw [port_setPort]
  split
  · rename_i h; subst h; rfl
  · rfl

/-- R59, R60: what a recomposition can change. -/
theorem quiet_recompose (s : State) (p : PortId) : Quiet s (s.recompose p) := by
  unfold State.recompose
  exact quiet_ite (Quiet.refl s) ((quiet_carrying _ _ _).trans (quiet_carryingChanged _ _))

/-- R59: the ports after a recomposition: port `p` carries what its four inputs make it. -/
theorem recompose_port (s : State) (p q : PortId) :
    (s.recompose p).port q = if q = p then { s.port p with carrying := s.mayCarry p } else s.port q := by
  unfold State.recompose
  split
  · rename_i h
    split
    · rename_i hq; subst hq; rw [h]
    · rfl
  · rw [port_eq_of_ports (carryingChanged_ports _ _), port_setPort]

/-- A recomposition establishes R59 for port `p` and keeps it elsewhere. -/
theorem recompose_law {s : State} {p : PortId} (h : ∀ q, q ≠ p → (s.port q).carrying = s.mayCarry q) :
    CarryingLaw (s.recompose p) := by
  intro q
  rw [(quiet_recompose s p).mayCarry q, recompose_port]
  split
  · rename_i hq; subst hq; rfl
  · rename_i hq; exact h q hq

/-- A recomposition that finds the flag as it should be changes nothing. -/
theorem recompose_idle {s : State} {p : PortId} (h : s.mayCarry p = (s.port p).carrying) : s.recompose p = s := by
  rw [State.recompose, if_pos h]

end Sys2Proof.Machine
end

