-- ==== Sys2Proof/Laws/Bookings.lean ====
section
/-! SUPPORT. What the Scheduler's and the Settlement Unit's operations on bookings can change: one lemma per
operation, and the facts about rows, slots and searches that they rest on. -/

namespace Sys2Proof.Machine

/-! Searches over rows -/

theorem anyRow_eq_false (s : State) (f : Row → Bool) : s.anyRow f = false ↔ ∀ q, f (s.row q) = false := by
  unfold State.anyRow
  rw [List.any_eq_false]
  constructor
  · intro h q
    have := h s.rows[q] (by simp)
    simpa [State.row] using this
  · intro h x hx
    simp only [Vector.mem_toList_iff] at hx
    obtain ⟨i, hi, rfl⟩ := Vector.mem_iff_getElem.mp hx
    have := h ⟨i, hi⟩
    simpa [State.row] using this

/-- The row that a search finds satisfies its condition, and no lower row does. -/
theorem findRow_some {f : RowId → Bool} {r : RowId} (h : State.findRow f = some r) :
    f r = true ∧ ∀ q, q < r → f q = false := by
  unfold State.findRow at h
  refine ⟨List.find?_some h, fun q hq => ?_⟩
  rw [List.find?_eq_some_iff_getElem] at h
  obtain ⟨_, i, hi, he, hall⟩ := h
  have hi' : (List.finRange 256)[i] = ⟨i, by simpa using hi⟩ := by simp
  rw [hi'] at he
  have := hall q.val (by rw [← he] at hq; exact hq)
  simpa using this

/-! Slots -/

/-- R56: the ports after a row's slots are freed. -/
theorem freeSlotsOf_ports (s : State) (r : RowId) (q : PortId) :
    (s.freeSlotsOf r).port q = { s.port q with
      rxOwner := releaseSlots (s.port q).rxOwner r, txOwner := releaseSlots (s.port q).txOwner r } := by
  simp only [State.port, State.freeSlotsOf, Fin.getElem_fin, vecMap_getElem]

/-- R56: no slot is left with the row. -/
theorem releaseSlots_ne (v : Vector (Option RowId) 40) (r : RowId) (j : SlotId) : (releaseSlots v r)[j] ≠ some r := by
  simp only [releaseSlots, Fin.getElem_fin, vecMap_getElem]
  split
  · simp
  · assumption

/-- R55: an allocation of slots changes no row. -/
theorem allocate_rows (s : State) (r : RowId) : (s.allocate r).rows = s.rows := by
  unfold State.allocate
  dsimp only
  have h : ∀ (l : List PortId) (t : State), t.rows = s.rows →
      (l.foldl (fun t d => t.allocTx (t.logical d) (slotCount (s.row r).captured) r) t).rows = s.rows := by
    intro l
    induction l with
    | nil => exact fun t h => h
    | cons d l ih => exact fun t h => ih _ h
  exact h _ _ rfl

/-- The place of an element in a filtered list of all indices is the number of kept indices below it. -/
theorem idxOf_filter_finRange {n : Nat} (f : Fin n → Bool) (i : Fin n) (hi : f i = true) :
    ((List.finRange n).filter f).idxOf i = (List.finRange n).countP fun j => decide (j < i) && f j := by
  have key : ∀ l : List (Fin n), l.Pairwise (· < ·) → i ∈ l →
      (l.filter f).idxOf i = l.countP fun j => decide (j < i) && f j := by
    intro l hl hm
    induction l with
    | nil => cases hm
    | cons a l ih =>
      rw [List.pairwise_cons] at hl
      rcases List.mem_cons.mp hm with rfl | hm
      · rw [List.filter_cons_of_pos hi, List.idxOf_cons_self]
        symm
        rw [List.countP_eq_zero]
        intro j hj
        rcases List.mem_cons.mp hj with rfl | hj
        · simp
        · have := hl.1 j hj
          simp
          intro h
          exact absurd (Fin.lt_trans this h) (Fin.lt_irrefl _)
      · have ha : a < i := hl.1 i hm
        have hne : a ≠ i := Fin.ne_of_lt ha
        by_cases hp : f a = true
        · rw [List.filter_cons_of_pos hp, List.idxOf_cons, beq_false_of_ne hne, cond_false, ih hl.2 hm,
            List.countP_cons_of_pos (by simp [ha, hp])]
        · rw [List.filter_cons_of_neg hp, ih hl.2 hm, List.countP_cons_of_neg (by simp [hp])]
  exact key _ (List.pairwise_lt_finRange n) (List.mem_finRange i)

/-- The first kept indices are those with fewer kept indices below them. -/
theorem mem_take_filter_finRange {n : Nat} (f : Fin n → Bool) (i : Fin n) (k : Nat) :
    i ∈ ((List.finRange n).filter f).take k
      ↔ f i = true ∧ (List.finRange n).countP (fun j => decide (j < i) && f j) < k := by
  constructor
  · intro h
    have hm : i ∈ (List.finRange n).filter f := List.mem_of_mem_take h
    have hp := (List.mem_filter.mp hm).2
    refine ⟨hp, ?_⟩
    rw [← idxOf_filter_finRange f i hp]
    obtain ⟨m, hm1, hm2⟩ := List.mem_iff_getElem.mp h
    have hnd : ((List.finRange n).filter f).Nodup := (List.nodup_finRange n).filter _
    rw [List.length_take] at hm1
    have hlen : m < ((List.finRange n).filter f).length := by omega
    have hi : ((List.finRange n).filter f)[m] = i := by rw [← hm2, List.getElem_take]
    rw [← hi, hnd.idxOf_getElem]
    omega
  · rintro ⟨hp, hc⟩
    rw [← idxOf_filter_finRange f i hp] at hc
    have hm : i ∈ (List.finRange n).filter f := List.mem_filter.mpr ⟨List.mem_finRange i, hp⟩
    have hl := List.idxOf_lt_length_of_mem hm
    rw [List.mem_iff_getElem]
    refine ⟨((List.finRange n).filter f).idxOf i, by rw [List.length_take]; omega, ?_⟩
    rw [List.getElem_take, List.getElem_idxOf]

/-- R55: the lowest free slots are taken. -/
theorem takeSlots_getElem (v : Vector (Option RowId) 40) (n : Nat) (r : RowId) (i : SlotId) :
    (takeSlots v n r)[i] = if v[i] = none ∧ slotsBelow v none i < n then some r else v[i] := by
  unfold takeSlots
  simp only [Fin.getElem_fin]
  rw [vecOf_getElem]
  have e : (⟨i.val, i.isLt⟩ : Fin 40) = i := rfl
  rw [e]
  have h : i ∈ (freeSlots v).take n ↔ v[i] = none ∧ slotsBelow v none i < n := by
    unfold freeSlots slotsBelow
    rw [mem_take_filter_finRange]
    have hn : ∀ o : Option RowId, (o == none) = o.isNone := by
      intro o
      cases o <;> rfl
    simp only [hn, Option.isNone_iff_eq_none]
  simp only [h]
  rfl

theorem logical_congr {s t : State} (h : ∀ q, (t.port q).cfg = (s.port q).cfg) (q : PortId) :
    t.logical q = s.logical q := by
  simp only [State.logical, State.inPair, h]
  rfl

/-- R55: transmit slots taken on distinct logical ports, one after another. -/
theorem allocTx_foldl (u : State) (n : Nat) (r : RowId) (l : List PortId) :
    ∀ s : State, (∀ q, (s.port q).cfg = (u.port q).cfg) → (l.map u.logical).Nodup → ∀ q,
      ((l.foldl (fun s d => s.allocTx (s.logical d) n r) s).port q).txOwner
        = if q ∈ l.map u.logical then takeSlots (s.port q).txOwner n r else (s.port q).txOwner := by
  induction l with
  | nil =>
    intro s _ _ q
    simp
  | cons d l ih =>
    intro s hc hn q
    rw [List.map_cons, List.nodup_cons] at hn
    have hp : ∀ q, (s.allocTx (s.logical d) n r).port q
        = if q = u.logical d then { s.port q with txOwner := takeSlots (s.port q).txOwner n r } else s.port q := by
      intro q
      unfold State.allocTx
      rw [port_setPort, logical_congr hc]
      split
      · rename_i h
        rw [h]
      · rfl
    rw [List.foldl_cons, ih _ (fun q => by rw [hp]; split <;> exact hc q) hn.2, hp]
    by_cases hq : q = u.logical d
    · subst hq
      rw [if_neg hn.1, if_pos rfl, if_pos (by simp)]
    · rw [if_neg hq]
      simp only [List.map_cons, List.mem_cons, hq, false_or]

/-- R55: transmit slots leave receive slots alone. -/
theorem allocTx_foldl_rx (n : Nat) (r : RowId) (l : List PortId) (s : State) (q : PortId) :
    ((l.foldl (fun s d => s.allocTx (s.logical d) n r) s).port q).rxOwner = (s.port q).rxOwner := by
  induction l generalizing s with
  | nil => rfl
  | cons d l ih =>
    rw [List.foldl_cons, ih]
    unfold State.allocTx
    rw [port_setPort]
    split
    · rename_i h
      rw [h]
    · rfl

theorem allocRx_port (s : State) (l : PortId) (n : Nat) (r : RowId) (q : PortId) :
    (s.allocRx l n r).port q
      = if q = l then { s.port q with rxOwner := takeSlots (s.port q).rxOwner n r } else s.port q := by
  unfold State.allocRx
  rw [port_setPort]
  split
  · rename_i h
    rw [h]
  · rfl

theorem allocate_eq (s : State) (r : RowId) (c : Vector Word 8) (h : (s.row r).captured = c) :
    s.allocate r = (destPorts c).foldl (fun s d => s.allocTx (s.logical d) (slotCount c) r)
      (s.allocRx (s.logical (sourcePort c)) (slotCount c) r) := by
  subst h
  rfl

/-- R55: the receive slots after an allocation. -/
theorem allocate_rx (s : State) (r : RowId) (c : Vector Word 8) (h : (s.row r).captured = c) (q : PortId) :
    ((s.allocate r).port q).rxOwner = if q = s.logical (sourcePort c) then takeSlots (s.port q).rxOwner (slotCount c) r
      else (s.port q).rxOwner := by
  rw [allocate_eq s r c h, allocTx_foldl_rx, allocRx_port]
  split <;> rfl

/-- R55: the transmit slots after an allocation on distinct logical ports. -/
theorem allocate_tx (s : State) (r : RowId) (c : Vector Word 8) (h : (s.row r).captured = c)
    (hn : ((destPorts c).map s.logical).Nodup) (q : PortId) :
    ((s.allocate r).port q).txOwner = if q ∈ (destPorts c).map s.logical then takeSlots (s.port q).txOwner (slotCount c) r
      else (s.port q).txOwner := by
  have hp := allocRx_port s (s.logical (sourcePort c)) (slotCount c) r
  rw [allocate_eq s r c h, allocTx_foldl s _ _ _ _ (fun q => by rw [hp]; split <;> rfl) hn, hp]
  by_cases hq : q = s.logical (sourcePort c)
  · rw [if_pos hq]
  · rw [if_neg hq]

/-! The Settlement Unit's step and the fabric's return to HALTED -/

/-- R143: the Settlement Unit's step touches its own state, the notices and the path. -/
theorem settleStep_frame (s : State) :
    s.settleStep = { s with settle := s.settleStep.settle, notice := s.settleStep.notice, path := s.settleStep.path } := by
  unfold State.settleStep
  split
  · rfl
  · split
    · rfl
    · split
      · unfold State.waitRing
        split <;> rfl
      · split <;> rfl

/-- R143: a row that waits in the Settlement Queue still waits after the step, or its record is in writing. -/
theorem settleStep_member (s : State) (r : RowId) (h : r ∈ s.settle.queue) :
    r ∈ s.settleStep.settle.queue ∨ ∃ w, s.settleStep.settle.writing = some w ∧ w.row = r := by
  unfold State.settleStep
  split
  · exact Or.inl h
  · split
    · rename_i hq
      rw [hq] at h
      cases h
    · rename_i r0 others hq
      split
      · left
        unfold State.waitRing
        split <;> exact h
      · split
        · exact Or.inl h
        · rw [hq] at h
          rcases List.mem_cons.mp h with h | h
          · exact Or.inr ⟨_, rfl, h.symm⟩
          · exact Or.inl h

/-- R37: what a possible return to HALTED changes. -/
theorem haltIfDone_frame (s : State) :
    s.haltIfDone = { s with
      fabric := if s.fabric = .stopping ∧ s.anyRow Row.isLive = false then .halted else s.fabric
      notice := s.haltIfDone.notice, path := s.haltIfDone.path } := by
  unfold State.haltIfDone
  split <;> rfl

/-! Ends and go-lives -/

/-- R43: the rows after an end by the Scheduler. -/
theorem scheduleEnd_row (s : State) (r : RowId) (reason : EndReason) (q : RowId) :
    (s.scheduleEnd r reason).row q = if q = r then (s.row r).endLive reason s.now else s.row q := by
  have h : (s.scheduleEnd r reason).rows = ((s.freeSlotsOf r).setRow r ((s.row r).endLive reason s.now)).rows := by
    unfold State.scheduleEnd
    rw [settleStep_frame]
    unfold State.endLive
    dsimp only
    rw [haltIfDone_frame]
    rfl
  rw [row_eq_of_rows h, row_setRow]
  rfl

/-- R120: the end of a test keeps every row but for what a change of carrying brings. -/
theorem proverEnd_row (s : State) (o : ProverOutcome) (r : RowId) : RowKept (s.row r) ((s.proverEnd o).row r) := by
  unfold State.proverEnd
  split
  · exact (quiet_recompose _ _).row r
  · exact RowKept.refl _

/-- R122: a preemption likewise. -/
theorem proverPreempt_row (s : State) (c : Vector Word 8) (r : RowId) :
    RowKept (s.row r) ((s.proverPreempt c).row r) := by
  unfold State.proverPreempt
  split
  · split
    · exact proverEnd_row _ _ _
    · exact RowKept.refl _
  · exact RowKept.refl _

/-- R41: what stands of the ports after a go-live: those of the allocation. -/
theorem goLiveRow_ports (s : State) (r : RowId) (late : Bool) :
    (s.goLiveRow r late).ports = ((s.proverPreempt (s.row r).captured).allocate r).ports := by
  unfold State.goLiveRow
  dsimp only
  generalize hv : ((s.proverPreempt (s.row r).captured).allocate r).setRow r
    ((((s.proverPreempt (s.row r).captured).allocate r).row r).started s.now late) = v
  have e : v.ports = ((s.proverPreempt (s.row r).captured).allocate r).ports := by
    rw [← hv]
    rfl
  rw [← e]
  have h := (reevaluate_ports v r).1
  generalize v.reevaluate r = u at *
  exact h

/-- R66: feed health depends on the ports and the active members alone. -/
theorem feedHealth_congr {s t : State} (hp : t.ports = s.ports) (ha : t.active = s.active) (c : Vector Word 8) :
    t.feedHealth c = s.feedHealth c := by
  have h : ∀ q, t.port q = s.port q := fun q => port_eq_of_ports hp q
  have hd : t.destCarrying = s.destCarrying := by
    funext q
    simp only [State.destCarrying, State.inPair, h]
    rfl
  simp only [State.feedHealth, State.sourcePath, State.rxPath, State.activePort, State.inPair, h, ha, hd]
  rfl

end Sys2Proof.Machine
end

