-- ==== Sys2Proof/Laws/Bursts.lean ====
section
/-! SUPPORT. The judgement of a write burst inside the window, as one equation. -/

namespace Sys2Proof.Machine

theorem captureStaging_path (s : State) (q : Path) (w : WinWord) (v : Word) :
    ({ s with path := q } : State).captureStaging w v = { s.captureStaging w v with path := q } := by
  unfold State.captureStaging
  split <;> first | rfl | (split <;> rfl)

theorem foldStaging_path (l : List (WinWord × Word)) : ∀ (s : State) (q : Path),
    l.foldl (fun g x => g.captureStaging x.1 x.2) { s with path := q }
      = { l.foldl (fun g x => g.captureStaging x.1 x.2) s with path := q } := by
  induction l with
  | nil => intro s q; rfl
  | cons y l ih => intro s q; simp only [List.foldl_cons]; rw [captureStaging_path, ih]

/-- R161: a burst is accepted when each named word is, with the burst's staging words in place, and it names
not both A1 and A7. -/
theorem burstOk_iff (s : State) (t : Transaction) (named : List (WinWord × Word)) :
    (s.granted t).burstOk named = true ↔
      (∀ x ∈ named, (named.foldl (fun g x => g.captureStaging x.1 x.2) s).writeOk x.1 x.2 = true)
        ∧ ¬((∃ v, (WinWord.anchor .a1, v) ∈ named) ∧ ∃ v, (WinWord.anchor .a7, v) ∈ named) := by
  have h : ∀ w, (named.any fun x => x.1 == w) = true ↔ ∃ v, (w, v) ∈ named := by
    intro w
    rw [List.any_eq_true]
    constructor
    · rintro ⟨⟨a, b⟩, hx, he⟩
      rw [beq_iff_eq] at he
      exact ⟨b, he ▸ hx⟩
    · rintro ⟨v, hv⟩
      exact ⟨_, hv, beq_self_eq_true _⟩
  unfold State.burstOk
  dsimp only
  have e : s.granted t = { s with path := (s.granted t).path } := rfl
  rw [e, foldStaging_path, Bool.and_eq_true, List.all_eq_true, Bool.not_eq_true', ← h, ← h]
  unfold hasFabricAndTime
  refine and_congr Iff.rfl ?_
  rw [← Bool.and_eq_true, Bool.not_eq_true]

theorem groupRuns_ne_nil {l : List (Nat × Word)} (h : l ≠ []) : groupRuns l ≠ [] := by
  cases l with
  | nil => exact absurd rfl h
  | cons x xs => unfold groupRuns; split <;> (try split) <;> simp

/-- R159 to R163: a write burst inside the window that crosses no boundary and enables some byte is judged whole. -/
theorem judge_burst (s : State) {a : Word} {ws : List WriteWord} (hwf : (Transaction.write a ws).wf = true)
    (hin : s.insideWindow (.write a ws) = true) (hcr : crosses (.write a ws) = false)
    (hto : touched (.write a ws) ≠ []) :
    (s.granted (.write a ws)).judge (.write a ws) =
      if (s.granted (.write a ws)).burstOk ((writtenFrom a.toNat ws).map fun x => (s.wordAt x.1, x.2)) then
        let named := (writtenFrom a.toNat ws).map fun x => (s.wordAt x.1, x.2)
        let taken := named.foldl (fun g x => g.captureWord x.1 x.2) (s.granted (.write a ws))
        let runs := groupRuns ((writtenFrom a.toNat ws).filter fun x => !(s.wordAt x.1).isAction)
        if runs = [] then (taken.takeActions (named.filter fun x => x.1.isAction)).respond .done
        else taken.setPhase (.write a ws) (.writing runs (named.filter fun x => x.1.isAction))
      else (s.granted (.write a ws)).respond .refused := by
  have hlen : 1 ≤ (Transaction.write a ws).length := by simp [Transaction.wf] at hwf; omega
  have nall : ¬ ((spanOf (.write a ws)).all fun b => !(s.granted (.write a ws)).inWindow b) = true := by
    intro hall
    rw [List.all_eq_true] at hall
    have hm : (Transaction.write a ws).addr.toNat ∈ spanOf (.write a ws) :=
      (mem_spanFrom _ _ _).mpr ⟨0, by omega, by omega⟩
    have hw : (s.granted (.write a ws)).inWindow (Transaction.write a ws).addr.toNat = true :=
      (List.all_eq_true.mp hin) _ hm
    exact absurd hw (by simpa using hall _ hm)
  have hne : writtenFrom a.toNat ws ≠ [] := by
    intro h
    apply hto
    simp [touched, h]
  show State.judgeWrite _ _ _ = _
  unfold State.judgeWrite
  dsimp only
  rw [if_neg nall, hcr, if_neg (by decide), show (Transaction.write a ws).addr = a from rfl, if_neg hne]
  rfl

end Sys2Proof.Machine
end

