-- ==== Sys2Proof/Laws/Spans.lean ====
section
/-! SUPPORT. What the work on one port can change: `PortWork` says that only the port and the notices do, and one
lemma per operation of the Span Supervisor and the Maintenance Channel says what becomes of the port. -/

namespace Sys2Proof.Machine

/-- Work on port `p` alone: the ports and the notices may change, and of the ports only `p`. -/
structure PortWork (p : PortId) (s t : State) : Prop where
  rest : t = { s with ports := t.ports, notice := t.notice, path := t.path }
  port : ∀ q, q ≠ p → t.port q = s.port q
  calm : Calm s t

theorem PortWork.refl (p : PortId) (s : State) : PortWork p s s := ⟨rfl, fun _ _ => rfl, Calm.rfl'⟩

theorem PortWork.trans {p : PortId} {s t u : State} (a : PortWork p s t) (b : PortWork p t u) : PortWork p s u where
  rest := by rw [b.rest, a.rest]
  port q h := (b.port q h).trans (a.port q h)
  calm := a.calm.trans b.calm

theorem portWork_ite {p : PortId} {s t u : State} {c : Prop} [Decidable c] (h1 : PortWork p s t)
    (h2 : PortWork p s u) : PortWork p s (if c then t else u) := by
  split
  · exact h1
  · exact h2

theorem portWork_setPort (s : State) (p : PortId) (x : Port) : PortWork p s (s.setPort p x) :=
  ⟨rfl, fun q h => by rw [port_setPort, if_neg h], calm_setPort _ _ _⟩

theorem portWork_setChannel (s : State) (p : PortId) (c : Channel) : PortWork p s (s.setChannel p c) :=
  portWork_setPort _ _ _

theorem portWork_handNotice (p : PortId) (s : State) (k : NoticeKind) (a b : Nat) (c d : Word) :
    PortWork p s (s.handNotice k a b c d) :=
  ⟨rfl, fun _ _ => rfl, calm_handNotice s k a b c d⟩

section
variable {p : PortId} {s t : State}
theorem PortWork.rows (h : PortWork p s t) : t.rows = s.rows := by rw [h.rest]
theorem PortWork.row (h : PortWork p s t) (r : RowId) : t.row r = s.row r := row_eq_of_rows h.rows r
theorem PortWork.prover (h : PortWork p s t) : t.prover = s.prover := by rw [h.rest]
theorem PortWork.active (h : PortWork p s t) : t.active = s.active := by rw [h.rest]
theorem PortWork.mem (h : PortWork p s t) : t.mem = s.mem := by rw [h.rest]
theorem PortWork.now (h : PortWork p s t) : t.now = s.now := by rw [h.rest]
theorem PortWork.fabric (h : PortWork p s t) : t.fabric = s.fabric := by rw [h.rest]
theorem PortWork.settle (h : PortWork p s t) : t.settle = s.settle := by rw [h.rest]
theorem PortWork.actionQueue (h : PortWork p s t) : t.actionQueue = s.actionQueue := by rw [h.rest]
theorem PortWork.claimed (h : PortWork p s t) : t.claimed = s.claimed := by simp only [State.claimed, h.prover]
theorem PortWork.mayCarry (h : PortWork p s t) {q : PortId} (hq : q ≠ p) : t.mayCarry q = s.mayCarry q := by
  simp only [State.mayCarry, h.port q hq, h.claimed]
end

/-! Maintenance Channel -/

theorem portWork_endCommand (s : State) (p : PortId) (c : MaintCommand) (o : MaintResult) :
    PortWork p s (s.endCommand p c o) :=
  (portWork_setChannel s p _).trans (portWork_handNotice p _ _ _ _ _ _)

/-- R102: the port after a command has ended. -/
theorem endCommand_port (s : State) (p : PortId) (c : MaintCommand) (o : MaintResult) :
    (s.endCommand p c o).port p = { s.port p with
      channel := { (s.port p).channel with outstanding := none, lastResult := o } } := by
  unfold State.endCommand
  rw [handNotice_port, port_setChannel, if_pos rfl]

theorem setChannel_port_self (s : State) (p : PortId) (c : Channel) :
    (s.setChannel p c).port p = { s.port p with channel := c } := by
  rw [port_setChannel, if_pos rfl]

/-- R101, R102: the channel after the answer run has taken an interval. -/
def Channel.takeAnswer (ch : Channel) (m : Option Message) : Channel :=
  match ch.outstanding with
  | none => ch
  | some c =>
    let x := ch.stepAnswer c m
    if 3 ≤ x.answerRun then
      if x.answerKind = some .echo then { x.latch c with outstanding := none, lastResult := .acked }
      else { x with outstanding := none, lastResult := .declined }
    else if Config.sentMax ≤ x.sent then { x with outstanding := none, lastResult := .noAnswer }
    else x

theorem portWork_takeAnswer (s : State) (p : PortId) (m : Option Message) : PortWork p s (s.takeAnswer p m) := by
  unfold State.takeAnswer
  split
  · exact PortWork.refl p s
  · exact portWork_ite (portWork_ite ((portWork_setChannel _ _ _).trans (portWork_endCommand _ _ _ _))
      ((portWork_setChannel _ _ _).trans (portWork_endCommand _ _ _ _)))
      (portWork_ite ((portWork_setChannel _ _ _).trans (portWork_endCommand _ _ _ _)) (portWork_setChannel _ _ _))

theorem takeAnswer_port (s : State) (p : PortId) (m : Option Message) :
    (s.takeAnswer p m).port p = { s.port p with channel := (s.port p).channel.takeAnswer m } := by
  unfold State.takeAnswer Channel.takeAnswer
  cases (s.port p).channel.outstanding with
  | none => rfl
  | some c =>
    dsimp only
    split
    · split
      · rw [endCommand_port, setChannel_port_self]
      · rw [endCommand_port, setChannel_port_self]
    · split
      · rw [endCommand_port, setChannel_port_self]
      · rw [setChannel_port_self]

/-- R106, R107: the channel after a verified message. -/
def Channel.takeVerified (ch : Channel) (m : Message) : Channel :=
  if m.kind = kindReport then (if m.code = ch.lastReport then ch else { ch with lastReport := m.code })
  else if m.kind = kindCommand ∧ m.code = 2 then { ch with hubCorrupting := true }
  else if m.kind = kindCommand ∧ m.code = 3 then { ch with hubCorrupting := false }
  else ch

theorem portWork_takeVerified (s : State) (p : PortId) (m : Message) : PortWork p s (s.takeVerified p m) := by
  unfold State.takeVerified
  exact portWork_ite (portWork_ite (PortWork.refl p s) ((portWork_setChannel _ _ _).trans (portWork_handNotice p _ _ _ _ _ _)))
    (portWork_ite (portWork_setChannel _ _ _) (portWork_ite (portWork_setChannel _ _ _) (PortWork.refl p s)))

theorem takeVerified_port (s : State) (p : PortId) (m : Message) :
    (s.takeVerified p m).port p = { s.port p with channel := (s.port p).channel.takeVerified m } := by
  unfold State.takeVerified Channel.takeVerified
  dsimp only
  split
  · split
    · rfl
    · rw [handNotice_port, setChannel_port_self]
  · split
    · rw [setChannel_port_self]
    · split
      · rw [setChannel_port_self]
      · rfl

/-- R105 to R107: the channel after the message run has taken an interval. -/
def Channel.takeMessage (ch : Channel) (m : Option Message) : Channel :=
  let x := ch.stepMessage m
  match m with
  | some m => if x.2 then x.1.takeVerified m else x.1
  | none => x.1

theorem portWork_takeMessage (s : State) (p : PortId) (m : Option Message) : PortWork p s (s.takeMessage p m) := by
  unfold State.takeMessage
  split
  · exact portWork_ite ((portWork_setChannel _ _ _).trans (portWork_takeVerified _ _ _)) (portWork_setChannel _ _ _)
  · exact portWork_setChannel _ _ _

theorem takeMessage_port (s : State) (p : PortId) (m : Option Message) :
    (s.takeMessage p m).port p = { s.port p with channel := (s.port p).channel.takeMessage m } := by
  unfold State.takeMessage Channel.takeMessage
  split
  · dsimp only
    split
    · rw [takeVerified_port, setChannel_port_self]
    · rw [setChannel_port_self]
  · rw [setChannel_port_self]

/-- R96, step 7 of R77: the channel after the content of a cycle event. -/
def Channel.takeContent (ch : Channel) (cls : IntervalClass) (c : LineCycle) : Channel :=
  let m := if cls.readable then some (messageOf c) else none
  (ch.takeAnswer m).takeMessage m

theorem portWork_channelContent (s : State) (p : PortId) (cls : IntervalClass) (c : LineCycle) :
    PortWork p s (s.channelContent p cls c) := by
  unfold State.channelContent
  exact portWork_ite ((portWork_takeAnswer _ _ _).trans (portWork_takeMessage _ _ _)) (PortWork.refl p s)

theorem channelContent_port (s : State) (p : PortId) (cls : IntervalClass) (c : LineCycle) :
    (s.channelContent p cls c).port p = { s.port p with
      channel := if (s.port p).link.inService then (s.port p).channel.takeContent cls c else (s.port p).channel } := by
  unfold State.channelContent Channel.takeContent
  split
  · dsimp only
    rw [takeMessage_port, takeAnswer_port]
  · rfl

/-- R109: the channel after link loss. -/
def Channel.afterLoss (ch : Channel) : Channel :=
  match ch.outstanding with
  | some _ => { ch.loseLink with outstanding := none, lastResult := .noLink }
  | none => ch.loseLink

theorem portWork_linkLoss (s : State) (p : PortId) : PortWork p s (s.linkLoss p) := by
  unfold State.linkLoss
  split
  · exact (portWork_setChannel _ _ _).trans (portWork_endCommand _ _ _ _)
  · exact portWork_setChannel _ _ _

theorem linkLoss_port (s : State) (p : PortId) :
    (s.linkLoss p).port p = { s.port p with channel := (s.port p).channel.afterLoss } := by
  unfold State.linkLoss Channel.afterLoss
  cases (s.port p).channel.outstanding with
  | some c => exact (endCommand_port _ _ _ _).trans (by rw [setChannel_port_self])
  | none => exact setChannel_port_self _ _ _

/-- R98, R99: the channel after an accepted command. -/
theorem portWork_takeCommand (s : State) (p : PortId) (c : MaintCommand) : PortWork p s (s.takeCommand p c) := by
  unfold State.takeCommand
  exact portWork_ite ((portWork_setChannel _ _ _).trans (portWork_endCommand _ _ _ _))
    (portWork_ite ((portWork_setChannel _ _ _).trans (portWork_endCommand _ _ _ _)) (portWork_setChannel _ _ _))

/-- R98, R99: an accepted command touches none of the latched set. -/
theorem takeCommand_port (s : State) (p : PortId) (c : MaintCommand) : ∃ ch,
    (s.takeCommand p c).port p = { s.port p with channel := ch } ∧ ch.loop = (s.port p).channel.loop
      ∧ ch.corrupt = (s.port p).channel.corrupt ∧ ch.hubCorrupting = (s.port p).channel.hubCorrupting := by
  unfold State.takeCommand
  dsimp only
  split
  · exact ⟨{ (s.port p).channel.accept c with outstanding := none, lastResult := .noLink },
      by rw [endCommand_port, setChannel_port_self], rfl, rfl, rfl⟩
  · split
    · exact ⟨{ (s.port p).channel.accept c with outstanding := none, lastResult := .inService },
        by rw [endCommand_port, setChannel_port_self], rfl, rfl, rfl⟩
    · exact ⟨(s.port p).channel.accept c, by rw [setChannel_port_self], rfl, rfl, rfl⟩

/-! Span Supervisor -/

theorem portWork_transition (s : State) (p : PortId) (dest : LinkState) (c : Cause) : PortWork p s (s.transition p dest c) :=
  (portWork_setPort _ _ _).trans (portWork_handNotice p _ _ _ _ _ _)

/-- R76, R78: the port after a transition. -/
theorem transition_port (s : State) (p : PortId) (dest : LinkState) (c : Cause) :
    (s.transition p dest c).port p = (s.port p).enter dest c := by
  unfold State.transition
  rw [handNotice_port, port_setPort, if_pos rfl]

/-- R76, R77 step 4: the port after the link step. -/
def Port.afterLink (o : Port) (gained lost : Bool) : Port :=
  match o.linkDecision gained lost with
  | some (dest, cause) => o.enter dest cause
  | none => o.advanceTimers

theorem portWork_linkStep (s : State) (p : PortId) (g l : Bool) : PortWork p s (s.linkStep p g l) := by
  unfold State.linkStep
  split
  · exact portWork_transition _ _ _ _
  · exact portWork_setPort _ _ _

theorem linkStep_port (s : State) (p : PortId) (g l : Bool) : (s.linkStep p g l).port p = (s.port p).afterLink g l := by
  unfold State.linkStep Port.afterLink
  cases (s.port p).linkDecision g l with
  | some d => exact transition_port _ _ _ _
  | none => exact (port_setPort _ _ _ _).trans (if_pos rfl)

theorem portWork_captureStep (s : State) (p : PortId) (old : LinkState) : PortWork p s (s.captureStep p old) := by
  unfold State.captureStep
  repeat' apply portWork_ite
  all_goals first
    | exact PortWork.refl p s
    | exact portWork_setPort _ _ _
    | exact (portWork_setPort _ _ _).trans (portWork_handNotice p _ _ _ _ _ _)

/-- R90: the capture after a link step from `old`. -/
def Port.afterCapture (o : Port) (old : LinkState) (now : Time) : Capture :=
  if o.link = old then o.capture
  else if o.link = .up then
    if o.capture.state = .waitUp then { o.capture with state := .armed }
    else if o.capture.state = .timing then
      { o.capture with state := .done, duration := captureSpan now o.capture.start }
    else o.capture
  else if o.link = .down ∧ o.capture.state = .armed then { o.capture with state := .timing, start := now }
  else if o.link = .off then { o.capture with state := .idle }
  else o.capture

theorem captureStep_port (s : State) (p : PortId) (old : LinkState) :
    (s.captureStep p old).port p = { s.port p with capture := (s.port p).afterCapture old s.now } := by
  unfold State.captureStep Port.afterCapture
  dsimp only
  repeat' split
  all_goals first
    | rfl
    | (rw [port_setPort, if_pos rfl])
    | (rw [handNotice_port, port_setPort, if_pos rfl])

theorem portWork_lossStep (s : State) (p : PortId) (old : LinkState) : PortWork p s (s.lossStep p old) := by
  unfold State.lossStep
  exact portWork_ite (portWork_linkLoss _ _) (PortWork.refl p s)

theorem lossStep_port (s : State) (p : PortId) (old : LinkState) :
    (s.lossStep p old).port p = { s.port p with
      channel := if old.inService = true ∧ (s.port p).link = .down then (s.port p).channel.afterLoss
        else (s.port p).channel } := by
  unfold State.lossStep
  split
  · rw [linkLoss_port]
  · rfl

theorem portWork_reportStatus (s : State) (p : PortId) : PortWork p s (s.reportStatus p) := by
  unfold State.reportStatus
  exact portWork_ite ((portWork_setPort _ _ _).trans (portWork_handNotice p _ _ _ _ _ _)) (PortWork.refl p s)

theorem reportStatus_port (s : State) (p : PortId) :
    (s.reportStatus p).port p = { s.port p with
      repBackup := if (s.port p).link.inService then (s.port p).backup.value else (s.port p).repBackup
      repInputLoss := if (s.port p).link.inService then (s.port p).inputLoss.value else (s.port p).repInputLoss } := by
  unfold State.reportStatus
  dsimp only
  split
  · rename_i h
    rw [handNotice_port, port_setPort, if_pos rfl, if_pos h.1, if_pos h.1]
  · rename_i h
    split
    · rename_i hl
      have hb : (s.port p).backup.value = (s.port p).repBackup := by
        apply Classical.byContradiction; intro hn; exact h ⟨hl, Or.inl hn⟩
      have hi : (s.port p).inputLoss.value = (s.port p).repInputLoss := by
        apply Classical.byContradiction; intro hn; exact h ⟨hl, Or.inr hn⟩
      rw [hb, hi]
    · rfl

/-- R78: a transition enters its state and leaves the channel and the configuration alone. -/
theorem enter_keeps (o : Port) (dest : LinkState) (c : Cause) :
    (o.enter dest c).link = dest ∧ (o.enter dest c).channel = o.channel ∧ (o.enter dest c).cfg = o.cfg := by
  unfold Port.enter
  repeat' split
  all_goals exact ⟨rfl, rfl, rfl⟩

/-- R75: the timers' advance leaves the link, the channel and the configuration alone. -/
theorem advanceTimers_keeps (o : Port) : o.advanceTimers.link = o.link ∧ o.advanceTimers.channel = o.channel
    ∧ o.advanceTimers.cfg = o.cfg := by
  unfold Port.advanceTimers
  repeat' split
  all_goals exact ⟨rfl, rfl, rfl⟩

/-- Steps 1 to 3 of R77 leave the link, the channel and the configuration alone. -/
theorem takeInterval_keeps (o : Port) (iv : Interval) : (o.takeInterval iv).link = o.link
    ∧ (o.takeInterval iv).channel = o.channel ∧ (o.takeInterval iv).cfg = o.cfg := by
  unfold Port.takeInterval Port.filterStatus Port.countInterval
  dsimp only
  split <;> exact ⟨rfl, rfl, rfl⟩

/-- R76: no link step enters OFF or happens in OFF, and one out of UP or SUSPECT stays there or goes to DOWN. -/
theorem linkDecision_target {o : Port} {g l : Bool} {dest : LinkState} {c : Cause}
    (h : o.linkDecision g l = some (dest, c)) :
    dest ≠ .off ∧ (o.link.inService = true → dest.inService = true ∨ dest = .down) ∧ o.link ≠ .off := by
  unfold Port.linkDecision at h
  split at h <;> (rename_i hl; simp only [hl]; repeat' split at h) <;>
    first | (cases h; simp [LinkState.inService]) | cases h

/-- R109: link loss empties the latched set and ends the hub's corrupting. -/
theorem afterLoss_clear (ch : Channel) : ch.afterLoss.loop = false ∧ ch.afterLoss.corrupt = false
    ∧ ch.afterLoss.hubCorrupting = false := by
  unfold Channel.afterLoss
  split <;> exact ⟨rfl, rfl, rfl⟩

/-! Line Prover -/

theorem checkRun_frame (u : Prover) : u.checkRun.running = u.running ∧ u.checkRun.port = u.port
    ∧ u.checkRun.duration = u.duration ∧ u.checkRun.outcome = u.outcome ∧ u.checkRun.elapsed = u.elapsed
    ∧ u.checkRun.lockedTime = u.lockedTime := by
  unfold Prover.checkRun
  split <;> exact ⟨rfl, rfl, rfl, rfl, rfl, rfl⟩

/-- R117, R118: the checker leaves the test's port, duration, outcome and times alone. -/
theorem check_frame (u : Prover) (cls : IntervalClass) (c : LineCycle) :
    (u.check cls c).running = u.running ∧ (u.check cls c).port = u.port ∧ (u.check cls c).duration = u.duration
      ∧ (u.check cls c).outcome = u.outcome ∧ (u.check cls c).elapsed = u.elapsed
      ∧ (u.check cls c).lockedTime = u.lockedTime := by
  unfold Prover.check
  split
  · split
    · exact checkRun_frame _
    · unfold Prover.search
      dsimp only
      split <;> exact ⟨rfl, rfl, rfl, rfl, rfl, rfl⟩
  · split
    · exact checkRun_frame _
    · exact ⟨rfl, rfl, rfl, rfl, rfl, rfl⟩

/-! The cycle event -/

/-- Steps 1 to 4 of R77 on the port. -/
def Port.linked (o : Port) (iv : Interval) : Port :=
  (o.takeInterval iv).afterLink (!o.receiver.isAligned && (o.takeInterval iv).receiver.isAligned)
    (o.receiver.isAligned && !(o.takeInterval iv).receiver.isAligned)

/-- R105, R109: the channel after step 7 of R77, from the link before the event and the port after the link step. -/
def Port.eventChannel (o : Port) (old : LinkState) (cls : IntervalClass) (c : LineCycle) : Channel :=
  if o.link.inService then
    (if old.inService = true ∧ o.link = .down then o.channel.afterLoss else o.channel).takeContent cls c
  else if old.inService = true ∧ o.link = .down then o.channel.afterLoss
  else o.channel

/-- Steps 1 to 7 of R77 on the port: what becomes of it but for its carrying flag. -/
def Port.afterEvent (o : Port) (iv : Interval) (now : Time) : Port :=
  { o.linked iv with
    window := (o.linked iv).closeWindow.window
    capture := (o.linked iv).afterCapture o.link now
    repBackup := if (o.linked iv).link.inService then (o.linked iv).backup.value else (o.linked iv).repBackup
    repInputLoss := if (o.linked iv).link.inService then (o.linked iv).inputLoss.value else (o.linked iv).repInputLoss
    rx := if (o.receive iv).2.2.received then iv.cycle.payload else idlePayload
    channel := (o.linked iv).eventChannel o.link (o.receive iv).2.2 iv.cycle }

/-- Steps 1 to 4 of R77, with what the alignment did. -/
theorem linked_eq {o : Port} {iv : Interval} {g l : Bool}
    (hg : (!o.receiver.isAligned && (o.takeInterval iv).receiver.isAligned) = g)
    (hl : (o.receiver.isAligned && !(o.takeInterval iv).receiver.isAligned) = l) :
    o.linked iv = (o.takeInterval iv).afterLink g l := by
  unfold Port.linked
  rw [hg, hl]

/-- The link step leaves the configuration, the owners and the class alone. -/
theorem afterLink_frame (o : Port) (g l : Bool) : (o.afterLink g l).cfg = o.cfg ∧ (o.afterLink g l).txOwner = o.txOwner
    ∧ (o.afterLink g l).rxOwner = o.rxOwner ∧ (o.afterLink g l).lastClass = o.lastClass
    ∧ (o.afterLink g l).channel = o.channel ∧ (o.afterLink g l).capture = o.capture := by
  unfold Port.afterLink
  split
  · unfold Port.enter
    repeat' split
    all_goals exact ⟨rfl, rfl, rfl, rfl, rfl, rfl⟩
  · unfold Port.advanceTimers
    repeat' split
    all_goals exact ⟨rfl, rfl, rfl, rfl, rfl, rfl⟩

/-- Steps 1 to 3 of R77 leave the timers, the owners, the capture and the down reason alone. -/
theorem takeInterval_frame (o : Port) (iv : Interval) : (o.takeInterval iv).tReady = o.tReady
    ∧ (o.takeInterval iv).tHold = o.tHold ∧ (o.takeInterval iv).tRestore = o.tRestore
    ∧ (o.takeInterval iv).lastDown = o.lastDown ∧ (o.takeInterval iv).capture = o.capture
    ∧ (o.takeInterval iv).txOwner = o.txOwner ∧ (o.takeInterval iv).rxOwner = o.rxOwner
    ∧ (o.takeInterval iv).window = o.window.map (fun w => w.count1 (o.receive iv).2.2.fails o.channel.corrupt) := by
  unfold Port.takeInterval Port.filterStatus Port.countInterval
  dsimp only
  split <;> exact ⟨rfl, rfl, rfl, rfl, rfl, rfl, rfl, rfl⟩

/-- The state after steps 1 to 6 of R77. -/
def State.afterReport (s : State) (p : PortId) (iv : Interval) : State :=
  let o := s.port p
  let s1 := s.setPort p (o.takeInterval iv)
  let t := s1.linkStep p (!o.receiver.isAligned && (s1.port p).receiver.isAligned)
    (o.receiver.isAligned && !(s1.port p).receiver.isAligned)
  (((t.setPort p (t.port p).closeWindow).captureStep p o.link).lossStep p o.link).reportStatus p

/-- The state after steps 1 to 7 of R77, but for what the Line Prover takes. -/
def State.beforeCarry (s : State) (p : PortId) (iv : Interval) : State :=
  let cls := ((s.port p).receive iv).2.2
  let v := s.afterReport p iv
  (v.setPort p { v.port p with rx := if cls.received then iv.cycle.payload else idlePayload }).channelContent p cls
    iv.cycle

theorem portWork_afterReport (s : State) (p : PortId) (iv : Interval) : PortWork p s (s.afterReport p iv) := by
  unfold State.afterReport
  exact ((((portWork_setPort _ _ _).trans ((portWork_linkStep _ _ _ _).trans (portWork_setPort _ _ _))).trans
    (portWork_captureStep _ _ _)).trans (portWork_lossStep _ _ _)).trans (portWork_reportStatus _ _)

theorem portWork_beforeCarry (s : State) (p : PortId) (iv : Interval) : PortWork p s (s.beforeCarry p iv) := by
  unfold State.beforeCarry
  exact ((portWork_afterReport s p iv).trans (portWork_setPort _ _ _)).trans (portWork_channelContent _ _ _ _)

theorem setPort_port_self (s : State) (p : PortId) (x : Port) : (s.setPort p x).port p = x := by
  rw [port_setPort, if_pos rfl]

theorem afterReport_port (s : State) (p : PortId) (iv : Interval) :
    (s.afterReport p iv).port p =
      { ((s.port p).linked iv).closeWindow with
        capture := ((s.port p).linked iv).closeWindow.afterCapture (s.port p).link s.now
        channel := if (s.port p).link.inService = true ∧ ((s.port p).linked iv).link = .down then
            ((s.port p).linked iv).closeWindow.channel.afterLoss
          else ((s.port p).linked iv).closeWindow.channel
        repBackup := if ((s.port p).linked iv).link.inService then ((s.port p).linked iv).backup.value
          else ((s.port p).linked iv).repBackup
        repInputLoss := if ((s.port p).linked iv).link.inService then ((s.port p).linked iv).inputLoss.value
          else ((s.port p).linked iv).repInputLoss } := by
  unfold State.afterReport
  dsimp only
  rw [setPort_port_self]
  have hn := ((portWork_setPort s p ((s.port p).takeInterval iv)).trans (portWork_linkStep _ p
    (!(s.port p).receiver.isAligned && ((s.port p).takeInterval iv).receiver.isAligned)
    ((s.port p).receiver.isAligned && !((s.port p).takeInterval iv).receiver.isAligned))).now
  have hp := linkStep_port (s.setPort p ((s.port p).takeInterval iv)) p
    (!(s.port p).receiver.isAligned && ((s.port p).takeInterval iv).receiver.isAligned)
    ((s.port p).receiver.isAligned && !((s.port p).takeInterval iv).receiver.isAligned)
  rw [setPort_port_self] at hp
  generalize (s.setPort p ((s.port p).takeInterval iv)).linkStep p
    (!(s.port p).receiver.isAligned && ((s.port p).takeInterval iv).receiver.isAligned)
    ((s.port p).receiver.isAligned && !((s.port p).takeInterval iv).receiver.isAligned) = t at hn hp
  have hl : t.port p = (s.port p).linked iv := hp
  rw [reportStatus_port, lossStep_port, captureStep_port, setPort_port_self, hl]
  show _ = _
  rw [show (t.setPort p ((s.port p).linked iv).closeWindow).now = s.now from hn]
  rfl

theorem beforeCarry_port (s : State) (p : PortId) (iv : Interval) :
    (s.beforeCarry p iv).port p = (s.port p).afterEvent iv s.now := by
  unfold State.beforeCarry
  dsimp only
  rw [channelContent_port, setPort_port_self, afterReport_port]
  rfl

/-- R77: a cycle event is steps 1 to 7 on the port, the Line Prover's content, and the carrying step. -/
theorem cycleEvent_eq (s : State) (p : PortId) (iv : Interval) (h : (s.port p).link ≠ .off) :
    s.cycleEvent p iv = ((s.beforeCarry p iv).proverContent p ((s.port p).receive iv).2.2 iv.cycle).carryStep p
      (s.port p).inputLoss.value := by
  unfold State.cycleEvent
  rw [if_neg h]
  rfl

/-- The Line Prover's content touches neither ports nor rows. -/
theorem proverContent_frame (s : State) (p : PortId) (cls : IntervalClass) (c : LineCycle) :
    s.proverContent p cls c = { s with prover := (s.proverContent p cls c).prover } := by
  unfold State.proverContent
  split <;> rfl

theorem quiet_carryStep (s : State) (p : PortId) (b : Bool) : Quiet s (s.carryStep p b) := by
  unfold State.carryStep
  exact quiet_ite (quiet_recompose _ _) (quiet_ite (quietRows_reevaluateInput _ _).quiet (Quiet.refl s))

/-- R82: after the carrying step port `p` carries what its four inputs make it. -/
theorem carryStep_port (s : State) (p : PortId) (b : Bool) (q : PortId) :
    (s.carryStep p b).port q = if q = p then { s.port p with carrying := s.mayCarry p } else s.port q := by
  unfold State.carryStep
  split
  · rw [recompose_port]
  · rename_i h
    have h' : s.mayCarry p = (s.port p).carrying := Classical.byContradiction h
    have key : ∀ t : State, t.ports = s.ports →
        t.port q = if q = p then { s.port p with carrying := s.mayCarry p } else s.port q := by
      intro t ht
      rw [port_eq_of_ports ht, h']
      split
      · rename_i hq; subst hq; rfl
      · rfl
    split
    · exact key _ (quietRows_reevaluateInput _ _).ports
    · exact key _ rfl

/-- R77: the port after a cycle event. -/
theorem cycleEvent_port (s : State) (p : PortId) (iv : Interval) (h : (s.port p).link ≠ .off) :
    (s.cycleEvent p iv).port p = { (s.port p).afterEvent iv s.now with carrying := (s.cycleEvent p iv).mayCarry p } := by
  rw [cycleEvent_eq s p iv h, (quiet_carryStep _ _ _).mayCarry, carryStep_port, if_pos rfl, proverContent_frame,
    ← beforeCarry_port]
  rfl

/-- R77: a cycle event touches no other port. -/
theorem cycleEvent_other (s : State) (p : PortId) (iv : Interval) {q : PortId} (h : q ≠ p) :
    (s.cycleEvent p iv).port q = s.port q := by
  by_cases hl : (s.port p).link = .off
  · unfold State.cycleEvent
    rw [if_pos hl]
  · rw [cycleEvent_eq s p iv hl, carryStep_port, if_neg h, proverContent_frame]
    exact (portWork_beforeCarry s p iv).port q h

/-- R77: a cycle event keeps the bookings, but for healths and two counts of LIVE rows. -/
theorem cycleEvent_row (s : State) (p : PortId) (iv : Interval) (r : RowId) :
    RowKept (s.row r) ((s.cycleEvent p iv).row r) := by
  by_cases hl : (s.port p).link = .off
  · unfold State.cycleEvent
    rw [if_pos hl]
    exact RowKept.refl _
  · rw [cycleEvent_eq s p iv hl]
    have h := (quiet_carryStep ((s.beforeCarry p iv).proverContent p ((s.port p).receive iv).2.2 iv.cycle) p
      (s.port p).inputLoss.value).row r
    have e : ((s.beforeCarry p iv).proverContent p ((s.port p).receive iv).2.2 iv.cycle).row r = s.row r := by
      rw [proverContent_frame]
      exact (portWork_beforeCarry s p iv).row r
    rw [e] at h
    exact h

/-! The configuration and the carrying flag at a cycle event -/

theorem enter_carrying (o : Port) (dest : LinkState) (cause : Cause) : (o.enter dest cause).carrying = o.carrying := by
  unfold Port.enter
  repeat' split
  all_goals rfl

/-- R77: an event leaves the port's configuration. -/
theorem afterEvent_cfg (o : Port) (iv : Interval) (now : Time) : (o.afterEvent iv now).cfg = o.cfg :=
  (afterLink_frame _ _ _).1.trans (takeInterval_keeps _ _).2.2

/-- R59: the carrying flag changes at the recomposition only, after the port's part of the event. -/
theorem afterEvent_carrying (o : Port) (iv : Interval) (now : Time) : (o.afterEvent iv now).carrying = o.carrying := by
  have h1 : ∀ (x : Port) (g l : Bool), (x.afterLink g l).carrying = x.carrying := by
    intro x g l
    unfold Port.afterLink
    split
    · exact enter_carrying _ _ _
    · unfold Port.advanceTimers
      repeat' split
      all_goals rfl
  have h2 : (o.takeInterval iv).carrying = o.carrying := by
    unfold Port.takeInterval Port.filterStatus Port.countInterval
    dsimp only
    split <;> rfl
  exact (h1 _ _ _).trans h2

end Sys2Proof.Machine
end

