-- ==== Sys2Proof/Laws/Notices.lean ====
section
/-! SUPPORT. The notices of a cycle event: how many its steps can hand, and that LINK_STATE, REMOTE_STATUS,
MAINT_RESULT and REMOTE_REPORT are handed when there is room. -/

namespace Sys2Proof.Machine

/-! Handing -/

/-- With room, a handed notice is given an index and put in writing (R171). -/
theorem handNotice_hands {s : State} (h : s.roomFor 1) (k : NoticeKind) (a b : Nat) (c d : Word) :
    s.hands (s.handNotice k a b c d) k a b c d := by
  have hr : s.notice.hasRoom = true := by
    unfold NoticeWriter.hasRoom
    exact decide_eq_true h
  refine ⟨[s.composeNotice k a b c d], s.composeNotice k a b c d, ?_, List.mem_singleton.mpr rfl, rfl, rfl, rfl, rfl⟩
  unfold State.handNotice
  simp only [hr, if_true]

/-- Work before and after a handing, in the same millisecond, keeps it handed. -/
theorem hands_within {s a b t : State} {k : NoticeKind} {x y : Nat} {c d : Word} (h : a.hands b k x y c d)
    (before : s.notice.inWriting <+: a.notice.inWriting) (now : a.now = s.now)
    (after : b.notice.inWriting <+: t.notice.inWriting) : s.hands t k x y c d := by
  obtain ⟨more, n, he, hm, h0, h1, h2, h3⟩ := h
  obtain ⟨l, hl⟩ := before
  obtain ⟨r, hr⟩ := after
  refine ⟨l ++ more ++ r, n, ?_, ?_, h0, by rw [h1, now], h2, h3⟩
  · rw [← hr, he, ← hl]
    simp only [List.append_assoc]
  · exact List.mem_append_left _ (List.mem_append_right _ hm)

/-- From `s` to `t` at most `k` notices are handed, and neither index moves. -/
structure Hands (k : Nat) (s t : State) : Prop where
  produce : t.notice.produce = s.notice.produce
  consume : t.notice.consume = s.notice.consume
  length : t.notice.inWriting.length ≤ s.notice.inWriting.length + k

theorem Hands.refl (s : State) : Hands 0 s s := ⟨rfl, rfl, Nat.le_refl _⟩

theorem Hands.trans {j k : Nat} {s t u : State} (a : Hands j s t) (b : Hands k t u) : Hands (j + k) s u :=
  ⟨b.produce.trans a.produce, b.consume.trans a.consume, by have := a.length; have := b.length; omega⟩

theorem Hands.mono {j k : Nat} {s t : State} (a : Hands j s t) (h : j ≤ k) : Hands k s t :=
  ⟨a.produce, a.consume, by have := a.length; omega⟩

theorem Hands.room {j k : Nat} {s t : State} (a : Hands j s t) (h : s.roomFor (j + k)) : t.roomFor k := by
  unfold State.roomFor at h ⊢
  rw [a.produce, a.consume]
  have := a.length
  omega

theorem hands_handNotice (s : State) (k : NoticeKind) (a b : Nat) (c d : Word) : Hands 1 s (s.handNotice k a b c d) := by
  unfold State.handNotice
  cases s.notice.hasRoom
  · exact ⟨rfl, rfl, Nat.le_succ _⟩
  · exact ⟨rfl, rfl, by simp⟩

theorem hands_ite {k : Nat} {s t u : State} {c : Prop} [Decidable c] (h1 : Hands k s t) (h2 : Hands k s u) :
    Hands k s (if c then t else u) := by
  split
  · exact h1
  · exact h2

/-! The steps of a cycle event -/

theorem hands_setPort (s : State) (p : PortId) (x : Port) : Hands 0 s (s.setPort p x) := ⟨rfl, rfl, Nat.le_refl _⟩

theorem hands_linkStep (s : State) (p : PortId) (g l : Bool) : Hands 1 s (s.linkStep p g l) := by
  unfold State.linkStep
  split
  · exact (hands_setPort _ _ _).trans (hands_handNotice _ _ _ _ _ _)
  · exact (hands_setPort _ _ _).mono (Nat.zero_le _)

theorem hands_captureStep (s : State) (p : PortId) (old : LinkState) : Hands 1 s (s.captureStep p old) := by
  unfold State.captureStep
  repeat' apply hands_ite
  all_goals first
    | exact (Hands.refl s).mono (Nat.zero_le _)
    | exact (hands_setPort _ _ _).mono (Nat.zero_le _)
    | exact (hands_setPort _ _ _).trans (hands_handNotice _ _ _ _ _ _)

theorem hands_reportStatus (s : State) (p : PortId) : Hands 1 s (s.reportStatus p) := by
  unfold State.reportStatus
  exact hands_ite ((hands_setPort _ _ _).trans (hands_handNotice _ _ _ _ _ _)) ((Hands.refl s).mono (Nat.zero_le _))

theorem hands_endCommand (s : State) (p : PortId) (c : MaintCommand) (o : MaintResult) : Hands 1 s (s.endCommand p c o) :=
  (hands_setPort _ _ _).trans (hands_handNotice _ _ _ _ _ _)

theorem hands_takeAnswer (s : State) (p : PortId) (m : Option Message) : Hands 1 s (s.takeAnswer p m) := by
  unfold State.takeAnswer
  split
  · exact (Hands.refl s).mono (Nat.zero_le _)
  · exact hands_ite (hands_ite ((hands_setPort _ _ _).trans (hands_endCommand _ _ _ _))
      ((hands_setPort _ _ _).trans (hands_endCommand _ _ _ _)))
      (hands_ite ((hands_setPort _ _ _).trans (hands_endCommand _ _ _ _)) ((hands_setPort _ _ _).mono (Nat.zero_le _)))

/-! The cycle event in stages -/

/-- The state after steps 1 to 3 of R77. -/
def State.filtered (s : State) (p : PortId) (iv : Interval) : State := s.setPort p ((s.port p).takeInterval iv)

/-- The state after step 4 of R77. -/
def State.stepped (s : State) (p : PortId) (iv : Interval) : State :=
  (s.filtered p iv).linkStep p (!(s.port p).receiver.isAligned && ((s.port p).takeInterval iv).receiver.isAligned)
    ((s.port p).receiver.isAligned && !((s.port p).takeInterval iv).receiver.isAligned)

/-- The state after step 4 of R77 with the window closed and the capture taken. -/
def State.captured (s : State) (p : PortId) (iv : Interval) : State :=
  ((s.stepped p iv).setPort p ((s.stepped p iv).port p).closeWindow).captureStep p (s.port p).link

theorem afterReport_eq (s : State) (p : PortId) (iv : Interval) :
    s.afterReport p iv = ((s.captured p iv).lossStep p (s.port p).link).reportStatus p := by
  unfold State.afterReport State.captured State.stepped State.filtered
  simp only [setPort_port_self]

theorem hands_stepped (s : State) (p : PortId) (iv : Interval) : Hands 1 s (s.stepped p iv) :=
  (hands_setPort _ _ _).trans (hands_linkStep _ _ _ _)

theorem hands_captured (s : State) (p : PortId) (iv : Interval) : Hands 2 s (s.captured p iv) :=
  ((hands_stepped s p iv).trans (hands_setPort _ _ _)).trans (hands_captureStep _ _ _)

theorem portWork_stepped (s : State) (p : PortId) (iv : Interval) : PortWork p s (s.stepped p iv) :=
  (portWork_setPort _ _ _).trans (portWork_linkStep _ _ _ _)

theorem portWork_captured (s : State) (p : PortId) (iv : Interval) : PortWork p s (s.captured p iv) :=
  ((portWork_stepped s p iv).trans (portWork_setPort _ _ _)).trans (portWork_captureStep _ _ _)

theorem stepped_port (s : State) (p : PortId) (iv : Interval) : (s.stepped p iv).port p = (s.port p).linked iv := by
  unfold State.stepped
  rw [linkStep_port, show (s.filtered p iv).port p = (s.port p).takeInterval iv from setPort_port_self _ _ _]
  rfl

/-- Out of a stage of step 4 or later nothing that is in writing leaves before the event is over. -/
theorem afterReport_cycleEvent (s : State) (p : PortId) (iv : Interval) (h : (s.port p).link ≠ .off) :
    Calm (s.afterReport p iv) (s.cycleEvent p iv) := by
  rw [cycleEvent_eq s p iv h]
  unfold State.beforeCarry
  exact (((calm_setPort _ _ _).trans (calm_channelContent _ _ _ _)).trans (calm_proverContent _ _ _ _)).trans
    (calm_carryStep _ _ _)

theorem captured_cycleEvent (s : State) (p : PortId) (iv : Interval) (h : (s.port p).link ≠ .off) :
    Calm (s.captured p iv) (s.cycleEvent p iv) := by
  have := afterReport_cycleEvent s p iv h
  rw [afterReport_eq] at this
  exact ((calm_lossStep _ _ _).trans (calm_reportStatus _ _)).trans this

/-- R76: a transition of a cycle event hands LINK_STATE. -/
theorem cycleEvent_handsLink {s : State} {p : PortId} {iv : Interval} {dest : LinkState} {cause : Cause}
    (h : ((s.port p).takeInterval iv).linkDecision
      (!(s.port p).receiver.isAligned && ((s.port p).takeInterval iv).receiver.isAligned)
      ((s.port p).receiver.isAligned && !((s.port p).takeInterval iv).receiver.isAligned) = some (dest, cause))
    (room : s.roomFor 1) :
    s.hands (s.cycleEvent p iv) .linkState p.val dest.code (BitVec.ofNat 32 (s.port p).link.code)
      (BitVec.ofNat 32 cause.code) := by
  have hoff : (s.port p).link ≠ .off := by
    have := (linkDecision_target h).2.2
    rwa [(takeInterval_keeps _ _).1] at this
  have hs : s.stepped p iv = (s.filtered p iv).transition p dest cause := by
    unfold State.stepped State.linkStep
    rw [show (s.filtered p iv).port p = (s.port p).takeInterval iv from setPort_port_self _ _ _, h]
  have hl : ((s.filtered p iv).port p).link = (s.port p).link := by
    rw [show (s.filtered p iv).port p = (s.port p).takeInterval iv from setPort_port_self _ _ _]
    exact (takeInterval_keeps _ _).1
  have hc : Calm (s.stepped p iv) (s.cycleEvent p iv) :=
    ((calm_setPort _ _ _).trans (calm_captureStep _ _ _)).trans (captured_cycleEvent s p iv hoff)
  rw [hs] at hc
  unfold State.transition at hc
  rw [hl] at hc
  exact hands_within (s := s) (handNotice_hands (s := (s.filtered p iv).setPort p _) room _ _ _ _ _) List.prefix_rfl rfl
    hc.inWriting

/-- R90: a capture that is TIMING is DONE at the entry of UP. -/
theorem captureStep_timing {u : State} {p : PortId} {old : LinkState} (was : old ≠ .up) (up : (u.port p).link = .up)
    (timing : (u.port p).capture.state = .timing) :
    ∃ o, u.captureStep p old = (u.setPort p o).handNotice .captureDone p.val 0 (timeLow (u.port p).capture.start)
      (captureSpan u.now (u.port p).capture.start) := by
  unfold State.captureStep
  dsimp only
  rw [if_neg (by rw [up]; exact Ne.symm was), if_pos up, if_neg (by rw [timing]; decide), if_pos timing]
  exact ⟨_, rfl⟩

/-- R90: a cycle event that enters UP while the capture is TIMING hands CAPTURE_DONE. -/
theorem cycleEvent_handsCapture {s : State} {p : PortId} {iv : Interval} (h : (s.port p).link ≠ .off)
    (was : (s.port p).link ≠ .up) (up : ((s.port p).linked iv).link = .up) (timing : (s.port p).capture.state = .timing)
    (room : s.roomFor 2) :
    s.hands (s.cycleEvent p iv) .captureDone p.val 0 (timeLow (s.port p).capture.start)
      (captureSpan s.now (s.port p).capture.start) := by
  have hc := captured_cycleEvent s p iv h
  have work := (portWork_stepped s p iv).trans
    (portWork_setPort (s.stepped p iv) p ((s.stepped p iv).port p).closeWindow)
  have fewer := (hands_stepped s p iv).trans
    (hands_setPort (s.stepped p iv) p ((s.stepped p iv).port p).closeWindow)
  have hp : ((s.stepped p iv).setPort p ((s.stepped p iv).port p).closeWindow).port p
      = ((s.port p).linked iv).closeWindow := by
    rw [setPort_port_self, stepped_port]
  have cap : ((s.port p).linked iv).closeWindow.capture = (s.port p).capture :=
    (afterLink_frame _ _ _).2.2.2.2.2.trans (takeInterval_frame _ _).2.2.2.2.1
  unfold State.captured at hc
  generalize (s.stepped p iv).setPort p ((s.stepped p iv).port p).closeWindow = u at *
  obtain ⟨o, e⟩ := captureStep_timing (u := u) (p := p) was (by rw [hp]; exact up) (by rw [hp, cap]; exact timing)
  rw [e, hp, cap, work.now] at hc
  exact hands_within (handNotice_hands (s := u.setPort p o) (fewer.room (k := 1) room) _ _ _ _ _) work.calm.inWriting
    work.now hc.inWriting

/-- R81: a changed pair is handed as REMOTE_STATUS when the link is then UP or SUSPECT. -/
theorem cycleEvent_handsStatus {s : State} {p : PortId} {iv : Interval} (h : (s.port p).link ≠ .off)
    (service : ((s.port p).linked iv).link.inService = true)
    (differs : ((s.port p).linked iv).backup.value ≠ ((s.port p).linked iv).repBackup
      ∨ ((s.port p).linked iv).inputLoss.value ≠ ((s.port p).linked iv).repInputLoss)
    (room : s.roomFor 3) :
    s.hands (s.cycleEvent p iv) .remoteStatus p.val
      (statusPair ((s.port p).linked iv).backup.value ((s.port p).linked iv).inputLoss.value)
      (BitVec.ofNat 32 (statusPair ((s.port p).linked iv).repBackup ((s.port p).linked iv).repInputLoss)) 0 := by
  have hp : (s.captured p iv).port p = { ((s.port p).linked iv).closeWindow with
      capture := ((s.port p).linked iv).closeWindow.afterCapture (s.port p).link s.now } := by
    unfold State.captured
    rw [captureStep_port, setPort_port_self, stepped_port]
    have hn : (s.stepped p iv).now = s.now := (portWork_stepped s p iv).now
    rw [show ((s.stepped p iv).setPort p ((s.port p).linked iv).closeWindow).now = s.now from hn]
  have hdown : ((s.port p).linked iv).link ≠ .down := by
    intro hd
    rw [hd] at service
    cases service
  have hloss : (s.captured p iv).lossStep p (s.port p).link = s.captured p iv := by
    unfold State.lossStep
    rw [if_neg]
    intro hc
    rw [hp] at hc
    exact hdown hc.2
  have hc := afterReport_cycleEvent s p iv h
  rw [afterReport_eq, hloss] at hc
  unfold State.reportStatus at hc
  rw [hp] at hc
  dsimp only at hc
  rw [if_pos ⟨service, differs⟩] at hc
  refine hands_within (handNotice_hands ?_ _ _ _ _ _) (portWork_captured s p iv).calm.inWriting
    (portWork_captured s p iv).now hc.inWriting
  exact (hands_captured s p iv).room (k := 1) room

/-- The state after step 6 of R77 has room for `k` more notices where the event had for 3 more, with the link in UP
or SUSPECT. -/
theorem afterReport_room {s : State} {p : PortId} {iv : Interval} {k : Nat}
    (service : ((s.port p).linked iv).link.inService = true) (room : s.roomFor (3 + k)) : (s.afterReport p iv).roomFor k := by
  have hloss : (s.captured p iv).lossStep p (s.port p).link = s.captured p iv := by
    unfold State.lossStep
    rw [if_neg]
    intro hc
    unfold State.captured at hc
    rw [captureStep_port, setPort_port_self, stepped_port] at hc
    have hd : ((s.port p).linked iv).link = .down := hc.2
    rw [hd] at service
    cases service
  rw [afterReport_eq, hloss]
  exact ((hands_captured s p iv).trans (hands_reportStatus _ _)).room room

/-! The Maintenance Channel's notices -/

/-- The state in which the channel takes the content (step 7 of R77). -/
def State.received (s : State) (p : PortId) (iv : Interval) : State :=
  (s.afterReport p iv).setPort p { (s.afterReport p iv).port p with
    rx := if ((s.port p).receive iv).2.2.received then iv.cycle.payload else idlePayload }

/-- With the link in UP or SUSPECT the channel comes to step 7 as it was. -/
theorem received_port {s : State} {p : PortId} {iv : Interval}
    (service : ((s.port p).linked iv).link.inService = true) :
    ((s.received p iv).port p).link = ((s.port p).linked iv).link
      ∧ ((s.received p iv).port p).channel = (s.port p).channel := by
  have hd : ((s.port p).linked iv).link ≠ .down := by
    intro h
    rw [h] at service
    cases service
  unfold State.received
  rw [setPort_port_self, afterReport_port]
  refine ⟨rfl, ?_⟩
  dsimp only
  rw [if_neg (fun h => hd h.2)]
  exact ((afterLink_frame _ _ _).2.2.2.2.1).trans (takeInterval_keeps _ _).2.1

theorem portWork_received (s : State) (p : PortId) (iv : Interval) : PortWork p s (s.received p iv) :=
  (portWork_afterReport s p iv).trans (portWork_setPort _ _ _)

/-- The message that the channel reads of an interval (R96). -/
def readMessage (iv : Interval) (cls : IntervalClass) : Option Message :=
  if cls.readable then some (messageOf iv.cycle) else none

/-- What comes after the channel's answer run in the event takes no notice out of writing. -/
theorem takeAnswer_cycleEvent {s : State} {p : PortId} {iv : Interval} (h : (s.port p).link ≠ .off)
    (service : ((s.port p).linked iv).link.inService = true) :
    Calm (((s.received p iv).takeAnswer p (readMessage iv ((s.port p).receive iv).2.2)).takeMessage p
      (readMessage iv ((s.port p).receive iv).2.2)) (s.cycleEvent p iv) := by
  have e : s.beforeCarry p iv = ((s.received p iv).takeAnswer p (readMessage iv ((s.port p).receive iv).2.2)).takeMessage p
      (readMessage iv ((s.port p).receive iv).2.2) := by
    show (s.received p iv).channelContent p _ _ = _
    unfold State.channelContent
    rw [(received_port service).1, if_pos service]
    rfl
  rw [← e, cycleEvent_eq s p iv h]
  exact (calm_proverContent _ _ _ _).trans (calm_carryStep _ _ _)

/-- R102: a command that ends hands MAINT_RESULT. -/
theorem endCommand_hands {s : State} (room : s.roomFor 1) (p : PortId) (c : MaintCommand) (o : MaintResult) :
    s.hands (s.endCommand p c o) .maintResult p.val o.code (BitVec.ofNat 32 c.code)
      (BitVec.ofNat 32 (s.port p).channel.sent) :=
  handNotice_hands (s := s.setChannel p { (s.port p).channel with outstanding := none, lastResult := o }) room _ _ _ _ _

/-- R101, R102: an answer run that reaches 3 hands MAINT_RESULT. -/
theorem cycleEvent_handsResult {s : State} {p : PortId} {iv : Interval} {c : MaintCommand} (h : (s.port p).link ≠ .off)
    (service : ((s.port p).linked iv).link.inService = true) (sent : (s.port p).channel.outstanding = some c)
    (run : 3 ≤ ((s.port p).channel.stepAnswer c (readMessage iv ((s.port p).receive iv).2.2)).answerRun)
    (room : s.roomFor 4) :
    s.hands (s.cycleEvent p iv) .maintResult p.val
      (if ((s.port p).channel.stepAnswer c (readMessage iv ((s.port p).receive iv).2.2)).answerKind = some .echo then
        MaintResult.acked.code else MaintResult.declined.code)
      (BitVec.ofNat 32 c.code)
      (BitVec.ofNat 32 ((s.port p).channel.stepAnswer c (readMessage iv ((s.port p).receive iv).2.2)).sent) := by
  have hc := (calm_takeMessage ((s.received p iv).takeAnswer p (readMessage iv ((s.port p).receive iv).2.2)) p
    (readMessage iv ((s.port p).receive iv).2.2)).trans (takeAnswer_cycleEvent h service)
  have hw := portWork_received s p iv
  have hr : (s.received p iv).roomFor 1 := afterReport_room (k := 1) service room
  unfold State.takeAnswer at hc
  rw [(received_port service).2, sent] at hc
  dsimp only at hc
  rw [if_pos run] at hc
  generalize (s.port p).channel.stepAnswer c (readMessage iv ((s.port p).receive iv).2.2) = x at hc run ⊢
  have key : ∀ (y : Channel) (o : MaintResult), y.sent = x.sent →
      Calm (((s.received p iv).setChannel p y).endCommand p c o) (s.cycleEvent p iv) →
      s.hands (s.cycleEvent p iv) .maintResult p.val o.code (BitVec.ofNat 32 c.code) (BitVec.ofNat 32 x.sent) := by
    intro y o hy hcalm
    have hh := endCommand_hands (s := (s.received p iv).setChannel p y) hr p c o
    rw [setChannel_port_self] at hh
    dsimp only at hh
    rw [hy] at hh
    exact hands_within hh hw.calm.inWriting hw.now hcalm.inWriting
  split at hc
  · rename_i hk
    rw [if_pos hk]
    exact key (x.latch c) _ (by cases c <;> rfl) hc
  · rename_i hk
    rw [if_neg hk]
    exact key x _ rfl hc

/-- R106: a verified REPORT with a new code hands REMOTE_REPORT. -/
theorem cycleEvent_handsReport {s : State} {p : PortId} {iv : Interval} {m : Message} (h : (s.port p).link ≠ .off)
    (service : ((s.port p).linked iv).link.inService = true)
    (read : (readMessage iv ((s.port p).receive iv).2.2) = some m)
    (candidate : (s.port p).channel.candidate = some m) (run : (s.port p).channel.messageRun = 2)
    (report : m.kind = kindReport) (new : m.code ≠ (s.port p).channel.lastReport) (room : s.roomFor 5) :
    s.hands (s.cycleEvent p iv) .remoteReport p.val m.code.toNat ((s.port p).channel.lastReport.setWidth 32) 0 := by
  have hc := takeAnswer_cycleEvent h service
  have hw := (portWork_received s p iv).trans (portWork_takeAnswer (s.received p iv) p
    (readMessage iv ((s.port p).receive iv).2.2))
  have hr : ((s.received p iv).takeAnswer p (readMessage iv ((s.port p).receive iv).2.2)).roomFor 1 :=
    (hands_takeAnswer _ _ _).room (k := 1) (show (s.received p iv).roomFor 2 from afterReport_room (k := 2) service room)
  have hp := takeAnswer_port (s.received p iv) p (readMessage iv ((s.port p).receive iv).2.2)
  rw [(received_port service).2] at hp
  have hk : ∀ x, ((s.port p).channel.takeAnswer x).candidate = (s.port p).channel.candidate
      ∧ ((s.port p).channel.takeAnswer x).messageRun = (s.port p).channel.messageRun
      ∧ ((s.port p).channel.takeAnswer x).lastReport = (s.port p).channel.lastReport := by
    intro x
    generalize (s.port p).channel = ch
    have hs : ∀ c, (ch.stepAnswer c x).candidate = ch.candidate ∧ (ch.stepAnswer c x).messageRun = ch.messageRun
        ∧ (ch.stepAnswer c x).lastReport = ch.lastReport := by
      intro c
      unfold Channel.stepAnswer
      repeat' split
      all_goals exact ⟨rfl, rfl, rfl⟩
    have hl : ∀ (y : Channel) c, (y.latch c).candidate = y.candidate ∧ (y.latch c).messageRun = y.messageRun
        ∧ (y.latch c).lastReport = y.lastReport := by
      intro y c
      cases c <;> exact ⟨rfl, rfl, rfl⟩
    unfold Channel.takeAnswer
    split
    · exact ⟨rfl, rfl, rfl⟩
    · rename_i c _
      dsimp only
      repeat' split
      · exact ⟨(hl _ c).1.trans (hs c).1, (hl _ c).2.1.trans (hs c).2.1, (hl _ c).2.2.trans (hs c).2.2⟩
      · exact hs c
      · exact hs c
      · exact hs c
  have hch : (((s.received p iv).takeAnswer p (readMessage iv ((s.port p).receive iv).2.2)).port p).channel
      = (s.port p).channel.takeAnswer (readMessage iv ((s.port p).receive iv).2.2) := by rw [hp]
  generalize (s.received p iv).takeAnswer p (readMessage iv ((s.port p).receive iv).2.2) = u at hc hw hr hch
  rw [read] at hc
  have h1 := (hk (readMessage iv ((s.port p).receive iv).2.2)).1
  have h2 := (hk (readMessage iv ((s.port p).receive iv).2.2)).2.1
  have h3 := (hk (readMessage iv ((s.port p).receive iv).2.2)).2.2
  rw [← hch] at h1 h2 h3
  unfold State.takeMessage Channel.stepMessage at hc
  simp only [h1, candidate, h2, run, if_true] at hc
  unfold State.takeVerified at hc
  rw [setChannel_port_self] at hc
  dsimp only at hc
  rw [h3, if_pos report, if_neg new] at hc
  exact hands_within (handNotice_hands hr _ _ _ _ _) hw.calm.inWriting hw.now hc.inWriting

end Sys2Proof.Machine
end

