-- ==== Sys2Proof/Laws/Carrying.lean ====
section
/-! SUPPORT. What a change of a carrying flag does in the Cross-Connect (R60 to R63, R67): the rows re-evaluated, the
switchover or the block, and their notices. -/

namespace Sys2Proof.Machine

/-! Re-evaluation of rows in turn (R67) -/

/-- R67, R128: the row after a re-evaluation that finds health `h`. -/
def Row.reheld (x : Row) (h : Health) : Row := if x.state = .live ∧ h ≠ x.health then x.setHealth h else x

theorem reevaluate_row (s : State) (r q : RowId) : (s.reevaluate r).row q
    = if q = r then (s.row r).reheld (s.feedHealth (s.row r).captured) else s.row q := by
  rw [reevaluate_eq]
  unfold Row.reheld
  by_cases hq : q = r
  · subst hq
    rw [if_pos rfl]
    split
    · rw [handNotice_row, row_setRow, if_pos rfl]
    · rfl
  · rw [if_neg hq]
    split
    · rw [handNotice_row, row_setRow, if_neg hq]
    · rfl

/-- R66: the row's source path depends on the configurations and the active members alone. -/
theorem sourcePath_congr {s t : State} (hp : t.ports = s.ports) (ha : t.active = s.active) (c : Vector Word 8) :
    t.sourcePath c = s.sourcePath c := by
  have h : ∀ q, t.port q = s.port q := fun q => port_eq_of_ports hp q
  simp only [State.sourcePath, State.rxPath, State.activePort, State.inPair, h, ha]
  rfl

/-- From `s` to `t` the rows of `D` are re-evaluated, each against the ports and members of `s`. -/
structure Reevaluated (D : RowId → Prop) (s t : State) : Prop where
  kept : QuietRows s t
  row : ∀ r, D r → t.row r = (s.row r).reheld (s.feedHealth (s.row r).captured)
  other : ∀ r, ¬D r → t.row r = s.row r
  hands : ∀ r, D r → (s.row r).state = .live → s.feedHealth (s.row r).captured ≠ (s.row r).health → t.roomFor 1 →
    s.hands t .feedHealth r.val (s.feedHealth (s.row r).captured).code (BitVec.ofNat 32 (s.row r).health.code)
      (BitVec.ofNat 32 (s.sourcePath (s.row r).captured).val)

theorem reevaluated_forRows {D : RowId → State → Prop} [∀ r s, Decidable (D r s)]
    (hD : ∀ r s t, QuietRows s t → (D r t ↔ D r s)) (s : State) :
    Reevaluated (fun r => D r s) s (s.forRows fun r s => if D r s then s.reevaluate r else s) := by
  have kept : ∀ (l : List RowId) (u : State),
      QuietRows u (l.foldl (fun s r => if D r s then s.reevaluate r else s) u) := by
    intro l
    induction l with
    | nil => exact fun u => QuietRows.refl u
    | cons r l ih =>
      exact fun u => (quietRows_ite (quietRows_reevaluate u r) (QuietRows.refl u)).trans (ih _)
  have rows : ∀ (l : List RowId) (u : State), (∀ q, q ∉ l →
      (l.foldl (fun s r => if D r s then s.reevaluate r else s) u).row q = u.row q) := by
    intro l
    induction l with
    | nil => exact fun u q _ => rfl
    | cons r l ih =>
      intro u q hq
      rw [List.mem_cons, not_or] at hq
      rw [List.foldl_cons, ih _ q hq.2]
      split
      · rw [reevaluate_row, if_neg hq.1]
      · rfl
  have main : ∀ (l : List RowId), l.Nodup → ∀ u : State, QuietRows s u → (∀ q, q ∈ l → u.row q = s.row q) → ∀ q, q ∈ l →
      (D q s → (l.foldl (fun s r => if D r s then s.reevaluate r else s) u).row q
          = (s.row q).reheld (s.feedHealth (s.row q).captured))
        ∧ (¬D q s → (l.foldl (fun s r => if D r s then s.reevaluate r else s) u).row q = s.row q)
        ∧ (D q s → (s.row q).state = .live → s.feedHealth (s.row q).captured ≠ (s.row q).health →
          (l.foldl (fun s r => if D r s then s.reevaluate r else s) u).roomFor 1 →
          s.hands (l.foldl (fun s r => if D r s then s.reevaluate r else s) u) .feedHealth q.val
            (s.feedHealth (s.row q).captured).code (BitVec.ofNat 32 (s.row q).health.code)
            (BitVec.ofNat 32 (s.sourcePath (s.row q).captured).val)) := by
    intro l
    induction l with
    | nil => intro _ _ _ _ q hq; cases hq
    | cons r l ih =>
      intro hn u hu hrow q hq
      rw [List.nodup_cons] at hn
      rw [List.foldl_cons]
      rcases List.mem_cons.mp hq with rfl | hq
      · rw [rows l _ q hn.1]
        have hd := hD q s u hu
        have hx := hrow q hq
        have hf := feedHealth_congr hu.ports hu.active (s.row q).captured
        refine ⟨fun h => ?_, fun h => ?_, fun h hl hne room => ?_⟩
        · rw [if_pos (hd.mpr h), reevaluate_row, if_pos rfl, hx, hf]
        · rw [if_neg (fun h' => h (hd.mp h')), hx]
        · rw [if_pos (hd.mpr h)] at room ⊢
          have hc := (kept l (u.reevaluate q)).quiet.calm
          have hr := (calm_reevaluate u q).room (hc.room room)
          rw [reevaluate_eq, hx, hf, if_pos ⟨hl, hne⟩, sourcePath_congr hu.ports hu.active] at hc ⊢
          exact hands_within (handNotice_hands (s := u.setRow q _) hr _ _ _ _ _) hu.quiet.calm.inWriting
            hu.quiet.now hc.inWriting
      · have hqr : q ≠ r := fun h => hn.1 (h ▸ hq)
        refine ih hn.2 _ (hu.trans (quietRows_ite (quietRows_reevaluate u r) (QuietRows.refl u))) (fun p hp => ?_) q hq
        have hpr : p ≠ r := fun h => hn.1 (h ▸ hp)
        rw [← hrow p (List.mem_cons_of_mem _ hp)]
        split
        · rw [reevaluate_row, if_neg hpr]
        · rfl
  have h := main _ (List.nodup_finRange 256) s (QuietRows.refl s) (fun _ _ => rfl)
  exact ⟨kept _ s, fun r => (h r (List.mem_finRange r)).1, fun r => (h r (List.mem_finRange r)).2.1,
    fun r => (h r (List.mem_finRange r)).2.2⟩

theorem QuietRows.captured {s t : State} (h : QuietRows s t) (r : RowId) : (t.row r).captured = (s.row r).captured :=
  (h.quiet.row r).captured

/-- R60 step 2. -/
theorem reevaluated_users (s : State) (l : PortId) :
    Reevaluated (fun r => s.uses (s.row r).captured l = true) s (s.reevaluateUsers l) :=
  reevaluated_forRows (D := fun r s => s.uses (s.row r).captured l = true)
    (fun r s t h => by rw [h.captured, h.quiet.uses]) s

/-- R63, R64: the rows sourced on a logical port. -/
theorem reevaluated_sourced (s : State) (l : PortId) :
    Reevaluated (fun r => s.usesRx (s.row r).captured l = true) s (s.reevaluateSourced l) :=
  reevaluated_forRows (D := fun r s => s.usesRx (s.row r).captured l = true)
    (fun r s t h => by rw [h.captured, h.quiet.usesRx]) s

/-- R67, R82: the rows whose source path is a physical port. -/
theorem reevaluated_input (s : State) (p : PortId) :
    Reevaluated (fun r => s.sourcePath (s.row r).captured = p) s (s.reevaluateInput p) :=
  reevaluated_forRows (D := fun r s => s.sourcePath (s.row r).captured = p)
    (fun r s t h => by rw [h.captured, sourcePath_congr h.ports h.active]) s

/-! Receive selection at a change of carrying (R61, R62) -/

/-- R61: between `s` and `t` the active member of the pair of `p` gives way to its partner. -/
def switchedOver (s t : State) (p : PortId) : Bool :=
  s.inPair p && !(t.port (memberPort (pairOf p) s.active[pairOf p])).carrying
    && (t.port (memberPort (pairOf p) s.active[pairOf p].other)).carrying

/-- R62: between `s` and `t` the active member `p` stops, and its partner does not carry. -/
def selectionBlocked (s t : State) (p : PortId) : Bool :=
  s.inPair p && !(t.port (memberPort (pairOf p) s.active[pairOf p])).carrying
    && !(t.port (memberPort (pairOf p) s.active[pairOf p].other)).carrying
    && memberPort (pairOf p) s.active[pairOf p] == p

theorem selectAtChange_eq (s : State) (p : PortId) : s.selectAtChange p
    = if switchedOver s s p = true then s.switchover (pairOf p) s.active[pairOf p].other .automatic
      else if selectionBlocked s s p = true then s.blocked (pairOf p) else s := by
  unfold State.selectAtChange State.selectReceive switchedOver selectionBlocked
  dsimp only
  rw [show s.activePort (pairOf p) = memberPort (pairOf p) s.active[pairOf p] from rfl]
  cases s.inPair p
  · simp
  · cases (s.port (memberPort (pairOf p) s.active[pairOf p])).carrying
    · cases (s.port (memberPort (pairOf p) s.active[pairOf p].other)).carrying
      · cases hm : (memberPort (pairOf p) s.active[pairOf p] == p) <;> simp
      · simp
    · simp

theorem selectAtChange_switches {s : State} {p : PortId} (h : switchedOver s s p = true) :
    s.selectAtChange p = s.switchover (pairOf p) s.active[pairOf p].other .automatic := by
  rw [selectAtChange_eq, if_pos h]

theorem selectAtChange_blocks {s : State} {p : PortId} (h : selectionBlocked s s p = true) :
    s.selectAtChange p = s.blocked (pairOf p) := by
  have hn : ¬switchedOver s s p = true := by
    intro hs
    simp only [switchedOver, selectionBlocked, Bool.and_eq_true, Bool.not_eq_true'] at h hs
    rw [hs.2] at h
    exact absurd h.1.2 (by decide)
  rw [selectAtChange_eq, if_neg hn, if_pos h]

/-- R63: the number of rows that a switchover of logical port `l` counts (log 29). -/
def State.switchCounted (s : State) (l : PortId) : Nat :=
  s.rows.toList.countP fun x => s.countsSwitch l x && x.meter.switchCount != BitVec.allOnes 16

theorem switchover_hands {s : State} (room : s.roomFor 1) (k : PairId) (m : Member) (c : SwitchCause) :
    s.hands (s.switchover k m c) .switchover (evenPort k).val m.code (BitVec.ofNat 32 c.code)
      (BitVec.ofNat 32 (s.switchCounted (evenPort k))) :=
  handNotice_hands (s := { s with
    active := s.active.set k m
    rows := vecMap (fun x => if s.countsSwitch (evenPort k) x then x.countSwitch else x) s.rows }) room _ _ _ _ _

/-- What a change of the carrying flag of port `p` does between `s` and `t`, which both name ports, rows and members
as they stand outside the event (R60). -/
structure CarryingTaken (p : PortId) (s t : State) : Prop where
  active : t.active = if switchedOver s t p = true then s.active.set (pairOf p) s.active[pairOf p].other else s.active
  switchover : switchedOver s t p = true → t.roomFor 1 →
    s.hands t .switchover (evenPort (pairOf p)).val s.active[pairOf p].other.code (BitVec.ofNat 32 1)
      (BitVec.ofNat 32 (s.switchCounted (evenPort (pairOf p))))
  blocked : selectionBlocked s t p = true → t.roomFor 1 →
    s.hands t .switchoverBlocked (evenPort (pairOf p)).val s.active[pairOf p].code
      (BitVec.ofNat 32 (s.liveSourced (evenPort (pairOf p)))) 0
  row : ∀ r, t.row r = (if switchedOver s t p && s.countsSwitch (evenPort (pairOf p)) (s.row r) then (s.row r).countSwitch
      else s.row r).reheld (if s.uses (s.row r).captured (s.logical p) = true then t.feedHealth (s.row r).captured
        else (s.row r).health)
  feedHealth : ∀ r, s.uses (s.row r).captured (s.logical p) = true → (s.row r).state = .live →
    t.feedHealth (s.row r).captured ≠ (s.row r).health → t.roomFor 1 →
    s.hands t .feedHealth r.val (t.feedHealth (s.row r).captured).code (BitVec.ofNat 32 (s.row r).health.code)
      (BitVec.ofNat 32 (t.sourcePath (s.row r).captured).val)

theorem switchedOver_congr {s s' t t' : State} {p : PortId} (hc : ∀ q, (s'.port q).cfg = (s.port q).cfg)
    (ha : s'.active = s.active) (ht : ∀ q, (t'.port q).carrying = (t.port q).carrying) :
    switchedOver s' t' p = switchedOver s t p ∧ selectionBlocked s' t' p = selectionBlocked s t p := by
  simp only [switchedOver, selectionBlocked, State.inPair, hc, ha, ht]
  exact ⟨trivial, trivial⟩

/-- R60: the event seen in the Cross-Connect, on a state whose flag of `p` has changed. -/
theorem carryingTaken_changed (s : State) (p : PortId) : CarryingTaken p s (s.carryingChanged p) := by
  have hre : Reevaluated (fun r => (s.selectAtChange p).uses ((s.selectAtChange p).row r).captured (s.logical p) = true)
      (s.selectAtChange p) (s.carryingChanged p) := reevaluated_users (s.selectAtChange p) (s.logical p)
  have hq := quiet_selectAtChange s p
  have hports : (s.carryingChanged p).ports = s.ports := carryingChanged_ports s p
  have hcar : ∀ q, ((s.carryingChanged p).port q).carrying = (s.port q).carrying := fun q => by
    rw [port_eq_of_ports hports]
  have hsw := switchedOver_congr (p := p) (fun _ => rfl) rfl hcar (s := s)
  have hact : (s.carryingChanged p).active = (s.selectAtChange p).active := hre.kept.active
  have hfh : ∀ w, (s.carryingChanged p).feedHealth w = (s.selectAtChange p).feedHealth w :=
    fun w => feedHealth_congr hre.kept.ports hact w
  have hsp : ∀ w, (s.carryingChanged p).sourcePath w = (s.selectAtChange p).sourcePath w :=
    fun w => sourcePath_congr hre.kept.ports hact w
  have hcap : ∀ r, ((s.selectAtChange p).row r).captured = (s.row r).captured := fun r => (hq.row r).captured
  have hrow : ∀ r, (s.selectAtChange p).row r
      = if switchedOver s s p && s.countsSwitch (evenPort (pairOf p)) (s.row r) then (s.row r).countSwitch else s.row r := by
    intro r
    rw [selectAtChange_eq]
    cases h : switchedOver s s p
    · simp only [Bool.false_and, Bool.false_eq_true, if_false]
      split <;> rfl
    · rw [if_pos rfl, switchover_row]
      simp only [Bool.true_and]
  have hpre : (s.selectAtChange p).notice.inWriting <+: (s.carryingChanged p).notice.inWriting :=
    hre.kept.quiet.calm.inWriting
  have hcalm : Calm s (s.carryingChanged p) := calm_carryingChanged s p
  have hroom : (s.carryingChanged p).roomFor 1 → s.roomFor 1 := fun room => hcalm.room room
  have hhealth : ∀ r, ((s.selectAtChange p).row r).health = (s.row r).health
      ∧ ((s.selectAtChange p).row r).state = (s.row r).state := by
    intro r
    rw [hrow]
    split <;> exact ⟨rfl, rfl⟩
  refine ⟨?_, ?_, ?_, ?_, ?_⟩
  · rw [hsw.1, hact, selectAtChange_eq]
    split
    · rfl
    · split <;> rfl
  · intro h room
    rw [hsw.1] at h
    rw [selectAtChange_switches h] at hpre
    exact hands_within (switchover_hands (hroom room) (pairOf p) _ .automatic) List.prefix_rfl rfl hpre
  · intro h room
    rw [hsw.2] at h
    rw [selectAtChange_blocks h] at hpre
    exact hands_within (handNotice_hands (hroom room) _ _ _ _ _) List.prefix_rfl rfl hpre
  · intro r
    rw [hsw.1, ← hrow]
    by_cases hu : s.uses (s.row r).captured (s.logical p) = true
    · rw [if_pos hu, hfh, ← hcap r]
      exact hre.row r (by rw [hcap, hq.uses]; exact hu)
    · rw [if_neg hu]
      have := hre.other r (by rw [hcap, hq.uses]; exact hu)
      unfold Row.reheld
      rw [if_neg (fun h => h.2 (hhealth r).1.symm)]
      exact this
  · intro r hu hl hne room
    rw [hfh] at hne ⊢
    rw [hsp]
    have hh : (s.selectAtChange p).hands (s.carryingChanged p) .feedHealth r.val _ _ _ :=
      hre.hands r (by rw [hcap, hq.uses]; exact hu) (by rw [(hhealth r).2]; exact hl)
        (by rw [hcap, (hhealth r).1]; exact hne) room
    rw [hcap, (hhealth r).1] at hh
    exact hands_within hh hq.calm.inWriting hq.now List.prefix_rfl

/-- The event seen from a state before it and one after it that agree with it on what it names. -/
theorem CarryingTaken.within {p : PortId} {s a b t : State} (h : CarryingTaken p a b) (rows : a.rows = s.rows)
    (active : a.active = s.active) (cfg : ∀ q, (a.port q).cfg = (s.port q).cfg) (now : a.now = s.now)
    (before : s.notice.inWriting <+: a.notice.inWriting) (after : t.notice = b.notice) (rows' : t.rows = b.rows)
    (active' : t.active = b.active) (ports' : t.ports = b.ports) : CarryingTaken p s t := by
  have hr : ∀ q, a.row q = s.row q := fun q => row_eq_of_rows rows q
  have hr' : ∀ q, t.row q = b.row q := fun q => row_eq_of_rows rows' q
  have hin : ∀ q, a.inPair q = s.inPair q := fun q => by simp only [State.inPair, cfg]
  have hl : ∀ q, a.logical q = s.logical q := fun q => by simp only [State.logical, hin]
  have hu : ∀ w q, a.uses w q = s.uses w q := fun w q => by simp only [State.uses, State.usesRx, State.usesTx, hl]
  have hrx : ∀ w q, a.usesRx w q = s.usesRx w q := fun w q => by simp only [State.usesRx, hl]
  have hk : ∀ q x, a.countsSwitch q x = s.countsSwitch q x := fun q x => by simp only [State.countsSwitch, hrx]
  have hcount : ∀ q, a.switchCounted q = s.switchCounted q := fun q => by
    unfold State.switchCounted
    simp only [rows, hk]
  have hlive : ∀ q, a.liveSourced q = s.liveSourced q := fun q => by
    unfold State.liveSourced
    simp only [rows, hrx]
  have hsw := switchedOver_congr (s := s) (s' := a) (t := t) (t' := b) (p := p) cfg active
    (fun q => by rw [port_eq_of_ports ports'])
  have hfh : ∀ w, t.feedHealth w = b.feedHealth w := fun w => feedHealth_congr ports' active' w
  have hsp : ∀ w, t.sourcePath w = b.sourcePath w := fun w => sourcePath_congr ports' active' w
  have hroom : t.roomFor 1 → b.roomFor 1 := by unfold State.roomFor; rw [after]; exact id
  have hpre : b.notice.inWriting <+: t.notice.inWriting := after ▸ List.prefix_rfl
  have hh : ∀ {k x y c d}, a.hands b k x y c d → s.hands t k x y c d := fun h => hands_within h before now hpre
  refine ⟨?_, fun h1 h2 => ?_, fun h1 h2 => ?_, fun r => ?_, fun r h1 h2 h3 h4 => ?_⟩
  · rw [active', h.active, hsw.1, active]
  · have := h.switchover (hsw.1.trans h1) (hroom h2)
    rw [active, hcount] at this
    exact hh this
  · have := h.blocked (hsw.2.trans h1) (hroom h2)
    rw [active, hlive] at this
    exact hh this
  · have := h.row r
    rw [hr', this, hsw.1, hr, hk, hu, hl, hfh]
  · rw [hfh] at h3 ⊢
    have := h.feedHealth r (by rw [hu, hl, hr]; exact h1) (by rw [hr]; exact h2) (by rw [hr]; exact h3) (hroom h4)
    rw [hr] at this
    rw [hsp]
    exact hh this

/-- R59, R60: a recomposition that changes the flag. -/
theorem carryingTaken_recompose {s : State} {p : PortId} (h : ((s.recompose p).port p).carrying ≠ (s.port p).carrying) :
    CarryingTaken p s (s.recompose p) := by
  have hne : s.mayCarry p ≠ (s.port p).carrying := fun he => h (by rw [recompose_idle he])
  have e : s.recompose p = (s.setPort p { s.port p with carrying := s.mayCarry p }).carryingChanged p := by
    rw [State.recompose, if_neg hne]
  have := carryingTaken_changed (s.setPort p { s.port p with carrying := s.mayCarry p }) p
  rw [← e] at this
  refine this.within rfl rfl (fun q => ?_) rfl List.prefix_rfl rfl rfl rfl rfl
  exact (quiet_carrying s p _).cfg q

/-! Feed health and its change (R66, R67, R128) -/

/-- R66: the table of feed health, over the source path's flag, the destinations' flags and the source's INPUT_LOSS. -/
theorem feedHealth_table (s : State) (w : Vector Word 8) (path : Bool) (dest : PortId → Bool) (loss : Bool)
    (hp : path = (s.port (s.sourcePath w)).carrying) (hd : dest = s.destCarrying)
    (hl : loss = (s.port (s.sourcePath w)).inputLoss.value) :
    (s.feedHealth w = .lost ↔ path = false ∨ ∀ d ∈ destPorts w, ¬dest d = true)
      ∧ (s.feedHealth w = .partialFeed ↔ path = true ∧ (∃ d ∈ destPorts w, dest d = true)
          ∧ ∃ d ∈ destPorts w, ¬dest d = true)
      ∧ (s.feedHealth w = .silent ↔ path = true ∧ (∃ d ∈ destPorts w, dest d = true)
          ∧ (∀ d ∈ destPorts w, dest d = true) ∧ loss = true)
      ∧ (s.feedHealth w = .healthy ↔ path = true ∧ (∃ d ∈ destPorts w, dest d = true)
          ∧ (∀ d ∈ destPorts w, dest d = true) ∧ loss = false) := by
  have some' : (∃ d ∈ destPorts w, dest d = true) ↔ (destPorts w).any dest = true := by rw [List.any_eq_true]
  have all' : (∀ d ∈ destPorts w, dest d = true) ↔ (destPorts w).all dest = true := by rw [List.all_eq_true]
  have no' : (∀ d ∈ destPorts w, ¬dest d = true) ↔ (destPorts w).any dest = false := by rw [List.any_eq_false]
  have not' : (∃ d ∈ destPorts w, ¬dest d = true) ↔ (destPorts w).all dest = false := by rw [List.all_eq_false]
  rw [no', some', all', not']
  unfold State.feedHealth
  rw [← hp, ← hd, ← hl]
  cases path <;> cases (destPorts w).any dest <;> cases (destPorts w).all dest <;> cases loss <;> simp

/-- Counting the rows of a state is counting row numbers. -/
theorem countP_rows (s : State) (f : Row → Bool) :
    s.rows.toList.countP f = (List.finRange 256).countP fun r => f (s.row r) := by
  have h : s.rows.toList = (List.finRange 256).map s.row := by
    apply List.ext_getElem
    · simp
    · intro i h1 h2
      simp [State.row]
  rw [h, List.countP_map]
  rfl

/-- R128: an outage is counted where the gate goes from open to closed. -/
theorem setHealth_eq (x : Row) (h : Health) : x.setHealth h = { x with
    health := h
    meter := { x.meter with
      outageCount :=
        if (x.health = .healthy ∨ x.health = .silent) ∧ (h = .partialFeed ∨ h = .lost) then satInc x.meter.outageCount
        else x.meter.outageCount } } := by
  unfold Row.setHealth
  rcases x with ⟨_, _, _, _, _, _, _, _, _, _, _, _, was, _, _⟩
  cases was <;> cases h <;> rfl

/-- R67: a LIVE row re-evaluated, whether its health changes or not. -/
theorem reheld_live {x : Row} (h : Health) (hl : x.state = .live) : x.reheld h = { x with
    health := h
    meter := { x.meter with
      outageCount :=
        if (x.health = .healthy ∨ x.health = .silent) ∧ (h = .partialFeed ∨ h = .lost) then satInc x.meter.outageCount
        else x.meter.outageCount } } := by
  unfold Row.reheld
  by_cases he : h = x.health
  · rw [if_neg (fun hn => hn.2 he)]
    subst he
    rcases x with ⟨_, _, _, _, _, _, _, _, _, _, _, _, was, _, _⟩
    cases was <;> simp
  · rw [if_pos ⟨hl, he⟩, setHealth_eq]

/-! Selection by command and by pair mode (R53, R64) -/

/-- R64: a SELECT of member `m` of the pair of `p`. -/
theorem takeSelect_pair (s : State) {p : PortId} {k : PairId} {v : Word} {m : Member} (hk : k = pairOf p)
    (hv : memberOf v = some m) : s.takeSelect p v =
      if s.inPair p = true ∧ s.active[k] ≠ m ∧ (s.port (memberPort k m)).carrying = true then
        (s.switchover k m .select).reevaluateSourced (evenPort k)
      else s := by
  subst hk
  unfold State.takeSelect
  rw [hv]

/-- R53: pair mode turned on selects the even member, or the odd one where only that carries. -/
theorem pairOn_selects (s : State) (p : PortId) (k : PairId) (hk : pairOf p = k) :
    (s.pairOn p).ports = s.ports ∧ (s.pairOn p).mem = s.mem
      ∧ (s.pairOn p).active = s.active.set k (if (s.port (evenPort k)).carrying = false
          ∧ (s.port (oddPort k)).carrying = true then .odd else .even)
      ∧ ((∀ r, s.countsSwitch (evenPort k) (s.row r) = false) → (s.pairOn p).rows = s.rows
        ∧ ((s.port (evenPort k)).carrying = false → (s.port (oddPort k)).carrying = true → s.roomFor 1 →
          s.hands (s.pairOn p) .switchover (evenPort k).val 1 1 0)) := by
  have e : s.pairOn p = ({ s with active := s.active.set k .even } : State).selectReceive k := by
    subst hk
    rfl
  generalize hu : ({ s with active := s.active.set k .even } : State) = u at e
  have ha : u.active[k] = .even := by rw [← hu]; simp
  have hap : u.activePort k = evenPort k := by
    unfold State.activePort
    rw [ha]
    rfl
  have hp : ∀ q, u.port q = s.port q := fun q => by rw [← hu]; rfl
  have sel : u.selectReceive k = if (s.port (evenPort k)).carrying = false ∧ (s.port (oddPort k)).carrying = true then
      u.switchover k .odd .automatic else u := by
    unfold State.selectReceive
    dsimp only
    rw [hap, ha, show Member.even.other = .odd from rfl, show memberPort k .odd = oddPort k from rfl, hp, hp]
    simp only [Bool.and_eq_true, Bool.not_eq_true']
  rw [e, sel]
  split
  · refine ⟨by show u.ports = _; rw [← hu], by show u.mem = _; rw [← hu], ?_, fun hn => ⟨?_, fun _ _ room => ?_⟩⟩
    · show u.active.set k .odd = _
      rw [← hu]
      apply Vector.ext
      intro i hi
      simp only [Vector.getElem_set]
      split <;> rfl
    · have hrow : ∀ q, (u.switchover k .odd .automatic).row q = s.row q := by
        intro q
        rw [switchover_row, show u.countsSwitch (evenPort k) (u.row q) = false by rw [← hu]; exact hn q, ← hu]
        rfl
      apply Vector.ext
      intro i hi
      exact hrow ⟨i, hi⟩
    · have hz : u.switchCounted (evenPort k) = 0 := by
        unfold State.switchCounted
        rw [countP_rows, List.countP_eq_zero]
        intro r _
        rw [show u.countsSwitch (evenPort k) (u.row r) = false by rw [← hu]; exact hn r, Bool.false_and]
        exact Bool.false_ne_true
      have h := switchover_hands (s := u) (by rw [← hu]; exact room) k .odd .automatic
      rw [hz] at h
      exact hands_within h (hu ▸ List.prefix_rfl) (by rw [← hu]) List.prefix_rfl
  · rename_i hc
    exact ⟨by rw [← hu], by rw [← hu], by rw [← hu], fun _ => ⟨by rw [← hu], fun a b => absurd ⟨a, b⟩ hc⟩⟩

end Sys2Proof.Machine
end

