-- ==== Sys2Proof/Laws/Endings.lean ====
section
/-! SUPPORT. The end of a LIVE row: all that it changes, and the notices it hands. -/

namespace Sys2Proof.Machine

/-- A change of the fabric state hands FABRIC_STATE with both states. -/
theorem setFabric_eq (s : State) (f : FabricState) : s.setFabric f =
    ({ s with fabric := f } : State).handNotice .fabricState 0 f.code (BitVec.ofNat 32 s.fabric.code) 0 := rfl

/-- R56: the slots after a release. -/
theorem releaseSlots_getElem (v : Vector (Option RowId) 40) (r : RowId) (j : SlotId) :
    (releaseSlots v r)[j] = if v[j] = some r then none else v[j] := by
  simp [releaseSlots, vecMap_getElem]

/-- A catch-up touches the meter alone (R129). -/
theorem countMs_meter (x : Row) (now : Time) : x.countMs now = { x with meter := (x.countMs now).meter } := by
  unfold Row.countMs
  split <;> rfl

/-- R43: an ended row. -/
theorem endLive_row (x : Row) (e : EndReason) (now : Time) : x.endLive e now = { x with
    state := .ended, endReason := e, actualEnd := now, meter := (x.countMs now).meter.close } := by
  unfold Row.endLive
  dsimp only
  have h := countMs_meter x now
  generalize x.countMs now = y at *
  rw [h]

/-- The state before an end's notices: the slots freed, the row ended and joined (R43). -/
def State.endedRow (s : State) (r : RowId) (e : EndReason) : State :=
  ((s.freeSlotsOf r).setRow r ((s.row r).endLive e s.now)).joinSettlement r

/-- The state after an end's first notice. -/
def State.endTold (s : State) (r : RowId) (e : EndReason) : State :=
  (s.endedRow r e).handNotice .bookingEnded r.val e.code (timeLow (s.row r).actualStart)
    (timeLow (s.now - (s.row r).actualStart))

theorem endLive_form (s : State) (r : RowId) (e : EndReason) : s.endLive r e = (s.endTold r e).haltIfDone := by
  have h : ((s.row r).endLive e s.now).actualStart = (s.row r).actualStart := by rw [endLive_row]
  unfold State.endTold
  rw [← h]
  rfl

/-- From `s` to `t` row `r` was ended with a reason (R37, R43, R56). -/
structure Ended (r : RowId) (e : EndReason) (s t : State) : Prop where
  row : t.row r = { s.row r with
    state := .ended, endReason := e, actualEnd := s.now, meter := ((s.row r).countMs s.now).meter.close }
  other : ∀ q, q ≠ r → t.row q = s.row q
  port : ∀ p : PortId, t.port p = { s.port p with rxOwner := (t.port p).rxOwner, txOwner := (t.port p).txOwner }
  slots : ∀ (p : PortId) (j : SlotId),
    (t.port p).rxOwner[j] = (if (s.port p).rxOwner[j] = some r then none else (s.port p).rxOwner[j])
      ∧ (t.port p).txOwner[j] = (if (s.port p).txOwner[j] = some r then none else (s.port p).txOwner[j])
  notice : s.roomFor 1 → s.hands t .bookingEnded r.val e.code ((s.row r).actualStart.extractLsb' 0 32)
    ((s.now - (s.row r).actualStart).extractLsb' 0 32)
  halted : t.fabric ≠ s.fabric → s.roomFor 2 → s.hands t .fabricState 0 0 2 0
  fabric : t.fabric = (if s.fabric = .stopping ∧ (∀ q, (t.row q).state ≠ .live) then .halted else s.fabric)
  mem : t.mem = s.mem
  now : t.now = s.now
  queue : t.actionQueue = s.actionQueue
  admission : t.admission = s.admission

/-- The notices of a possible return to HALTED. -/
theorem hands_haltIfDone (u : State) : Hands 1 u u.haltIfDone := by
  unfold State.haltIfDone
  split
  · rw [setFabric_eq]
    have h := hands_handNotice ({ u with fabric := .halted } : State) .fabricState 0 FabricState.halted.code
      (BitVec.ofNat 32 u.fabric.code) 0
    exact ⟨h.produce, h.consume, h.length⟩
  · exact (Hands.refl u).mono (by omega)

/-- The notices up to the first of an end. -/
theorem hands_endTold (s : State) (r : RowId) (e : EndReason) : Hands 1 s (s.endTold r e) :=
  have h := hands_handNotice (s.endedRow r e) .bookingEnded r.val e.code (timeLow (s.row r).actualStart)
    (timeLow (s.now - (s.row r).actualStart))
  ⟨h.produce, h.consume, h.length⟩

/-- R37: a fabric that a possible return to HALTED changes was STOPPING, and FABRIC_STATE is handed. -/
theorem haltIfDone_hands {u : State} (hne : u.haltIfDone.fabric ≠ u.fabric) (room : u.roomFor 1) :
    u.hands u.haltIfDone .fabricState 0 0 2 0 := by
  by_cases hc : u.fabric = .stopping ∧ u.anyRow Row.isLive = false
  · have h : u.haltIfDone = ({ u with fabric := .halted } : State).handNotice .fabricState 0 0 2 0 := by
      unfold State.haltIfDone
      rw [if_pos hc, setFabric_eq, hc.1]
      rfl
    rw [h]
    exact hands_within (handNotice_hands (s := { u with fabric := .halted }) room _ _ _ _ _) List.prefix_rfl rfl
      List.prefix_rfl
  · have h : u.haltIfDone = u := by
      unfold State.haltIfDone
      rw [if_neg hc]
    exact absurd (congrArg State.fabric h) hne

/-- R43: the end of a LIVE row; it joins the tail of the Settlement Queue. -/
theorem ended_endLive (s : State) (r : RowId) (e : EndReason) :
    Ended r e s (s.endLive r e) ∧ Hands 2 s (s.endLive r e)
      ∧ (s.endLive r e).settle = { s.settle with queue := s.settle.queue ++ [r] } := by
  rw [endLive_form]
  have hh := hands_endTold s r e
  have told : s.roomFor 1 → s.hands (s.endTold r e) .bookingEnded r.val e.code (timeLow (s.row r).actualStart)
      (timeLow (s.now - (s.row r).actualStart)) := fun room =>
    hands_within (handNotice_hands (s := s.endedRow r e) room _ _ _ _ _) List.prefix_rfl rfl List.prefix_rfl
  have pre : s.notice.inWriting <+: (s.endTold r e).notice.inWriting :=
    (calm_handNotice (s.endedRow r e) _ _ _ _ _).inWriting
  have kept : (s.endTold r e).rows = (s.endedRow r e).rows ∧ (s.endTold r e).ports = (s.endedRow r e).ports
      ∧ (s.endTold r e).fabric = s.fabric ∧ (s.endTold r e).settle = { s.settle with queue := s.settle.queue ++ [r] }
      ∧ (s.endTold r e).mem = s.mem ∧ (s.endTold r e).now = s.now ∧ (s.endTold r e).actionQueue = s.actionQueue
      ∧ (s.endTold r e).admission = s.admission := ⟨rfl, rfl, rfl, rfl, rfl, rfl, rfl, rfl⟩
  generalize s.endTold r e = u at *
  obtain ⟨k1, k2, k3, k4, k5, k6, k7, k8⟩ := kept
  have hf := haltIfDone_frame u
  have hrows : u.haltIfDone.rows = (s.endedRow r e).rows := by rw [hf]; exact k1
  have hports : u.haltIfDone.ports = (s.endedRow r e).ports := by rw [hf]; exact k2
  have hfab : u.haltIfDone.fabric =
      (if s.fabric = .stopping ∧ u.anyRow Row.isLive = false then .halted else s.fabric) := by rw [hf, ← k3]
  have hrow : ∀ q, u.haltIfDone.row q = if q = r then (s.row r).endLive e s.now else s.row q := fun q => by
    rw [row_eq_of_rows hrows]
    show ((s.freeSlotsOf r).setRow r _).row q = _
    rw [row_setRow]
    rfl
  have hport : ∀ p, u.haltIfDone.port p = { s.port p with
      rxOwner := releaseSlots (s.port p).rxOwner r, txOwner := releaseSlots (s.port p).txOwner r } := fun p => by
    rw [port_eq_of_ports hports]
    exact freeSlotsOf_ports s r p
  have none_live : u.anyRow Row.isLive = false ↔ ∀ q, (u.haltIfDone.row q).state ≠ .live := by
    rw [anyRow_eq_false]
    have h : ∀ q, u.haltIfDone.row q = u.row q := fun q => row_eq_of_rows (by rw [hf]) q
    simp only [h]
    refine ⟨fun a q hl => ?_, fun a q => beq_eq_false_iff_ne.mpr (a q)⟩
    have b := a q
    unfold Row.isLive at b
    rw [hl] at b
    cases b
  refine ⟨⟨?_, fun q hq => by rw [hrow, if_neg hq], fun p => by rw [hport], fun p j => ?_, fun room => ?_,
    fun hne room => ?_, ?_, ?_, ?_, ?_, ?_⟩, hh.trans (hands_haltIfDone u), by rw [hf]; exact k4⟩
  · rw [hrow, if_pos rfl, endLive_row]
  · rw [hport]
    exact ⟨releaseSlots_getElem _ _ _, releaseSlots_getElem _ _ _⟩
  · exact hands_within (told room) List.prefix_rfl rfl (calm_haltIfDone u).inWriting
  · exact hands_within (haltIfDone_hands (by rw [k3]; exact hne) (hh.room (j := 1) room)) pre k6 List.prefix_rfl
  · simp only [hfab, none_live]
  · rw [hf]
    exact k5
  · rw [hf]
    exact k6
  · rw [hf]
    exact k7
  · rw [hf]
    exact k8

/-- While a record is in writing the Settlement Queue stands. -/
theorem settleStep_writing {s : State} (h : s.settle.writing ≠ none) :
    s.settleStep.settle.queue = s.settle.queue := by
  unfold State.settleStep
  split
  · rfl
  · rename_i h2
    exact absurd h2 h

/-- What the Settlement Unit does next leaves an end as it is. -/
theorem Ended.settle {r : RowId} {e : EndReason} {s t : State} (h : Ended r e s t) : Ended r e s t.settleStep := by
  have hf := settleStep_frame t
  have hrow : ∀ q, t.settleStep.row q = t.row q := fun q => row_eq_of_rows (by rw [hf]) q
  have hport : ∀ q, t.settleStep.port q = t.port q := fun q => port_eq_of_ports (by rw [hf]) q
  have hfab : t.settleStep.fabric = t.fabric := by rw [hf]
  have pre := (calm_settleStep t).inWriting
  exact {
    row := by rw [hrow]; exact h.row
    other := fun q hq => by rw [hrow]; exact h.other q hq
    port := fun p => by rw [hport]; exact h.port p
    slots := fun p j => by rw [hport]; exact h.slots p j
    notice := fun room => hands_within (h.notice room) List.prefix_rfl rfl pre
    halted := fun hne room => hands_within (h.halted (by rw [← hfab]; exact hne) room) List.prefix_rfl rfl pre
    fabric := by simp only [hrow, hfab]; exact h.fabric
    mem := by rw [hf]; exact h.mem
    now := by rw [hf]; exact h.now
    queue := by rw [hf]; exact h.queue
    admission := by rw [hf]; exact h.admission }

/-- R43, R143: an end by the Scheduler; the row waits in the Settlement Queue, or its record has begun. -/
theorem ended_scheduleEnd (s : State) (r : RowId) (e : EndReason) :
    Ended r e s (s.scheduleEnd r e)
      ∧ (r ∈ (s.scheduleEnd r e).settle.queue ∨ ∃ w, (s.scheduleEnd r e).settle.writing = some w ∧ w.row = r)
      ∧ (s.settle.writing ≠ none → (s.scheduleEnd r e).settle.queue = s.settle.queue ++ [r]) := by
  obtain ⟨h1, _, h3⟩ := ended_endLive s r e
  refine ⟨h1.settle, settleStep_member _ r (by rw [h3]; simp), fun h => ?_⟩
  show (s.endLive r e).settleStep.settle.queue = _
  rw [settleStep_writing (by rw [h3]; exact h), h3]

/-! The Meter Unit's part of the ms event (R127, R129) -/

/-- R127, R129: one millisecond, by the row's state, its counted-to, its gate and its tariff unit. -/
theorem countMs_cases (x : Row) (now : Time) :
    ((x.state ≠ .live ∨ now.toNat ≤ x.meter.countedTo.toNat) → x.countMs now = x)
    ∧ ((x.state = .live ∧ x.meter.countedTo.toNat < now.toNat) →
      ((x.health = .partialFeed ∨ x.health = .lost) →
        x.countMs now = { x with meter := { x.meter with outage := x.meter.outage + 1, countedTo := now } })
      ∧ ((x.health = .healthy ∨ x.health = .silent) →
        (x.meter.prescaler + 1 = unitOf x.captured → x.countMs now = { x with meter := { x.meter with
            served := x.meter.served + 1, prescaler := 0, segment := x.meter.segment + 1
            carriage := x.meter.carriage + 1, countedTo := now } })
        ∧ (x.meter.prescaler + 1 ≠ unitOf x.captured → x.countMs now = { x with meter := { x.meter with
            served := x.meter.served + 1, prescaler := x.meter.prescaler + 1, countedTo := now } }))) := by
  unfold Row.countMs
  refine ⟨fun hc => ?_, fun hc => ⟨fun hh => ?_, fun hh => ⟨fun hu => ?_, fun hu => ?_⟩⟩⟩
  · rw [if_neg]
    rintro ⟨h1, h2⟩
    rcases hc with hc | hc
    · exact hc h1
    · omega
  · have gate : x.health.gateOpen = false := by rcases hh with h | h <;> rw [h] <;> rfl
    rw [if_pos hc, gate]
    rfl
  · have gate : x.health.gateOpen = true := by rcases hh with h | h <;> rw [h] <;> rfl
    rw [if_pos hc, gate]
    unfold Meter.countMs
    rw [if_pos rfl, if_pos hu]
  · have gate : x.health.gateOpen = true := by rcases hh with h | h <;> rw [h] <;> rfl
    rw [if_pos hc, gate]
    unfold Meter.countMs
    rw [if_pos rfl, if_neg hu]

theorem meterHandle_row {s : State} (h : s.meterDue = true) (r : RowId) :
    s.meterHandle.row r = (s.row r).countMs s.now := by
  unfold State.meterHandle
  rw [if_pos h]
  exact vecMap_getElem _ _ _ _

end Sys2Proof.Machine
end

