-- ==== Sys2Proof/Laws/Intervals.lean ====
section
/-! SUPPORT. What one interval does, part by part: the declaring error window, the answer and message runs of the
channel, and the Line Prover's checker. -/

namespace Sys2Proof.Machine

/-- An interval that is well-formed completes as the cycle event (R77). -/
theorem exec_cycleEvent (s : State) (p : PortId) {iv : Interval} (h : iv.wf = true) :
    exec (.cycleEvent p iv) s = .next (s.cycleEvent p iv) := by
  simp [exec, execCycleEvent, State.spanEvent, h]

/-- R67: the class of the interval is the port's last class. -/
theorem linked_lastClass (o : Port) (iv : Interval) : (o.linked iv).lastClass = some (o.receive iv).2.2 :=
  (afterLink_frame _ _ _).2.2.2.1

/-- R87: the window declares exactly when the count with this interval reaches the threshold. -/
theorem declares_iff (o : Port) (iv : Interval) :
    (o.takeInterval iv).declares = true ↔ o.windowReaches (o.receive iv).2.2 := by
  unfold Port.declares Port.windowReaches
  rw [(takeInterval_frame o iv).2.2.2.2.2.2.2, (takeInterval_keeps o iv).2.2]
  have hf : ∀ cls : IntervalClass, cls.fails = decide (cls = .inverted ∨ cls = .bad) := by
    intro cls
    cases cls <;> rfl
  cases o.window with
  | none => simp
  | some w =>
    simp only [Option.map_some, ErrorWindow.count1, hf, Bool.and_eq_true, decide_eq_true_eq, Bool.not_eq_true',
      Bool.or_eq_false_iff, Option.some.injEq, exists_eq_left']
    have : (if (o.receive iv).2.2 = .inverted ∨ (o.receive iv).2.2 = .bad then w.count + 1 else w.count)
        = w.count + (if (o.receive iv).2.2 = .inverted ∨ (o.receive iv).2.2 = .bad then 1 else 0) := by
      split <;> rfl
    rw [this]
    constructor
    · rintro ⟨⟨a, b⟩, d, e⟩; exact ⟨a, e, d, b⟩
    · rintro ⟨a, e, d, b⟩; exact ⟨⟨a, b⟩, d, e⟩

/-! The channel (R101, R105 to R107) -/

theorem latch_eq (x : Channel) (c : MaintCommand) :
    (x.latch c).loop = (if c = .loopAll then true else if c = .normal then false else x.loop)
      ∧ (x.latch c).corrupt = (if c = .corruptCheck then true else if c = .normal then false else x.corrupt) := by
  cases c <;> exact ⟨rfl, rfl⟩

/-- The message ECHO or CANNOT with the command's code is its answer. -/
theorem answerKindOf_own (c : MaintCommand) (k : AnswerKind) :
    answerKindOf ⟨if k = .echo then 2 else 3, BitVec.ofNat 8 c.code⟩ c = some k := by
  cases c <;> cases k <;> rfl

/-- No other message is. -/
theorem answerKindOf_none (c : MaintCommand) (m : Message)
    (h : ∀ k : AnswerKind, m ≠ ⟨if k = .echo then 2 else 3, BitVec.ofNat 8 c.code⟩) : answerKindOf m c = none := by
  unfold answerKindOf
  split
  · rename_i hc
    rw [if_neg (fun hk => h .echo (by cases m; simp_all [kindEcho])),
      if_neg (fun hk => h .cannot (by cases m; simp_all [kindCannot]))]
  · rfl

/-- The answer run leaves the message run's fields. -/
theorem channel_takeAnswer_frame (ch : Channel) (m : Option Message) :
    (ch.takeAnswer m).candidate = ch.candidate ∧ (ch.takeAnswer m).messageRun = ch.messageRun
      ∧ (ch.takeAnswer m).present = ch.present ∧ (ch.takeAnswer m).lastReport = ch.lastReport
      ∧ (ch.takeAnswer m).hubCorrupting = ch.hubCorrupting := by
  have hs : ∀ c, (ch.stepAnswer c m).candidate = ch.candidate ∧ (ch.stepAnswer c m).messageRun = ch.messageRun
      ∧ (ch.stepAnswer c m).present = ch.present ∧ (ch.stepAnswer c m).lastReport = ch.lastReport
      ∧ (ch.stepAnswer c m).hubCorrupting = ch.hubCorrupting := by
    intro c
    unfold Channel.stepAnswer
    repeat' split
    all_goals exact ⟨rfl, rfl, rfl, rfl, rfl⟩
  unfold Channel.takeAnswer
  split
  · exact ⟨rfl, rfl, rfl, rfl, rfl⟩
  · rename_i c _
    dsimp only
    repeat' split
    · cases c <;> exact hs _
    all_goals exact hs c

/-- The message run leaves the answer run's fields. -/
theorem channel_takeMessage_frame (ch : Channel) (m : Option Message) :
    (ch.takeMessage m).outstanding = ch.outstanding ∧ (ch.takeMessage m).lastResult = ch.lastResult
      ∧ (ch.takeMessage m).loop = ch.loop ∧ (ch.takeMessage m).corrupt = ch.corrupt
      ∧ (ch.takeMessage m).answerKind = ch.answerKind ∧ (ch.takeMessage m).answerRun = ch.answerRun
      ∧ (ch.takeMessage m).sent = ch.sent := by
  unfold Channel.takeMessage Channel.stepMessage Channel.takeVerified
  cases m with
  | none => exact ⟨rfl, rfl, rfl, rfl, rfl, rfl, rfl⟩
  | some m =>
    dsimp only
    repeat' split
    all_goals exact ⟨rfl, rfl, rfl, rfl, rfl, rfl, rfl⟩

/-- R105: another message than the candidate starts a run of 1. -/
theorem channel_takeMessage_other {ch : Channel} {x : Message} (h : ch.candidate ≠ some x) :
    ch.takeMessage (some x) = { ch with
      candidate := some x, messageRun := 1, present := if ch.present = some x then ch.present else none } := by
  unfold Channel.takeMessage Channel.stepMessage
  dsimp only
  rw [if_neg h]
  rfl

/-- R105: the candidate again, but not for the third time, only grows the run. -/
theorem channel_takeMessage_same {ch : Channel} {x : Message} (h : ch.candidate = some x) (h2 : ch.messageRun ≠ 2) :
    ch.takeMessage (some x) = { ch with messageRun := min 3 (ch.messageRun + 1) } := by
  unfold Channel.takeMessage Channel.stepMessage
  dsimp only
  rw [if_pos h, if_neg h2]
  rfl

/-- R105: the candidate for the third time is verified. -/
theorem channel_takeMessage_third {ch : Channel} {x : Message} (h : ch.candidate = some x) (h2 : ch.messageRun = 2) :
    ch.takeMessage (some x) = Channel.takeVerified { ch with messageRun := 3, present := some x } x := by
  unfold Channel.takeMessage Channel.stepMessage
  dsimp only
  rw [if_pos h, if_pos h2]
  rfl

/-! The Line Prover (R117, R118) -/

/-- A cycle event moves the prover only by its checker, and only on the claimed port. -/
theorem cycleEvent_prover (s : State) (p : PortId) (iv : Interval) (h : (s.port p).link ≠ .off) :
    (s.cycleEvent p iv).prover =
      if s.claimed = some p then s.prover.check ((s.port p).receive iv).2.2 iv.cycle else s.prover := by
  rw [cycleEvent_eq s p iv h, (quiet_carryStep _ _ _).prover]
  unfold State.proverContent
  have w := portWork_beforeCarry s p iv
  rw [w.claimed, w.prover]
  split
  · rfl
  · exact w.prover

theorem satAdd_eq (a : BitVec 32) (n : Nat) : satAdd a n = BitVec.ofNat 32 (min (2 ^ 32 - 1) (a.toNat + n)) := by
  unfold satAdd
  split
  · rw [Nat.min_eq_right (by omega)]
  · rw [Nat.min_eq_left (by omega)]
    rfl

/-- R118: LOCKED goes on below a bad run of 4, and ends at it. -/
theorem checkRun_locked {u : Prover} (h : u.locked = true) :
    u.checkRun = { u with locked := decide (u.badRun < 4), badRun := if u.badRun < 4 then u.badRun else 0 } := by
  unfold Prover.checkRun
  by_cases h4 : 4 ≤ u.badRun
  · rw [if_pos h4, if_neg (by omega)]
    simp only [decide_eq_false (show ¬ u.badRun < 4 by omega)]
  · rw [if_neg h4, if_pos (by omega), decide_eq_true (show u.badRun < 4 by omega), ← h]

/-! The timers and the link step (R75, R76) -/

theorem timerExpires_false {t : Option Nat} {l : Nat} (h : ∀ n, t = some n → n + 1 < l) : timerExpires t l = false := by
  cases t with
  | none => rfl
  | some n =>
    have := h n rfl
    simp only [timerExpires, decide_eq_false_iff_not]
    omega

theorem timerExpires_true {t : Option Nat} {l n : Nat} (h : t = some n) (hl : l ≤ n + 1) : timerExpires t l = true := by
  subst h
  simp only [timerExpires, decide_eq_true_iff]
  omega

/-- A command of an event that is due takes the cycle event. -/
theorem spanEvent_due {s : State} {p : PortId} {iv : Interval} (h : iv.wf = true) {due : Bool} (hd : due = true) :
    s.spanEvent p iv due = .next (s.cycleEvent p iv) := by
  subst hd
  simp [State.spanEvent, h]

theorem spanEvent_idle {s : State} {p : PortId} {iv : Interval} (h : iv.wf = true) {due : Bool} (hd : due = false) :
    s.spanEvent p iv due = .next s := by
  subst hd
  simp [State.spanEvent, h]

/-- R76: where the decision is a transition, the link step is the entry. -/
theorem linked_enter {o : Port} {iv : Interval} {dest : LinkState} {cause : Cause}
    (h : (o.takeInterval iv).linkDecision (!o.receiver.isAligned && (o.takeInterval iv).receiver.isAligned)
      (o.receiver.isAligned && !(o.takeInterval iv).receiver.isAligned) = some (dest, cause)) :
    o.linked iv = (o.takeInterval iv).enter dest cause := by
  unfold Port.linked Port.afterLink
  rw [h]

/-- R75: where it is none, the link step advances the timers. -/
theorem linked_stays {o : Port} {iv : Interval}
    (h : (o.takeInterval iv).linkDecision (!o.receiver.isAligned && (o.takeInterval iv).receiver.isAligned)
      (o.receiver.isAligned && !(o.takeInterval iv).receiver.isAligned) = none) :
    o.linked iv = (o.takeInterval iv).advanceTimers := by
  unfold Port.linked Port.afterLink
  rw [h]

end Sys2Proof.Machine
end

