-- ==== Sys2Proof/Laws/Line.lean ====
section
/-! SUPPORT. The fields of the overhead read back from it (11.9), and the length and sum of a settlement record
(R144, R145). -/

namespace Sys2Proof.Machine

/-! Overhead -/

/-- Bit [15] is RDY. -/
theorem overhead_rdy (a b c d : Bool) (m : Message) : (overheadOf a b c d m).getLsbD 15 = a := by
  unfold overheadOf
  simp only [BitVec.getLsbD_append]
  simp

/-- Bit [14] is BACKUP_POWER. -/
theorem overhead_backup (a b c d : Bool) (m : Message) : (overheadOf a b c d m).getLsbD 14 = b := by
  unfold overheadOf
  simp only [BitVec.getLsbD_append]
  simp

/-- Bit [13] is INPUT_LOSS. -/
theorem overhead_inputLoss (a b c d : Bool) (m : Message) : (overheadOf a b c d m).getLsbD 13 = c := by
  unfold overheadOf
  simp only [BitVec.getLsbD_append]
  simp

/-- Bit [12] is FBE. -/
theorem overhead_fbe (a b c d : Bool) (m : Message) : (overheadOf a b c d m).getLsbD 12 = d := by
  unfold overheadOf
  simp only [BitVec.getLsbD_append]
  simp

/-- Bits [11:9] are the message kind. -/
theorem overhead_kind (a b c d : Bool) (m : Message) : (overheadOf a b c d m).extractLsb' 9 3 = m.kind := by
  unfold overheadOf
  ext i hi
  simp only [BitVec.getElem_extractLsb', BitVec.getLsbD_append]
  have : i = 0 ∨ i = 1 ∨ i = 2 := by omega
  rcases this with h | h | h <;> subst h <;> simp [BitVec.getLsbD_eq_getElem]

/-- Bits [7:0] are the message code. -/
theorem overhead_code (a b c d : Bool) (m : Message) : (overheadOf a b c d m).extractLsb' 0 8 = m.code := by
  unfold overheadOf
  ext i hi
  simp only [BitVec.getElem_extractLsb', BitVec.getLsbD_append, Nat.zero_add, hi, BitVec.getLsbD_eq_getElem]
  simp

/-- Bit [8] is 0. -/
theorem overhead_spare (a b c d : Bool) (m : Message) : (overheadOf a b c d m).getLsbD 8 = false := by
  unfold overheadOf
  simp only [BitVec.getLsbD_append]
  simp

/-! Settlement records -/

/-- S0 to S30 are 31 words. -/
theorem recordBody_length (x : Row) (seq : Word) : (recordBody x seq).length = 31 := by
  simp [recordBody, padWords]

/-- A record is 32 words. -/
theorem composeRecord_length (x : Row) (seq : Word) : (composeRecord x seq).length = 32 := by
  simp [composeRecord, recordBody_length]

/-- One more word adds to the sum. -/
theorem wordSum_append (ws : List Word) (w : Word) : wordSum (ws ++ [w]) = wordSum ws + w := by
  simp [wordSum, List.foldl_append]

end Sys2Proof.Machine
end

