-- ==== Sys2Proof/Laws/Memory.lean ====
section
/-! SUPPORT. The laws of sparse bytes and of control memory: what a read finds after a write, and that every
memory operation keeps the canonical form. -/

namespace Sys2Proof.Machine

/-! Sparse bytes -/

/-- A byte below every listed address reads as the default. -/
theorem sparseRead_below {d : Byte} {m : List Host.Cell} {a : Nat} (h : ∀ c ∈ m, a < c.1) :
    sparseRead d m a = d := by
  induction m with
  | nil => rfl
  | cons c rest ih =>
    obtain ⟨b, w⟩ := c
    have hb : a < b := h (b, w) (by simp)
    rw [sparseRead, if_neg (by omega)]
    exact ih fun c hc => h c (by simp [hc])

/-- Every address listed after a write was listed before it or is the one written. -/
theorem mem_sparseWrite {d : Byte} {m : List Host.Cell} {a : Nat} {v : Byte} {c : Host.Cell}
    (h : c ∈ sparseWrite d m a v) : c = (a, v) ∨ c ∈ m := by
  induction m with
  | nil =>
    simp only [sparseWrite] at h
    split at h <;> simp_all
  | cons e rest ih =>
    obtain ⟨b, w⟩ := e
    simp only [sparseWrite] at h
    split at h
    · split at h <;> simp_all
    · split at h
      · split at h
        · exact Or.inr (by simp [h])
        · rcases List.mem_cons.mp h with h | h
          · exact Or.inl h
          · exact Or.inr (by simp [h])
      · rcases List.mem_cons.mp h with h | h
        · exact Or.inr (by simp [h])
        · rcases ih h with h | h
          · exact Or.inl h
          · exact Or.inr (by simp [h])

/-- A write keeps the one spelling. -/
theorem sparseWrite_wf {d : Byte} {m : List Host.Cell} (hm : Sparse.Wf d m) (a : Nat) (v : Byte) :
    Sparse.Wf d (sparseWrite d m a v) := by
  induction m with
  | nil =>
    simp only [sparseWrite]
    split <;> simp_all [Sparse.Wf]
  | cons e rest ih =>
    obtain ⟨b, w⟩ := e
    obtain ⟨hp, hd⟩ := hm
    have hp' := List.pairwise_cons.mp hp
    have hrest : Sparse.Wf d rest := ⟨hp'.2, fun c hc => hd c (by simp [hc])⟩
    simp only [sparseWrite]
    split
    · rename_i hab
      split
      · exact ⟨hp, hd⟩
      · rename_i hv
        refine ⟨List.pairwise_cons.mpr ⟨fun c hc => ?_, hp⟩, fun c hc => ?_⟩
        · rcases List.mem_cons.mp hc with hc | hc
          · subst hc; exact hab
          · exact Nat.lt_trans hab (hp'.1 c hc)
        · rcases List.mem_cons.mp hc with hc | hc
          · subst hc; exact hv
          · exact hd c hc
    · split
      · rename_i hab
        split
        · exact hrest
        · rename_i hv
          refine ⟨List.pairwise_cons.mpr ⟨fun c hc => hab ▸ hp'.1 c hc, hp'.2⟩, fun c hc => ?_⟩
          rcases List.mem_cons.mp hc with hc | hc
          · subst hc; exact hv
          · exact hrest.2 c hc
      · have ih := ih hrest
        refine ⟨List.pairwise_cons.mpr ⟨fun c hc => ?_, ih.1⟩, fun c hc => ?_⟩
        · rcases mem_sparseWrite hc with hc | hc
          · subst hc; show b < a; omega
          · exact hp'.1 c hc
        · rcases List.mem_cons.mp hc with hc | hc
          · subst hc; exact hd _ (by simp)
          · exact ih.2 c hc

/-- What a byte reads after a write. -/
theorem sparseRead_sparseWrite {d : Byte} {m : List Host.Cell} (hm : Sparse.Wf d m) (a b : Nat) (v : Byte) :
    sparseRead d (sparseWrite d m a v) b = if b = a then v else sparseRead d m b := by
  induction m with
  | nil =>
    simp only [sparseWrite]
    split
    · simp_all [sparseRead]
    · simp [sparseRead]
  | cons e rest ih =>
    obtain ⟨c, w⟩ := e
    obtain ⟨hp, hd⟩ := hm
    have hp' := List.pairwise_cons.mp hp
    have ih := ih ⟨hp'.2, fun c hc => hd c (by simp [hc])⟩
    simp only [sparseWrite]
    split
    · rename_i hac
      split
      · rename_i hv
        split
        · rename_i hba
          subst hba hv
          refine sparseRead_below fun x hx => ?_
          rcases List.mem_cons.mp hx with hx | hx
          · subst hx; exact hac
          · exact Nat.lt_trans hac (hp'.1 x hx)
        · rfl
      · rw [sparseRead]
    · split
      · rename_i hac
        subst hac
        split
        · rename_i hv
          by_cases hba : b = a
          · subst hba
            rw [if_pos rfl, hv]
            exact sparseRead_below fun x hx => hp'.1 x hx
          · simp [sparseRead, hba]
        · by_cases hba : b = a
          · simp [sparseRead, hba]
          · simp [sparseRead, hba]
      · rename_i hac hne
        by_cases hbc : b = c
        · subst hbc
          simp [sparseRead, Ne.symm hne]
        · simp only [sparseRead, if_neg hbc, ih]

/-! Control memory -/

/-- A byte written keeps the canonical form. -/
theorem writeByte_wf {m : Memory} (hm : Memory.wf m) (a : Nat) (v : Byte) : Memory.wf (m.writeByte a v) := by
  refine ⟨sparseWrite_wf hm.1 _ _, fun c hc => ?_⟩
  rcases mem_sparseWrite hc with hc | hc
  · subst hc; exact Nat.mod_lt _ (by decide)
  · exact hm.2 c hc

/-- A word written keeps the canonical form. -/
theorem writeWord_wf {m : Memory} (hm : Memory.wf m) (a : Nat) (v : Word) : Memory.wf (m.writeWord a v) :=
  writeByte_wf (writeByte_wf (writeByte_wf (writeByte_wf hm _ _) _ _) _ _) _ _

/-- Consecutive words written keep the canonical form. -/
theorem writeWords_wf {m : Memory} (hm : Memory.wf m) (a : Nat) (ws : List Word) :
    Memory.wf (m.writeWords a ws) := by
  induction ws generalizing m a with
  | nil => exact hm
  | cons w ws ih => exact ih (writeWord_wf hm a w) (a + 4)

/-- A run of a host write keeps the canonical form. -/
theorem writeRun_wf {m : Memory} (hm : Memory.wf m) (run : List (Nat × Word)) : Memory.wf (m.writeRun run) := by
  induction run generalizing m with
  | nil => exact hm
  | cons x run ih => exact ih (writeWord_wf hm x.1 x.2)

/-- A completed Outbound entry keeps the canonical form. -/
theorem apply_wf {m : Memory} (hm : Memory.wf m) (e : OutEntry) (base : Nat) : Memory.wf (e.apply base m) := by
  cases e with
  | rowRead r => exact hm
  | noticeWrite n => exact writeWords_wf hm _ _
  | recordHalf i second ws => exact writeWords_wf hm _ _

/-- What the transaction in progress leaves at a reset keeps the canonical form. -/
theorem memAtReset_wf {s : State} (hm : Memory.wf s.mem) : Memory.wf s.memAtReset := by
  unfold State.memAtReset
  split
  · exact writeRun_wf hm _
  · exact apply_wf hm _ _
  · exact hm

/-- What a byte of memory reads after a byte is written. -/
theorem readByte_writeByte {m : Memory} (hm : Memory.wf m) {a : Nat} (ha : a < 2 ^ 32) (v : Byte) (b : Nat) :
    (m.writeByte a v).readByte b = if b = a then v else m.readByte b := by
  unfold Memory.writeByte Memory.readByte
  rw [Nat.mod_eq_of_lt ha]
  exact sparseRead_sparseWrite hm.1 _ _ _

/-- A byte outside a written word reads as before. -/
theorem readByte_writeWord_outside {m : Memory} (hm : Memory.wf m) {a : Nat} (ha : a + 4 ≤ 2 ^ 32) (v : Word) {b : Nat}
    (hb : b < a ∨ a + 4 ≤ b) : (m.writeWord a v).readByte b = m.readByte b := by
  have w1 := writeByte_wf hm a (v.extractLsb' 0 8)
  have w2 := writeByte_wf w1 (a + 1) (v.extractLsb' 8 8)
  have w3 := writeByte_wf w2 (a + 2) (v.extractLsb' 16 8)
  unfold Memory.writeWord
  rw [readByte_writeByte w3 (by omega), if_neg (by omega), readByte_writeByte w2 (by omega), if_neg (by omega),
    readByte_writeByte w1 (by omega), if_neg (by omega), readByte_writeByte hm (by omega), if_neg (by omega)]

/-- A word reads as it was written. -/
theorem readWord_writeWord {m : Memory} (hm : Memory.wf m) {a : Nat} (ha : a + 4 ≤ 2 ^ 32) (v : Word) :
    (m.writeWord a v).readWord a = v := by
  have w1 := writeByte_wf hm a (v.extractLsb' 0 8)
  have w2 := writeByte_wf w1 (a + 1) (v.extractLsb' 8 8)
  have w3 := writeByte_wf w2 (a + 2) (v.extractLsb' 16 8)
  have h0 : (m.writeWord a v).readByte a = v.extractLsb' 0 8 := by
    unfold Memory.writeWord
    rw [readByte_writeByte w3 (by omega), if_neg (by omega), readByte_writeByte w2 (by omega), if_neg (by omega),
      readByte_writeByte w1 (by omega), if_neg (by omega), readByte_writeByte hm (by omega), if_pos rfl]
  have h1 : (m.writeWord a v).readByte (a + 1) = v.extractLsb' 8 8 := by
    unfold Memory.writeWord
    rw [readByte_writeByte w3 (by omega), if_neg (by omega), readByte_writeByte w2 (by omega), if_neg (by omega),
      readByte_writeByte w1 (by omega), if_pos rfl]
  have h2 : (m.writeWord a v).readByte (a + 2) = v.extractLsb' 16 8 := by
    unfold Memory.writeWord
    rw [readByte_writeByte w3 (by omega), if_neg (by omega), readByte_writeByte w2 (by omega), if_pos rfl]
  have h3 : (m.writeWord a v).readByte (a + 3) = v.extractLsb' 24 8 := by
    unfold Memory.writeWord
    rw [readByte_writeByte w3 (by omega), if_pos rfl]
  unfold Memory.readWord
  rw [h0, h1, h2, h3]
  ext i hi
  simp only [BitVec.getElem_append, BitVec.getElem_extractLsb']
  repeat' split
  all_goals first
    | omega
    | (rw [BitVec.getElem_eq_testBit_toNat]; simp only [BitVec.getLsbD]; congr 1; omega)

end Sys2Proof.Machine
end

