-- ==== Sys2Proof/Laws/Naming.lean ====
section
/-! SUPPORT. What numbers name: the ports of a booking's words, the claimed port, the members of a pair, and the bits of
a P0 word. -/

namespace Sys2Proof.Machine

/-! Ports and pairs -/

/-- The even port of a pair, from either member (R3). -/
theorem evenOf_eq (p : PortId) : evenOf p = evenPort (pairOf p) :=
  Fin.ext (by simp only [evenOf, evenPort, pairOf]; omega)

/-- A port's number names the port. -/
theorem portOfNat_val (p : PortId) : portOfNat (BitVec.ofNat 32 p.val).toNat = some p := by
  unfold portOfNat
  have hp := p.isLt
  have : (BitVec.ofNat 32 p.val).toNat = p.val := by rw [BitVec.toNat_ofNat]; omega
  rw [dif_pos (by omega)]
  exact congrArg some (Fin.ext this)

/-- R115: the claimed port is the staged one, while a test runs. -/
theorem claimed_iff (s : State) (p : PortId) :
    s.claimed = some p ↔ s.prover.running = true ∧ s.prover.port = BitVec.ofNat 32 p.val := by
  unfold State.claimed portOfNat
  have hp := p.isLt
  cases s.prover.running
  · simp
  · simp only [if_true, true_and]
    constructor
    · intro h
      split at h
      · rename_i hl
        have := Option.some.inj h
        apply BitVec.eq_of_toNat_eq
        rw [← this]
        simp
      · cases h
    · intro h
      have hn : s.prover.port.toNat = p.val := by rw [h, BitVec.toNat_ofNat]; omega
      rw [dif_pos (by omega)]
      exact congrArg some (Fin.ext hn)

/-- R3: the ports that a booking uses. -/
theorem uses_iff (s : State) (w : Vector Word 8) (l : PortId) : s.uses w l = true ↔ s.booksPort w l := by
  unfold State.uses State.usesRx State.usesTx State.booksPort
  simp only [Bool.or_eq_true, beq_iff_eq, List.any_eq_true]

/-- R99, R114, R122: an unpaired port, or the active member of its pair. -/
theorem unpairedOrActive_iff (s : State) (p : PortId) : s.unpairedOrActive p = true ↔
    ((s.port (evenPort (pairOf p))).cfg.pairMode = true → memberPort (pairOf p) s.active[pairOf p] = p) := by
  unfold State.unpairedOrActive State.rxPath State.activePort State.inPair
  rw [evenOf_eq, beq_iff_eq]
  cases (s.port (evenPort (pairOf p))).cfg.pairMode
  · simp
  · simp

/-- Some row satisfies `f`. -/
theorem anyRow_eq_true (s : State) (f : Row → Bool) : s.anyRow f = true ↔ ∃ q, f (s.row q) = true := by
  constructor
  · intro h
    apply Classical.byContradiction
    intro hn
    have : s.anyRow f = false := (anyRow_eq_false s f).mpr fun q => by
      cases hq : f (s.row q)
      · rfl
      · exact absurd ⟨q, hq⟩ hn
    rw [this] at h
    cases h
  · rintro ⟨q, hq⟩
    apply Classical.byContradiction
    intro hn
    have := (anyRow_eq_false s f).mp (by simpa using hn) q
    rw [hq] at this
    cases this

/-! The port fields of a booking (R2) -/

/-- The destination fields, low to high in W3. -/
theorem destFields_getElem (w : Vector Word 8) (i : Nat) (h : i < 4) :
    (destFields w)[i]? = some (w[3].extractLsb' (5 * i) 5).toNat := by
  unfold destFields
  match i, h with
  | 0, _ => rfl
  | 1, _ => rfl
  | 2, _ => rfl
  | 3, _ => rfl

/-- The used fields are those below the destination count. -/
theorem mem_used (w : Vector Word 8) (x : Nat) : x ∈ (destFields w).take (destCount w) ↔
    ∃ i, i < 4 ∧ i < destCount w ∧ (w[3].extractLsb' (5 * i) 5).toNat = x := by
  rw [List.mem_iff_getElem?]
  constructor
  · rintro ⟨i, hi⟩
    rw [List.getElem?_take] at hi
    split at hi
    · rename_i hc
      have hl : i < (destFields w).length := by
        rw [List.getElem?_eq_some_iff] at hi
        exact hi.1
      have h4 : i < 4 := hl
      rw [destFields_getElem w i h4] at hi
      exact ⟨i, h4, hc, Option.some.inj hi⟩
    · cases hi
  · rintro ⟨i, h4, hc, he⟩
    exact ⟨i, by rw [List.getElem?_take, if_pos hc, destFields_getElem w i h4, he]⟩

/-- The unused fields are the others. -/
theorem mem_unused (w : Vector Word 8) (x : Nat) : x ∈ (destFields w).drop (destCount w) ↔
    ∃ i, i < 4 ∧ destCount w ≤ i ∧ (w[3].extractLsb' (5 * i) 5).toNat = x := by
  rw [List.mem_iff_getElem?]
  constructor
  · rintro ⟨i, hi⟩
    rw [List.getElem?_drop] at hi
    have hl : destCount w + i < (destFields w).length := by
      rw [List.getElem?_eq_some_iff] at hi
      exact hi.1
    have h4 : destCount w + i < 4 := hl
    rw [destFields_getElem w _ h4] at hi
    exact ⟨_, h4, by omega, Option.some.inj hi⟩
  · rintro ⟨i, h4, hc, he⟩
    exact ⟨i - destCount w, by
      rw [List.getElem?_drop, show destCount w + (i - destCount w) = i by omega, destFields_getElem w i h4, he]⟩

theorem portOfField_val {n : Nat} (h : n ≤ 23) : (portOfField n).val = n := by
  unfold portOfField
  simp only [Fin.ofNat]
  omega

theorem portOfField_self (p : PortId) : portOfField p.val = p := Fin.ext (portOfField_val (by omega))

/-- R19: two of the named ports are on one logical port. -/
theorem nodup_named (s : State) (w : Vector Word 8) (hs : sourceField w ≤ 23)
    (hd : ∀ i, i < 4 → i < destCount w → (w[3].extractLsb' (5 * i) 5).toNat ≤ 23) :
    ¬((namedPorts w).map s.logical).Nodup ↔
      ∃ p q : PortId, s.logical p = s.logical q
          ∧ ((∃ i j, i < j ∧ j < 4 ∧ j < destCount w ∧ (w[3].extractLsb' (5 * i) 5).toNat = p.val
              ∧ (w[3].extractLsb' (5 * j) 5).toNat = q.val)
            ∨ (sourceField w = p.val ∧ ∃ j, j < 4 ∧ j < destCount w
              ∧ (w[3].extractLsb' (5 * j) 5).toNat = q.val)) := by
  have hget : ∀ i, i < 4 → i < destCount w →
      ((destPorts w).map s.logical)[i]? = some (s.logical (portOfField (w[3].extractLsb' (5 * i) 5).toNat)) := by
    intro i h4 hc
    unfold destPorts
    rw [List.getElem?_map, List.getElem?_map, List.getElem?_take, if_pos hc, destFields_getElem w i h4]
    rfl
  have hlen : ∀ i, i < ((destPorts w).map s.logical).length → i < 4 ∧ i < destCount w := by
    intro i hi
    unfold destPorts at hi
    rw [List.length_map, List.length_map, List.length_take] at hi
    have : (destFields w).length = 4 := rfl
    omega
  unfold namedPorts
  rw [List.map_cons, List.nodup_cons]
  constructor
  · intro h
    by_cases hm : s.logical (sourcePort w) ∈ (destPorts w).map s.logical
    · rw [List.mem_map] at hm
      obtain ⟨q, hq, he⟩ := hm
      unfold destPorts at hq
      rw [List.mem_map] at hq
      obtain ⟨x, hx, rfl⟩ := hq
      obtain ⟨j, h4, hc, rfl⟩ := (mem_used w x).mp hx
      exact ⟨sourcePort w, _, he.symm,
        Or.inr ⟨(portOfField_val hs).symm, j, h4, hc, (portOfField_val (hd j h4 hc)).symm⟩⟩
    · have hn : ¬((destPorts w).map s.logical).Nodup := fun hn => h ⟨hm, hn⟩
      rw [List.Nodup, List.pairwise_iff_getElem] at hn
      have ⟨i, j, hi, hj, hij, he⟩ : ∃ i j, ∃ (hi : i < ((destPorts w).map s.logical).length)
          (hj : j < ((destPorts w).map s.logical).length),
          i < j ∧ ((destPorts w).map s.logical)[i] = ((destPorts w).map s.logical)[j] := by
        apply Classical.byContradiction
        intro hc
        exact hn fun i j hi hj hij he => hc ⟨i, j, hi, hj, hij, he⟩
      obtain ⟨hi4, hic⟩ := hlen i hi
      obtain ⟨hj4, hjc⟩ := hlen j hj
      have e1 := hget i hi4 hic
      have e2 := hget j hj4 hjc
      rw [List.getElem?_eq_getElem hi] at e1
      rw [List.getElem?_eq_getElem hj] at e2
      rw [Option.some.injEq] at e1 e2
      exact ⟨_, _, e1.symm.trans (he.trans e2),
        Or.inl ⟨i, j, hij, hj4, hjc, (portOfField_val (hd i hi4 hic)).symm,
          (portOfField_val (hd j hj4 hjc)).symm⟩⟩
  · rintro ⟨p, q, he, h⟩ ⟨hm, hn⟩
    rcases h with ⟨i, j, hij, h4, hc, hp, hq⟩ | ⟨hp, j, h4, hc, hq⟩
    · have e1 := hget i (by omega) (by omega)
      have e2 := hget j h4 hc
      rw [hp, portOfField_self] at e1
      rw [hq, portOfField_self] at e2
      have hi := (List.getElem?_eq_some_iff.mp e1)
      have hj := (List.getElem?_eq_some_iff.mp e2)
      rw [List.Nodup, List.pairwise_iff_getElem] at hn
      exact hn i j hi.1 hj.1 hij (by rw [hi.2, hj.2, he])
    · apply hm
      rw [List.mem_map]
      refine ⟨q, ?_, ?_⟩
      · unfold destPorts
        rw [List.mem_map]
        exact ⟨q.val, (mem_used w _).mpr ⟨j, h4, hc, hq⟩, portOfField_self q⟩
      · rw [← he]; unfold sourcePort; rw [hp, portOfField_self]

/-! The bits that a P0 command sets or clears -/

theorem setBit_getLsbD (v : Word) (i j : Nat) (b : Bool) (hi : i < 32) (hj : j < 32) :
    (setBit v i b).getLsbD j = if j = i then b else v.getLsbD j := by
  unfold setBit
  cases b
  · simp [hj]
    by_cases h : i = j <;> simp [h, eq_comm]
  · simp [BitVec.getLsbD_or, BitVec.getLsbD_twoPow, hi]
    by_cases h : i = j <;> simp [h, eq_comm]

/-- Setting a low bit leaves the error threshold. -/
theorem setBit_high (v : Word) (i : Nat) (b : Bool) (hi : i < 8) :
    (setBit v i b).extractLsb' 8 8 = v.extractLsb' 8 8 := by
  apply BitVec.eq_of_getLsbD_eq
  intro j hj
  simp only [BitVec.getLsbD_extractLsb', hj, decide_true, Bool.true_and]
  rw [setBit_getLsbD v i (8 + j) b (by omega) (by omega), if_neg (by omega)]

/-! Pairs and members -/

theorem pairOf_even (k : PairId) : pairOf (evenPort k) = k := Fin.ext (by simp only [pairOf, evenPort]; omega)

theorem memberOf_code (m : Member) : memberOf (BitVec.ofNat 32 m.code) = some m := by cases m <;> rfl

theorem inPair_even (s : State) (k : PairId) : s.inPair (evenPort k) = (s.port (evenPort k)).cfg.pairMode := by
  unfold State.inPair
  rw [evenOf_eq, pairOf_even]

/-- Members of different pairs are different ports. -/
theorem memberPort_ne {k j : PairId} (h : k ≠ j) (m n : Member) : memberPort k m ≠ memberPort j n := by
  intro he
  apply h
  have := congrArg (fun x : PortId => x.val / 2) he
  cases m <;> cases n <;> simp only [memberPort, evenPort, oddPort] at this <;> exact Fin.ext (by omega)

/-- Every port is a member of its pair. -/
theorem memberPort_self (p : PortId) : ∃ m, memberPort (pairOf p) m = p := by
  by_cases h : p.val % 2 = 0
  · exact ⟨.even, Fin.ext (by simp only [memberPort, evenPort, pairOf]; omega)⟩
  · exact ⟨.odd, Fin.ext (by simp only [memberPort, oddPort, pairOf]; omega)⟩

theorem active_set (s : State) (k j : PairId) (m : Member) :
    (s.active.set k m)[j] = if j = k then m else s.active[j] := by
  by_cases h : j = k
  · subst h
    simp
  · rw [if_neg h]
    simp only [Fin.getElem_fin]
    rw [Vector.getElem_set_ne]
    exact fun he => h (Fin.ext he.symm)

theorem isBooked_iff (x : Row) : x.isBooked = true ↔ x.state = .held ∨ x.state = .live := by
  unfold Row.isBooked
  simp

end Sys2Proof.Machine
end

