-- ==== Sys2Proof/Laws/Passes.lean ====
section
/-! SUPPORT. The Scheduler's pass over the rows: the work on bookings neither looks at the pass nor changes it, and of
the rows in ascending order the first one that is due is taken first. -/

namespace Sys2Proof.Machine

/-! The pass is looked at by the Scheduler alone -/

/-- Work that neither looks at the Scheduler's pass nor changes it. -/
def PassBlind (f : State → State) : Prop :=
  ∀ (s : State) (x : SchedulerPass), f { s with pass := x } = { f s with pass := x }

theorem PassBlind.id : PassBlind fun s => s := fun _ _ => rfl

theorem PassBlind.comp {f g : State → State} (hg : PassBlind g) (hf : PassBlind f) : PassBlind fun s => g (f s) :=
  fun s x => (congrArg g (hf s x)).trans (hg (f s) x)

theorem passBlind_ite {C : State → Prop} [∀ s, Decidable (C s)] {f g : State → State}
    (hc : ∀ (s : State) (x : SchedulerPass), C { s with pass := x } ↔ C s) (hf : PassBlind f) (hg : PassBlind g) :
    PassBlind fun s => if C s then f s else g s := by
  intro s x
  show (if C { s with pass := x } then f { s with pass := x } else g { s with pass := x })
    = { (if C s then f s else g s) with pass := x }
  by_cases h : C s
  · rw [if_pos h, if_pos ((hc s x).mpr h)]
    exact hf s x
  · rw [if_neg h, if_neg (fun hn => h ((hc s x).mp hn))]
    exact hg s x

theorem passBlind_forRows {f : RowId → State → State} (h : ∀ r, PassBlind (f r)) : PassBlind (State.forRows f) := by
  intro s x
  unfold State.forRows
  generalize List.finRange 256 = l
  induction l generalizing s with
  | nil => rfl
  | cons r l ih => rw [List.foldl_cons, List.foldl_cons, h, ih]

theorem passBlind_handNotice (k : NoticeKind) (a b : Nat) (c d : Word) : PassBlind fun s => s.handNotice k a b c d :=
  fun _ _ => rfl

theorem passBlind_settleStep : PassBlind State.settleStep := by
  intro s x
  unfold State.settleStep
  rcases hw : s.settle.writing with _ | w
  · rcases hq : s.settle.queue with _ | ⟨r, others⟩
    · rfl
    · refine passBlind_ite (C := fun t => t.settle.held = Config.ringSlots) (f := State.waitRing)
        (g := fun t => if (t.row r).inFlight ≠ .none then { t with settle := { t.settle with unit := .waitAction } }
          else t.beginRecord r others) (fun _ _ => Iff.rfl) ?_ ?_ s x
      · exact passBlind_ite (C := fun t => t.settle.unit = .waitRing) (fun _ _ => Iff.rfl) PassBlind.id (fun _ _ => rfl)
      · exact passBlind_ite (C := fun t => (t.row r).inFlight ≠ .none) (fun _ _ => Iff.rfl) (fun _ _ => rfl)
          (fun _ _ => rfl)
  · rfl

theorem passBlind_haltIfDone : PassBlind State.haltIfDone :=
  passBlind_ite (C := fun s => s.fabric = .stopping ∧ s.anyRow Row.isLive = false) (fun _ _ => Iff.rfl)
    (fun _ _ => rfl) PassBlind.id

theorem passBlind_scheduleEnd (r : RowId) (reason : EndReason) : PassBlind fun s => s.scheduleEnd r reason :=
  passBlind_settleStep.comp (passBlind_haltIfDone.comp (f := fun s =>
    (((s.freeSlotsOf r).setRow r ((s.row r).endLive reason s.now)).joinSettlement r).handNotice .bookingEnded r.val
      reason.code (timeLow ((s.row r).endLive reason s.now).actualStart)
      (timeLow (s.now - ((s.row r).endLive reason s.now).actualStart))) (fun _ _ => rfl))

theorem passBlind_reevaluate (r : RowId) : PassBlind fun s => s.reevaluate r :=
  passBlind_ite (C := fun s => (s.row r).state = .live ∧ s.feedHealth (s.row r).captured ≠ (s.row r).health)
    (fun _ _ => Iff.rfl) (fun _ _ => rfl) PassBlind.id

theorem passBlind_reevaluateUsers (l : PortId) : PassBlind fun s => s.reevaluateUsers l :=
  passBlind_forRows fun r => passBlind_ite (C := fun s => s.uses (s.row r).captured l = true) (fun _ _ => Iff.rfl)
    (passBlind_reevaluate r) PassBlind.id

theorem passBlind_selectReceive (k : PairId) : PassBlind fun s => s.selectReceive k :=
  passBlind_ite (C := fun s => (!(s.port (s.activePort k)).carrying
    && (s.port (memberPort k s.active[k].other)).carrying) = true) (fun _ _ => Iff.rfl) (fun _ _ => rfl) PassBlind.id

theorem passBlind_selectAtChange (p : PortId) : PassBlind fun s => s.selectAtChange p :=
  passBlind_ite (C := fun s => s.inPair p = true) (fun _ _ => Iff.rfl)
    (passBlind_ite (C := fun s => (!(s.port (s.activePort (pairOf p))).carrying
        && !(s.port (memberPort (pairOf p) s.active[pairOf p].other)).carrying && s.activePort (pairOf p) == p) = true)
      (fun _ _ => Iff.rfl) (fun _ _ => rfl) (passBlind_selectReceive _)) PassBlind.id

theorem passBlind_carryingChanged (p : PortId) : PassBlind fun s => s.carryingChanged p :=
  fun s x => ((passBlind_reevaluateUsers (s.logical p)).comp (passBlind_selectAtChange p)) s x

theorem passBlind_recompose (p : PortId) : PassBlind fun s => s.recompose p :=
  passBlind_ite (C := fun s => s.mayCarry p = (s.port p).carrying) (fun _ _ => Iff.rfl) PassBlind.id
    ((passBlind_carryingChanged p).comp (f := fun s => s.setPort p { s.port p with carrying := s.mayCarry p })
      (fun _ _ => rfl))

theorem passBlind_proverEnd (o : ProverOutcome) : PassBlind fun s => s.proverEnd o := by
  intro s x
  unfold State.proverEnd
  dsimp only
  split
  · exact passBlind_recompose _ (({ s with prover := { s.prover with running := false, outcome := o } } : State).handNotice
      .proverDone (s.prover.port.toNat % 256) o.code s.prover.elapsed s.prover.errorBits) x
  · rfl

theorem passBlind_proverPreempt (c : Vector Word 8) : PassBlind fun s => s.proverPreempt c := by
  intro s x
  rcases h : s.claimed with _ | p
  · have e : ∀ t : State, t.claimed = none → t.proverPreempt c = t := fun t ht => by
      unfold State.proverPreempt
      rw [ht]
    exact (e { s with pass := x } h).trans (congrArg (fun u : State => { u with pass := x }) (e s h).symm)
  · have e : ∀ t : State, t.claimed = some p → t.proverPreempt c
        = if (t.uses c (t.logical p) && t.unpairedOrActive p) = true then t.proverEnd .preempted else t := fun t ht => by
      unfold State.proverPreempt
      rw [ht]
    exact ((e { s with pass := x } h).trans (passBlind_ite (C := fun s => (s.uses c (s.logical p) && s.unpairedOrActive p) = true)
      (fun _ _ => Iff.rfl) (passBlind_proverEnd .preempted) PassBlind.id s x)).trans
      (congrArg (fun u : State => { u with pass := x }) (e s h).symm)

theorem passBlind_allocate (r : RowId) : PassBlind fun s => s.allocate r := by
  intro s x
  unfold State.allocate
  dsimp only
  show (destPorts (s.row r).captured).foldl (fun t d => t.allocTx (t.logical d) (slotCount (s.row r).captured) r)
    { s.allocRx (s.logical (sourcePort (s.row r).captured)) (slotCount (s.row r).captured) r with pass := x } = _
  generalize s.allocRx (s.logical (sourcePort (s.row r).captured)) (slotCount (s.row r).captured) r = t
  generalize destPorts (s.row r).captured = l
  induction l generalizing t with
  | nil => rfl
  | cons d l ih =>
    rw [List.foldl_cons, List.foldl_cons]
    exact ih (t.allocTx (t.logical d) (slotCount (s.row r).captured) r)

theorem passBlind_goLiveRow (r : RowId) (late : Bool) : PassBlind fun s => s.goLiveRow r late := by
  intro s x
  have h1 : State.allocate (State.proverPreempt { s with pass := x } (s.row r).captured) r
      = { (s.proverPreempt (s.row r).captured).allocate r with pass := x } :=
    ((passBlind_allocate r).comp (passBlind_proverPreempt (s.row r).captured)) s x
  show State.handNotice (State.reevaluate (State.setRow (State.allocate (State.proverPreempt { s with pass := x }
      (s.row r).captured) r) r ((State.row (State.allocate (State.proverPreempt { s with pass := x }
      (s.row r).captured) r) r).started s.now late)) r) .bookingLive r.val late.toNat
      (timeLow (s.row r).currentEnd) (timeLow (bookedStart (s.row r).captured)) = _
  rw [h1]
  exact ((passBlind_handNotice .bookingLive r.val late.toNat (timeLow (s.row r).currentEnd)
    (timeLow (bookedStart (s.row r).captured))).comp (passBlind_reevaluate r))
    (((s.proverPreempt (s.row r).captured).allocate r).setRow r
      ((((s.proverPreempt (s.row r).captured).allocate r).row r).started s.now late)) x

theorem passBlind_runEnds (lo : Nat) : PassBlind fun s => s.runEnds lo :=
  passBlind_forRows fun q => passBlind_ite (C := fun s => lo ≤ q.val ∧ s.endDue q = true) (fun _ _ => Iff.rfl)
    (passBlind_scheduleEnd q _) PassBlind.id

theorem passBlind_runStarts (lo : Nat) : PassBlind fun s => s.runStarts lo :=
  passBlind_forRows fun q => passBlind_ite (C := fun s => lo ≤ q.val ∧ s.fabric = .running ∧ s.startDue q = true)
    (fun _ _ => Iff.rfl) (fun s x => passBlind_goLiveRow q (s.isLate q) s x) PassBlind.id

/-! The rows in ascending order -/

/-- A search takes the lowest row that satisfies its condition. -/
theorem findRow_eq {f : RowId → Bool} {r : RowId} (h : f r = true) (hl : ∀ q, q < r → f q = false) :
    State.findRow f = some r := by
  unfold State.findRow
  rw [List.find?_eq_some_iff_getElem]
  refine ⟨h, r.val, by simp, by simp, fun j hj => ?_⟩
  have hj' : j < (List.finRange 256).length := by
    have := r.isLt
    simp
    omega
  have e : (List.finRange 256)[j] = ⟨j, by simpa using hj'⟩ := by simp
  rw [e]
  have := hl ⟨j, by omega⟩ hj
  simp [this]

/-- Of the rows in ascending order, those below the first due one are passed over. -/
theorem forRows_first {C : RowId → State → Bool} {g : RowId → State → State} {lo : Nat} {s : State} {r : RowId}
    (hr : lo ≤ r.val) (hc : C r s = true) (hlow : ∀ q : RowId, lo ≤ q.val → q < r → C q s = false) :
    s.forRows (fun q s => if lo ≤ q.val ∧ C q s = true then g q s else s)
      = (g r s).forRows (fun q s => if r.val + 1 ≤ q.val ∧ C q s = true then g q s else s) := by
  have tail : ∀ (l : List RowId), (∀ q ∈ l, r < q) → ∀ t : State,
      l.foldl (fun s q => if lo ≤ q.val ∧ C q s = true then g q s else s) t
        = l.foldl (fun s q => if r.val + 1 ≤ q.val ∧ C q s = true then g q s else s) t := by
    intro l
    induction l with
    | nil => exact fun _ _ => rfl
    | cons q l ih =>
      intro h t
      have hq : r.val < q.val := h q List.mem_cons_self
      rw [List.foldl_cons, List.foldl_cons]
      have e : (lo ≤ q.val ∧ C q t = true) ↔ (r.val + 1 ≤ q.val ∧ C q t = true) :=
        and_congr_left fun _ => ⟨fun _ => hq, fun _ => by omega⟩
      simp only [e]
      exact ih (fun q hq => h q (List.mem_cons_of_mem _ hq)) _
  have skip : ∀ (l : List RowId), (∀ q ∈ l, ¬r < q) → ∀ t : State,
      l.foldl (fun s q => if r.val + 1 ≤ q.val ∧ C q s = true then g q s else s) t = t := by
    intro l
    induction l with
    | nil => exact fun _ _ => rfl
    | cons q l ih =>
      intro h t
      have hq : ¬r.val < q.val := h q List.mem_cons_self
      rw [List.foldl_cons, if_neg (fun hn => hq hn.1)]
      exact ih (fun q hq => h q (List.mem_cons_of_mem _ hq)) t
  have main : ∀ (l : List RowId), l.Pairwise (· < ·) → r ∈ l → ∀ u : State, u = g r s →
      l.foldl (fun s q => if lo ≤ q.val ∧ C q s = true then g q s else s) s
        = l.foldl (fun s q => if r.val + 1 ≤ q.val ∧ C q s = true then g q s else s) u := by
    intro l
    induction l with
    | nil => intro _ h; cases h
    | cons q l ih =>
      intro hp hm u hu
      rw [List.pairwise_cons] at hp
      rw [List.foldl_cons, List.foldl_cons]
      rcases List.mem_cons.mp hm with rfl | hm
      · rw [if_pos ⟨hr, hc⟩, if_neg (fun h => absurd h.1 (by omega)), ← hu]
        exact tail l hp.1 u
      · have hq : q < r := hp.1 r hm
        have h1 : ¬(lo ≤ q.val ∧ C q s = true) := fun h => by
          rw [hlow q h.1 hq] at h
          exact absurd h.2 (by decide)
        have h2 : ¬(r.val + 1 ≤ q.val ∧ C q u = true) := fun h => by
          have : q.val < r.val := hq
          omega
        rw [if_neg h1, if_neg h2]
        exact ih hp.2 hm u hu
  exact main _ (List.pairwise_lt_finRange 256) (List.mem_finRange r) _ rfl

/-- Where no row is due, nothing is done. -/
theorem forRows_none {C : RowId → State → Bool} {g : RowId → State → State} {lo : Nat} {s : State}
    (h : ∀ q : RowId, lo ≤ q.val → C q s = false) :
    s.forRows (fun q s => if lo ≤ q.val ∧ C q s = true then g q s else s) = s := by
  unfold State.forRows
  generalize List.finRange 256 = l
  induction l with
  | nil => rfl
  | cons q l ih =>
    have hq : ¬(lo ≤ q.val ∧ C q s = true) := fun hn => by
      rw [h q hn.1] at hn
      exact absurd hn.2 (by decide)
    rw [List.foldl_cons]
    dsimp only
    rw [if_neg hq]
    exact ih

/-- R38: the starts of a pass, as work on every row in turn. -/
theorem runStarts_form (s : State) (lo : Nat) : s.runStarts lo = s.forRows fun q s =>
    if lo ≤ q.val ∧ (decide (s.fabric = .running) && s.startDue q) = true then s.goLiveRow q (s.isLate q) else s := by
  unfold State.runStarts
  simp only [Bool.and_eq_true, decide_eq_true_eq]

/-! The Scheduler's part (R38) -/

theorem endDue_false {s : State} {q : RowId}
    (h : (s.row q).state = .live → s.now.toNat < (s.row q).currentEnd.toNat) : s.endDue q = false := by
  unfold State.endDue
  rw [Bool.and_eq_false_iff, beq_eq_false_iff_ne, decide_eq_false_iff_not]
  by_cases hq : (s.row q).state = .live
  · exact Or.inr (Nat.not_le.mpr (h hq))
  · exact Or.inl hq

theorem startDue_false {s : State} {q : RowId} (h : (s.row q).state = .held →
    (bookedStart (s.row q).captured).toNat ≤ s.now.toNat → (s.row q).currentEnd.toNat ≤ s.now.toNat) :
    s.startDue q = false := by
  unfold State.startDue
  rw [Bool.and_eq_false_iff, Bool.and_eq_false_iff, beq_eq_false_iff_ne, decide_eq_false_iff_not,
    decide_eq_false_iff_not]
  by_cases hq : (s.row q).state = .held
  · by_cases hb : (bookedStart (s.row q).captured).toNat ≤ s.now.toNat
    · exact Or.inr (Nat.not_lt.mpr (h hq hb))
    · exact Or.inl (Or.inr hb)
  · exact Or.inl (Or.inl hq)

/-- R38: what is left of the ends, then the starts; nothing in HALTED. -/
theorem schedulerHandle_ends (s : State) (lo : Nat) : ({ s with pass := .ends lo } : State).schedulerHandle
    = if s.fabric = .halted then { s with pass := .none } else { (s.runEnds lo).runStarts 0 with pass := .none } := by
  unfold State.schedulerHandle
  dsimp only
  split
  · rfl
  · have h := ((passBlind_runStarts 0).comp (passBlind_runEnds lo)) s (.ends lo)
    dsimp only at h
    rw [h]

/-- R38: what is left of the starts. -/
theorem schedulerHandle_starts (s : State) (lo : Nat) : ({ s with pass := .starts lo } : State).schedulerHandle
    = { s.runStarts lo with pass := .none } := by
  have h := passBlind_runStarts lo s (.starts lo)
  unfold State.schedulerHandle
  dsimp only at h ⊢
  rw [h]

/-- R37: an end that halts the fabric leaves no LIVE row. -/
theorem scheduleEnd_halted {s : State} {r : RowId} {reason : EndReason}
    (h : (s.scheduleEnd r reason).fabric = .halted) (was : s.fabric ≠ .halted) (q : RowId) :
    ((s.scheduleEnd r reason).row q).isLive = false := by
  have e1 : (s.scheduleEnd r reason).fabric = (s.endLive r reason).fabric := by
    unfold State.scheduleEnd
    rw [settleStep_frame]
  have e2 : (s.scheduleEnd r reason).rows = (s.endLive r reason).rows := by
    unfold State.scheduleEnd
    rw [settleStep_frame]
  rw [e1] at h
  rw [row_eq_of_rows e2]
  unfold State.endLive at h ⊢
  dsimp only at h ⊢
  generalize hz : State.handNotice _ _ _ _ _ _ = z at h ⊢
  have hf : z.fabric = s.fabric := by
    rw [← hz]
    rfl
  rw [haltIfDone_frame] at h ⊢
  dsimp only at h
  split at h
  · rename_i hc
    exact (anyRow_eq_false z _).mp hc.2 q
  · exact absurd (hf ▸ h) was

end Sys2Proof.Machine
end

