-- ==== Sys2Proof/Laws/Steps.lean ====
section
/-! SUPPORT. What a step can do, once and for all: a property of the state that each operation of the blocks keeps,
and that does not look at memory, at the Memory Path or at the queue, is kept by every step. -/

namespace Sys2Proof.Machine

variable {P : State → Prop}

/-- A property that does not look at memory, at the Memory Path or at the queue of commands. -/
def Blind (P : State → Prop) : Prop :=
  ∀ (s : State) (m : Memory) (q : Path) (l : List Instr), P s → P { s with mem := m, path := q, pending := l }

/-- The operations that a host transaction runs keep the property. -/
structure KeptByHost (P : State → Prop) : Prop where
  blind : Blind P
  action : ∀ s w v, P s → P (s.takeAction w v)
  capture : ∀ s w v, P s → P (s.captureWord w v)
  answer : ∀ s w, P s → P (s.answerEffect w)

/-- The operations of every block keep the property. -/
structure KeptByBlocks (P : State → Prop) : Prop extends KeptByHost P where
  cold : ∀ s b, P s → P (s.resetWith b)
  ms : ∀ s x, P s → P (s.msPart x)
  cycle : ∀ s p iv, P s → P (s.cycleEvent p iv)
  transmit : ∀ s p, P s → P (s.transmit p)
  beginPost : ∀ s, P s → P s.beginPost
  finishPost : ∀ s r ws, P s → P (s.finishPost r ws)
  runAmend : ∀ s r, P s → P (s.runAmend r)
  runCancel : ∀ s r, P s → P (s.runCancel r)
  goLive : ∀ s r, s.nextStart = some r → P s → P { s.goLiveRow r (s.isLate r) with pass := .starts (r.val + 1) }
  schedEnd : ∀ s r, s.nextEnd = some r → P s → P { s.scheduleEnd r .scheduled with pass := .ends (r.val + 1) }
  stopEnd : ∀ s r, P s → P (s.scheduleEnd r .stopped)
  prover : ∀ s, P s → P s.proverHandle
  notice : ∀ s, P s → P s.noticeProduced
  settle : ∀ s, P s → P s.settleStep
  complete : ∀ s, P s → P s.completeRecord

theorem kept_ite {s t : State} {c : Prop} [Decidable c] (h1 : P s) (h2 : P t) : P (if c then s else t) := by
  split
  · exact h1
  · exact h2

theorem kept_foldl {α : Type} {f : State → α → State} (h : ∀ s a, P s → P (f s a)) (l : List α) :
    ∀ s, P s → P (l.foldl f s) := by
  induction l with
  | nil => exact fun _ hs => hs
  | cons a l ih => exact fun s hs => ih _ (h s a hs)

/-! The Memory Path -/

theorem Blind.path (h : Blind P) {s : State} (q : Path) (hs : P s) : P { s with path := q } := h s s.mem q s.pending hs

theorem Blind.mem (h : Blind P) {s : State} (m : Memory) (hs : P s) : P { s with mem := m } := h s m s.path s.pending hs

theorem Blind.setPhase (h : Blind P) {s : State} (t : Transaction) (ph : PsidePhase) (hs : P s) : P (s.setPhase t ph) :=
  h.path _ hs

theorem Blind.respond (h : Blind P) {s : State} (a : Response) (hs : P s) : P (s.respond a) := h.path _ hs

theorem Blind.completeHead (h : Blind P) {s : State} (e : OutEntry) (hs : P s) : P (s.completeHead e) :=
  h s _ _ s.pending hs

theorem kept_takeActions (h : KeptByHost P) (l : List (WinWord × Word)) {s : State} (hs : P s) : P (s.takeActions l) := by
  unfold State.takeActions
  exact kept_foldl (f := fun s x => s.takeAction x.1 x.2) (fun s a => h.action s a.1 a.2) l s hs

theorem kept_judgeBurst (h : KeptByHost P) {s : State} (t : Transaction) (ws : List (Nat × Word)) (hs : P s) :
    P (s.judgeBurst t ws) := by
  unfold State.judgeBurst
  extract_lets named u actions runs
  have hu : P u := kept_foldl (fun s (x : WinWord × Word) => h.capture s x.1 x.2) _ s hs
  exact kept_ite (kept_ite (h.blind.respond _ (kept_takeActions h _ hu)) (h.blind.setPhase _ _ hu)) (h.blind.respond _ hs)

theorem kept_judge (h : KeptByHost P) {s : State} (t : Transaction) (hs : P s) : P (s.judge t) := by
  unfold State.judge
  split
  · unfold State.judgeRead
    exact kept_ite (h.blind.setPhase _ _ hs) (kept_ite (h.blind.respond _ hs) (h.blind.setPhase _ _ hs))
  · unfold State.judgeWrite
    extract_lets
    exact kept_ite (h.blind.setPhase _ _ hs) (kept_ite (kept_ite (h.blind.respond _ hs)
      (kept_ite (h.blind.respond _ hs) (h.blind.setPhase _ _ hs)))
      (kept_ite (h.blind.respond _ hs) (kept_judgeBurst h _ _ hs)))

theorem kept_arbitrate (h : KeptByHost P) {s : State} (hs : P s) : P s.arbitrate := by
  unfold State.arbitrate
  split
  · split
    · exact kept_ite (kept_judge h _ (h.blind.path _ hs)) (h.blind.path _ hs)
    · exact h.blind.path _ hs
  · exact hs

theorem kept_arrive (h : KeptByHost P) {s : State} (t : Transaction) (hs : P s) : P (s.arrive t) :=
  kept_arbitrate h (h.blind.setPhase _ _ hs)

theorem kept_hostIssue (h : KeptByHost P) {s : State} (t : Transaction) (hs : P s) : P (s.hostIssue t) :=
  kept_ite hs (kept_arrive h _ hs)

theorem kept_readOn (h : KeptByHost P) {s : State} (t : Transaction) (got : List Word) (l : List ReadPiece) (hs : P s) :
    P (s.readOn t got l) :=
  kept_ite (h.blind.respond _ hs) (h.blind.setPhase _ _ hs)

theorem kept_progress (h : KeptByHost P) {s : State} (hs : P s) : P s.progress := by
  unfold State.progress
  split
  · rename_i run _ _ _ _
    have hu : P { s with mem := s.mem.writeRun run } := h.blind.mem _ hs
    exact kept_ite (h.blind.respond _ (kept_takeActions h _ hu)) (h.blind.setPhase _ _ hu)
  · exact kept_readOn h _ _ _ hs
  · exact kept_readOn h _ _ _ (h.answer _ _ hs)
  · exact hs

theorem kept_hostReadOne (h : KeptByHost P) {s : State} (o : Nat) (hs : P s) : P (s.hostReadOne o) :=
  kept_ite hs (kept_progress h (kept_arrive h _ hs))

theorem kept_freeMside (h : KeptByHost P) {s : State} (hs : P s) : P s.freeMside :=
  kept_arbitrate h (h.blind.path _ hs)

/-! A step -/

theorem kept_spanEvent (h : KeptByBlocks P) {s t : State} {p : PortId} {iv : Interval} {d : Bool}
    (e : s.spanEvent p iv d = .next t) (hs : P s) : P t := by
  unfold State.spanEvent at e
  split at e
  · cases e
    exact kept_ite (h.cycle _ _ _ hs) hs
  · cases e

/-- A command that completes keeps the property. -/
theorem exec_keeps (h : KeptByBlocks P) {i : Instr} {s t : State} (e : exec i s = .next t) (hs : P s) : P t := by
  have host := h.toKeptByHost
  cases i
  case coldReset b a =>
    cases a with
    | none => cases e; exact h.cold _ _ hs
    | some a =>
      simp only [exec, execColdReset] at e
      split at e
      · cases e; exact kept_arrive host _ (h.cold _ _ hs)
      · cases e
  case msEvent l => cases e; exact kept_foldl h.ms l s hs
  case cycleEvent => exact kept_spanEvent h e hs
  case tReadyExpiry => exact kept_spanEvent h e hs
  case tHoldExpiry => exact kept_spanEvent h e hs
  case tRestoreExpiry => exact kept_spanEvent h e hs
  case errorWindowClose => exact kept_spanEvent h e hs
  case commandNoAnswer => exact kept_spanEvent h e hs
  case cycleTransmit => cases e; exact h.transmit _ _ hs
  case hostTransactionArrival t =>
    simp only [exec, execHostTransactionArrival, State.hostIssueChecked] at e
    split at e
    · cases e; exact kept_hostIssue host _ hs
    · cases e
  case plainWrite t =>
    simp only [exec, execPlainWrite, State.hostIssueChecked] at e
    split at e
    · cases e; exact kept_hostIssue host _ hs
    · cases e
  case msideGrant => cases e; exact kept_arbitrate host hs
  case forwardComplete => cases e; exact kept_progress host hs
  case timeRead => cases e; exact kept_hostReadOne host _ hs
  case counterRead => cases e; exact kept_hostReadOne host _ hs
  case meterSnapshotRead => cases e; exact kept_hostReadOne host _ hs
  case postBegin => cases e; exact h.beginPost _ hs
  case admissionRowReadDone =>
    cases e
    unfold State.rowReadDone
    split
    · exact kept_freeMside host (h.finishPost _ _ _ (h.blind.completeHead _ hs))
    · exact hs
  case amendExecute =>
    cases e
    split
    · exact h.runAmend _ _ hs
    · exact hs
  case cancelExecute =>
    cases e
    split
    · exact h.runCancel _ _ hs
    · exact hs
  case goLive =>
    cases e
    split
    · exact h.goLive _ _ ‹_› hs
    · exact hs
  case scheduledEnd =>
    cases e
    split
    · exact h.schedEnd _ _ ‹_› hs
    · exact hs
  case stopEnd =>
    cases e
    split
    · exact h.stopEnd _ _ hs
    · exact hs
  case proverExpiry => cases e; exact kept_ite (h.prover _ hs) hs
  case noticeWriteDone =>
    cases e
    unfold State.noticeWritten
    split
    · exact kept_freeMside host (h.notice _ (h.blind.completeHead _ hs))
    · exact hs
  case recordBegin => cases e; exact h.settle _ hs
  case settlementFirstHalfDone =>
    cases e
    unfold State.firstHalfDone
    split
    · exact kept_freeMside host (h.blind.completeHead _ hs)
    · exact hs
  case recordComplete =>
    cases e
    unfold State.secondHalfDone
    split
    · exact kept_freeMside host (h.complete _ (h.blind.completeHead _ hs))
    · exact hs
  all_goals
    cases e
    exact kept_hostIssue host _ hs

/-- A step that completes keeps the property. -/
theorem step_keeps (h : KeptByBlocks P) {s t : State} (e : step s = .next t) (hs : P s) : P t := by
  unfold step at e
  split at e
  · cases e
    exact hs
  · exact exec_keeps h e (h.blind s s.mem s.path _ hs)

end Sys2Proof.Machine
end

