-- ==== Sys2Proof/Laws/PortSteps.lean ====
section
/-! SUPPORT. What a step can do to the ports: a property of the ports' configurations, links, latched sets and carrying
flags, of the claimed port and of the active members is kept by every step if the seven operations that touch these
keep it. -/

namespace Sys2Proof.Machine

/-- What the laws of the ports read of one port stands. -/
structure PortKept (a b : Port) : Prop where
  cfg : b.cfg = a.cfg
  link : b.link = a.link
  loop : b.channel.loop = a.channel.loop
  corrupt : b.channel.corrupt = a.channel.corrupt
  hubCorrupting : b.channel.hubCorrupting = a.channel.hubCorrupting
  carrying : b.carrying = a.carrying

theorem PortKept.refl (a : Port) : PortKept a a := ⟨rfl, rfl, rfl, rfl, rfl, rfl⟩

theorem PortKept.trans {a b c : Port} (x : PortKept a b) (y : PortKept b c) : PortKept a c :=
  ⟨y.cfg.trans x.cfg, y.link.trans x.link, y.loop.trans x.loop, y.corrupt.trans x.corrupt,
    y.hubCorrupting.trans x.hubCorrupting, y.carrying.trans x.carrying⟩

/-- What the laws of the ports read of the state stands. -/
structure PortsKept (s t : State) : Prop where
  port : ∀ q, PortKept (s.port q) (t.port q)
  claimed : t.claimed = s.claimed
  active : t.active = s.active

theorem PortsKept.refl (s : State) : PortsKept s s := ⟨fun _ => .refl _, rfl, rfl⟩

theorem PortsKept.trans {s t u : State} (a : PortsKept s t) (b : PortsKept t u) : PortsKept s u :=
  ⟨fun q => (a.port q).trans (b.port q), b.claimed.trans a.claimed, b.active.trans a.active⟩

theorem PortsKept.mayCarry {s t : State} (h : PortsKept s t) (q : PortId) : t.mayCarry q = s.mayCarry q := by
  simp only [State.mayCarry, (h.port q).cfg, (h.port q).link, (h.port q).loop, h.claimed]

theorem portsKept_of_eq {s t : State} (hp : t.ports = s.ports) (hc : t.claimed = s.claimed)
    (ha : t.active = s.active := by rfl) : PortsKept s t :=
  ⟨fun q => by rw [port_eq_of_ports hp]; exact .refl _, hc, ha⟩

theorem portsKept_setPort (s : State) (p : PortId) {x : Port} (h : PortKept (s.port p) x) : PortsKept s (s.setPort p x) := by
  refine ⟨fun q => ?_, rfl, rfl⟩
  rw [port_setPort]
  split
  · rename_i hq
    subst hq
    exact h
  · exact .refl _

theorem portsKept_work {p : PortId} {s t : State} (h : PortWork p s t) (hp : PortKept (s.port p) (t.port p)) :
    PortsKept s t := by
  refine ⟨fun q => ?_, h.claimed, h.active⟩
  by_cases hq : q = p
  · subst hq
    exact hp
  · rw [h.port q hq]
    exact .refl _

theorem portsKept_quietRows {s t : State} (h : QuietRows s t) : PortsKept s t :=
  portsKept_of_eq h.ports h.quiet.claimed h.active

theorem portsKept_settleStep (s : State) : PortsKept s s.settleStep := by
  have h := settleStep_frame s
  exact portsKept_of_eq (by rw [h]) (by unfold State.claimed; rw [h]) (by rw [h])

theorem portsKept_haltIfDone (s : State) : PortsKept s s.haltIfDone := by
  unfold State.haltIfDone
  split
  · exact portsKept_of_eq rfl rfl
  · exact .refl _

theorem portsKept_freeSlotsOf (s : State) (r : RowId) : PortsKept s (s.freeSlotsOf r) := by
  refine ⟨fun q => ?_, rfl, rfl⟩
  have e : (s.freeSlotsOf r).port q = { s.port q with
      rxOwner := releaseSlots (s.port q).rxOwner r, txOwner := releaseSlots (s.port q).txOwner r } := by
    simp only [State.port, State.freeSlotsOf, Fin.getElem_fin, vecMap_getElem]
  rw [e]
  exact ⟨rfl, rfl, rfl, rfl, rfl, rfl⟩

theorem portsKept_setRow (s : State) (r : RowId) (x : Row) : PortsKept s (s.setRow r x) := portsKept_of_eq rfl rfl

theorem portsKept_joinSettlement (s : State) (r : RowId) : PortsKept s (s.joinSettlement r) := portsKept_of_eq rfl rfl

theorem portsKept_handNotice (s : State) (k : NoticeKind) (a b : Nat) (c d : Word) :
    PortsKept s (s.handNotice k a b c d) :=
  portsKept_of_eq rfl rfl

/-- The end of the entry at the head of the Action Queue. -/
theorem portsKept_finished (s : State) (r : RowId) (a : Action) : PortsKept s (s.actionResult r a).entryDone :=
  portsKept_of_eq rfl rfl

theorem portsKept_endLive (s : State) (r : RowId) (e : EndReason) : PortsKept s (s.endLive r e) := by
  rw [endLive_form]
  exact ((((portsKept_freeSlotsOf s r).trans (portsKept_setRow _ _ _)).trans (portsKept_joinSettlement _ _)).trans
    (portsKept_handNotice _ _ _ _ _ _)).trans (portsKept_haltIfDone _)

theorem portsKept_scheduleEnd (s : State) (r : RowId) (e : EndReason) : PortsKept s (s.scheduleEnd r e) :=
  (portsKept_endLive _ _ _).trans (portsKept_settleStep _)

theorem portsKept_endMissed (s : State) (r : RowId) : PortsKept s (s.endMissed r) :=
  (portsKept_of_eq (s := s) (t := ((s.setRow r ((s.row r).endMissed s.now)).joinSettlement r).handNotice .bookingEnded
    r.val EndReason.missed.code (timeLow s.now) 0) rfl rfl).trans (portsKept_settleStep _)

theorem portsKept_allocate (s : State) (r : RowId) : PortsKept s (s.allocate r) := by
  unfold State.allocate
  extract_lets c
  have h : ∀ (l : List PortId) (t : State), PortsKept s t →
      PortsKept s (l.foldl (fun s d => s.allocTx (s.logical d) (slotCount c) r) t) := by
    intro l
    induction l with
    | nil => exact fun t h => h
    | cons d l ih => exact fun t h => ih _ (h.trans (portsKept_setPort t _ ⟨rfl, rfl, rfl, rfl, rfl, rfl⟩))
  exact h _ _ (portsKept_setPort s _ ⟨rfl, rfl, rfl, rfl, rfl, rfl⟩)

theorem portsKept_takeCommand (s : State) (p : PortId) (c : MaintCommand) : PortsKept s (s.takeCommand p c) := by
  obtain ⟨ch, h, h1, h2, h3⟩ := takeCommand_port s p c
  exact portsKept_work (portWork_takeCommand _ _ _) (by rw [h]; exact ⟨rfl, rfl, h1, h2, h3, rfl⟩)

theorem portsKept_transmit (s : State) (p : PortId) : PortsKept s (s.transmit p) := by
  have hr : (s.proverAfterSend p).running = s.prover.running ∧ (s.proverAfterSend p).port = s.prover.port := by
    unfold State.proverAfterSend
    split <;> exact ⟨rfl, rfl⟩
  unfold State.transmit
  split
  · exact .refl _
  · refine (portsKept_setPort s p (x := (s.port p).sent (s.payloadFor p)) ⟨rfl, rfl, rfl, rfl, rfl, rfl⟩).trans
      (portsKept_of_eq rfl ?_)
    simp only [State.claimed, hr.1, hr.2]
    rfl

/-! A property of the ports -/

/-- A property that reads only what `PortsKept` keeps, and that the operations which touch that keep. -/
structure PortLaw (P : State → Prop) : Prop where
  same : ∀ {s t}, PortsKept s t → P s → P t
  testEnd : ∀ s o, P s → P (s.proverEnd o)
  attach : ∀ s, s.attachOk = true → P s → P s.takeAttach
  cycle : ∀ s p iv, P s → P (s.cycleEvent p iv)
  config : ∀ s p v, P s → P (s.takeConfig p v)
  select : ∀ s p v, P s → P (s.takeSelect p v)
  cold : ∀ s b, P (State.resetWith s b)

variable {P : State → Prop}

/-- Fields that the property does not read may change. -/
theorem PortLaw.of_eq (h : PortLaw P) {s t : State} (hs : P s) (hp : t.ports = s.ports) (hc : t.claimed = s.claimed)
    (ha : t.active = s.active := by rfl) : P t :=
  h.same (portsKept_of_eq hp hc ha) hs

theorem PortLaw.goLiveRow (h : PortLaw P) (s : State) (r : RowId) (l : Bool) (hs : P s) : P (s.goLiveRow r l) := by
  have h1 : P (s.proverPreempt (s.row r).captured) := by
    unfold State.proverPreempt
    split
    · exact kept_ite (h.testEnd _ _ hs) hs
    · exact hs
  have h2 := h.same (portsKept_allocate _ r) h1
  unfold State.goLiveRow
  dsimp only
  generalize (s.proverPreempt (s.row r).captured).allocate r = u at *
  have h3 : P (u.setRow r ((u.row r).started s.now l)) := h.of_eq h2 rfl rfl
  have h4 := h.same (portsKept_quietRows (quietRows_reevaluate _ r)) h3
  generalize State.reevaluate _ r = w at *
  exact h.of_eq h4 rfl rfl

theorem kept_forRows {f : RowId → State → State} (h : ∀ r s, P s → P (f r s)) {s : State} (hs : P s) :
    P (s.forRows f) := by
  unfold State.forRows
  exact kept_foldl (f := fun s r => f r s) (fun s r => h r s) _ s hs

theorem PortLaw.startRow (h : PortLaw P) (s : State) (r : RowId) (hs : P s) : P (s.startRow r) := by
  unfold State.startRow
  have h1 := h.same (portsKept_endMissed s r) hs
  exact kept_ite (kept_ite h1 (kept_ite (kept_ite (h.goLiveRow _ _ _ hs) h1)
    (kept_ite (h.goLiveRow _ _ _ hs) hs))) hs

theorem PortLaw.takeStart (h : PortLaw P) (s : State) (hs : P s) : P s.takeStart := by
  unfold State.takeStart
  exact kept_forRows (f := fun r s => s.startRow r) (fun r s => h.startRow s r) (h.of_eq hs rfl rfl)

theorem PortLaw.takeAction (h : PortLaw P) (s : State) (w : WinWord) (v : Word) (hs : P s) : P (s.takeAction w v) := by
  unfold State.takeAction
  split
  · unfold State.takeFabric
    exact kept_ite (h.takeStart _ hs)
      (kept_ite (h.same (portsKept_haltIfDone _) (h.of_eq (t := s.setFabric .stopping) hs rfl rfl)) hs)
  · exact kept_ite (h.of_eq hs rfl rfl) hs
  · unfold State.takeProver
    split
    · split
      · exact h.attach _ ‹_› hs
      · exact hs
    · split
      · unfold State.takeDetach
        exact kept_ite (h.testEnd _ _ hs) hs
      · exact hs
  · unfold State.takeMaint
    split
    · exact h.same (portsKept_takeCommand _ _ _) hs
    · exact hs
  · unfold State.takeCapture
    exact kept_ite (h.same (portsKept_setPort _ _ ⟨rfl, rfl, rfl, rfl, rfl, rfl⟩) hs)
      (h.same (portsKept_setPort _ _ ⟨rfl, rfl, rfl, rfl, rfl, rfl⟩) hs)
  · exact h.select _ _ _ hs
  · unfold State.takeControl
    repeat' apply kept_ite
    all_goals first
      | exact hs
      | exact h.of_eq hs rfl rfl
  · exact hs

theorem PortLaw.captureWord (h : PortLaw P) (s : State) (w : WinWord) (v : Word) (hs : P s) : P (s.captureWord w v) := by
  unfold State.captureWord
  split
  · unfold State.takeConsume
    exact kept_ite (h.of_eq hs rfl rfl) hs
  · unfold State.takeRelease
    split
    · have h1 : P { s with settle := { s.settle with release := v.extractLsb' 0 10 } } := h.of_eq hs rfl rfl
      exact kept_ite (h.same (portsKept_settleStep _) h1) h1
    · exact hs
  · exact h.config _ _ _ hs
  · unfold State.captureStaging
    split
    · exact h.of_eq hs rfl rfl
    · exact h.of_eq hs rfl rfl
    · split
      · exact hs
      · rename_i hr
        refine h.of_eq hs rfl ?_
        simp only [State.claimed, hr]
        rfl
    · split
      · exact hs
      · rename_i hr
        refine h.of_eq hs rfl ?_
        simp only [State.claimed, hr]
    · exact h.of_eq hs rfl rfl
    · exact hs

theorem PortLaw.answerEffect (h : PortLaw P) (s : State) (w : WinWord) (hs : P s) : P (s.answerEffect w) := by
  unfold State.answerEffect
  split
  · exact h.of_eq hs rfl rfl
  · exact h.same (portsKept_setPort _ _ ⟨rfl, rfl, rfl, rfl, rfl, rfl⟩) hs
  · exact h.same (portsKept_setPort _ _ ⟨rfl, rfl, rfl, rfl, rfl, rfl⟩) hs
  · exact h.same (portsKept_setPort _ _ ⟨rfl, rfl, rfl, rfl, rfl, rfl⟩) hs
  · exact kept_ite (h.of_eq hs rfl rfl) hs
  · exact hs

theorem PortLaw.proverHandle (h : PortLaw P) (s : State) (hs : P s) : P s.proverHandle := by
  unfold State.proverHandle
  split
  · split
    · have h1 : P { s with proverDue := false, prover := s.prover.countMs } :=
        h.of_eq hs rfl (by simp only [State.claimed, Prover.countMs]; rfl)
      exact kept_ite (h.testEnd _ _ h1) h1
    · exact h.of_eq hs rfl rfl
  · exact hs

theorem PortLaw.meterHandle (h : PortLaw P) (s : State) (hs : P s) : P s.meterHandle := by
  unfold State.meterHandle
  exact kept_ite (h.of_eq hs rfl rfl) hs

theorem PortLaw.withPass (h : PortLaw P) {s : State} (x : SchedulerPass) (hs : P s) : P { s with pass := x } :=
  h.of_eq hs rfl rfl

theorem PortLaw.schedulerHandle (h : PortLaw P) (s : State) (hs : P s) : P s.schedulerHandle := by
  have starts : ∀ (n : Nat) (u : State), P u → P (u.runStarts n) := by
    intro n u hu
    unfold State.runStarts
    exact kept_forRows (fun r s hs => kept_ite (h.goLiveRow _ _ _ hs) hs) hu
  have ends : ∀ (n : Nat) (u : State), P u → P (u.runEnds n) := by
    intro n u hu
    unfold State.runEnds
    exact kept_forRows (fun r s hs => kept_ite (h.same (portsKept_scheduleEnd _ _ _) hs) hs) hu
  unfold State.schedulerHandle
  split
  · exact hs
  · exact kept_ite (h.withPass _ hs) (h.withPass _ (starts _ _ (ends _ _ hs)))
  · exact h.withPass _ (starts _ _ hs)

theorem PortLaw.msPart (h : PortLaw P) (s : State) (x : MsPart) (hs : P s) : P (s.msPart x) := by
  cases x
  · show P s.advanceTime
    unfold State.advanceTime
    exact kept_ite hs (h.of_eq (s := s.meterHandle.proverHandle.schedulerHandle)
      (h.schedulerHandle _ (h.proverHandle _ (h.meterHandle _ hs))) rfl rfl)
  · exact h.meterHandle _ hs
  · exact h.proverHandle _ hs
  · exact h.schedulerHandle _ hs

theorem portsKept_beginPost (s : State) : PortsKept s s.beginPost := by
  unfold State.beginPost
  split
  · exact portsKept_of_eq rfl rfl
  · exact .refl _

theorem portsKept_finishPost (s : State) (r : RowId) (ws : Vector Word 16) : PortsKept s (s.finishPost r ws) := by
  unfold State.finishPost
  exact (portsKept_setRow _ _ _).trans (portsKept_finished _ _ _)

theorem portsKept_runAmend (s : State) (r : RowId) : PortsKept s (s.runAmend r) := by
  unfold State.runAmend
  exact ((portsKept_setRow _ _ _).trans (portsKept_finished _ _ _)).trans (portsKept_settleStep _)

theorem portsKept_runCancel (s : State) (r : RowId) : PortsKept s (s.runCancel r) := by
  have h : PortsKept s (s.cancelEffect r) := by
    unfold State.cancelEffect
    split
    · exact portsKept_setRow _ _ _
    · exact portsKept_endLive _ _ _
    all_goals exact .refl _
  unfold State.runCancel
  dsimp only
  generalize s.cancelEffect r = u at *
  exact ((h.trans (portsKept_setRow _ _ _)).trans (portsKept_finished _ _ _)).trans (portsKept_settleStep _)

theorem portsKept_completeRecord (s : State) : PortsKept s s.completeRecord := by
  unfold State.completeRecord
  split
  · exact .refl _
  · refine PortsKept.trans ?_ (portsKept_settleStep _)
    exact portsKept_of_eq rfl rfl

/-- Every operation of every block keeps a property of the ports. -/
theorem PortLaw.kept (h : PortLaw P) : KeptByBlocks P where
  blind s m q l hs := h.of_eq hs rfl rfl
  action := h.takeAction
  capture := h.captureWord
  answer := h.answerEffect
  cold s b _ := h.cold s b
  ms := h.msPart
  cycle := h.cycle
  transmit s p hs := h.same (portsKept_transmit s p) hs
  beginPost s hs := h.same (portsKept_beginPost s) hs
  finishPost s r ws hs := h.same (portsKept_finishPost s r ws) hs
  runAmend s r hs := h.same (portsKept_runAmend s r) hs
  runCancel s r hs := h.same (portsKept_runCancel s r) hs
  goLive s r _ hs := h.withPass _ (h.goLiveRow _ _ _ hs)
  schedEnd s r _ hs := h.withPass _ (h.same (portsKept_scheduleEnd _ _ _) hs)
  stopEnd s r hs := h.same (portsKept_scheduleEnd _ _ _) hs
  prover := h.proverHandle
  notice s hs := h.of_eq hs rfl rfl
  settle s hs := h.same (portsKept_settleStep _) hs
  complete s hs := h.same (portsKept_completeRecord s) hs

end Sys2Proof.Machine
end

