-- ==== Sys2Proof/Laws/Starting.lean ====
section
/-! SUPPORT. The end of a line test, and a go-live: all that each changes, and the notices each hands. -/

namespace Sys2Proof.Machine

/-! The conditions of ATTACH (R114) -/

theorem isLive_iff (x : Row) : x.isLive = true ↔ x.state = .live := by
  unfold Row.isLive
  rw [beq_iff_eq]

/-- R114: the judgement of ATTACH, with port `p` staged. -/
theorem attachOk_port {s : State} {p : PortId} (h : s.prover.port = BitVec.ofNat 32 p.val) :
    s.attachOk = true ↔ s.attachAllowed p := by
  have e : portOfNat s.prover.port.toNat = some p := by
    rw [h]
    exact portOfNat_val p
  have live : s.liveUses (s.logical p) = false ↔
      ∀ r, (s.row r).state = .live → ¬s.booksPort (s.row r).captured (s.logical p) := by
    unfold State.liveUses
    rw [anyRow_eq_false]
    refine forall_congr' fun r => ?_
    rw [← uses_iff, ← isLive_iff]
    cases (s.row r).isLive <;> cases s.uses (s.row r).captured (s.logical p) <;> simp
  have held : s.noHeldBefore (s.logical p) s.prover.duration.toNat = true ↔
      ∀ r, (s.row r).state = .held → s.booksPort (s.row r).captured (s.logical p) →
        s.now.toNat + s.prover.duration.toNat ≤ (bookedStart (s.row r).captured).toNat := by
    unfold State.noHeldBefore
    rw [Bool.not_eq_true', anyRow_eq_false]
    refine forall_congr' fun r => ?_
    rw [← uses_iff, ← Bool.not_eq_true, Bool.and_eq_true, Bool.and_eq_true, beq_iff_eq, decide_eq_true_iff]
    exact ⟨fun a b d => Nat.le_of_not_lt fun hl => a ⟨⟨b, d⟩, hl⟩, fun a b => absurd (a b.1.1 b.1.2) (Nat.not_le.mpr b.2)⟩
  unfold State.attachOk State.attachAllowed State.attachPortOk
  rw [e]
  simp only [Bool.and_eq_true, Bool.or_eq_true, Bool.not_eq_true', decide_eq_true_iff, live, held,
    ← unpairedOrActive_iff, forall_and, h]
  generalize (∀ r, (s.row r).state = .live → ¬s.booksPort (s.row r).captured (s.logical p)) = a
  generalize (∀ r, (s.row r).state = .held → s.booksPort (s.row r).captured (s.logical p) →
    s.now.toNat + s.prover.duration.toNat ≤ (bookedStart (s.row r).captured).toNat) = b
  cases s.unpairedOrActive p <;> simp <;> grind

/-- R114: ATTACH is accepted exactly where its conditions hold of some port, the staged one. -/
theorem attachOk_iff (s : State) : s.attachOk = true ↔ ∃ p, s.attachAllowed p := by
  refine ⟨fun h => ?_, fun ⟨p, h⟩ => (attachOk_port h.2.1).mpr h⟩
  have hp : ∃ p : PortId, s.prover.port = BitVec.ofNat 32 p.val := by
    unfold State.attachOk portOfNat at h
    by_cases hl : s.prover.port.toNat < 24
    · exact ⟨⟨s.prover.port.toNat, hl⟩, by simp⟩
    · rw [dif_neg hl, Bool.and_false] at h
      cases h
  obtain ⟨p, hp⟩ := hp
  exact ⟨p, (attachOk_port hp).mp h⟩

/-! The end of a test (R120) -/

/-- The state after the first part of a test's end: the prover IDLE and PROVER_DONE handed. -/
def State.proverStopped (s : State) (o : ProverOutcome) : State :=
  ({ s with prover := { s.prover with running := false, outcome := o } } : State).handNotice .proverDone
    (s.prover.port.toNat % 256) o.code s.prover.elapsed s.prover.errorBits

theorem proverEnd_form (s : State) (o : ProverOutcome) : s.proverEnd o =
    match portOfNat s.prover.port.toNat with
    | some p => (s.proverStopped o).recompose p
    | none => s.proverStopped o := rfl

/-- R120: after the test's stop the rest is the Cross-Connect's work. -/
theorem proverEnd_quiet (s : State) (o : ProverOutcome) : Quiet (s.proverStopped o) (s.proverEnd o) := by
  rw [proverEnd_form]
  split
  · exact quiet_recompose _ _
  · exact Quiet.refl _

/-- From `s` to `t` a running test ended with an outcome, and all else is the Cross-Connect's work. -/
structure TestEnded (o : ProverOutcome) (s t : State) : Prop where
  prover : t.prover = { s.prover with running := false, outcome := o }
  row : ∀ r, RowKept (s.row r) (t.row r)
  port : ∀ p, t.port p = { s.port p with carrying := (t.port p).carrying }
  notice : s.roomFor 1 → s.hands t .proverDone (s.prover.port.toNat % 256) o.code s.prover.elapsed s.prover.errorBits
  fabric : t.fabric = s.fabric
  now : t.now = s.now
  settle : t.settle = s.settle
  queue : t.actionQueue = s.actionQueue
  claimed : t.claimed = none
  mem : t.mem = s.mem
  due : t.proverDue = s.proverDue

theorem testEnded (s : State) (o : ProverOutcome) : TestEnded o s (s.proverEnd o) := by
  have h := proverEnd_quiet s o
  exact {
    prover := h.prover
    row := h.row
    port := h.port
    notice := fun room =>
      hands_within (handNotice_hands (s := { s with prover := { s.prover with running := false, outcome := o } }) room
        _ _ _ _ _) List.prefix_rfl rfl h.calm.inWriting
    fabric := h.fabric
    now := h.now
    settle := h.settle
    queue := h.actionQueue
    claimed := by
      unfold State.claimed
      rw [h.prover]
      rfl
    mem := h.mem
    due := by
      rw [h.rest]
      rfl }

/-! A preemption (R122) -/

/-- R122: a preemption ends the test where the row uses the claimed port's logical port and the port is unpaired or
active, and changes nothing elsewhere. -/
theorem proverPreempt_claimed {s : State} {p : PortId} (w : Vector Word 8) (h : s.claimed = some p) :
    (s.booksPort w (s.logical p) ∧ s.unpairedOrActive p = true → s.proverPreempt w = s.proverEnd .preempted)
      ∧ (¬(s.booksPort w (s.logical p) ∧ s.unpairedOrActive p = true) → s.proverPreempt w = s) := by
  have e : s.proverPreempt w = if s.uses w (s.logical p) && s.unpairedOrActive p then s.proverEnd .preempted else s := by
    unfold State.proverPreempt
    rw [h]
  rw [e, ← uses_iff]
  refine ⟨fun hc => ?_, fun hc => ?_⟩
  · rw [if_pos (by rw [hc.1, hc.2]; rfl)]
  · rw [if_neg]
    rw [Bool.and_eq_true]
    exact hc

theorem proverPreempt_idle {s : State} (w : Vector Word 8) (h : s.prover.running = false) : s.proverPreempt w = s := by
  unfold State.proverPreempt State.claimed
  rw [h]
  rfl

/-- A preemption ends a test, or changes nothing. -/
theorem proverPreempt_either (s : State) (w : Vector Word 8) :
    TestEnded .preempted s (s.proverPreempt w) ∨ s.proverPreempt w = s := by
  unfold State.proverPreempt
  split
  · split
    · exact Or.inl (testEnded s _)
    · exact Or.inr rfl
  · exact Or.inr rfl

/-! A go-live (R41) -/

/-- R56: an allocation writes the slots' owners and nothing else. -/
theorem allocate_frame (s : State) (r : RowId) : s.allocate r = { s with ports := (s.allocate r).ports } := by
  unfold State.allocate
  dsimp only
  have h : ∀ (n : Nat) (l : List PortId) (u : State),
      l.foldl (fun t d => t.allocTx (t.logical d) n r) u
        = { u with ports := (l.foldl (fun t d => t.allocTx (t.logical d) n r) u).ports } := by
    intro n l
    induction l with
    | nil => exact fun _ => rfl
    | cons d l ih =>
      intro u
      rw [List.foldl_cons, ih]
      rfl
  rw [h]
  rfl

/-- From `s` to `t` HELD row `r` went live. -/
structure Started (r : RowId) (late : Bool) (s t : State) : Prop where
  row : t.row r = ((s.row r).started s.now late).reheld (t.feedHealth (s.row r).captured)
  other : ∀ q, q ≠ r → RowKept (s.row q) (t.row q)
  live : t.roomFor 1 → s.hands t .bookingLive r.val late.toNat (timeLow (s.row r).currentEnd)
    (timeLow (bookedStart (s.row r).captured))
  health : t.feedHealth (s.row r).captured ≠ .healthy → t.roomFor 1 →
    s.hands t .feedHealth r.val (t.feedHealth (s.row r).captured).code 0
      (BitVec.ofNat 32 (t.sourcePath (s.row r).captured).val)
  test : (TestEnded .preempted s (s.proverPreempt (s.row r).captured) ∧ t.prover = { s.prover with
      running := false, outcome := .preempted } ∧ (s.roomFor 1 → s.hands t .proverDone (s.prover.port.toNat % 256)
        ProverOutcome.preempted.code s.prover.elapsed s.prover.errorBits))
    ∨ (s.proverPreempt (s.row r).captured = s ∧ t.prover = s.prover)
  fabric : t.fabric = s.fabric
  now : t.now = s.now
  settle : t.settle = s.settle
  queue : t.actionQueue = s.actionQueue

/-- The state in which a row that goes live is re-evaluated: preempted, its slots taken, its meter started. -/
def State.rowStarted (s : State) (r : RowId) (late : Bool) : State :=
  let w := (s.proverPreempt (s.row r).captured).allocate r
  w.setRow r ((w.row r).started s.now late)

theorem goLiveRow_form (s : State) (r : RowId) (late : Bool) : s.goLiveRow r late =
    ((s.rowStarted r late).reevaluate r).handNotice .bookingLive r.val late.toNat (timeLow (s.row r).currentEnd)
      (timeLow (bookedStart (s.row r).captured)) := rfl

/-- What stands of a state at the re-evaluation. -/
theorem rowStarted_facts {s : State} {r : RowId} (late : Bool) (held : (s.row r).state = .held) :
    (s.rowStarted r late).row r = (s.row r).started s.now late
      ∧ (∀ q, q ≠ r → RowKept (s.row q) ((s.rowStarted r late).row q)) ∧ Calm s (s.rowStarted r late)
      ∧ (s.rowStarted r late).fabric = s.fabric ∧ (s.rowStarted r late).now = s.now
      ∧ (s.rowStarted r late).settle = s.settle ∧ (s.rowStarted r late).actionQueue = s.actionQueue
      ∧ (s.rowStarted r late).prover = (s.proverPreempt (s.row r).captured).prover := by
  unfold State.rowStarted
  dsimp only
  generalize hw : s.proverPreempt (s.row r).captured = w
  have calm : Calm s w := by rw [← hw]; exact calm_proverPreempt _ _
  have rows : ∀ q, RowKept (s.row q) (w.row q) := fun q => by rw [← hw]; exact proverPreempt_row _ _ q
  have rest : w.fabric = s.fabric ∧ w.now = s.now ∧ w.settle = s.settle ∧ w.actionQueue = s.actionQueue := by
    rw [← hw]
    rcases proverPreempt_either s (s.row r).captured with h | h
    · exact ⟨h.fabric, h.now, h.settle, h.queue⟩
    · rw [h]
      exact ⟨rfl, rfl, rfl, rfl⟩
  have here : w.row r = s.row r := (rows r).2 (by rw [held]; decide)
  have hf := allocate_frame w r
  have row : ∀ q, (w.allocate r).row q = w.row q := fun q => row_eq_of_rows (by rw [hf]) q
  have calm2 := calm.trans (calm_allocate w r)
  have kept : (w.allocate r).fabric = w.fabric ∧ (w.allocate r).now = w.now ∧ (w.allocate r).settle = w.settle
      ∧ (w.allocate r).actionQueue = w.actionQueue ∧ (w.allocate r).prover = w.prover := by
    rw [hf]
    exact ⟨rfl, rfl, rfl, rfl, rfl⟩
  generalize w.allocate r = u at *
  refine ⟨?_, fun q hq => ?_, calm2.trans (calm_setRow u r _), kept.1.trans rest.1, kept.2.1.trans rest.2.1,
    kept.2.2.1.trans rest.2.2.1, kept.2.2.2.1.trans rest.2.2.2, kept.2.2.2.2⟩
  · rw [row_setRow, if_pos rfl, row, here]
  · rw [row_setRow, if_neg hq, row]
    exact rows q

/-- R41: a go-live. -/
theorem started_goLiveRow {s : State} {r : RowId} (late : Bool) (held : (s.row r).state = .held) :
    Started r late s (s.goLiveRow r late) := by
  obtain ⟨h1, h2, calm, h4, h5, h6, h7, h8⟩ := rowStarted_facts late held
  have pre := proverPreempt_either s (s.row r).captured
  have told : (s.proverPreempt (s.row r).captured).notice.inWriting <+: (s.rowStarted r late).notice.inWriting :=
    (calm_allocate (s.proverPreempt (s.row r).captured) r).inWriting
  rw [goLiveRow_form]
  generalize hv : s.rowStarted r late = v at *
  have hq := quiet_reevaluate v r
  have after := (calm_handNotice (v.reevaluate r) .bookingLive r.val late.toNat (timeLow (s.row r).currentEnd)
    (timeLow (bookedStart (s.row r).captured)))
  have feed : ((v.reevaluate r).handNotice .bookingLive r.val late.toNat (timeLow (s.row r).currentEnd)
      (timeLow (bookedStart (s.row r).captured))).feedHealth (s.row r).captured = v.feedHealth (s.row r).captured :=
    feedHealth_congr (reevaluate_ports v r).1 (reevaluate_ports v r).2 _
  have path : ((v.reevaluate r).handNotice .bookingLive r.val late.toNat (timeLow (s.row r).currentEnd)
      (timeLow (bookedStart (s.row r).captured))).sourcePath (s.row r).captured = v.sourcePath (s.row r).captured :=
    sourcePath_congr (reevaluate_ports v r).1 (reevaluate_ports v r).2 _
  have kept : (v.row r).captured = (s.row r).captured ∧ (v.row r).state = .live ∧ (v.row r).health = .healthy := by
    rw [h1]
    exact ⟨rfl, rfl, rfl⟩
  exact {
    row := by rw [feed, handNotice_row, reevaluate_row, if_pos rfl, kept.1, h1]
    other := fun q hne => by
      rw [handNotice_row, reevaluate_row_ne _ hne]
      exact h2 q hne
    live := fun room => by
      have hr := after.room room
      exact hands_within (handNotice_hands hr _ _ _ _ _) (calm.inWriting.trans hq.calm.inWriting)
        (hq.now.trans h5) List.prefix_rfl
    health := fun hne room => by
      rw [feed] at hne ⊢
      rw [path]
      have hr := hq.calm.room (after.room room)
      have e := reevaluate_eq v r
      rw [kept.1, kept.2.1, kept.2.2, if_pos ⟨rfl, hne⟩] at e
      have h := handNotice_hands (s := v.setRow r ((v.row r).setHealth (v.feedHealth (s.row r).captured))) hr
        .feedHealth r.val (v.feedHealth (s.row r).captured).code (BitVec.ofNat 32 Health.healthy.code)
        (BitVec.ofNat 32 (v.sourcePath (s.row r).captured).val)
      rw [← e] at h
      exact hands_within h calm.inWriting h5 after.inWriting
    test := by
      rcases pre with h | h
      · exact Or.inl ⟨h, (hq.prover.trans h8).trans h.prover, fun room =>
          hands_within (h.notice room) List.prefix_rfl rfl ((told.trans hq.calm.inWriting).trans after.inWriting)⟩
      · exact Or.inr ⟨h, (hq.prover.trans h8).trans (by rw [h])⟩
    fabric := hq.fabric.trans h4
    now := hq.now.trans h5
    settle := hq.settle.trans h6
    queue := hq.actionQueue.trans h7 }

/-! The events of the Line Prover that recompose a carrying flag (R59, R115, R120) -/

/-- From `s` to `t` the flag of port `p` was recomposed for the Line Prover: what a change of it does, and nothing
else to rows and members. -/
structure Recomposed (p : PortId) (s t : State) : Prop where
  loss : (t.port p).inputLoss.value = (s.port p).inputLoss.value
  changed : (t.port p).carrying ≠ (s.port p).carrying → CarryingTaken p s t
  same : (t.port p).carrying = (s.port p).carrying → t.active = s.active ∧ ∀ r, t.row r = s.row r

/-- A recomposition inside a longer step, with rows, members and ports as they stood before it. -/
theorem recomposed_within {s u t : State} {p : PortId} (h1 : u.rows = s.rows) (h2 : u.active = s.active)
    (h3 : u.ports = s.ports) (h4 : u.now = s.now) (h5 : s.notice.inWriting <+: u.notice.inWriting)
    (k1 : t.notice = (u.recompose p).notice) (k2 : t.rows = (u.recompose p).rows)
    (k3 : t.active = (u.recompose p).active) (k4 : t.ports = (u.recompose p).ports) : Recomposed p s t := by
  have hp : t.port p = { s.port p with carrying := u.mayCarry p } := by
    rw [port_eq_of_ports k4, recompose_port, if_pos rfl, port_eq_of_ports h3]
  have hc : (u.port p).carrying = (s.port p).carrying := by rw [port_eq_of_ports h3]
  refine ⟨by rw [hp], fun hne => ?_, fun he => ?_⟩
  · have h := carryingTaken_recompose (s := u) (p := p) (by rw [hc, ← port_eq_of_ports k4]; exact hne)
    exact h.within h1 h2 (fun q => by rw [port_eq_of_ports h3]) h4 h5 k1 k2 k3 k4
  · have e := recompose_idle (s := u) (p := p) (by rw [hc, ← he, hp])
    rw [e] at k2 k3
    exact ⟨k3.trans h2, fun r => row_eq_of_rows (k2.trans h1) r⟩

theorem recomposed_idle (p : PortId) {s t : State} (h1 : t.rows = s.rows) (h2 : t.active = s.active)
    (h3 : t.ports = s.ports) : Recomposed p s t :=
  ⟨by rw [port_eq_of_ports h3], fun h => absurd (by rw [port_eq_of_ports h3]) h,
    fun _ => ⟨h2, fun r => row_eq_of_rows h1 r⟩⟩

/-- R120: the end of a test, inside a longer step. -/
theorem recomposed_proverEnd {s u t : State} {p : PortId} (o : ProverOutcome)
    (hp : u.prover.port = BitVec.ofNat 32 p.val) (h1 : u.rows = s.rows) (h2 : u.active = s.active)
    (h3 : u.ports = s.ports) (h4 : u.now = s.now) (h5 : s.notice.inWriting <+: u.notice.inWriting)
    (k1 : t.notice = (u.proverEnd o).notice) (k2 : t.rows = (u.proverEnd o).rows)
    (k3 : t.active = (u.proverEnd o).active) (k4 : t.ports = (u.proverEnd o).ports) : Recomposed p s t := by
  have e : u.proverEnd o = (u.proverStopped o).recompose p := by
    rw [proverEnd_form, hp, portOfNat_val]
  rw [e] at k1 k2 k3 k4
  refine recomposed_within (u := u.proverStopped o) h1 h2 h3 h4 (h5.trans ?_) k1 k2 k3 k4
  exact (calm_handNotice ({ u with prover := { u.prover with running := false, outcome := o } } : State)
    _ _ _ _ _).inWriting

/-! START (R35, R45) -/

/-- What the judgement of one row at START leaves, for the rows after it. -/
structure StartKept (s t : State) : Prop where
  fabric : t.fabric = s.fabric
  now : t.now = s.now
  queue : t.actionQueue = s.actionQueue
  calm : Calm s t
  waits : ∀ r, (r ∈ s.settle.queue ∨ ∃ w, s.settle.writing = some w ∧ w.row = r) →
    (r ∈ t.settle.queue ∨ ∃ w, t.settle.writing = some w ∧ w.row = r)

theorem StartKept.refl (s : State) : StartKept s s := ⟨rfl, rfl, rfl, Calm.rfl', fun _ h => h⟩

theorem StartKept.trans {s t u : State} (a : StartKept s t) (b : StartKept t u) : StartKept s u :=
  ⟨b.fabric.trans a.fabric, b.now.trans a.now, b.queue.trans a.queue, a.calm.trans b.calm,
    fun r h => b.waits r (a.waits r h)⟩

theorem startKept_settleStep (s : State) : StartKept s s.settleStep := by
  have hf := settleStep_frame s
  refine ⟨by rw [hf], by rw [hf], by rw [hf], calm_settleStep s, fun r h => ?_⟩
  rcases h with h | ⟨w, h, hw⟩
  · exact settleStep_member s r h
  · refine Or.inr ⟨w, ?_, hw⟩
    unfold State.settleStep
    split
    · exact h
    · rename_i hn
      rw [h] at hn
      cases hn

/-- From `s` to `t` row `r` ended MISSED: its meter row, its place in the Settlement Queue and BOOKING_ENDED (R45). -/
structure Missed (r : RowId) (s t : State) : Prop where
  kept : StartKept s t
  row : ∀ q, t.row q = if q = r then (s.row r).endMissed s.now else s.row q
  waits : r ∈ t.settle.queue ∨ ∃ w, t.settle.writing = some w ∧ w.row = r
  notice : s.roomFor 1 → s.hands t .bookingEnded r.val 3 (timeLow s.now) 0

theorem missed_endMissed (s : State) (r : RowId) : Missed r s (s.endMissed r) := by
  generalize hu : ((s.setRow r ((s.row r).endMissed s.now)).joinSettlement r).handNotice .bookingEnded r.val
    EndReason.missed.code (timeLow s.now) 0 = u
  have e : s.endMissed r = u.settleStep := by
    rw [← hu]
    rfl
  have k : StartKept s u := by
    rw [← hu]
    refine ⟨rfl, rfl, rfl, ?_, fun q h => ?_⟩
    · exact ((calm_setRow s r _).trans (calm_joinSettlement _ r)).trans (calm_handNotice _ _ _ _ _ _)
    · show q ∈ s.settle.queue ++ [r] ∨ _
      rcases h with h | h
      · exact Or.inl (List.mem_append_left _ h)
      · exact Or.inr h
  rw [e]
  refine ⟨k.trans (startKept_settleStep u), fun q => ?_, settleStep_member u r ?_, fun room => ?_⟩
  · rw [row_eq_of_rows (show u.settleStep.rows = u.rows by rw [settleStep_frame]), ← hu, handNotice_row]
    show (s.setRow r _).row q = _
    rw [row_setRow]
  · rw [← hu]
    show r ∈ s.settle.queue ++ [r]
    simp
  · have h := handNotice_hands (s := (s.setRow r ((s.row r).endMissed s.now)).joinSettlement r) room .bookingEnded r.val
      EndReason.missed.code (timeLow s.now) 0
    rw [hu] at h
    exact hands_within h List.prefix_rfl rfl (calm_settleStep u).inWriting

theorem Started.kept {s t : State} {r : RowId} {l : Bool} (h : Started r l s t) (c : Calm s t) : StartKept s t :=
  ⟨h.fabric, h.now, h.queue, c, fun q hq => by rw [h.settle]; exact hq⟩

/-- The judgement of one row leaves the others. -/
theorem startRow_other (s : State) {r q : RowId} (hq : q ≠ r) :
    StartKept s (s.startRow r) ∧ RowKept (s.row q) ((s.startRow r).row q) := by
  have m := missed_endMissed s r
  have missed : StartKept s (s.endMissed r) ∧ RowKept (s.row q) ((s.endMissed r).row q) :=
    ⟨m.kept, by rw [m.row, if_neg hq]; exact RowKept.refl _⟩
  have none' : StartKept s s ∧ RowKept (s.row q) (s.row q) := ⟨StartKept.refl s, RowKept.refl _⟩
  unfold State.startRow
  dsimp only
  split
  · rename_i held
    have live : ∀ l, StartKept s (s.goLiveRow r l) ∧ RowKept (s.row q) ((s.goLiveRow r l).row q) := fun l =>
      ⟨(started_goLiveRow l held).kept (calm_goLiveRow s r l), (started_goLiveRow l held).other q hq⟩
    split
    · exact missed
    · split
      · split
        · exact live _
        · exact missed
      · split
        · exact live _
        · exact none'
  · exact none'

theorem startRows_other (l : List RowId) : ∀ (s : State) (q : RowId), q ∉ l →
    StartKept s (l.foldl (fun s r => s.startRow r) s)
      ∧ RowKept (s.row q) ((l.foldl (fun s r => s.startRow r) s).row q) := by
  induction l with
  | nil => exact fun s q _ => ⟨StartKept.refl s, RowKept.refl _⟩
  | cons r l ih =>
    intro s q hq
    rw [List.mem_cons, not_or] at hq
    have h1 := startRow_other s hq.1
    have h2 := ih (s.startRow r) q hq.2
    exact ⟨h1.1.trans h2.1, h1.2.trans h2.2⟩

/-- R35: each row has its turn, and nothing before or after it in the pass touches the row but its health. -/
theorem startRows_turn (s : State) (r : RowId) : ∃ u, StartKept s u ∧ RowKept (s.row r) (u.row r)
    ∧ StartKept (u.startRow r) (s.forRows fun r s => s.startRow r)
    ∧ RowKept ((u.startRow r).row r) ((s.forRows fun r s => s.startRow r).row r) := by
  obtain ⟨a, b, hab⟩ := List.append_of_mem (List.mem_finRange r)
  have hn := List.nodup_finRange 256
  rw [hab, List.nodup_append] at hn
  have ha : r ∉ a := fun h => hn.2.2 r h r (by simp) rfl
  have hb : r ∉ b := (List.nodup_cons.mp hn.2.1).1
  have before := startRows_other a s r ha
  refine ⟨a.foldl (fun s r => s.startRow r) s, before.1, before.2, ?_⟩
  unfold State.forRows
  rw [hab, List.foldl_append, List.foldl_cons]
  exact startRows_other b _ r hb

end Sys2Proof.Machine
end

