-- ==== Sys2Proof/Tests/Slice0.lean ====
section
/-! SUPPORT. The model's own tests: ill-formed operands that the check refuses, small values worked out by hand, one
step of some commands, and for every statement states and operands that meet its hypotheses. -/

namespace Sys2Proof.Tests

open Sys2Proof Sys2Proof.Machine

-- Each test is checked in turn: side by side, their kernel evaluations would each hold a thread.
set_option Elab.async false

/-! Helpers -/

/-- A cycle with idle payload. -/
def idleCycle : LineCycle := ⟨idlePayload, 0, 0⟩

/-- An interval with the given markers. -/
def interval (ms : List Nat) : Interval := ⟨ms, idleCycle⟩

/-- The state after an outcome; the state before it where it is no next state. -/
def after (s : State) (o : Host.Outcome State Fault Refusal) : State :=
  match o with
  | .next t => t
  | _ => s

/-- Reset with row 3 replaced. -/
def withRow (x : Row) : State := State.reset.setRow 3 x

/-- Reset with port 4 replaced. -/
def withPort (o : Port) : State := State.reset.setPort 4 o

/-- Reset with the path replaced. -/
def withPath (q : Path) : State := { State.reset with path := q }

/-- The W0 to W7 of a booking from port 4 to port 6: one slot, 100 ms units, start 10, end 20, late accepted. -/
def booking : Vector Word 8 := #v[1, 2, 0x10104, 0x100006, 10, 0, 20, 0]

/-- Row 3 HELD with that booking. -/
def heldRow : Row := { Row.reset with state := .held, captured := booking, currentEnd := 20 }

/-- Row 3 LIVE since 10 with that booking. -/
def liveRow : Row := { heldRow with state := .live, actualStart := 10, meter := Meter.started 10 }

/-- An enabled port in UP, aligned at offset 7. -/
def upPort : Port :=
  { Port.reset with
    cfg := ⟨true, false, false, false, 0⟩, link := .up, receiver := .aligned 7 0, rdy := ⟨true, 0⟩
    window := some ErrorWindow.fresh, carrying := true }

/-- An Action Queue of `n` entries. -/
def actions (n : Nat) : List QueuedAction := List.replicate n ⟨9, .cancel⟩

/-- Two carrying ports of pair 2, in pair mode. -/
def pairState : State :=
  (State.reset.setPort 4 { upPort with cfg := ⟨true, true, false, false, 0⟩ }).setPort 5 upPort

/-- A GOOD cycle with idle payload, RDY 1 and the message `m`. -/
def goodCycle (m : Message) : LineCycle :=
  ⟨idlePayload, overheadOf true false false false m, cycleCheck idlePayload (overheadOf true false false false m)⟩

theorem goodCycle_class (m : Message) : classOfCycle (goodCycle m) = .good := by
  unfold classOfCycle goodCycle
  exact if_pos rfl

theorem goodCycle_message (m : Message) : messageOf (goodCycle m) = m := by
  unfold messageOf goodCycle
  rw [overhead_kind, overhead_code]

theorem withPort_port (o : Port) : (withPort o).port 4 = o := by
  unfold withPort
  rw [port_setPort, if_pos rfl]

/-! Well-formedness: one ill-formed operand for each check -/

theorem test_wf_no_words : (Transaction.read 0 0).wf = false := by decide
theorem test_wf_seventeen_words : (Transaction.write 0 (List.replicate 17 ⟨true, 0⟩)).wf = false := by decide
theorem test_wf_unaligned : (Transaction.read 2 1).wf = false := by decide
theorem test_wf_past_the_end : (Transaction.read 0xFFFFFFFC 2).wf = false := by decide
theorem test_wf_sixteen_words_at_the_end : (Transaction.read 0xFFFFFFC0 16).wf = true := by decide
theorem test_wf_markers_fall : (interval [5, 4]).wf = false := by decide +kernel
theorem test_wf_marker_beyond : (interval [163852]).wf = false := by decide +kernel
theorem test_wf_marker_last : (interval [0, 163851]).wf = true := by decide +kernel
theorem test_wf_slot_order :
    (Interval.mk [] ⟨idlePayload.set 1 [(5, 0), (4, 0)], 0, 0⟩).wf = false := by decide +kernel
theorem test_wf_slot_idle_byte : (Interval.mk [] ⟨idlePayload.set 1 [(5, 0xFF)], 0, 0⟩).wf = false := by decide +kernel
theorem test_wf_slot_beyond : (Interval.mk [] ⟨idlePayload.set 1 [(4096, 0)], 0, 0⟩).wf = false := by decide +kernel
theorem test_wf_slot_last : (Interval.mk [] ⟨idlePayload.set 39 [(0, 1), (4095, 0)], 0, 0⟩).wf = true := by
  decide +kernel
theorem test_wf_memory_order : ¬Memory.wf [(5, 1), (4, 1)] := by decide
theorem test_wf_memory_default : ¬Memory.wf [(5, 0)] := by decide
theorem test_wf_memory_beyond : ¬Memory.wf [(0x100000000, 1)] := by decide +kernel
theorem test_wf_fault (s : State) : exec (.plainWrite 2 0) s = .fault .notATransaction := rfl
theorem test_wf_fault_cycle (s : State) : exec (.cycleEvent 4 (interval [5, 4])) s = .fault .notACycle := by
  have h : (interval [5, 4]).wf = false := test_wf_markers_fall
  simp only [exec, execCycleEvent, State.spanEvent, h, Bool.false_eq_true, if_false]
theorem test_wf_fault_reset (s : State) :
    exec (.coldReset 1 (some (.read 2 1))) s = .fault .notATransaction := rfl

/-! Values worked out by hand -/

/-- R70: the check register over the bytes of "123456789". -/
theorem test_check_register :
    checkBytes (BitVec.allOnes 16) [0x31, 0x32, 0x33, 0x34, 0x35, 0x36, 0x37, 0x38, 0x39] = 0x29B1 := by decide +kernel

/-- R116: the pattern begins with 18 zeros and 5 ones. -/
theorem test_pattern_start : (patternBytes 3 (BitVec.allOnes 23)).1 = [0x00, 0x00, 0x3E] := by decide +kernel

/-- R117: the predictor loaded with 23 pattern bits produces the next ones. -/
theorem test_pattern_predictor :
    patternLoad (List.replicate 18 false ++ List.replicate 5 true) = patternAdvance 23 (BitVec.allOnes 23) := by decide +kernel

/-- 11.9: the overhead bits of a cycle. -/
theorem test_overhead : overheadOf true false true false ⟨4, 0x5A⟩ = 0xA85A := by decide

/-- R145: the record of the LIVE row ended at 17 sums to 0, and S3 carries the end reason. -/
theorem test_record :
    wordSum (composeRecord { liveRow with endReason := .cancelled, actualEnd := 17 } 5) = 0
      ∧ (composeRecord { liveRow with endReason := .cancelled, actualEnd := 17 } 5)[3]? = some 0x110104
      ∧ (composeRecord { liveRow with endReason := .cancelled, actualEnd := 17 } 5).length = 32 := by decide +kernel

/-- Log 3: the least significant byte lies lowest. -/
theorem test_byte_order : Memory.writeWord [] 8 0x11223344 = [(8, 0x44), (9, 0x33), (10, 0x22), (11, 0x11)] := by decide

/-- Writing back what unwritten memory reads removes the entries. -/
theorem test_memory_canonical : Memory.writeWord (Memory.writeWord [] 8 0x11223344) 8 0 = [] := by decide

/-- R160: words at the edges of the regions of 11.1. -/
theorem test_map_edges :
    locate 0x0FC = .plain ∧ locate 0x1000 = .port 0 .p0 ∧ locate 0x1BB0 = .port 23 .p12 ∧ locate 0x1034 = .plain
      ∧ locate 0x2EFC = .slot 23 39 ∧ locate 0x2F00 = .plain ∧ locate 0x13FFC = .row 255 15
      ∧ locate 0x14FFC = .meter 255 3 ∧ locate 0x15000 = .plain ∧ locate 0x21FFC = .notice 511
      ∧ locate 0x4FFFC = .ring 511 ∧ locate 0x50000 = .plain := by decide +kernel

/-- R130: a full prescaler bills one unit. -/
theorem test_meter_unit :
    (Meter.countMs { Meter.zero with prescaler := 99 } 100 true 7).carriage = 1
      ∧ (Meter.countMs { Meter.zero with prescaler := 98 } 100 true 7).carriage = 0 := by decide

/-- R19: the booking of the tests is in order, and a slot count of 9 is not. -/
theorem test_malformed : State.reset.malformed booking = false
    ∧ State.reset.malformed (booking.set 2 0x10904) = true := by decide +kernel

/-! One step -/

theorem test_step_idle : step State.reset = .next State.reset := rfl
theorem test_step_post :
    ((after State.reset (step { State.reset with pending := [.post 3] })).row 3).state = .posting := by decide +kernel
theorem test_step_enable :
    ((after State.reset (step { State.reset with pending := [.portEnable 4 0x0500] })).port 4).link = .acquire := by
  decide +kernel
theorem test_step_go_live :
    ((after State.reset (exec .goLive { withRow heldRow with fabric := .running, now := 10, pass := .starts 0 })).row 3).state
      = .live := by decide +kernel
theorem test_step_end :
    ((after State.reset (exec .scheduledEnd { withRow liveRow with fabric := .running, now := 20, pass := .ends 0 })).row 3).state
      = .ended := by decide +kernel
theorem test_fetch_word (s : State) : s.withFetchWord 16 1 = s := rfl

/-! The hypotheses of the statements are met, clause by clause and at the boundaries -/

theorem test_hyp_StepRunsFrontCommand :
    ({ State.reset with pending := [.start, .stop] } : State).pending = .start :: [.stop] ∧ State.reset.pending = [] :=
  ⟨rfl, rfl⟩

theorem test_hyp_CommandsAnswerNextExactlyWhenWellFormed :
    (Instr.post 3).wf = true ∧ (Instr.plainWrite 0xFFFFFFFC 1).wf = true ∧ (Instr.plainWrite 0xFFFFFFFD 1).wf = false := by
  decide

theorem test_hyp_ColdResetRecordsAndNotices :
    State.reset.path.mside = .free ∧ (Transaction.read 0xFFFFFFC0 16).wf = true
      ∧ (withPath { Path.reset with mside := .outbound, outbound := [.noticeWrite ⟨1023, 1, 2, 3, 4⟩] }).path.outbound
        = .noticeWrite ⟨1023, 1, 2, 3, 4⟩ :: [] := ⟨rfl, by decide, rfl⟩

theorem test_hyp_ColdResetChannels_ColdResetProver : State.reset.path.mside = .free := rfl

theorem test_hyp_PostTakenOrRefused :
    ({ State.reset with actionQueue := actions 15 } : State).busIdle
      ∧ ((State.reset.row 3).state = .empty ∧ (actions 15).length < 16) ∧ ¬(actions 16).length < 16
      ∧ ((withRow heldRow).row 3).state ≠ .empty := by
  refine ⟨⟨rfl, rfl, rfl⟩, ?_⟩
  decide +kernel

theorem test_hyp_AmendCancelTakenOrRefused :
    (withRow heldRow).busIdle ∧ ((withRow heldRow).row 3).state = .held ∧ ((withRow liveRow).row 3).state = .live
      ∧ ((withRow liveRow).row 3).inFlight = .none ∧ (actions 15).length < 16
      ∧ ((withRow { liveRow with inFlight := .amend }).row 3).inFlight ≠ .none := by
  refine ⟨⟨rfl, rfl, rfl⟩, ?_⟩
  decide +kernel

theorem test_hyp_MarkClosesSegmentOrRefused :
    (withRow liveRow).busIdle
      ∧ ((withRow { liveRow with meter := { Meter.zero with closed := [1, 1, 1, 1, 1] } }).row 3).meter.closed.length < 6
      ∧ ¬((withRow { liveRow with meter := { Meter.zero with closed := [1, 1, 1, 1, 1, 1] } }).row 3).meter.closed.length
        < 6 := by
  refine ⟨⟨rfl, rfl, rfl⟩, ?_⟩
  decide +kernel

/-- W0, W7, W8, W12, W14 and W15 of the first and the last row, with the first values of W15 that name no action. -/
theorem test_hyp_RowWordWritesByRowState :
    (withRow heldRow).busIdle ∧ ((State.reset.row 3).state = .empty ∧ ((withRow heldRow).row 3).state ≠ .empty)
      ∧ ((7 : Fin 16).val < 8 ∧ ¬(8 : Fin 16).val < 8 ∧ 12 ≤ (12 : Fin 16).val ∧ (14 : Fin 16).val ≤ 14
        ∧ (15 : Fin 16).val = 15)
      ∧ ((0 : Word) ≠ 1 ∧ (5 : Word) ≠ 4) ∧ locate (0x10000 + 64 * 255 + 4 * 15) = .row 255 15
      ∧ (((withRow heldRow).row 3).state = .held ∧ ((withRow heldRow).row 3).inFlight = .none)
      ∧ ((withRow { heldRow with state := .posting }).row 3).state = .posting
      ∧ ((withRow { heldRow with inFlight := .cancel }).row 3).inFlight ≠ .none := by
  refine ⟨⟨rfl, rfl, rfl⟩, ?_⟩
  decide +kernel

/-- The four cases of START on a HELD row: its end reached, its start passed, its start now, its start to come. -/
theorem test_hyp_StartJudgesHeldRows :
    (withRow heldRow).busIdle ∧ (withRow heldRow).fabric = .halted ∧ ((withRow heldRow).row 3).state = .held
      ∧ (heldRow.currentEnd.toNat ≤ 20 ∧ ¬heldRow.currentEnd.toNat ≤ 19)
      ∧ ((bookedStart heldRow.captured).toNat < 11 ∧ lateOk (booking.set 2 0x104) = false)
      ∧ ((bookedStart heldRow.captured).toNat ≤ 10 ∧ ¬(bookedStart heldRow.captured).toNat < 10)
      ∧ ¬(bookedStart heldRow.captured).toNat ≤ 9 := by
  refine ⟨⟨rfl, rfl, rfl⟩, ?_⟩
  decide +kernel

theorem test_hyp_StopEntersStoppingOrHalted :
    ({ withRow liveRow with fabric := .running } : State).busIdle
      ∧ (∃ r, ((withRow liveRow).row r).state = .live) ∧ (∀ r, ((withRow heldRow).row r).state ≠ .live)
      ∧ State.reset.fabric ≠ .running := by
  refine ⟨⟨rfl, rfl, rfl⟩, ⟨3, by decide +kernel⟩, ?_⟩
  decide +kernel

theorem test_hyp_StagedValuesCapturedAndLoaded :
    State.reset.busIdle ∧ State.reset.fabric = .halted ∧ (0xFF : Word).extractLsb' 8 24 = 0
      ∧ ¬(0x100 : Word).extractLsb' 8 24 = 0 := by
  refine ⟨⟨rfl, rfl, rfl⟩, ?_⟩
  decide +kernel

theorem test_hyp_StagedValuesCapturedAndLoaded_staging :
    State.reset.busIdle ∧ State.reset.prover.running = false
      ∧ ({ State.reset with prover := { Prover.reset with running := true } } : State).prover.running = true :=
  ⟨⟨rfl, rfl, rfl⟩, rfl, rfl⟩

theorem test_hyp_HostCommandWaitsForMside :
    State.reset.hostTransaction (.timeRead) = some (.read 12 1) ∧ (Transaction.read 12 1).wf = true
      ∧ (withPath { Path.reset with mside := .outbound }).path.mside ≠ .free
      ∧ (withPath { Path.reset with current := some ⟨.read 0 1, .arrived⟩ }).path.current ≠ none := by
  decide +kernel

/-- Outside the window from its first byte past the end; crossing at its last block; inside with no written word. -/
theorem test_hyp_SpanDecidesTreatment :
    State.reset.busIdle ∧ State.reset.outsideWindow (.read 0x80000 16) = true
      ∧ (crosses (.read 0x7FFFC 2) = true ∧ ∃ a ∈ touched (.read 0x7FFFC 2), State.reset.inWindow a = true)
      ∧ (State.reset.insideWindow (.write 0x7FFFC [⟨false, 0⟩]) = true ∧ touched (.write 0x7FFFC [⟨false, 0⟩]) = [])
      ∧ (Transaction.write 0x7FFFC [⟨false, 0⟩]).wf = true := by
  refine ⟨⟨rfl, rfl, rfl⟩, ?_⟩
  decide +kernel

/-- A burst of A1 to A7 with A1 and A7 written, one of a refused word, one of actions alone, one of A5 to A7. -/
theorem test_hyp_SpanDecidesTreatment_bursts :
    let n : WriteWord := ⟨false, 0⟩
    let words : List WriteWord → List (WinWord × Word) := fun ws =>
      (writtenFrom 4 ws).map fun x => (State.reset.wordAt x.1, x.2)
    let both : List WriteWord := [⟨true, 1⟩, n, n, n, n, n, ⟨true, 1⟩]
    let timed : List WriteWord := [n, n, n, n, ⟨true, 5⟩, ⟨true, 0xFF⟩, ⟨true, 1⟩]
    ((Transaction.write 4 both).wf = true ∧ State.reset.insideWindow (.write 4 both) = true
        ∧ crosses (.write 4 both) = false ∧ touched (.write 4 both) ≠ [])
      ∧ words both = [(.anchor .a1, 1), (.anchor .a7, 1)]
      ∧ (words [n, ⟨true, 0⟩] = [(.anchor .a2, 0)] ∧ State.reset.writeOk (.anchor .a2) 0 = false)
      ∧ (words [⟨true, 1⟩] = [(.anchor .a1, 1)] ∧ State.reset.writeOk (.anchor .a1) 1 = true
        ∧ (WinWord.anchor .a1).isAction = true)
      ∧ (words timed = [(.anchor .a5, 5), (.anchor .a6, 0xFF), (.anchor .a7, 1)]
        ∧ (∀ x ∈ words timed,
          ((words timed).foldl (fun g x => g.captureStaging x.1 x.2) State.reset).writeOk x.1 x.2 = true)
        ∧ (WinWord.anchor .a5).isAction = false) := by
  decide +kernel

theorem test_hyp_SpanDecidesTreatment_setTime :
    (Transaction.write (State.reset.busAddr 0x14) [⟨true, 5⟩, ⟨true, 0xFF⟩, ⟨true, 1⟩]).wf = true
      ∧ (State.reset.fabric = .halted ∧ (0xFF : Word).extractLsb' 8 24 = 0)
      ∧ ¬(0x100 : Word).extractLsb' 8 24 = 0 := by decide +kernel

/-- A read of sixteen words at the window's end, and words that are answered and not on either side of them. -/
theorem test_hyp_ReadsInsideWindow :
    State.reset.busIdle ∧ ((Transaction.read 0x7FFC0 16).wf = true ∧ State.reset.insideWindow (.read 0x7FFC0 16) = true
        ∧ crosses (.read 0x7FFC0 16) = false ∧ crosses (.read 0x7FFC4 16) = true)
      ∧ (0x7FFFC < Config.windowBytes ∧ 0x7FFFC % 4 = 0 ∧ (locate 0x7FFFC).isAnswered = false)
      ∧ State.reset.readPieces (spanFrom 0x10020 4) = [.run 0x10020 2, .answer (.row 0 10), .answer (.row 0 11)] := by
  refine ⟨⟨rfl, rfl, rfl⟩, ?_⟩
  decide +kernel

theorem test_hyp_ArbiterGrants :
    State.reset.outsideWindow (.read 0x80000 1) = true
      ∧ (let q : Path := { Path.reset with current := some ⟨.read 0x80000 1, .arrived⟩, outbound := [.rowRead 3] }
        q.mside = .free ∧ q.current = some ⟨.read 0x80000 1, .arrived⟩ ∧ q.lastGrant = .outbound
          ∧ ({ q with lastGrant := .pside } : Path).outbound ≠ [])
      ∧ (Path.reset.outbound = [] ∧ Path.reset.current = none) := by decide +kernel

theorem test_hyp_ForwardCompleteDoesNextPart :
    (withPath { Path.reset with mside := .pside, current := some ⟨.read 0 2, .reading [] [.answer .plain, .run 4 1]⟩ }).path.mside
        = .pside
      ∧ (withPath { Path.reset with mside := .pside, current := some ⟨.read 0 2, .reading [7] [.run 4 1]⟩ }).path.current
        = some ⟨.read 0 2, .reading [7] (.run 4 1 :: [])⟩
      ∧ (withPath { Path.reset with current := some ⟨.write 8 [⟨true, 1⟩], .writing [[(8, 1)]] []⟩ }).path.current
        = some ⟨.write 8 [⟨true, 1⟩], .writing ([(8, 1)] :: []) []⟩ := ⟨rfl, rfl, rfl⟩

/-- The actions of a burst at its effect event: a row HELD and one ENDED, the members of a pair, ARM. -/
theorem test_hyp_ForwardCompleteDoesNextPart_actions :
    (((withRow heldRow).row 3).state = .held ∧ (((withRow { liveRow with state := .ended }).row 3).state ≠ .held
        ∧ ((withRow { liveRow with state := .ended }).row 3).state ≠ .live))
      ∧ ((1 : Word) = BitVec.ofNat 32 Member.odd.code ∧ (pairState.port (evenPort 2)).cfg.pairMode = true
        ∧ pairState.active[(2 : PairId)] ≠ .odd ∧ (pairState.port (memberPort 2 .odd)).carrying = true)
      ∧ (State.reset.port (evenPort 2)).cfg.pairMode = false
      ∧ ({ Prover.reset with running := true } : Prover).running = true ∧ State.reset.prover.running = false := by
  decide +kernel

theorem test_hyp_ForwardedWordsReachMemory :
    State.reset.busIdle ∧ Memory.wf State.reset.mem ∧ (0x7FFFC < Config.windowBytes ∧ 0x7FFFC % 4 = 0)
      ∧ State.reset.inWindow (0x80000 : Word).toNat = false ∧ State.reset.wordAt (0x7FFFC : Word).toNat = .plain := by
  refine ⟨⟨rfl, rfl, rfl⟩, ?_⟩
  decide +kernel

theorem test_hyp_IdentityWord : State.reset.busIdle := ⟨rfl, rfl, rfl⟩

theorem test_hyp_AnsweredWordValues :
    State.reset.busIdle ∧ (4 < Config.windowBytes ∧ 4 % 4 = 0 ∧ (locate 4).isAction = true) := by
  refine ⟨⟨rfl, rfl, rfl⟩, ?_⟩
  decide +kernel

theorem test_hyp_AnsweredWordsRefuseWrites :
    (0x14FFC < Config.windowBytes ∧ 0x14FFC % 4 = 0 ∧ (locate 0x14FFC).answersOnly = true)
      ∧ (locate 0).answersOnly = true ∧ (locate 0x24).answersOnly = false ∧ (locate 0x2EFC).answersOnly = true
      ∧ (locate 0x13FEC).answersOnly = true := by decide +kernel

/-- A value on either side of every value of A1, A5 and P8, and the port words' offsets. -/
theorem test_hyp_AnsweredWordsRefuseWrites_values :
    ((0 : Word) ≠ 1 ∧ (0 : Word) ≠ 2 ∧ (3 : Word) ≠ 1 ∧ (3 : Word) ≠ 2 ∧ (4 : Word) ≠ 3)
      ∧ locate (0x1000 + 128 * 23 + 32) = .port 23 .p8 ∧ locate (0x1000 + 128 * 23 + 20) = .port 23 .p5
      ∧ locate 0x40 = .anchor .a16 := by decide +kernel

/-- Held records at 1022 to 1, the slot of 2 in writing, and 3 free; entries unconsumed at 511, in writing at 512 and
free at 513. -/
theorem test_hyp_AnsweredWordsRefuseWrites_rings :
    let s : State := { State.reset with
      settle := ⟨[], some ⟨3, 2, []⟩, .writing, 2, 1022, 1⟩, notice := ⟨512, 511, false, [⟨512, 1, 2, 3, 4⟩]⟩ }
    let held (i : Fin 512) : Prop := ∃ k : BitVec 10, k.toNat % 512 = i.val
      ∧ ringDist k s.settle.release < ringDist s.settle.append s.settle.release
    let kept (i : Fin 512) : Prop := ∃ k : BitVec 10, k.toNat % 512 = i.val
      ∧ ringDist k s.notice.consume < ringDist s.notice.produce s.notice.consume + s.notice.inWriting.length
    s.busIdle ∧ (held 510 ∧ held 1) ∧ (¬held 2 ∧ ∃ w, s.settle.writing = some w ∧ w.index.toNat % 512 = 2)
      ∧ (¬held 3 ∧ ¬∃ w, s.settle.writing = some w ∧ w.index.toNat % 512 = 3) ∧ (kept 511 ∧ kept 0) ∧ ¬kept 1 := by
  refine ⟨⟨rfl, rfl, rfl⟩, ⟨?_, ?_⟩, ⟨?_, ⟨_, rfl, by decide⟩⟩, ⟨?_, ?_⟩, ⟨?_, ?_⟩, ?_⟩
  · exact ⟨1022, by decide, by decide⟩
  · exact ⟨1, by decide, by decide⟩
  · exact fun h => absurd ((ringDist_lt 2 _ _).mpr h) (by decide)
  · exact fun h => absurd ((ringDist_lt 3 _ _).mpr h) (by decide)
  · rintro ⟨w, hw, h⟩
    cases hw
    exact absurd h (by decide)
  · exact ⟨511, by decide, by decide⟩
  · exact ⟨512, by decide, by decide⟩
  · exact fun h => absurd ((ringDist_lt 1 _ _).mpr h) (by decide)

theorem test_hyp_ClearingAndSnapshotReads :
    ((withRow liveRow).row 3).state = .live ∧ ((withRow { liveRow with state := .ended }).row 3).state = .ended
      ∧ (((withRow heldRow).row 3).state ≠ .live ∧ ((withRow heldRow).row 3).state ≠ .ended) := by decide +kernel

/-- Each condition of R51 in turn, with a word that fails nothing else. -/
theorem test_hyp_ConfigWriteRefusals :
    State.reset.busIdle ∧ State.reset.configOk 4 0x10 = false ∧ State.reset.configOk 4 0xFF0D = true
      ∧ State.reset.configOk 5 2 = false ∧ pairState.configOk 5 0 = false ∧ ((withPort upPort).setRow 3 heldRow).configOk 4 0 = false
      ∧ ({ pairState with actionQueue := actions 1 } : State).configOk 4 1 = false ∧ pairState.configOk 4 1 = true
      ∧ (withPort upPort).configOk 4 3 = false ∧ ((withPort upPort).setPort 5 upPort).configOk 4 2 = false := by
  refine ⟨⟨rfl, rfl, rfl⟩, ?_⟩
  decide +kernel

theorem test_hyp_PortEnableEntersAcquire :
    State.reset.busIdle ∧ (State.reset.configOk 4 (setBit 0xFF0C 0 true) = true ∧ (State.reset.port 4).cfg.enable = false
        ∧ (0xFF0C : Word).getLsbD 1 = (State.reset.port 4).cfg.pairMode)
      ∧ State.reset.configOk 4 (setBit 0x10000 0 true) = false := by
  refine ⟨⟨rfl, rfl, rfl⟩, ?_⟩
  decide +kernel

theorem test_hyp_PortDisableEntersOff :
    (withPort upPort).busIdle ∧ ((withPort upPort).configOk 4 (setBit 1 0 false) = true
        ∧ ((withPort upPort).port 4).cfg.enable = true ∧ ((withPort upPort).port 4).link ≠ .off
        ∧ (1 : Word).getLsbD 1 = ((withPort upPort).port 4).cfg.pairMode)
      ∧ (State.reset.claimed ≠ some 4 ∧ ({ withPort upPort with prover := { Prover.reset with running := true, port := 4 } } : State).claimed
        = some 4)
      ∧ pairState.configOk 4 (setBit 1 0 false) = false := by
  refine ⟨⟨rfl, rfl, rfl⟩, ?_⟩
  decide +kernel

theorem test_hyp_PairModeAndOptionsWrites :
    let s := (withPort upPort).setPort 5 upPort
    s.busIdle ∧ (s.configOk (evenPort 2) (setBit 1 1 true) = true ∧ (s.port (evenPort 2)).cfg.pairMode = false
        ∧ (s.port (evenPort 2)).cfg.enable = true)
      ∧ (withPort upPort).configOk (evenPort 2) (setBit 1 1 true) = false
      ∧ (pairState.configOk (evenPort 2) (setBit 3 1 false) = true ∧ (pairState.port (evenPort 2)).cfg.pairMode = true
        ∧ (3 : Word).getLsbD 0 = (pairState.port (evenPort 2)).cfg.enable)
      ∧ pairState.configOk (evenPort 2) (setBit 0x13 1 false) = false
      ∧ pairState.configOk 5 (pairState.optionsWord 5 0xFF0C) = true
      ∧ pairState.configOk 5 (pairState.optionsWord 5 0x10) = false := by
  refine ⟨⟨rfl, rfl, rfl⟩, ?_⟩
  decide +kernel

/-- A word that enables the even port and joins its pair, with the odd one carrying. -/
theorem test_hyp_PairModeAndOptionsWrites_joins :
    let s := State.reset.setPort 5 upPort
    s.busIdle ∧ s.configOk (evenPort 2) (setBit 2 0 true) = true ∧ (s.port (evenPort 2)).cfg.enable = false
      ∧ (s.port (evenPort 2)).cfg.pairMode = false ∧ (2 : Word).getLsbD 1 = true
      ∧ (s.port (evenPort 2)).carrying = false ∧ (s.port (oddPort 2)).carrying = true
      ∧ ringDist s.notice.produce s.notice.consume + s.notice.inWriting.length + 2 ≤ 512 := by
  refine ⟨⟨rfl, rfl, rfl⟩, ?_⟩
  decide +kernel

theorem test_hyp_SelectSwitchesMember :
    pairState.busIdle ∧ (5 : PortId).val % 2 = 1 ∧ State.reset.inPair 4 = false
      ∧ ((4 : PortId).val % 2 = 0 ∧ (1 : Word) = BitVec.ofNat 32 Member.odd.code ∧ pairState.inPair 4 = true
        ∧ (pairState.port (memberPort (pairOf 4) .odd)).carrying = true ∧ pairState.active[pairOf 4] ≠ .odd)
      ∧ pairState.active[pairOf 4] = .even
      ∧ ((pairState.setPort 5 Port.reset).port (memberPort (pairOf 4) .odd)).carrying = false
      ∧ ((withRow liveRow).row 3).state = .live ∧ (withRow liveRow).logical (sourcePort ((withRow liveRow).row 3).captured) = 4 := by
  refine ⟨⟨rfl, rfl, rfl⟩, ?_⟩
  decide +kernel

theorem test_hyp_MaintenanceCommandJudged :
    (withPort upPort).busIdle ∧ (State.reset.port 4).cfg.enable = false
      ∧ (((withPort { upPort with link := .down }).port 4).cfg.enable = true
        ∧ ((withPort { upPort with link := .down }).port 4).channel.outstanding = none
        ∧ ((withPort { upPort with link := .down }).port 4).link ≠ .up
        ∧ ((withPort { upPort with link := .down }).port 4).link ≠ .suspect)
      ∧ ((withPort upPort).port 4).link = .up
      ∧ (((withPort upPort).setRow 3 liveRow).rxPath 4 = 4 ∧ ((withPort upPort).setRow 3 liveRow).liveUses 4 = true) := by
  refine ⟨⟨rfl, rfl, rfl⟩, ?_⟩
  decide +kernel

theorem test_hyp_ArmAndDisarm :
    State.reset.busIdle ∧ (State.reset.port 4).capture.state = .idle
      ∧ ((withPort { upPort with capture := ⟨.done, 3, 4⟩ }).port 4).capture.state = .done
      ∧ ((withPort { upPort with capture := ⟨.timing, 3, 0⟩ }).port 4).capture.state ≠ .idle := by
  refine ⟨⟨rfl, rfl, rfl⟩, ?_⟩
  decide +kernel

/-- A staged test of one ms and of an hour on port 4, with a booking HELD there that starts when it ends, and one that
starts before. -/
theorem test_hyp_AttachAndDetach :
    let s : State := { (withPort upPort).setRow 3 heldRow with
      now := 9, prover := { Prover.reset with port := 4, duration := 1 } }
    s.busIdle ∧ s.attachAllowed 4 ∧ ({ s with now := 0, prover := { s.prover with duration := 10 } } : State).attachAllowed 4
      ∧ (∀ q, ¬({ s with now := 10 } : State).attachAllowed q) ∧ ∀ q, ¬State.reset.attachAllowed q := by
  refine ⟨⟨rfl, rfl, rfl⟩, (attachOk_port (p := 4) rfl).mp ?_, (attachOk_port (p := 4) rfl).mp ?_, fun q h => ?_,
    fun q h => ?_⟩
  · decide +kernel
  · decide +kernel
  · exact absurd ((attachOk_iff _).mpr ⟨q, h⟩) (by decide +kernel)
  · exact absurd ((attachOk_iff _).mpr ⟨q, h⟩) (by decide +kernel)

theorem test_hyp_RingIndexWrites :
    let s : State := { State.reset with
      settle := ⟨[], none, .idle, 512, 0, 1⟩, notice := ⟨1, 1023, true, []⟩ }
    s.busIdle ∧ ((512 : Word).toNat < 1024 ∧ ringDist ((512 : Word).setWidth 10) 0 ≤ ringDist s.settle.append s.settle.release)
      ∧ ¬ringDist ((513 : Word).setWidth 10) 0 ≤ ringDist s.settle.append s.settle.release
      ∧ ringDist ((1 : Word).setWidth 10) s.notice.consume ≤ ringDist s.notice.produce s.notice.consume
      ∧ ¬ringDist ((2 : Word).setWidth 10) s.notice.consume ≤ ringDist s.notice.produce s.notice.consume
      ∧ ¬(1024 : Word).toNat < 1024 := by
  refine ⟨⟨rfl, rfl, rfl⟩, ?_⟩
  decide +kernel

/-- A release in WAIT_RING that leaves the ring full, and one that leaves room, with and without an action in flight. -/
theorem test_hyp_RingIndexWrites_waiting :
    let s : State := { State.reset with settle := ⟨[3], none, .waitRing, 512, 0, 1⟩ }
    s.busIdle ∧ (s.settle.unit = .waitRing ∧ s.settle.writing = none ∧ s.settle.queue = 3 :: [])
      ∧ ((0 : Word).toNat < 1024 ∧ ringDist s.settle.append ((0 : Word).setWidth 10) = 512)
      ∧ (ringDist ((1 : Word).setWidth 10) s.settle.release ≤ ringDist s.settle.append s.settle.release
        ∧ ringDist s.settle.append ((1 : Word).setWidth 10) ≠ 512)
      ∧ ((s.row 3).inFlight = .none ∧ ((s.setRow 3 { liveRow with inFlight := .amend }).row 3).inFlight ≠ .none)
      ∧ OutboundLaw s := by
  refine ⟨⟨rfl, rfl, rfl⟩, ⟨rfl, rfl, rfl⟩, by decide, by decide, by decide +kernel, by decide, fun h => absurd rfl h,
    List.nodup_nil, ?_⟩
  intro pr
  cases pr <;> simp [State.reset, State.cold, Path.reset, Path.backlog]

/-- Each check of a POST at its bound: slots, destinations, a repeated port, the window's length, the ports, now, and 40
slots with one row of 8 to spare and with none; rows whose end is now are counted from before now, not from now. -/
theorem test_hyp_PostChecksOnCapturedWords :
    let s : State := (withPort upPort).setPort 6 upPort
    let wide : Row := { heldRow with captured := booking.set 2 0x10804 }
    let five : State := ((((s.setRow 5 wide).setRow 6 wide).setRow 7 wide).setRow 8 wide)
    let full : State := { five.setRow 9 heldRow with now := 20 }
    (s.malformed booking = false ∧ s.malformed (booking.set 2 0x10804) = false ∧ s.malformed (booking.set 2 0x10904) = true
        ∧ s.malformed (booking.set 2 0x10004) = true ∧ s.malformed (booking.set 3 0x5E0C41) = true
        ∧ s.malformed (booking.set 3 0x100004) = true ∧ s.malformed (booking.set 2 0x10118) = true)
      ∧ (s.malformed (booking.set 6 604800010) = false ∧ s.malformed (booking.set 6 604800011) = true
        ∧ s.malformed (booking.set 6 10) = true ∧ s.malformed (booking.set 6 11) = false)
      ∧ (s.badPort booking = false ∧ (withPort upPort).badPort booking = true)
      ∧ (({ s with now := 19 } : State).postTooLate booking = false ∧ ({ s with now := 20 } : State).postTooLate booking = true
        ∧ ({ s with now := 11 } : State).postTooLate (booking.set 2 0x104) = true)
      ∧ (five.capacityOk 3 (booking.set 2 0x10804) 10 20 = true
        ∧ full.capacityOk 3 (booking.set 2 0x10804) 19 30 = false)
      ∧ ((full.row 9).currentEnd.toNat ≤ full.now.toNat ∧ full.capacityOk 3 (booking.set 2 0x10804) 20 30 = true) := by
  decide +kernel

theorem test_hyp_PostExecutes :
    let s : State := { State.reset with actionQueue := [⟨3, .post⟩, ⟨9, .cancel⟩] }
    let u := withPath { Path.reset with mside := .outbound, outbound := [.rowRead 3] }
    (s.admission = .idle ∧ s.actionQueue = ⟨3, .post⟩ :: [⟨9, .cancel⟩])
      ∧ ({ s with admission := .reading 3 } : State).admission ≠ .idle
      ∧ (u.path.mside = .outbound ∧ u.path.outbound = .rowRead 3 :: []) := by decide +kernel

/-- An amend to now and past it, to the last end of a LIVE row and past it, to the start of a HELD row, with a spare bit,
and to a later end with 46 slots wanted on port 4 and with one. -/
theorem test_hyp_AmendExecutes :
    let s : State := { withRow { liveRow with inFlight := .amend, stageLow := 20 } with
      actionQueue := [⟨3, .amend⟩], fabric := .running, now := 19 }
    let wide : Row := { heldRow with captured := booking.set 2 0x10F04, currentEnd := 30 }
    let crowd : State := ((s.setRow 7 wide).setRow 8 wide).setRow 9 wide
    (s.admission = .idle ∧ s.actionQueue = ⟨3, .amend⟩ :: [])
      ∧ ((s.row 3).state = .live ∧ s.fabric = .running ∧ (s.row 3).stageHigh.extractLsb' 8 24 = 0
        ∧ ((s.row 3).stageHigh.extractLsb' 0 8 ++ (s.row 3).stageLow : Time) = 20 ∧ s.now.toNat < 20)
      ∧ (0x100 : Word).extractLsb' 8 24 ≠ 0
      ∧ (¬(s.row 3).actualStart.toNat + 604800000 < 604800010 ∧ (s.row 3).actualStart.toNat + 604800000 < 604800011)
      ∧ (((withRow heldRow).row 3).state = .held ∧ 10 ≤ (bookedStart ((withRow heldRow).row 3).captured).toNat)
      ∧ ((s.row 3).currentEnd.toNat < 21 ∧ s.capacityOk 3 booking 10 21 = true
        ∧ crowd.capacityOk 3 booking 10 21 = false)
      ∧ ({ s with fabric := .stopping } : State).fabric = .stopping
      ∧ ((withRow { liveRow with state := .ended }).row 3).state = .ended := by decide +kernel

theorem test_hyp_CancelExecutes :
    let s : State := { withRow { liveRow with inFlight := .cancel } with actionQueue := [⟨3, .cancel⟩] }
    s.admission = .idle ∧ s.actionQueue = ⟨3, .cancel⟩ :: [] ∧ (s.row 3).state = .live := by decide +kernel

theorem test_hyp_MsEventPartsCountTheMillisecond :
    ({ State.reset with now := BitVec.allOnes 40 } : State).now = BitVec.allOnes 40
      ∧ (State.reset.now ≠ BitVec.allOnes 40 ∧ State.reset.meterDue = false ∧ State.reset.proverDue = false
        ∧ State.reset.pass = .none)
      ∧ (let s : State := { withRow { liveRow with meter := { Meter.started 10 with prescaler := 99 } } with
          now := 11, meterDue := true }
        s.meterDue = true ∧ (s.row 3).state = .live ∧ (s.row 3).meter.countedTo.toNat < s.now.toNat
          ∧ (s.row 3).health = .healthy ∧ (s.row 3).meter.prescaler + 1 = unitOf (s.row 3).captured)
      ∧ ((withRow { liveRow with health := .lost }).row 3).health = .lost := by decide +kernel

theorem test_hyp_MsEventPartsCountTheMillisecond_prover :
    let u : Prover := { Prover.reset with running := true, port := 4, duration := 1 }
    ({ State.reset with proverDue := true } : State).prover.running = false ∧ u.elapsed + 1 = u.duration
      ∧ ({ u with duration := 2 } : Prover).elapsed + 1 ≠ ({ u with duration := 2 } : Prover).duration := by decide

/-- A command of the ms event with a part and one more. -/
theorem test_hyp_MsEventPartsCountTheMillisecond_parts (s : State) :
    exec (.msEvent [.meter]) s = .next s.meterHandle := rfl

/-- The pass before and after its last end, at an end that has come and one that has not, and likewise at a start. -/
theorem test_hyp_SchedulerTakesEndsThenStarts :
    let ends : State := { withRow liveRow with fabric := .stopping, now := 20, pass := .ends 3 }
    let starts : State := { withRow heldRow with fabric := .running, now := 10, pass := .starts 3 }
    State.reset.pass = .none ∧ ({ State.reset with pass := .ends 0 } : State).fabric = .halted
      ∧ (ends.pass = .ends 3 ∧ ends.fabric ≠ .halted ∧ (ends.row 3).state = .live
        ∧ (ends.row 3).currentEnd.toNat ≤ ends.now.toNat ∧ (19 : Time).toNat < (ends.row 3).currentEnd.toNat)
      ∧ (∀ q : RowId, 4 ≤ q.val → (ends.row q).state ≠ .live)
      ∧ (starts.pass = .starts 3 ∧ (starts.row 3).state = .held
        ∧ (bookedStart (starts.row 3).captured).toNat ≤ starts.now.toNat
        ∧ starts.now.toNat < (starts.row 3).currentEnd.toNat)
      ∧ (¬(bookedStart (starts.row 3).captured).toNat ≤ (9 : Time).toNat
        ∧ (starts.row 3).currentEnd.toNat ≤ (20 : Time).toNat)
      ∧ FabricState.stopping ≠ .running := by decide +kernel

theorem test_hyp_GoLiveStartsBooking :
    ({ withRow heldRow with fabric := .running, now := 10, pass := .ends 0 } : State).nextStart = some 3
      ∧ ({ withRow heldRow with fabric := .running, now := 19, pass := .starts 3 } : State).nextStart = some 3 := by
  decide +kernel

theorem test_hyp_GoLiveStartsBooking_slots :
    ((destPorts booking).map State.reset.logical).Nodup ∧ slotsBelow (Vector.replicate 40 none) none 39 = 39
      ∧ slotsBelow ((Vector.replicate 40 none).set 2 (some 3)) none 39 = 38 := by decide +kernel

/-- A row that goes live over the claimed port, and a claim elsewhere. -/
theorem test_hyp_GoLiveStartsBooking_preempts :
    let u : Prover := { Prover.reset with running := true, port := 4 }
    let s : State := { withRow heldRow with prover := u }
    (s.prover.running = true ∧ s.prover.port = BitVec.ofNat 32 (4 : PortId).val)
      ∧ s.uses booking (s.logical 4) = true ∧ (s.port (evenPort (pairOf 4))).cfg.pairMode = false
      ∧ s.uses booking (s.logical 5) = false ∧ State.reset.prover.running = false
      ∧ ringDist s.notice.produce s.notice.consume + s.notice.inWriting.length + 1 ≤ 512 := by decide +kernel

theorem test_hyp_EndsFinishBooking :
    ({ withRow liveRow with fabric := .running, now := 20, pass := .ends 3 } : State).nextEnd = some 3
      ∧ ({ withRow liveRow with fabric := .stopping } : State).stopRow = some 3 := by decide +kernel

/-- With a record in writing, an ended row waits at the tail. -/
theorem test_hyp_EndsFinishBooking_tail :
    let s : State := { withRow liveRow with
      fabric := .stopping, now := 20, pass := .ends 0, settle := ⟨[9], some ⟨7, 0, []⟩, .writing, 0, 0, 1⟩ }
    s.nextEnd = some 3 ∧ s.settle.writing ≠ none ∧ (∀ q, q < 3 → (s.row q).state ≠ .live) := by decide +kernel

theorem test_hyp_CycleEventFrame :
    (interval [0, 163851]).wf = true ∧ (State.reset.port 4).link = .off ∧ ((withPort upPort).port 4).link ≠ .off := by
  decide +kernel

/-- A port that an interval takes to DOWN does not carry after it. -/
theorem stops {o : Port} {t : State} {iv : Interval} {now : Time}
    (h : t.port 4 = { o.afterEvent iv now with carrying := t.mayCarry 4 }) (hl : (o.linked iv).link = .down) :
    (t.port 4).carrying = false := by
  have link : (t.port 4).link = .down := (congrArg Port.link h).trans hl
  have carry : (t.port 4).carrying = t.mayCarry 4 := congrArg Port.carrying h
  rw [carry]
  unfold State.mayCarry
  simp [link, LinkState.inService]

/-- A member of a pair in pair mode that a missing interval takes out of UP: its flag changes, and its partner carries. -/
theorem test_hyp_CarryingChangeSelectsAndReevaluates :
    let o : Port := { upPort with cfg := ⟨true, true, false, false, 0⟩, rdy := ⟨false, 0⟩ }
    let s : State := (withPort o).setPort 5 upPort
    (∃ t, exec (.cycleEvent 4 (interval [])) s = .next t ∧ (t.port 4).carrying ≠ (s.port 4).carrying)
      ∧ (4 : PortId) = memberPort 2 s.active[(2 : PairId)] ∧ (s.port (oddPort 2)).carrying = true
      ∧ (s.busIdle ∧ ({ s with prover := { Prover.reset with port := 4 } } : State).prover.port
        = BitVec.ofNat 32 (4 : PortId).val) := by
  intro o s
  have hs : s.port 4 = o := by
    show ((withPort o).setPort 5 upPort).port 4 = o
    rw [port_setPort, if_neg (by decide), withPort_port]
  have hp := cycleEvent_port s 4 (interval []) (by rw [hs]; decide)
  have hl : (o.linked (interval [])).link = .down := by decide +kernel
  refine ⟨⟨_, exec_cycleEvent s 4 (by decide +kernel), ?_⟩, by decide +kernel, by decide +kernel, ⟨rfl, rfl, rfl⟩, rfl⟩
  rw [hs] at hp ⊢
  have hc := stops hp hl
  generalize s.cycleEvent 4 (interval []) = t at *
  rw [hc]
  exact Bool.false_ne_true

/-- A missing interval takes a LIVE row's source out of UP, and one that does not carry out of RESTORE with its filtered
INPUT_LOSS 1. -/
theorem test_hyp_CarryingChangeSelectsAndReevaluates_interval :
    let up : Port := { upPort with rdy := ⟨false, 0⟩ }
    let back : Port := { upPort with link := .restore, receiver := .aligned 7 3, carrying := false, inputLoss := ⟨true, 0⟩ }
    (up.carrying = true ∧ (up.linked (interval [])).link.inService = false)
      ∧ (back.carrying = false ∧ (back.linked (interval [])).link.inService = false
        ∧ (back.linked (interval [])).inputLoss.value = false)
      ∧ (liveRow.state = .live ∧ ((withPort back).setRow 3 liveRow).sourcePath liveRow.captured = 4) := by decide +kernel

theorem test_hyp_CycleEventMovesAlignment :
    (interval [7, 9]).wf = true ∧ State.reset.roomFor 1
      ∧ (∀ l : LinkState, let o := (withPort { upPort with link := l, receiver := .searching (some 7) 2 }).port 4
        o.link = l ∧ o.receiver = .searching (some 7) 2 ∧ (interval [7, 9]).markers.head? = some 7)
      ∧ (∀ (l : LinkState) (b : Bool),
        let o := (withPort { upPort with link := l, receiver := .aligned 8 3, rdy := ⟨b, 0⟩ }).port 4
        o.link = l ∧ o.receiver = .aligned 8 3 ∧ 8 ∉ (interval [7, 9]).markers ∧ o.rdy.value = b
          ∧ ¬o.windowReaches .missing) := by
  refine ⟨by decide +kernel, by unfold State.roomFor; decide, fun l => ?_, fun l b => ?_⟩
  · rw [withPort_port]
    exact ⟨rfl, rfl, rfl⟩
  · rw [withPort_port]
    exact ⟨rfl, rfl, by decide, rfl, fun h => absurd h.1 (show ¬1 ≤ (0 : Byte).toNat by decide)⟩

/-- A missing interval on a port whose window has counted 3 of a threshold of 3, of 4, and of one not used; a failed
cycle is the third. -/
theorem test_hyp_CycleEventJudgesReadyAndErrors :
    ∀ (l : LinkState) (b : Bool) (t : Option Nat) (n : Byte),
      let o := (withPort { upPort with
        link := l, rdy := ⟨b, 0⟩, tRestore := t, cfg := ⟨true, false, false, false, n⟩, window := some ⟨9, 3, false⟩ }).port 4
      (interval []).wf = true ∧ (o.takeInterval (interval [])).lastClass = some .missing ∧ o.link = l
        ∧ (o.takeInterval (interval [])).rdy.value = b ∧ o.staysAligned (interval []) ∧ o.tRestore = t
        ∧ (n = 3 → o.windowReaches .missing) ∧ (n = 4 → ¬o.windowReaches .missing ∧ o.windowReaches .bad)
        ∧ (n = 0 → ¬o.windowReaches .bad) := by
  intro l b t n
  rw [withPort_port]
  refine ⟨by decide +kernel, rfl, rfl, rfl, fun _ => rfl, rfl, ?_, ?_, ?_⟩
  · rintro rfl
    exact ⟨show 1 ≤ (3 : Byte).toNat by decide, rfl, _, rfl, rfl, show (3 : Byte).toNat ≤ 3 + 0 by decide⟩
  · rintro rfl
    refine ⟨?_, show 1 ≤ (4 : Byte).toNat by decide, rfl, _, rfl, rfl, show (4 : Byte).toNat ≤ 3 + 1 by decide⟩
    rintro ⟨_, _, w, hw, _, h⟩
    cases hw
    exact absurd h (show ¬(4 : Byte).toNat ≤ 3 + 0 by decide)
  · rintro rfl h
    exact absurd h.1 (show ¬1 ≤ (0 : Byte).toNat by decide)

theorem test_hyp_CycleEventCountsAndFilters :
    (interval [7, 9]).wf = true ∧ ((withPort upPort).port 4).link = .up ∧ ((withPort upPort).port 4).link ≠ .off
      ∧ ((withPort upPort).port 4).receiver = .aligned 7 0 ∧ 7 ∈ (interval [7, 9]).markers := by decide +kernel

/-- The port after a cycle event has the link and the class that the interval leaves. -/
theorem after_port {o : Port} (h : o.link ≠ .off) (iv : Interval) :
    (((withPort o).cycleEvent 4 iv).port 4).link = (o.linked iv).link
      ∧ (((withPort o).cycleEvent 4 iv).port 4).lastClass = some (o.receive iv).2.2
      ∧ (((withPort o).cycleEvent 4 iv).port 4).backup = (o.linked iv).backup := by
  rw [cycleEvent_port _ _ _ (by rw [withPort_port]; exact h), withPort_port]
  exact ⟨rfl, linked_lastClass _ _, rfl⟩

/-- The link after a missing interval: UP kept with a report due, ACQUIRE and DOWN entered, AWAIT_READY and RESTORE
kept. -/
theorem test_hyp_CycleEventCountsAndFilters_after :
    let run (o : Port) : Port := o.linked (interval [])
    ((run upPort).link = .up ∧ (run { upPort with backup := ⟨true, 0⟩ }).backup.value ≠ upPort.repBackup)
      ∧ (run { upPort with link := .awaitReady, rdy := ⟨false, 0⟩, receiver := .aligned 7 3 }).link = .acquire
      ∧ (run { upPort with rdy := ⟨false, 0⟩ }).link = .down
      ∧ (run { upPort with link := .awaitReady, rdy := ⟨false, 0⟩ }).link = .awaitReady
      ∧ (run { upPort with link := .restore }).link = .restore
      ∧ ringDist State.reset.notice.produce State.reset.notice.consume + State.reset.notice.inWriting.length + 3 ≤ 512 := by
  decide +kernel

/-- Port `upPort` with the channel `ch`. -/
def upWith (ch : Channel) : Port := { upPort with channel := ch }

/-- Whatever the channel holds, a GOOD cycle with any message is taken in UP. -/
theorem goodCycle_up (ch : Channel) (m : Message) :
    (upWith ch).receive ⟨[7], goodCycle m⟩ = (.aligned 7 0, none, .good)
      ∧ ((upWith ch).linked ⟨[7], goodCycle m⟩).link = .up := by
  have h : (upWith ch).receive ⟨[7], goodCycle m⟩ = (.aligned 7 0, none, .good) := by
    show (_, _, classOfCycle (goodCycle m)) = _
    rw [goodCycle_class]
    rfl
  have hr : rdyOf (goodCycle m) = true := overhead_rdy _ _ _ _ _
  have ht : ((upWith ch).takeInterval ⟨[7], goodCycle m⟩).rdy = ⟨true, 0⟩ := by
    unfold Port.takeInterval Port.filterStatus
    rw [h]
    show Filtered.take _ (rdyOf (goodCycle m)) _ = _
    rw [hr]
    rfl
  have hd : ((upWith ch).takeInterval ⟨[7], goodCycle m⟩).declares = false :=
    Bool.eq_false_iff.mpr fun hne => absurd ((declares_iff _ _).mp hne).1 (show ¬1 ≤ (0 : Byte).toNat by decide)
  have hk : ((upWith ch).takeInterval ⟨[7], goodCycle m⟩).link = .up := (takeInterval_keeps _ _).1
  have ha : ((upWith ch).takeInterval ⟨[7], goodCycle m⟩).receiver = .aligned 7 0 := by
    unfold Port.takeInterval
    rw [h]
  have hn : ((upWith ch).takeInterval ⟨[7], goodCycle m⟩).linkDecision
      (!(upWith ch).receiver.isAligned && ((upWith ch).takeInterval ⟨[7], goodCycle m⟩).receiver.isAligned)
      ((upWith ch).receiver.isAligned && !((upWith ch).takeInterval ⟨[7], goodCycle m⟩).receiver.isAligned) = none := by
    unfold Port.linkDecision
    rw [hk, ha, ht, hd]
    rfl
  refine ⟨h, ?_⟩
  unfold Port.linked Port.afterLink
  rw [hn]
  exact (advanceTimers_keeps _).1.trans hk

theorem test_hyp_CycleEventTakesMessages (ch : Channel) (m : Message) :
    (Interval.mk [7] (goodCycle m)).wf = true ∧ (upWith ch).link ≠ .off ∧ messageOf (goodCycle m) = m
      ∧ (((withPort (upWith ch)).cycleEvent 4 ⟨[7], goodCycle m⟩).port 4).lastClass = some .good
      ∧ (((withPort (upWith ch)).cycleEvent 4 ⟨[7], goodCycle m⟩).port 4).link = .up := by
  have hl : (upWith ch).link ≠ .off := show LinkState.up ≠ .off by decide
  have ha := after_port hl ⟨[7], goodCycle m⟩
  refine ⟨?_, hl, goodCycle_message m, ?_, ?_⟩
  · show (interval [7]).wf = true
    decide +kernel
  · rw [ha.2.1, (goodCycle_up ch m).1]
  · rw [ha.1, (goodCycle_up ch m).2]

/-- The runs and the sent count at their bounds, and what the message run compares. -/
theorem test_hyp_CycleEventTakesMessages_runs :
    let ch : Channel := { Channel.reset with
      outstanding := some .normal, answerKind := some .echo, answerRun := 2, sent := 124
      candidate := some ⟨4, 9⟩, messageRun := 2 }
    (3 ≤ ch.answerRun + 1 ∧ ¬(1 : Nat) ≥ 3 ∧ ch.sent < 125)
      ∧ ((⟨4, 9⟩ : Message) ≠ ⟨2, BitVec.ofNat 8 MaintCommand.normal.code⟩ ∧ (⟨4, 9⟩ : Message).code ≠ ch.lastReport)
      ∧ (ch.candidate = some ⟨4, 9⟩ ∧ ch.candidate ≠ some ⟨4, 8⟩ ∧ ch.messageRun = 2)
      ∧ ((⟨1, 2⟩ : Message).kind = 1 ∧ ringDist 507 0 + 5 ≤ 512) := by decide

/-- The prover claims port 4, in SEARCH and in LOCKED, with a bad run at its bound; a missing interval. -/
theorem test_hyp_CycleEventFeedsLineProver :
    let u : Prover := { Prover.reset with running := true, port := 4, locked := true, badRun := 3 }
    (withPort upPort).claimed ≠ some 4 ∧ ({ withPort upPort with prover := u } : State).claimed = some 4
      ∧ (u.locked = true ∧ ¬u.badRun + 1 < 4 ∧ Prover.reset.locked = false)
      ∧ (upPort.receive (interval [])).2.2 = .missing := by decide +kernel

theorem test_hyp_LinkTimersExpire_ready :
    let o := (withPort { upPort with link := .awaitReady, tReady := some 499, rdy := ⟨false, 0⟩ }).port 4
    (o.tReady = some 499 ∧ (o.takeInterval (interval [])).rdy.value = false
        ∧ (o.takeInterval (interval [])).receiver.isAligned = true ∧ o.link = .awaitReady)
      ∧ 498 + 1 < 500 := by decide +kernel

theorem test_hyp_LinkTimersExpire_hold :
    let o := (withPort { upPort with link := .suspect, tHold := some 24, receiver := .searching none 0 }).port 4
    (o.tHold = some 24 ∧ o.link = .suspect ∧ (o.takeInterval (interval [])).receiver.isAligned = false)
      ∧ 23 + 1 < 25 := by decide +kernel

theorem test_hyp_LinkTimersExpire_restore :
    let o := (withPort { upPort with link := .restore, tRestore := some 999, capture := ⟨.timing, 1, 0⟩ }).port 4
    (o.tRestore = some 999 ∧ o.link = .restore ∧ (o.takeInterval (interval [])).rdy.value = true
        ∧ (o.takeInterval (interval [])).receiver.isAligned = true ∧ o.capture.state = .timing)
      ∧ ((withPort { upPort with capture := ⟨.waitUp, 0, 0⟩ }).port 4).capture.state = .waitUp ∧ 998 + 1 < 1000 := by
  decide +kernel

/-- A window that has counted 3 of a threshold of 4 does not declare at a missing interval. -/
theorem missing_below {o : Port} (t : o.cfg.threshold = 4) (w : o.window = some ⟨9, 3, false⟩) : ¬o.windowReaches .missing := by
  rintro ⟨_, _, x, hx, _, h⟩
  rw [w] at hx
  cases hx
  rw [t] at h
  exact absurd h (by decide)

/-- RESTORE with a window short of its threshold, at both its timers. -/
theorem test_hyp_LinkTimersExpire_window :
    let o : Port := { upPort with
      cfg := ⟨true, false, false, false, 4⟩, window := some ⟨9, 3, false⟩, link := .restore, capture := ⟨.timing, 1, 0⟩ }
    let ready : Port := { o with tReady := some 499, rdy := ⟨false, 0⟩ }
    let restore : Port := { o with tRestore := some 999 }
    (ready.link = .restore ∧ ready.tRestore = none ∧ (ready.takeInterval (interval [])).lastClass = some .missing
        ∧ ¬ready.windowReaches .missing ∧ (ready.takeInterval (interval [])).rdy.value = false)
      ∧ (restore.tRestore = some 999 ∧ (restore.takeInterval (interval [])).lastClass = some .missing
        ∧ ¬restore.windowReaches .missing ∧ (restore.takeInterval (interval [])).rdy.value = true
        ∧ restore.capture.state = .timing ∧ restore.staysAligned (interval []))
      ∧ 998 + 1 < 1000 :=
  ⟨⟨rfl, rfl, rfl, missing_below rfl rfl, rfl⟩, ⟨rfl, rfl, missing_below rfl rfl, rfl, rfl, fun _ => rfl⟩, by decide⟩

theorem test_hyp_WindowAndCommandReachTheirCounts :
    let o := (withPort { upPort with channel := { Channel.reset with outstanding := some .normal, sent := 125 } }).port 4
    (interval []).wf = true
      ∧ (((withPort { upPort with window := some ⟨499, 3, false⟩ }).port 4).window = some ⟨499, 3, false⟩ ∧ 498 + 1 < 500)
      ∧ (o.channel.outstanding = some .normal ∧ 125 ≤ o.channel.sent ∧ o.link = .up
        ∧ (o.takeInterval (interval [])).lastClass = some .missing
        ∧ (o.channel.stepAnswer .normal none).answerRun < 3 ∧ ¬124 ≥ 125) := by decide +kernel

theorem test_hyp_CycleTransmitComposesCycle :
    ((withPort upPort).port 4).link ≠ .off ∧ (State.reset.port 4).link = .off
      ∧ ({ withPort upPort with prover := { Prover.reset with running := true, port := 4 } } : State).claimed = some 4 := by
  decide +kernel

/-- The three choices of a message: a COMMAND present, a command outstanding on either side of 125 cycles, and neither. -/
theorem test_hyp_CycleTransmitComposesCycle_messages :
    let ch : Channel := { Channel.reset with present := some ⟨1, 2⟩, outstanding := some .normal, sent := 124 }
    (ch.present = some ⟨1, 2⟩ ∧ (⟨1, 2⟩ : Message).kind = 1) ∧ (⟨4, 2⟩ : Message).kind ≠ 1
      ∧ (ch.outstanding = some .normal ∧ ch.sent < 125 ∧ 125 ≤ ch.sent + 1) ∧ Channel.reset.outstanding = none := by decide

/-- Row 3 from slot 1 of port 4 to slot 0 of port 6. -/
theorem test_hyp_CycleTransmitComposesCycle_feeds :
    let s : State := ((withRow liveRow).setPort 4 { upPort with rxOwner := (Vector.replicate 40 none).set 1 (some 3) }).setPort 6
      { upPort with txOwner := (Vector.replicate 40 none).set 0 (some 3) }
    (s.port 6).link ≠ .off ∧ s.claimed ≠ some 6 ∧ (s.port (s.logical 6)).txOwner[39] = none
      ∧ 4 = sourcePort (s.row 3).captured ∧ (s.port (s.logical 6)).txOwner[0] = some 3
      ∧ (s.port (s.logical 4)).rxOwner[1] = some 3
      ∧ slotsBelow (s.port (s.logical 6)).txOwner (some 3) 0 = slotsBelow (s.port (s.logical 4)).rxOwner (some 3) 1 := by
  decide +kernel

theorem test_hyp_NoticesHandedAndProduced :
    let n : Notice := ⟨1023, 1, 2, 3, 4⟩
    let s : State := { withPath { Path.reset with mside := .outbound, outbound := [.noticeWrite n] } with
      notice := ⟨1023, 1023, false, [n]⟩ }
    ((ringDist 511 0 + ([] : List Notice).length < 512 ∧ (255 : Nat) < 256)
        ∧ ¬ringDist 512 0 + ([] : List Notice).length < 512)
      ∧ (s.path.mside = .outbound ∧ s.path.outbound = .noticeWrite n :: [] ∧ s.notice.inWriting = n :: [])
      ∧ State.reset.path.mside ≠ .outbound := by decide +kernel

theorem test_hyp_RecordBegins :
    let s : State := { State.reset with settle := ⟨[3, 7], none, .waitRing, 511, 0, 1⟩ }
    (s.settle.writing = none ∧ s.settle.queue = 3 :: [7]) ∧ (ringDist 511 0 ≠ 512 ∧ (s.row 3).inFlight = .none)
      ∧ ringDist 512 0 = 512 ∧ s.settle.unit = .waitRing ∧ SettleUnit.idle ≠ .waitRing
      ∧ ((withRow { liveRow with inFlight := .amend }).row 3).inFlight ≠ .none := by decide +kernel

theorem test_hyp_RecordWordsAndCheck : liveRow.meter.closed.length ≤ 7 ∧ [(1 : Word), 2, 3, 4, 5, 6, 7].length ≤ 7 := by
  decide

theorem test_hyp_RecordHalvesComplete :
    let s : State := { withPath { Path.reset with mside := .outbound, outbound := [.recordHalf 1023 true [1]] } with
      settle := ⟨[], some ⟨3, 1023, [1]⟩, .writing, 1023, 1023, BitVec.allOnes 32⟩ }
    (s.path.mside = .outbound ∧ s.path.outbound = .recordHalf 1023 true [1] :: []
        ∧ s.settle.writing = some ⟨3, 1023, [1]⟩ ∧ s.settle.nextSeq = BitVec.allOnes 32)
      ∧ (withPath { Path.reset with mside := .outbound, outbound := [.recordHalf 5 false [1]] }).path.outbound
        = .recordHalf 5 false [1] :: [] := by decide +kernel

/-- A step from a state that meets the laws that need no port or row. -/
theorem test_hyp_StepKeepsMemoryLaw_OutboundLaw_RingAndCountLaws :
    let s : State := { State.reset with pending := [.start] }
    MemoryLaw s ∧ OutboundLaw s ∧ NoticeLaw s ∧ SettlementLaw s ∧ ProverLaw s ∧ ∃ t, step s = .next t := by
  refine ⟨by unfold MemoryLaw; decide, ⟨by decide, fun h => absurd rfl h, List.nodup_nil, ?_⟩,
    by unfold NoticeLaw; decide, by unfold SettlementLaw; decide, by unfold ProverLaw; decide, ⟨_, rfl⟩⟩
  intro pr
  cases pr <;> simp [State.reset, State.cold, Path.reset, Path.backlog]

/-- A step from a state that meets the laws of ports and rows: two carrying ports and a LIVE booking between them, and the
pair of one of them in pair mode. -/
theorem test_hyp_StepKeepsPortLaws_CarryingLaw_SelectionLaw :
    let s : State := { (pairState.setPort 6 upPort).setRow 3 liveRow with pending := [.msEvent [.advance]] }
    (ChannelLaw s ∧ EnableLaw s) ∧ CarryingLaw s ∧ ConfigLaw s ∧ SelectionLaw s ∧ ∃ t, step s = .next t := by
  refine ⟨⟨?_, ?_⟩, ?_, ⟨?_, ?_⟩, ?_, ⟨_, rfl⟩⟩
  · unfold ChannelLaw
    decide +kernel
  · unfold EnableLaw
    decide +kernel
  · unfold CarryingLaw
    decide +kernel
  · decide +kernel
  · decide +kernel
  · unfold SelectionLaw
    decide +kernel

end Sys2Proof.Tests
end

section
/-! PROOFS. The booking actions of the host at the bus: one rule for every write of W15, when each of POST, AMEND and
CANCEL is accepted, and what taking it does (R12 to R14). -/

namespace Sys2Proof.Machine

/-! A control write (R12, R159, R162) -/

/-- A control action does not look at the path. -/
theorem takeControl_blind (s : State) (q : Path) (r : RowId) (v : Word) :
    ({ s with path := q } : State).takeControl r v = { s.takeControl r v with path := q } := by
  have hrow : ({ s with path := q } : State).row r = s.row r := rfl
  simp only [State.takeControl, hrow]
  repeat' split
  all_goals rfl

/-- A control action leaves the path alone. -/
theorem takeControl_path (s : State) (r : RowId) (v : Word) : (s.takeControl r v).path = s.path := by
  simp only [State.takeControl]
  repeat' split
  all_goals rfl

/-- The host's write of W15 on an idle bus: the action is taken and answered in the same event, or the write is
refused and changes nothing (R12, R162). -/
theorem hostIssue_control {s : State} (hi : s.busIdle) (r : RowId) (v : Word) :
    s.hostIssue (s.writeOne (rowOffset r 15) v) =
      if s.controlOk r v then (s.takeControl r v).answered .done else s.answered .refused := by
  rw [write_actionWord hi (rowOffset_lt r 15) (locate_row r 15) rfl]
  have hok : s.writeOk (.row r 15) v = s.controlOk r v := rfl
  have hpath : ((s.granted (s.writeOne (rowOffset r 15) v)).takeControl r v).path
      = (s.granted (s.writeOne (rowOffset r 15) v)).path := takeControl_path _ _ _
  have htake : ({ (s.granted (s.writeOne (rowOffset r 15) v)).takeControl r v with path := s.path } : State)
      = s.takeControl r v := (takeControl_blind _ _ _ _).symm
  rw [hok]
  congr 1
  exact (respond_granted hi _ _ hpath).trans (congrArg (State.answered · .done) htake)

/-! When each action is accepted -/

theorem queueRoom_iff (s : State) : s.queueRoom = true ↔ s.actionQueue.length < 16 := by
  rw [State.queueRoom, decide_eq_true_iff]

/-- POST (R13). -/
theorem controlOk_post (s : State) (r : RowId) :
    s.controlOk r 1 = true ↔ (s.row r).state = .empty ∧ s.actionQueue.length < 16 := by
  simp only [State.controlOk, if_true, Bool.and_eq_true, beq_iff_eq, queueRoom_iff]

/-- AMEND and CANCEL (R14). -/
theorem controlOk_amendCancel (s : State) (r : RowId) {v : Word} (hv : v = 2 ∨ v = 3) :
    s.controlOk r v = true ↔
      ((s.row r).state = .held ∨ (s.row r).state = .live) ∧ (s.row r).inFlight = .none
        ∧ s.actionQueue.length < 16 := by
  have hnot : v ≠ 1 := by rcases hv with rfl | rfl <;> decide
  simp only [State.controlOk, if_neg hnot, if_pos hv, Bool.and_eq_true, beq_iff_eq, isBooked_iff, queueRoom_iff,
    and_assoc]

/-! What an accepted action does -/

theorem takeControl_post {s : State} {r : RowId} (h : (s.row r).state = .empty) :
    s.takeControl r 1 = s.takePost r := if_pos h

theorem takeControl_amend {s : State} {r : RowId} (h : (s.row r).isBooked = true) :
    s.takeControl r 2 = s.takeQueued r .amend .amend := if_pos h

theorem takeControl_cancel {s : State} {r : RowId} (h : (s.row r).isBooked = true) :
    s.takeControl r 3 = s.takeQueued r .cancel .cancel := if_pos h

@[simp] theorem takePost_row (s : State) (r q : RowId) :
    (s.takePost r).row q = if q = r then (s.row r).postAccepted else s.row q := row_setRow s r q _

/-- W0 to W9 of a POSTING row are locked (R8, R10). -/
theorem rowWriteOk_posting {s : State} {r : RowId} (h : (s.row r).state = .posting) {i : Fin 16} (hi : i.val < 10)
    (v : Word) : s.rowWriteOk r i v = false := by
  simp only [State.rowWriteOk, Row.isBooked, h, if_pos hi]
  split
  · rfl
  · rfl

/-! The commands -/

theorem exec_post (r : RowId) (s : State) :
    exec (.post r) s = .next (s.hostIssue (s.writeOne (rowOffset r 15) 1)) := rfl

theorem exec_amend (r : RowId) (s : State) :
    exec (.amend r) s = .next (s.hostIssue (s.writeOne (rowOffset r 15) 2)) := rfl

theorem exec_cancel (r : RowId) (s : State) :
    exec (.cancel r) s = .next (s.hostIssue (s.writeOne (rowOffset r 15) 3)) := rfl

/-- Settles O6: a control write of 1 is accepted exactly under R13's condition, and taking it leaves the row POSTING. -/
theorem postTakenOrRefused : Obligations.PostTakenOrRefused := by
  intro r s hi
  rw [exec_post, hostIssue_control hi]
  refine ⟨fun h => ?taken, fun h => ?refused⟩
  case taken =>
    have hrow : ((s.takePost r).answered .done).row r = (s.row r).postAccepted :=
      (takePost_row s r r).trans (if_pos rfl)
    rw [if_pos ((controlOk_post s r).mpr h), takeControl_post h.1]
    refine ⟨_, rfl, rfl, fun i v hlt => rowWriteOk_posting ?_ hlt v, ?_⟩
    · rw [hrow]
      rfl
    · rw [hrow]
      rfl
  case refused => rw [if_neg (mt (controlOk_post s r).mp h)]

/-- Settles O7: control writes of 2 and 3 are accepted under the one condition of R14. -/
theorem amendCancelTakenOrRefused : Obligations.AmendCancelTakenOrRefused := by
  intro r s hi
  have amendOk := controlOk_amendCancel s r (v := 2) (.inl rfl)
  have cancelOk := controlOk_amendCancel s r (v := 3) (.inr rfl)
  rw [exec_amend, exec_cancel, hostIssue_control hi, hostIssue_control hi]
  refine ⟨fun h => ?taken, fun h => ?refused⟩
  case taken =>
    have booked : (s.row r).isBooked = true := (isBooked_iff _).mpr h.1
    rw [if_pos (amendOk.mpr h), if_pos (cancelOk.mpr h), takeControl_amend booked, takeControl_cancel booked]
    exact ⟨rfl, rfl⟩
  case refused =>
    rw [if_neg (mt amendOk.mp h), if_neg (mt cancelOk.mp h)]
    exact ⟨rfl, rfl⟩

end Sys2Proof.Machine
end

section
/-! PROOFS. COLD_RESET and the Maintenance Channels: what the part after a cold reset reads at a port, when the
transaction in progress at M-side can leave a trace in memory, and why a disabled port takes no command (R97, R98,
R111, R169). -/

namespace Sys2Proof.Machine

/-! The part after a cold reset (R169) -/

theorem exec_coldReset_none (straps : BitVec 8) (s : State) :
    exec (.coldReset straps none) s = .next (s.resetWith straps) := rfl

/-- R50, R97: every port has its reset values, whatever it held before. -/
@[simp] theorem resetWith_port (s : State) (straps : BitVec 8) (p : PortId) :
    (s.resetWith straps).port p = Port.reset := by
  simp only [State.port, State.resetWith, State.cold, Fin.getElem_fin, Vector.getElem_replicate]

@[simp] theorem resetWith_mem (s : State) (straps : BitVec 8) : (s.resetWith straps).mem = s.memAtReset := rfl

/-- R111: the reset gives the Notice Writer nothing to write. -/
@[simp] theorem resetWith_inWriting (s : State) (straps : BitVec 8) :
    (s.resetWith straps).notice.inWriting = [] := rfl

@[simp] theorem resetWith_outbound (s : State) (straps : BitVec 8) :
    (s.resetWith straps).path.outbound = [] := rfl

/-- R169: with M-side free no transaction is in progress, and the reset leaves memory as it is. -/
theorem memAtReset_of_free {s : State} (h : s.path.mside = .free) : s.memAtReset = s.mem := by
  simp only [State.memAtReset, h]

/-! The words of a Maintenance Channel (R97, R98) -/

theorem answer_p6 (s : State) (p : PortId) : s.answer (.port p .p6) = (s.port p).channel.word := rfl

theorem answer_p7 (s : State) (p : PortId) :
    s.answer (.port p .p7) = (s.port p).channel.lastReport.setWidth 32 := rfl

theorem writeOk_p5 (s : State) (p : PortId) (v : Word) : s.writeOk (.port p .p5) v = s.commandOk p v := rfl

/-- P6 of a channel in its reset values. -/
theorem channelReset_word : Channel.reset.word = 0 := by decide

/-- R98: a disabled port takes no maintenance command. -/
theorem commandOk_of_disabled {s : State} {p : PortId} (h : (s.port p).cfg.enable = false) (v : Word) :
    s.commandOk p v = false := by
  simp only [State.commandOk, h, Bool.and_false, Bool.false_and]

/-- Settles O4: every port reads its reset values, which fix P6 and P7; being disabled, it takes no command at P5. -/
theorem coldResetChannels : Obligations.ColdResetChannels := by
  intro straps s
  refine ⟨s.resetWith straps, exec_coldReset_none straps s, fun p => ?channel, resetWith_inWriting s straps,
    resetWith_outbound s straps, fun hfree => ?memory⟩
  case channel =>
    have hport : (s.resetWith straps).port p = Port.reset := resetWith_port s straps p
    have hp6 : (s.resetWith straps).answer (.port p .p6) = 0 := by
      rw [answer_p6, hport]
      exact channelReset_word
    have hp7 : (s.resetWith straps).answer (.port p .p7) = 0 := by
      rw [answer_p7, hport]
      rfl
    have hp5 (v : Word) : (s.resetWith straps).writeOk (.port p .p5) v = false := by
      rw [writeOk_p5]
      exact commandOk_of_disabled (by rw [hport]; rfl) v
    rw [hport]
    exact ⟨rfl, rfl, rfl, rfl, rfl, rfl, rfl, rfl, rfl, rfl, rfl, rfl, rfl, hp6, hp7, hp5⟩
  case memory => rw [resetWith_mem, memAtReset_of_free hfree]

end Sys2Proof.Machine
end

section
/-! PROOFS. COLD_RESET and the Line Prover: the bits of a placed field, when no port is claimed, and what A2 and A19 to
A22 show of the prover (R112, R113, R124, R175). -/

namespace Sys2Proof.Machine

/-! The bits of a word made of fields -/

theorem getLsbD_place (lo value : Nat) {i : Nat} (hi : i < 32) :
    (place lo value).getLsbD i = (decide (lo ≤ i) && value.testBit (i - lo)) := by
  have hsub : i - lo < 32 := by omega
  rw [place, BitVec.getLsbD_shiftLeft, BitVec.getLsbD_ofNat, decide_eq_true hi, decide_eq_true hsub, Bool.true_and,
    Bool.true_and, ← decide_not, decide_eq_decide.mpr Nat.not_lt]

/-- A placed flag shows at its own bit alone. -/
theorem getLsbD_placeBit (lo : Nat) (b : Bool) {i : Nat} (hi : i < 32) :
    (placeBit lo b).getLsbD i = (decide (i = lo) && b) := by
  rw [placeBit, getLsbD_place _ _ hi, Nat.testBit_bool_toNat]
  rcases Nat.lt_trichotomy i lo with h | rfl | h
  · simp [Nat.not_le.mpr h, Nat.ne_of_lt h]
  · simp
  · simp [Nat.sub_ne_zero_of_lt h, Nat.ne_of_gt h]

/-! A2 and the claim -/

/-- R175: the fabric state fits bits [1:0] of A2. -/
theorem fabricCode_lt (f : FabricState) : f.code < 4 := by
  cases f <;> decide

/-- A2 bit [4] shows a running test: the fabric state lies below it and each other bit has its own place (R175). -/
theorem fabricWord_running (s : State) : s.fabricWord.getLsbD 4 = s.prover.running := by
  have hcode : s.fabric.code.testBit 4 = false :=
    Nat.testBit_lt_two_pow (Nat.lt_trans (fabricCode_lt s.fabric) (by decide))
  have h4 : 4 < 32 := by decide
  rw [State.fabricWord, BitVec.getLsbD_or, BitVec.getLsbD_or, BitVec.getLsbD_or, getLsbD_place _ _ h4,
    getLsbD_placeBit _ _ h4, getLsbD_placeBit _ _ h4, getLsbD_placeBit _ _ h4, Nat.sub_zero, hcode]
  simp

/-- R115: no port is claimed while no test runs. -/
theorem claimed_of_idle {s : State} (h : s.prover.running = false) : s.claimed = none := by
  rw [State.claimed, h]
  rfl

/-! The words that the Line Prover answers (R113) -/

theorem answer_a2 (s : State) : s.answer (.anchor .a2) = s.fabricWord := rfl

theorem answer_a19 (s : State) : s.answer (.anchor .a19) = s.prover.word := rfl

theorem answer_a20 (s : State) : s.answer (.anchor .a20) = s.prover.errorBits := rfl

theorem answer_a21 (s : State) : s.answer (.anchor .a21) = s.prover.elapsed := rfl

theorem answer_a22 (s : State) : s.answer (.anchor .a22) = s.prover.lockedTime := rfl

/-- A19 of a prover in its reset values: IDLE, SEARCH, outcome NONE and port 0. -/
theorem proverReset_word : Prover.reset.word = 0 := by decide

/-- R124: the prover has its reset values, whatever test was running before. -/
@[simp] theorem resetWith_prover (s : State) (straps : BitVec 8) : (s.resetWith straps).prover = Prover.reset := rfl

/-- Settles O5: the prover takes its reset values, in which no test runs, so no port is claimed and A2 bit [4] is
clear; A19 to A22 show these values. -/
theorem coldResetProver : Obligations.ColdResetProver := by
  intro straps s
  have hprover : (s.resetWith straps).prover = Prover.reset := resetWith_prover s straps
  have hidle : (s.resetWith straps).prover.running = false := by
    rw [hprover]
    rfl
  refine ⟨s.resetWith straps, exec_coldReset_none straps s, hprover, claimed_of_idle hidle, ?a2, ?a19, ?a20, ?a21, ?a22,
    resetWith_inWriting s straps, resetWith_outbound s straps, fun hfree => ?memory⟩
  case a2 => rw [answer_a2, fabricWord_running, hidle]
  case a19 => rw [answer_a19, hprover, proverReset_word]
  case a20 =>
    rw [answer_a20, hprover]
    rfl
  case a21 =>
    rw [answer_a21, hprover]
    rfl
  case a22 =>
    rw [answer_a22, hprover]
    rfl
  case memory => rw [resetWith_mem, memAtReset_of_free hfree]

end Sys2Proof.Machine
end

section
/-! PROOFS. The settlement record: the fields that its words are made of, the blocks of words it is laid out in, and
why its check word brings the sum to 0 (R144, R145). -/

namespace Sys2Proof.Machine

/-! The fields of the record's words (R144) -/

/-- S6 and S8 keep bits [7:0] of the high time words, whatever stands above them. -/
theorem and_lowByte (v : Word) : v &&& 0xFF = (v.extractLsb' 0 8).setWidth 32 := by
  apply BitVec.eq_of_toNat_eq
  rw [BitVec.toNat_and, BitVec.toNat_setWidth, BitVec.extractLsb'_toNat, Nat.shiftRight_zero]
  have hmask : v.toNat &&& (0xFF : Word).toNat = v.toNat % 2 ^ 8 := Nat.and_two_pow_sub_one_eq_mod v.toNat 8
  omega

/-- S3 adds the late flag and the end reason to W2 at their places. -/
theorem recordFlags_eq (x : Row) :
    recordFlags x = x.captured[2] ||| BitVec.ofNat 32 (2 ^ 17 * x.late.toNat)
      ||| BitVec.ofNat 32 (2 ^ 20 * x.endReason.code) := by
  rw [recordFlags, placeBit, place_eq, place_eq]

/-! The blocks of the record: S0 to S17, S18 to S24, S25 to S30 and S31 -/

/-- S0 to S17: the words of the Directory and of the counts of the meter. -/
def recordHead (x : Row) (seq : Word) : List Word := (recordBody x seq).take 18

theorem recordHead_length (x : Row) (seq : Word) : (recordHead x seq).length = 18 := by
  rw [recordHead, List.length_take, recordBody_length]
  rfl

theorem recordHead_eq (x : Row) (seq : Word) :
    recordHead x seq = [seq, x.captured[0], x.captured[1], recordFlags x, x.captured[3],
      x.captured[4], x.captured[5] &&& 0xFF, x.captured[6], x.captured[7] &&& 0xFF,
      timeLow x.actualStart, timeHigh x.actualStart, timeLow x.actualEnd, timeHigh x.actualEnd,
      x.meter.carriage, x.meter.served, x.meter.outage,
      countsWord x.meter.outageCount x.meter.switchCount, BitVec.ofNat 32 x.meter.closed.length] := rfl

theorem recordBody_eq (x : Row) (seq : Word) :
    recordBody x seq = recordHead x seq ++ (padWords 7 x.meter.closed ++ List.replicate 6 0) := by
  rw [recordHead_eq, ← List.append_assoc]
  rfl

theorem padWords_length (n : Nat) (ws : List Word) : (padWords n ws).length = n := by
  simp [padWords]

/-- Below its length a padded list shows the list's own words, and 0 after them. -/
theorem padWords_getElem? {n i : Nat} (ws : List Word) (hi : i < n) : (padWords n ws)[i]? = some (ws.getD i 0) := by
  rw [padWords, List.getElem?_take_of_lt hi, List.getD_eq_getElem?_getD]
  by_cases hws : i < ws.length
  · rw [List.getElem?_append_left hws, List.getElem?_eq_getElem hws]
    rfl
  · have hle : ws.length ≤ i := Nat.le_of_not_lt hws
    have hpad : i - ws.length < n := by omega
    rw [List.getElem?_append_right hle, List.getElem?_replicate_of_lt hpad, List.getElem?_eq_none hle]
    rfl

/-- S18 to S24 are the closed segments in order, with 0 beyond the last. -/
theorem recordBody_segment (x : Row) (seq : Word) {i : Nat} (hi : i < 7) :
    (recordBody x seq)[18 + i]? = some (x.meter.closed.getD i 0) := by
  have hpad : i < (padWords 7 x.meter.closed).length := by rwa [padWords_length]
  rw [recordBody_eq, List.getElem?_append_right (by rw [recordHead_length]; omega), recordHead_length,
    Nat.add_sub_cancel_left, List.getElem?_append_left hpad, padWords_getElem? _ hi]

/-- S25 to S30 are 0. -/
theorem recordBody_zero (x : Row) (seq : Word) {i : Nat} (hlo : 25 ≤ i) (hhi : i ≤ 30) :
    (recordBody x seq)[i]? = some 0 := by
  have hsub : i - 18 - 7 < 6 := by omega
  rw [recordBody_eq, List.getElem?_append_right (by rw [recordHead_length]; omega), recordHead_length,
    List.getElem?_append_right (by rw [padWords_length]; omega), padWords_length, List.getElem?_replicate_of_lt hsub]

/-! The record around its body (R145) -/

/-- The words before the check word are the body's. -/
theorem composeRecord_getElem? (x : Row) (seq : Word) {i : Nat} (hi : i < 31) :
    (composeRecord x seq)[i]? = (recordBody x seq)[i]? :=
  List.getElem?_append_left (by rwa [recordBody_length])

theorem composeRecord_take {n : Nat} (x : Row) (seq : Word) (hn : n ≤ 31) :
    (composeRecord x seq).take n = (recordBody x seq).take n :=
  List.take_append_of_le_length (by rwa [recordBody_length])

theorem composeRecord_take_body (x : Row) (seq : Word) : (composeRecord x seq).take 31 = recordBody x seq := by
  rw [composeRecord_take x seq (Nat.le_refl 31), List.take_of_length_le (Nat.le_of_eq (recordBody_length x seq))]

theorem composeRecord_check (x : Row) (seq : Word) :
    (composeRecord x seq)[31]? = some (0 - wordSum (recordBody x seq)) := by
  rw [composeRecord, ← recordBody_length x seq, List.getElem?_concat_length]

/-- R145: the check word takes the sum of the words before it away again. -/
theorem wordSum_composeRecord (x : Row) (seq : Word) : wordSum (composeRecord x seq) = 0 := by
  have hcancel (v : Word) : v + (0 - v) = 0 := by rw [BitVec.add_comm, BitVec.sub_add_cancel]
  rw [composeRecord, wordSum_append, hcancel]

/-- Settles O52: each word is read off its block of the record, and the check word is the negated sum of the body. -/
theorem recordWordsAndCheck : Obligations.RecordWordsAndCheck := by
  intro x seq
  refine ⟨composeRecord x seq, rfl, composeRecord_length x seq, ?head, fun _ i hi => ?segment, fun i hlo hhi => ?zero,
    ?check, wordSum_composeRecord x seq⟩
  case head =>
    have hhead : (composeRecord x seq).take 18 = recordHead x seq := composeRecord_take x seq (by decide)
    rw [hhead, recordHead_eq, recordFlags_eq, and_lowByte, and_lowByte]
    rfl
  case segment => rw [composeRecord_getElem? x seq (by omega), recordBody_segment x seq hi]
  case zero => rw [composeRecord_getElem? x seq (by omega), recordBody_zero x seq hlo hhi]
  case check =>
    rw [composeRecord_take_body]
    exact composeRecord_check x seq

end Sys2Proof.Machine
end

section
/-! PROOFS. The identity word A0: what it answers, that no write of it is accepted, and its transactions at the bus
(R159, R161, R168). -/

namespace Sys2Proof.Machine

/-- A host transaction that the bus can carry is issued (R157, R158). -/
theorem exec_arrival {t : Transaction} (h : t.wf = true) (s : State) :
    exec (.hostTransactionArrival t) s = .next (s.hostIssue t) := if_pos h

theorem answer_a0 (s : State) : s.answer (.anchor .a0) = Config.identity := rfl

theorem writeOk_a0 (s : State) (v : Word) : s.writeOk (.anchor .a0) v = false := rfl

/-- A0 is the word at offset 0 of the window (R168). -/
theorem locate_identity : locate 0 = .anchor .a0 := locate_anchor .a0

/-- The host's read of A0 on an idle bus: answering it clears and holds nothing (R159, R168). -/
theorem reads_identity {s : State} (hi : s.busIdle) : s.reads 0 Config.identity := by
  have hplain : s.answerEffect (.anchor .a0) = s :=
    answerEffect_plain s (by decide) (fun _ => ⟨nofun, nofun, nofun⟩) (fun _ => nofun)
  have hread : s.reads 0 (s.answer (.anchor .a0)) :=
    reads_word hi (anchorOffset_lt .a0) (Nat.zero_mod 4) locate_identity rfl hplain
  rwa [answer_a0] at hread

/-- The host's write of A0 on an idle bus: the judgement refuses it, whatever the value (R161, R168). -/
theorem hostIssue_identity {s : State} (hi : s.busIdle) (v : Word) :
    s.hostIssue (s.writeOne 0 v) = s.answered .refused := by
  refine write_refused hi (off := 0) (anchorOffset_lt .a0) ?_
  rw [locate_identity]
  exact writeOk_a0 _ v

/-- Settles O19: A0's owner gives the constant identity, and its judgement accepts no value. -/
theorem identityWord : Obligations.IdentityWord := by
  intro s hi
  refine ⟨reads_identity hi, fun v => ?refused⟩
  case refused =>
    have hwf : (s.writeOne 0 v).wf = true := writeOne_wf s v (anchorOffset_lt .a0) (Nat.zero_mod 4)
    rw [exec_arrival hwf, hostIssue_identity hi]

end Sys2Proof.Machine
end

section
/-! PROOFS. The laws of memory and of the Outbound Queue at a step: a property that the blocks' tame work keeps and
that survives the moves of the Memory Path survives every command (R158, R162, R165, R166, R169). -/

namespace Sys2Proof.Machine

/-- The two paths have the same Outbound Queue, with the same producers waiting behind it. -/
structure SameQueue (q r : Path) : Prop where
  outbound : r.outbound = q.outbound
  waiting : r.waiting = q.waiting
  backlog : ∀ pr, r.backlog pr = q.backlog pr

theorem SameQueue.refl (q : Path) : SameQueue q q := ⟨rfl, rfl, fun _ => rfl⟩

/-- Fields of the path other than the queue's do not count. -/
theorem SameQueue.of_fields {q r : Path} (ho : r.outbound = q.outbound) (hw : r.waiting = q.waiting)
    (ha : r.admissionBacklog = q.admissionBacklog) (hn : r.noticeBacklog = q.noticeBacklog)
    (hs : r.settleBacklog = q.settleBacklog) : SameQueue q r :=
  ⟨ho, hw, fun pr => by cases pr <;> assumption⟩

theorem sameQueue_grantOutbound (q : Path) : SameQueue q q.grantOutbound := by
  unfold Path.grantOutbound
  split
  · exact .of_fields rfl rfl rfl rfl rfl
  · exact .of_fields rfl rfl rfl rfl rfl

/-- A property of memory and the Outbound Queue that the blocks' work and the moves of the Memory Path keep. -/
structure PathLaw (P : State → Prop) : Prop where
  tame : ∀ {s t}, Tame s t → P s → P t
  move : ∀ {s t}, P s → t.mem = s.mem → t.pending = s.pending → SameQueue s.path t.path → P t
  run : ∀ (s : State) (r : List (Nat × Word)), P s → P { s with mem := s.mem.writeRun r }
  complete : ∀ {s : State} {e : OutEntry}, s.inProgress = some e → P s → P (s.completeHead e)
  cold : ∀ s b, P s → P (s.resetWith b)

variable {P : State → Prop}

theorem PathLaw.setPhase (h : PathLaw P) {s : State} (t : Transaction) (ph : PsidePhase) (hs : P s) :
    P (s.setPhase t ph) :=
  h.move hs rfl rfl (.of_fields rfl rfl rfl rfl rfl)

theorem PathLaw.respond (h : PathLaw P) {s : State} (a : Response) (hs : P s) : P (s.respond a) := by
  have answered : P { s with path := { s.path with current := none, response := some a } } :=
    h.move hs rfl rfl (.of_fields rfl rfl rfl rfl rfl)
  exact h.move answered rfl rfl (sameQueue_grantOutbound _)

theorem PathLaw.takeActions (h : PathLaw P) {s : State} (l : List (WinWord × Word)) (hs : P s) : P (s.takeActions l) :=
  h.tame (calm_takeActions s l).toTame hs

theorem PathLaw.judgeBurst (h : PathLaw P) {s : State} (t : Transaction) (ws : List (Nat × Word)) (hs : P s) :
    P (s.judgeBurst t ws) := by
  unfold State.judgeBurst
  extract_lets named u actions runs
  have captured : P u := h.tame (tame_captures s named) hs
  exact kept_ite (kept_ite (h.respond _ (h.takeActions _ captured)) (h.setPhase _ _ captured)) (h.respond _ hs)

theorem PathLaw.judge (h : PathLaw P) {s : State} (t : Transaction) (hs : P s) : P (s.judge t) := by
  cases t with
  | read a n =>
    exact kept_ite (h.setPhase _ _ hs) (kept_ite (h.respond _ hs) (h.setPhase _ _ hs))
  | write a ws =>
    exact kept_ite (h.setPhase _ _ hs) (kept_ite
      (kept_ite (h.respond _ hs) (kept_ite (h.respond _ hs) (h.setPhase _ _ hs)))
      (kept_ite (h.respond _ hs) (h.judgeBurst _ _ hs)))

theorem PathLaw.grantPside (h : PathLaw P) {s : State} (t : Transaction) (hs : P s) : P (s.grantPside t) :=
  h.judge t (h.move hs rfl rfl (.of_fields rfl rfl rfl rfl rfl))

theorem PathLaw.arbitrate (h : PathLaw P) {s : State} (hs : P s) : P s.arbitrate := by
  have toQueue : P { s with path := s.path.grantOutbound } := h.move hs rfl rfl (sameQueue_grantOutbound _)
  unfold State.arbitrate
  split
  · split
    · exact kept_ite (h.grantPside _ hs) toQueue
    · exact toQueue
  · exact hs

theorem PathLaw.hostIssue (h : PathLaw P) {s : State} (t : Transaction) (hs : P s) : P (s.hostIssue t) :=
  kept_ite hs (h.arbitrate (h.setPhase t .arrived hs))

theorem PathLaw.readOn (h : PathLaw P) {s : State} (t : Transaction) (got : List Word) (l : List ReadPiece)
    (hs : P s) : P (s.readOn t got l) :=
  kept_ite (h.respond _ hs) (h.setPhase _ _ hs)

theorem PathLaw.progress (h : PathLaw P) {s : State} (hs : P s) : P s.progress := by
  unfold State.progress
  split
  case h_1 run runs actions _ _ =>
    have written := h.run s run hs
    exact kept_ite (h.respond _ (h.takeActions _ written)) (h.setPhase _ _ written)
  case h_2 => exact h.readOn _ _ _ hs
  case h_3 => exact h.readOn _ _ _ (h.tame (calm_answerEffect s _).toTame hs)
  case h_4 => exact hs

theorem PathLaw.hostReadOne (h : PathLaw P) {s : State} (off : Nat) (hs : P s) : P (s.hostReadOne off) :=
  kept_ite hs (h.progress (h.arbitrate (h.setPhase _ _ hs)))

theorem PathLaw.freeMside (h : PathLaw P) {s : State} (hs : P s) : P s.freeMside :=
  h.arbitrate (h.move hs rfl rfl (.of_fields rfl rfl rfl rfl rfl))

theorem PathLaw.completeRecord (h : PathLaw P) {s : State} (hs : P s) : P s.completeRecord := by
  unfold State.completeRecord
  split
  · exact hs
  · extract_lets x seq settle t
    have recorded : P t := h.move hs rfl rfl (.refl _)
    exact h.tame ((calm_handNotice _ _ _ _ _ _).trans (calm_settleStep _)).toTame recorded

theorem PathLaw.spanEvent (h : PathLaw P) {s t : State} {p : PortId} {iv : Interval} {due : Bool}
    (e : s.spanEvent p iv due = .next t) (hs : P s) : P t := by
  unfold State.spanEvent at e
  split at e
  · cases e
    exact kept_ite (h.tame (calm_cycleEvent _ _ _).toTame hs) hs
  · cases e

theorem PathLaw.hostIssueChecked (h : PathLaw P) {s t : State} {x : Transaction}
    (e : s.hostIssueChecked x = .next t) (hs : P s) : P t := by
  unfold State.hostIssueChecked at e
  split at e
  · cases e
    exact h.hostIssue _ hs
  · cases e

/-! The completions at M-side -/

theorem PathLaw.rowReadDone (h : PathLaw P) {s : State} (hs : P s) : P s.rowReadDone := by
  unfold State.rowReadDone
  split
  · exact h.freeMside (h.tame (calm_finishPost _ _ _).toTame (h.complete ‹_› hs))
  · exact hs

theorem PathLaw.noticeWritten (h : PathLaw P) {s : State} (hs : P s) : P s.noticeWritten := by
  unfold State.noticeWritten
  split
  case h_1 n head =>
    have completed : P (s.completeHead (.noticeWrite n)) := h.complete head hs
    exact h.freeMside (h.move completed (noticeProduced_mem _) (noticeProduced_pending _)
      (noticeProduced_path (s.completeHead _) ▸ .refl _))
  case h_2 => exact hs

theorem PathLaw.firstHalfDone (h : PathLaw P) {s : State} (hs : P s) : P s.firstHalfDone := by
  unfold State.firstHalfDone
  split
  · exact h.freeMside (h.complete ‹_› hs)
  · exact hs

theorem PathLaw.secondHalfDone (h : PathLaw P) {s : State} (hs : P s) : P s.secondHalfDone := by
  unfold State.secondHalfDone
  split
  · exact h.freeMside (h.completeRecord (h.complete ‹_› hs))
  · exact hs

/-- The Admission Unit's and the Scheduler's commands pick a row and run one tame operation on it. -/
theorem PathLaw.picked (h : PathLaw P) {s : State} {f : RowId → State} (pick : Option RowId)
    (run : ∀ r, Tame s (f r)) (hs : P s) : P (match pick with | some r => f r | none => s) := by
  cases pick with
  | some r => exact h.tame (run r) hs
  | none => exact hs

/-- A command that completes keeps the property. -/
theorem PathLaw.exec (h : PathLaw P) {i : Instr} {s t : State} (e : exec i s = .next t) (hs : P s) : P t := by
  cases i
  case coldReset b a =>
    cases a with
    | none =>
      cases e
      exact h.cold _ _ hs
    | some a =>
      simp only [Machine.exec, execColdReset] at e
      split at e
      · cases e
        exact h.arbitrate (h.setPhase _ _ (h.cold _ _ hs))
      · cases e
  case msEvent l =>
    cases e
    exact kept_foldl (fun s x => h.tame (calm_msPart s x).toTame) l s hs
  case cycleEvent => exact h.spanEvent e hs
  case tReadyExpiry => exact h.spanEvent e hs
  case tHoldExpiry => exact h.spanEvent e hs
  case tRestoreExpiry => exact h.spanEvent e hs
  case errorWindowClose => exact h.spanEvent e hs
  case commandNoAnswer => exact h.spanEvent e hs
  case cycleTransmit =>
    cases e
    exact h.tame (calm_transmit _ _).toTame hs
  case hostTransactionArrival => exact h.hostIssueChecked e hs
  case plainWrite => exact h.hostIssueChecked e hs
  case msideGrant =>
    cases e
    exact h.arbitrate hs
  case forwardComplete =>
    cases e
    exact h.progress hs
  case timeRead =>
    cases e
    exact h.hostReadOne _ hs
  case counterRead =>
    cases e
    exact h.hostReadOne _ hs
  case meterSnapshotRead =>
    cases e
    exact h.hostReadOne _ hs
  case postBegin =>
    cases e
    exact h.tame (calm_beginPost s).toTame hs
  case admissionRowReadDone =>
    cases e
    exact h.rowReadDone hs
  case amendExecute =>
    cases e
    exact h.picked _ (fun r => (calm_runAmend s r).toTame) hs
  case cancelExecute =>
    cases e
    exact h.picked _ (fun r => (calm_runCancel s r).toTame) hs
  case goLive =>
    cases e
    exact h.picked _ (fun r => ((calm_goLiveRow s r (s.isLate r)).trans (calm_pass _ _)).toTame) hs
  case scheduledEnd =>
    cases e
    exact h.picked _ (fun r => ((calm_scheduleEnd s r .scheduled).trans (calm_pass _ _)).toTame) hs
  case stopEnd =>
    cases e
    exact h.picked _ (fun r => (calm_scheduleEnd s r .stopped).toTame) hs
  case proverExpiry =>
    cases e
    exact kept_ite (h.tame (calm_proverHandle s).toTame hs) hs
  case noticeWriteDone =>
    cases e
    exact h.noticeWritten hs
  case recordBegin =>
    cases e
    exact h.tame (calm_settleStep s).toTame hs
  case settlementFirstHalfDone =>
    cases e
    exact h.firstHalfDone hs
  case recordComplete =>
    cases e
    exact h.secondHalfDone hs
  all_goals
    cases e
    exact h.hostIssue _ hs

/-- A step that completes keeps a property that does not look at the queue of commands. -/
theorem PathLaw.step (h : PathLaw P) (dequeue : ∀ s l, P s → P { s with pending := l }) {s t : State}
    (e : step s = .next t) (hs : P s) : P t := by
  unfold Machine.step at e
  split at e
  · cases e
    exact hs
  · exact h.exec e (dequeue s _ hs)

/-- Memory changes by runs of the host, by a completing entry and by what a reset lets complete, and each writes whole
words in the canonical form. -/
theorem memory_pathLaw : PathLaw MemoryLaw where
  tame h hs := by
    rw [MemoryLaw, h.mem]
    exact hs
  move hs hm _ _ := by
    rw [MemoryLaw, hm]
    exact hs
  run _ r hs := writeRun_wf hs r
  complete _ hs := apply_wf hs _ _
  cold _ _ hs := memAtReset_wf hs

/-- The entry in progress at M-side is the head of a queue that is not empty. -/
theorem outbound_ne_nil {s : State} {e : OutEntry} (h : s.inProgress = some e) : s.path.outbound ≠ [] := by
  intro hnil
  rw [State.inProgress, hnil] at h
  split at h <;> cases h

/-- The Outbound Queue changes by offers, which the blocks' tame work makes, and by the head's leaving. -/
theorem outbound_pathLaw : PathLaw OutboundLaw where
  tame h hs := h.outbound hs
  move hs _ _ hq := Path.Law.congr hs hq.outbound hq.waiting hq.backlog
  run _ _ hs := hs
  complete h hs := leave_law hs (outbound_ne_nil h)
  cold _ _ _ := by
    refine ⟨Nat.zero_le _, fun h => absurd rfl h, List.nodup_nil, fun pr => ?_⟩
    cases pr <;> exact iff_of_false List.not_mem_nil fun h => h rfl

/-- Settles O55: memory's canonical form is a property of the Memory Path. -/
theorem stepKeepsMemoryLaw : Obligations.StepKeepsMemoryLaw := fun _ _ hs e => memory_pathLaw.step (fun _ _ h => h) e hs

/-- Settles O56: so is R165's law of the Outbound Queue. -/
theorem stepKeepsOutboundLaw : Obligations.StepKeepsOutboundLaw := fun _ _ hs e => outbound_pathLaw.step (fun _ _ h => h) e hs

end Sys2Proof.Machine
end

section
/-! PROOFS. The laws of the two rings and of the counts at a step (R119, R132, R136, R148, R171, R172). -/

namespace Sys2Proof.Machine

/-! ## The rings: the blocks' tame work keeps them -/

/-- A law that tame work keeps and that does not look at memory or the path is kept by every block, once it is kept by
the four operations that are not tame. -/
theorem keptByBlocks_of_tame {P : State → Prop} (blind : Blind P) (tame : ∀ {s t}, Tame s t → P s → P t)
    (cold : ∀ s b, P (State.resetWith s b)) (notice : ∀ s, P s → P s.noticeProduced)
    (complete : ∀ s, P s → P s.completeRecord) : KeptByBlocks P where
  blind := blind
  action s w v := tame (calm_takeAction s w v).toTame
  capture s w v := tame (tame_captureWord s w v)
  answer s w := tame (calm_answerEffect s w).toTame
  cold s b _ := cold s b
  ms s x := tame (calm_msPart s x).toTame
  cycle s p iv := tame (calm_cycleEvent s p iv).toTame
  transmit s p := tame (calm_transmit s p).toTame
  beginPost s := tame (calm_beginPost s).toTame
  finishPost s r ws := tame (calm_finishPost s r ws).toTame
  runAmend s r := tame (calm_runAmend s r).toTame
  runCancel s r := tame (calm_runCancel s r).toTame
  goLive s r _ := tame ((calm_goLiveRow s r (s.isLate r)).trans (calm_pass _ _)).toTame
  schedEnd s r _ := tame ((calm_scheduleEnd s r .scheduled).trans (calm_pass _ _)).toTame
  stopEnd s r := tame (calm_scheduleEnd s r .stopped).toTame
  prover s := tame (calm_proverHandle s).toTame
  notice := notice
  settle s := tame (calm_settleStep s).toTame
  complete := complete

/-- The distance to an index that goes on by 1 grows by at most 1. -/
theorem ringDist_succ_le (a b : BitVec 10) : ringDist (a + 1) b ≤ ringDist a b + 1 := by
  unfold ringDist
  bv_omega

/-- The record that completes leaves the settlement ring's law: fewer than 512 were held while it was in writing. -/
theorem settlementLaw_completeRecord {s : State} (h : SettlementLaw s) : SettlementLaw s.completeRecord := by
  unfold State.completeRecord
  split
  case h_1 => exact h
  case h_2 w writing =>
    extract_lets x seq settle t
    have room : s.settle.held < Config.ringSlots := h.2 (by rw [writing]; rfl)
    have grown : t.settle.held ≤ s.settle.held + 1 := ringDist_succ_le _ _
    have appended : SettlementLaw t := ⟨by omega, nofun⟩
    exact ((calm_handNotice t _ _ _ _ _).trans (calm_settleStep _)).settle appended

/-- The notice that is produced leaves the list as it joins the unconsumed entries. -/
theorem noticeLaw_produced {s : State} (h : NoticeLaw s) : NoticeLaw s.noticeProduced := by
  unfold NoticeLaw State.noticeProduced NoticeWriter.produced at *
  split
  case h_1 => exact h
  case h_2 n rest list =>
    have grown := ringDist_succ_le s.notice.produce s.notice.consume
    simp only [list, List.length_cons] at h
    dsimp only
    omega

theorem noticeLaw_reset {s : State} {b : BitVec 8} : NoticeLaw (s.resetWith b) := by
  show ringDist 0 0 + 0 ≤ 512
  decide

theorem noticeLaw_kept : KeptByBlocks NoticeLaw :=
  keptByBlocks_of_tame (fun _ _ _ _ h => h) Tame.notice (fun _ _ => noticeLaw_reset) (fun _ h => noticeLaw_produced h)
    fun s h => by
      unfold State.completeRecord
      split
      · exact h
      · exact ((calm_handNotice _ _ _ _ _ _).trans (calm_settleStep _)).notice h

theorem settlementLaw_kept : KeptByBlocks SettlementLaw :=
  keptByBlocks_of_tame (fun _ _ _ _ h => h) Tame.settle (fun _ _ => ⟨(by decide : ringDist 0 0 ≤ 512), nofun⟩) (fun _ h => h)
    fun _ h => settlementLaw_completeRecord h

/-! ## The Line Prover's counts -/

/-- The prover's law reads the prover alone. -/
theorem proverLaw_of_prover {s t : State} (h : ProverLaw s) (hp : t.prover = s.prover) : ProverLaw t := by
  rw [ProverLaw, hp]
  exact h

theorem proverLaw_pass {s : State} (x : SchedulerPass) (h : ProverLaw s) : ProverLaw { s with pass := x } := h

theorem settleStep_prover (s : State) : s.settleStep.prover = s.prover := by rw [settleStep_frame]

theorem haltIfDone_prover (s : State) : s.haltIfDone.prover = s.prover := by rw [haltIfDone_frame]

theorem endLive_prover (s : State) (r : RowId) (e : EndReason) : (s.endLive r e).prover = s.prover := by
  rw [endLive_form, haltIfDone_prover]
  rfl

theorem scheduleEnd_prover (s : State) (r : RowId) (e : EndReason) : (s.scheduleEnd r e).prover = s.prover :=
  (settleStep_prover _).trans (endLive_prover s r e)

theorem endMissed_prover (s : State) (r : RowId) : (s.endMissed r).prover = s.prover := settleStep_prover _

theorem rowStarted_prover (s : State) (r : RowId) (late : Bool) :
    (s.rowStarted r late).prover = (s.proverPreempt (s.row r).captured).prover := by
  unfold State.rowStarted
  rw [allocate_frame]
  rfl

theorem goLiveRow_prover (s : State) (r : RowId) (late : Bool) :
    (s.goLiveRow r late).prover = (s.proverPreempt (s.row r).captured).prover := by
  rw [goLiveRow_form, handNotice_prover, (quiet_reevaluate _ r).prover, rowStarted_prover]

theorem takeRelease_prover (s : State) (v : Word) : (s.takeRelease v).prover = s.prover := by
  unfold State.takeRelease
  split
  · split
    · exact settleStep_prover _
    · rfl
  · rfl

theorem takeControl_prover (s : State) (r : RowId) (v : Word) : (s.takeControl r v).prover = s.prover := by
  simp only [State.takeControl]
  repeat' split
  all_goals rfl

theorem takeSelect_prover (s : State) (p : PortId) (v : Word) : (s.takeSelect p v).prover = s.prover := by
  unfold State.takeSelect
  split
  · split
    · exact ((quiet_switchover _ _ _ _).trans (quietRows_reevaluateSourced _ _).quiet).prover
    · rfl
  · rfl

theorem cancelEffect_prover (s : State) (r : RowId) : (s.cancelEffect r).prover = s.prover := by
  unfold State.cancelEffect
  split
  case h_2 => exact endLive_prover _ _ _
  all_goals rfl

theorem completeRecord_prover (s : State) : s.completeRecord.prover = s.prover := by
  unfold State.completeRecord
  split
  · rfl
  · exact settleStep_prover _

theorem proverLaw_proverEnd (s : State) (o : ProverOutcome) (h : ProverLaw s) : ProverLaw (s.proverEnd o) := by
  rw [ProverLaw, (testEnded s o).prover]
  exact ⟨h.1, nofun⟩

theorem proverLaw_proverPreempt (s : State) (c : Vector Word 8) (h : ProverLaw s) : ProverLaw (s.proverPreempt c) := by
  rcases proverPreempt_either s c with ended | same
  · rw [ProverLaw, ended.prover]
    exact ⟨h.1, nofun⟩
  · rwa [same]

theorem proverLaw_goLiveRow (s : State) (r : RowId) (late : Bool) (h : ProverLaw s) : ProverLaw (s.goLiveRow r late) :=
  proverLaw_of_prover (proverLaw_proverPreempt s _ h) (goLiveRow_prover s r late)

/-- A test begins with its counts 0 and a duration of at least 1 (R114, R115). -/
theorem proverLaw_takeAttach (s : State) (ok : s.attachOk = true) : ProverLaw s.takeAttach := by
  have begun : s.takeAttach.prover = s.prover.begin := by
    unfold State.takeAttach
    extract_lets t
    split
    · exact (quiet_recompose _ _).prover
    · rfl
  obtain ⟨p, allowed⟩ := (attachOk_iff s).mp ok
  obtain ⟨-, -, -, long, -, -⟩ := allowed
  rw [ProverLaw, begun]
  exact ⟨Nat.le_refl _, fun _ => Nat.lt_of_lt_of_le Nat.zero_lt_one long⟩

/-- A running test has an elapsed time below its duration, so that the count of one ms cannot wrap (R119). -/
theorem proverLaw_proverHandle (s : State) (h : ProverLaw s) : ProverLaw s.proverHandle := by
  unfold State.proverHandle
  split
  · split
    case isTrue.isTrue _ running =>
      have below := h.2 running
      have locked := h.1
      have elapsed : (s.prover.elapsed + 1).toNat = s.prover.elapsed.toNat + 1 := by bv_omega
      have lockedTime : (s.prover.countMs.lockedTime).toNat ≤ s.prover.elapsed.toNat + 1 := by
        unfold Prover.countMs
        dsimp only
        split <;> bv_omega
      extract_lets t
      have counted : t.prover.lockedTime.toNat ≤ t.prover.elapsed.toNat := elapsed ▸ lockedTime
      split
      case isTrue => 
        rw [ProverLaw, (testEnded t _).prover]
        exact ⟨counted, nofun⟩
      case isFalse more =>
        refine ⟨counted, fun _ => ?_⟩
        have : t.prover.elapsed.toNat ≠ t.prover.duration.toNat := fun e => more (BitVec.eq_of_toNat_eq e)
        have : t.prover.elapsed.toNat = s.prover.elapsed.toNat + 1 := elapsed
        have : t.prover.duration.toNat = s.prover.duration.toNat := rfl
        omega
    · exact h
  · exact h

theorem proverLaw_forRows {f : RowId → State → State} (h : ∀ r s, ProverLaw s → ProverLaw (f r s)) (s : State)
    (hs : ProverLaw s) : ProverLaw (s.forRows f) := kept_forRows h hs

theorem proverLaw_scheduleEnd (s : State) (r : RowId) (e : EndReason) (h : ProverLaw s) :
    ProverLaw (s.scheduleEnd r e) := proverLaw_of_prover h (scheduleEnd_prover s r e)

theorem proverLaw_runStarts (s : State) (lo : Nat) (h : ProverLaw s) : ProverLaw (s.runStarts lo) := by
  unfold State.runStarts
  exact proverLaw_forRows (fun r s hs => kept_ite (proverLaw_goLiveRow s r _ hs) hs) s h

theorem proverLaw_runEnds (s : State) (lo : Nat) (h : ProverLaw s) : ProverLaw (s.runEnds lo) := by
  unfold State.runEnds
  exact proverLaw_forRows (fun r s hs => kept_ite (proverLaw_scheduleEnd s r _ hs) hs) s h

theorem proverLaw_schedulerHandle (s : State) (h : ProverLaw s) : ProverLaw s.schedulerHandle := by
  unfold State.schedulerHandle
  split
  · exact h
  · split
    · exact h
    · exact proverLaw_pass _ (proverLaw_runStarts _ 0 (proverLaw_runEnds s _ h))
  · exact proverLaw_pass _ (proverLaw_runStarts s _ h)

theorem meterHandle_prover (s : State) : s.meterHandle.prover = s.prover := by
  unfold State.meterHandle
  split <;> rfl

theorem proverLaw_msPart (s : State) (x : MsPart) (h : ProverLaw s) : ProverLaw (s.msPart x) := by
  have metered : ProverLaw s.meterHandle := proverLaw_of_prover h (meterHandle_prover s)
  cases x with
  | advance =>
    exact kept_ite (P := ProverLaw) h
      (proverLaw_of_prover (proverLaw_schedulerHandle _ (proverLaw_proverHandle _ metered)) rfl)
  | meter => exact metered
  | prover => exact proverLaw_proverHandle s h
  | scheduler => exact proverLaw_schedulerHandle s h

theorem proverLaw_startRow (s : State) (r : RowId) (h : ProverLaw s) : ProverLaw (s.startRow r) := by
  have missed : ProverLaw (s.endMissed r) := proverLaw_of_prover h (endMissed_prover s r)
  exact kept_ite (P := ProverLaw) (kept_ite missed (kept_ite (kept_ite (proverLaw_goLiveRow s r _ h) missed)
    (kept_ite (proverLaw_goLiveRow s r _ h) h))) h

theorem proverLaw_takeAction (s : State) (w : WinWord) (v : Word) (h : ProverLaw s) : ProverLaw (s.takeAction w v) := by
  unfold State.takeAction
  split
  · unfold State.takeFabric
    refine kept_ite (P := ProverLaw) ?start (kept_ite ?stop h)
    case start =>
      unfold State.takeStart
      exact proverLaw_forRows (fun r s => proverLaw_startRow s r) _ h
    case stop => exact proverLaw_of_prover h (haltIfDone_prover _)
  · exact kept_ite (P := ProverLaw) h h
  · unfold State.takeProver State.takeDetach
    split
    · split
      · exact proverLaw_takeAttach s ‹_›
      · exact h
    · exact kept_ite (P := ProverLaw) (kept_ite (proverLaw_proverEnd s _ h) h) h
  · unfold State.takeMaint
    split
    · exact proverLaw_of_prover h (portWork_takeCommand _ _ _).prover
    · exact h
  · exact kept_ite (P := ProverLaw) h h
  · exact proverLaw_of_prover h (takeSelect_prover _ _ _)
  · exact proverLaw_of_prover h (takeControl_prover _ _ _)
  · exact h

theorem proverLaw_disablePort (s : State) (p : PortId) (h : ProverLaw s) : ProverLaw (s.disablePort p) := by
  unfold State.disablePort
  extract_lets o old t
  have emptied : ProverLaw (((t.transition p .off .disabled).captureStep p old).linkLoss p) :=
    proverLaw_of_prover h (((portWork_transition _ _ _ _).trans (portWork_captureStep _ _ _)).trans
      (portWork_linkLoss _ _)).prover
  refine proverLaw_of_prover ?_ (quiet_recompose _ _).prover
  exact kept_ite (P := ProverLaw) (proverLaw_proverEnd _ _ emptied) emptied

theorem pairOn_prover (s : State) (p : PortId) : (s.pairOn p).prover = s.prover := (quiet_selectReceive _ _).prover

theorem proverLaw_takeConfig (s : State) (p : PortId) (v : Word) (h : ProverLaw s) : ProverLaw (s.takeConfig p v) := by
  refine kept_ite (P := ProverLaw) ?_ h
  unfold State.applyConfig
  extract_lets old new t u w
  have enabled : ProverLaw u := kept_ite (P := ProverLaw) h (kept_ite (proverLaw_disablePort t p h) h)
  exact kept_ite (P := ProverLaw) enabled (kept_ite (proverLaw_of_prover enabled (pairOn_prover _ _)) enabled)

theorem proverLaw_captureWord (s : State) (w : WinWord) (v : Word) (h : ProverLaw s) :
    ProverLaw (s.captureWord w v) := by
  unfold State.captureWord
  split
  · exact kept_ite (P := ProverLaw) h h
  · exact proverLaw_of_prover h (takeRelease_prover s v)
  · exact proverLaw_takeConfig s _ v h
  · unfold State.captureStaging
    split
    · exact h
    · exact h
    · split
      · exact h
      · exact ⟨h.1, fun running => absurd running ‹_›⟩
    · split
      · exact h
      · exact ⟨h.1, fun running => absurd running ‹_›⟩
    · exact h
    · exact h

theorem proverLaw_answerEffect (s : State) (w : WinWord) (h : ProverLaw s) : ProverLaw (s.answerEffect w) := by
  unfold State.answerEffect
  split
  case h_5 => exact kept_ite (P := ProverLaw) h h
  all_goals exact h

/-- The checker's work leaves the times alone (R117, R118). -/
theorem proverLaw_cycleEvent (s : State) (p : PortId) (iv : Interval) (h : ProverLaw s) :
    ProverLaw (s.cycleEvent p iv) := by
  by_cases off : (s.port p).link = .off
  · rwa [State.cycleEvent, if_pos off]
  · rw [ProverLaw, cycleEvent_prover s p iv off]
    split
    · obtain ⟨running, -, duration, -, elapsed, locked⟩ := check_frame s.prover ((s.port p).receive iv).2.2 iv.cycle
      rw [running, duration, elapsed, locked]
      exact h
    · exact h

theorem proverLaw_transmit (s : State) (p : PortId) (h : ProverLaw s) : ProverLaw (s.transmit p) := by
  refine kept_ite (P := ProverLaw) h ?_
  show (s.proverAfterSend p).lockedTime.toNat ≤ (s.proverAfterSend p).elapsed.toNat
    ∧ ((s.proverAfterSend p).running = true → (s.proverAfterSend p).elapsed.toNat < (s.proverAfterSend p).duration.toNat)
  unfold State.proverAfterSend
  split <;> exact h

theorem beginPost_prover (s : State) : s.beginPost.prover = s.prover := by
  unfold State.beginPost
  split <;> rfl

theorem finishPost_prover (s : State) (r : RowId) (ws : Vector Word 16) : (s.finishPost r ws).prover = s.prover := by
  simp only [State.finishPost, State.actionResult, entryDone_prover, handNotice_prover, setRow_prover]

theorem runAmend_prover (s : State) (r : RowId) : (s.runAmend r).prover = s.prover := by
  simp only [State.runAmend, State.actionResult, settleStep_prover, entryDone_prover, handNotice_prover, setRow_prover]

theorem runCancel_prover (s : State) (r : RowId) : (s.runCancel r).prover = s.prover := by
  simp only [State.runCancel, State.actionResult, settleStep_prover, entryDone_prover, handNotice_prover, setRow_prover,
    cancelEffect_prover]

theorem proverLaw_kept : KeptByBlocks ProverLaw where
  blind _ _ _ _ h := h
  action := proverLaw_takeAction
  capture := proverLaw_captureWord
  answer := proverLaw_answerEffect
  cold _ _ _ := ⟨Nat.le_refl _, nofun⟩
  ms := proverLaw_msPart
  cycle := proverLaw_cycleEvent
  transmit := proverLaw_transmit
  beginPost s h := proverLaw_of_prover h (beginPost_prover s)
  finishPost s r ws h := proverLaw_of_prover h (finishPost_prover s r ws)
  runAmend s r h := proverLaw_of_prover h (runAmend_prover s r)
  runCancel s r h := proverLaw_of_prover h (runCancel_prover s r)
  goLive s r _ h := proverLaw_pass _ (proverLaw_goLiveRow s r _ h)
  schedEnd s r _ h := proverLaw_pass _ (proverLaw_scheduleEnd s r _ h)
  stopEnd s r h := proverLaw_scheduleEnd s r _ h
  prover := proverLaw_proverHandle
  notice _ h := h
  settle s h := proverLaw_of_prover h (settleStep_prover s)
  complete s h := proverLaw_of_prover h (completeRecord_prover s)

end Sys2Proof.Machine
end

section
/-! PROOFS. What the blocks do to the rows and to the ports' configuration, once: every operation but the capture of a
P0 word and the judgement of a POST keeps each meter balanced, books no row and changes no configuration. The laws of
the meters (R132, R136) and of the configuration (R51) follow from that. -/

namespace Sys2Proof.Machine

/-- The carriage is the sum of the closed segments and the current one (R136). -/
def Meter.Balanced (m : Meter) : Prop := m.carriage = wordSum m.closed + m.segment

theorem meterLaw_iff (s : State) : MeterLaw s ↔ ∀ r, (s.row r).meter.Balanced := Iff.rfl

theorem balanced_zero : Meter.zero.Balanced := rfl

/-- A started unit is billed to the carriage and to the segment that closes (R132). -/
theorem balanced_close {m : Meter} (h : m.Balanced) : m.close.Balanced := by
  unfold Meter.Balanced Meter.close at *
  dsimp only
  rw [wordSum_append, h]
  bv_omega

/-- A full prescaler bills one unit to both sides (R129). -/
theorem balanced_countMs {m : Meter} (h : m.Balanced) (unit : Nat) (gate : Bool) (now : Time) :
    (m.countMs unit gate now).Balanced := by
  unfold Meter.Balanced Meter.countMs at *
  split
  · split
    · dsimp only
      rw [h, BitVec.add_assoc]
    · exact h
  · exact h

/-- What the blocks may do to a row: its meter stays balanced, and it is booked only where it was, with its copy. -/
structure RowFair (x y : Row) : Prop where
  balanced : x.meter.Balanced → y.meter.Balanced
  booked : y.isBooked = true → x.isBooked = true ∧ y.captured = x.captured

theorem RowFair.refl (x : Row) : RowFair x x := ⟨id, fun h => ⟨h, rfl⟩⟩

theorem RowFair.trans {x y z : Row} (a : RowFair x y) (b : RowFair y z) : RowFair x z :=
  ⟨fun h => b.balanced (a.balanced h), fun h => by
    obtain ⟨was, copy⟩ := b.booked h
    obtain ⟨first, copied⟩ := a.booked was
    exact ⟨first, copy.trans copied⟩⟩

/-- A row with the meter, state and captured copy it had. -/
theorem rowFair_of_eq {x y : Row} (hm : y.meter = x.meter) (hs : y.state = x.state) (hc : y.captured = x.captured) :
    RowFair x y :=
  ⟨fun h => hm ▸ h, fun h => ⟨by rwa [Row.isBooked, hs] at h, hc⟩⟩

/-- A row that is not booked any more. -/
theorem rowFair_unbooked {x y : Row} (hm : x.meter.Balanced → y.meter.Balanced) (hs : y.isBooked = false) :
    RowFair x y :=
  ⟨hm, fun h => absurd h (by rw [hs]; decide)⟩

theorem rowFair_kept {x y : Row} (h : RowKept x y) : RowFair x y := by
  refine ⟨fun hx => ?_, fun hb => ⟨?_, h.captured⟩⟩
  · rw [h.1]
    exact hx
  · rwa [Row.isBooked, h.state] at hb

theorem rowFair_countMs (x : Row) (now : Time) : RowFair x (x.countMs now) := by
  unfold Row.countMs
  split
  · exact ⟨fun h => balanced_countMs h _ _ _, fun h => ⟨h, rfl⟩⟩
  · exact .refl x

theorem rowFair_endLive (x : Row) (e : EndReason) (now : Time) : RowFair x (x.endLive e now) :=
  rowFair_unbooked (fun h => balanced_close ((rowFair_countMs x now).balanced h)) rfl

theorem rowFair_endMissed (x : Row) (now : Time) : RowFair x (x.endMissed now) :=
  rowFair_unbooked (fun _ => balanced_close balanced_zero) rfl

theorem rowFair_settled (x : Row) (seq : Word) : RowFair x (x.settled seq) :=
  rowFair_unbooked (fun _ => balanced_zero) rfl

theorem rowFair_markSegment (x : Row) : RowFair x x.markSegment :=
  ⟨balanced_close, fun h => ⟨h, rfl⟩⟩

/-- A HELD row that goes live keeps its booking; its meter starts at 0 (R41, R126). -/
theorem rowFair_started {x : Row} (held : x.state = .held) (now : Time) (late : Bool) (h : Health) :
    RowFair x ((x.started now late).reheld h) := by
  rw [reheld_live (x := x.started now late) h rfl]
  exact ⟨fun _ => rfl, fun _ => ⟨(isBooked_iff x).mpr (.inl held), rfl⟩⟩

/-- What the blocks may do to the rows and the configuration of the ports. -/
structure Fair (s t : State) : Prop where
  row : ∀ r, RowFair (s.row r) (t.row r)
  cfg : ∀ p, (t.port p).cfg = (s.port p).cfg

theorem Fair.refl (s : State) : Fair s s := ⟨fun _ => .refl _, fun _ => rfl⟩

theorem Fair.trans {s t u : State} (a : Fair s t) (b : Fair t u) : Fair s u :=
  ⟨fun r => (a.row r).trans (b.row r), fun p => (b.cfg p).trans (a.cfg p)⟩

theorem fair_ite {s t u : State} {c : Prop} [Decidable c] (ht : Fair s t) (hu : Fair s u) :
    Fair s (if c then t else u) := kept_ite (P := Fair s) ht hu

theorem fair_forRows {f : RowId → State → State} (h : ∀ r s, Fair s (f r s)) (s : State) : Fair s (s.forRows f) :=
  kept_forRows (P := Fair s) (fun r t ht => ht.trans (h r t)) (.refl s)

theorem fair_of_eq {s t : State} (hr : t.rows = s.rows) (hp : t.ports = s.ports) : Fair s t :=
  ⟨fun r => row_eq_of_rows hr r ▸ .refl _, fun p => by rw [port_eq_of_ports hp p]⟩

/-- Between two pieces of work anything but rows and ports may change. -/
theorem Fair.through {s t u v : State} (a : Fair s t) (b : Fair u v) (hr : u.rows = t.rows) (hp : u.ports = t.ports) :
    Fair s v := (a.trans (fair_of_eq hr hp)).trans b

theorem fair_of_rows {s t : State} (hr : t.rows = s.rows) (hp : PortsKept s t) : Fair s t :=
  ⟨fun r => row_eq_of_rows hr r ▸ .refl _, fun p => (hp.port p).cfg⟩

theorem fair_quiet {s t : State} (h : Quiet s t) : Fair s t := ⟨fun r => rowFair_kept (h.row r), h.cfg⟩

theorem fair_setRow {s : State} {r : RowId} {x : Row} (h : RowFair (s.row r) x) : Fair s (s.setRow r x) := by
  refine ⟨fun q => ?_, fun _ => rfl⟩
  rw [row_setRow]
  split
  case isTrue e => exact e ▸ h
  case isFalse => exact .refl _

theorem fair_pass (s : State) (x : SchedulerPass) : Fair s { s with pass := x } := fair_of_eq rfl rfl

/-! The Settlement Unit and the ends -/

theorem fair_settleStep (s : State) : Fair s s.settleStep := by
  rw [settleStep_frame]
  exact fair_of_eq rfl rfl

theorem fair_haltIfDone (s : State) : Fair s s.haltIfDone := by
  rw [haltIfDone_frame]
  exact fair_of_eq rfl rfl

theorem fair_ended {r : RowId} {e : EndReason} {s t : State} (h : Ended r e s t) : Fair s t := by
  refine ⟨fun q => ?_, fun p => by rw [h.port p]⟩
  by_cases same : q = r
  · rw [same, h.row, ← endLive_row]
    exact rowFair_endLive _ _ _
  · rw [h.other q same]
    exact .refl _

theorem fair_endLive (s : State) (r : RowId) (e : EndReason) : Fair s (s.endLive r e) :=
  fair_ended (ended_endLive s r e).1

theorem fair_scheduleEnd (s : State) (r : RowId) (e : EndReason) : Fair s (s.scheduleEnd r e) :=
  fair_ended (ended_scheduleEnd s r e).1

theorem fair_endMissed (s : State) (r : RowId) : Fair s (s.endMissed r) := by
  refine ⟨fun q => ?_, fun p => ((portsKept_endMissed s r).port p).cfg⟩
  rw [(missed_endMissed s r).row q]
  split
  case isTrue e => exact e ▸ rowFair_endMissed _ _
  case isFalse => exact .refl _

theorem fair_completeRecord (s : State) : Fair s s.completeRecord := by
  unfold State.completeRecord
  split
  case h_1 => exact .refl s
  case h_2 w _ =>
    have settled : Fair s (s.setRow w.row ((s.row w.row).settled s.settle.nextSeq)) := fair_setRow (rowFair_settled _ _)
    exact settled.through (fair_settleStep _) rfl rfl

/-! The Line Prover and the starts -/

theorem fair_testEnded {o : ProverOutcome} {s t : State} (h : TestEnded o s t) : Fair s t :=
  ⟨fun r => rowFair_kept (h.row r), fun p => by rw [h.port p]⟩

theorem fair_proverEnd (s : State) (o : ProverOutcome) : Fair s (s.proverEnd o) := fair_testEnded (testEnded s o)

theorem fair_proverPreempt (s : State) (c : Vector Word 8) : Fair s (s.proverPreempt c) := by
  rcases proverPreempt_either s c with ended | same
  · exact fair_testEnded ended
  · rw [same]
    exact .refl s

theorem goLiveRow_cfg (s : State) (r : RowId) (late : Bool) (p : PortId) :
    ((s.goLiveRow r late).port p).cfg = (s.port p).cfg := by
  rw [port_eq_of_ports (goLiveRow_ports s r late) p, ((portsKept_allocate _ r).port p).cfg]
  exact (fair_proverPreempt s _).cfg p

theorem fair_goLiveRow {s : State} {r : RowId} (late : Bool) (held : (s.row r).state = .held) :
    Fair s (s.goLiveRow r late) := by
  have started := started_goLiveRow late held
  refine ⟨fun q => ?_, goLiveRow_cfg s r late⟩
  by_cases same : q = r
  · rw [same, started.row]
    exact rowFair_started held _ _ _
  · exact rowFair_kept (started.other q same)

theorem fair_startRow (s : State) (r : RowId) : Fair s (s.startRow r) := by
  unfold State.startRow
  have missed := fair_endMissed s r
  extract_lets x begins
  split
  case isTrue held =>
    have live := fun late => fair_goLiveRow late held
    exact fair_ite missed (fair_ite (fair_ite (live _) missed) (fair_ite (live _) (.refl s)))
  case isFalse => exact .refl s

theorem fair_takeStart (s : State) : Fair s s.takeStart := by
  unfold State.takeStart
  exact (Fair.refl s).through (fair_forRows (fun r s => fair_startRow s r) (s.setFabric .running)) rfl rfl

theorem startDue_held {s : State} {r : RowId} (h : s.startDue r = true) : (s.row r).state = .held := by
  simp only [State.startDue, Bool.and_eq_true, beq_iff_eq] at h
  exact h.1.1

theorem fair_runStarts (s : State) (lo : Nat) : Fair s (s.runStarts lo) := by
  unfold State.runStarts
  refine fair_forRows (fun r s => ?_) s
  split
  case isTrue due => exact fair_goLiveRow _ (startDue_held due.2.2)
  case isFalse => exact .refl s

theorem fair_runEnds (s : State) (lo : Nat) : Fair s (s.runEnds lo) := by
  unfold State.runEnds
  exact fair_forRows (fun r s => fair_ite (fair_scheduleEnd s r _) (.refl s)) s

/-! The ms event -/

theorem fair_schedulerHandle (s : State) : Fair s s.schedulerHandle := by
  unfold State.schedulerHandle
  split
  · exact .refl s
  · exact fair_ite (fair_pass s _) (((fair_runEnds s _).trans (fair_runStarts _ 0)).trans (fair_pass _ _))
  · exact (fair_runStarts s _).trans (fair_pass _ _)

theorem fair_proverHandle (s : State) : Fair s s.proverHandle := by
  unfold State.proverHandle
  split
  · split
    · have counted : Fair s { s with proverDue := false, prover := s.prover.countMs } := fair_of_eq rfl rfl
      exact fair_ite (counted.trans (fair_proverEnd _ _)) counted
    · exact fair_of_eq rfl rfl
  · exact .refl s

theorem fair_meterHandle (s : State) : Fair s s.meterHandle := by
  cases due : s.meterDue
  · rw [State.meterHandle, due]
    exact .refl s
  · refine ⟨fun r => ?_, fun p => ?_⟩
    · rw [meterHandle_row due]
      exact rowFair_countMs _ _
    · rw [State.meterHandle, due]
      rfl

theorem fair_msPart (s : State) (x : MsPart) : Fair s (s.msPart x) := by
  cases x with
  | advance =>
    exact fair_ite (.refl s) ((((fair_meterHandle s).trans (fair_proverHandle _)).trans (fair_schedulerHandle _)).trans
      (fair_of_eq rfl rfl))
  | meter => exact fair_meterHandle s
  | prover => exact fair_proverHandle s
  | scheduler => exact fair_schedulerHandle s

/-! Actions, captures and answers -/

theorem fair_takeAttach (s : State) : Fair s s.takeAttach := by
  unfold State.takeAttach
  extract_lets t
  have begun : Fair s t := fair_of_eq rfl rfl
  split
  · exact begun.trans (fair_quiet (quiet_recompose _ _))
  · exact begun

theorem fair_takeSelect (s : State) (p : PortId) (v : Word) : Fair s (s.takeSelect p v) := by
  unfold State.takeSelect
  split
  · exact fair_ite (fair_quiet ((quiet_switchover _ _ _ _).trans (quietRows_reevaluateSourced _ _).quiet)) (.refl s)
  · exact .refl s

theorem fair_takeControl (s : State) (r : RowId) (v : Word) : Fair s (s.takeControl r v) := by
  have post : Fair s (s.takePost r) :=
    (fair_setRow (rowFair_unbooked (y := (s.row r).postAccepted) id rfl)).trans (fair_of_eq rfl rfl)
  have queued : ∀ f a, Fair s (s.takeQueued r f a) := fun f a =>
    (fair_setRow (rowFair_of_eq (y := { s.row r with inFlight := f }) rfl rfl rfl)).trans (fair_of_eq rfl rfl)
  have mark : Fair s (s.setRow r (s.row r).markSegment) := fair_setRow (rowFair_markSegment _)
  unfold State.takeControl
  exact fair_ite (fair_ite post (.refl s)) (fair_ite (fair_ite (queued _ _) (.refl s))
    (fair_ite (fair_ite (queued _ _) (.refl s)) (fair_ite (fair_ite mark (.refl s)) (.refl s))))

theorem fair_takeAction (s : State) (w : WinWord) (v : Word) : Fair s (s.takeAction w v) := by
  unfold State.takeAction
  split
  · unfold State.takeFabric
    exact fair_ite (fair_takeStart s) (fair_ite ((Fair.refl s).through (fair_haltIfDone (s.setFabric .stopping)) rfl rfl)
      (.refl s))
  · exact fair_ite (fair_of_eq rfl rfl) (.refl s)
  · unfold State.takeProver State.takeDetach
    exact fair_ite (fair_ite (fair_takeAttach s) (.refl s)) (fair_ite (fair_ite (fair_proverEnd s _) (.refl s)) (.refl s))
  · unfold State.takeMaint
    split
    · exact fair_of_rows (portWork_takeCommand _ _ _).rows (portsKept_takeCommand _ _ _)
    · exact .refl s
  · unfold State.takeCapture
    exact fair_ite (fair_of_rows rfl (portsKept_setPort _ _ ⟨rfl, rfl, rfl, rfl, rfl, rfl⟩))
      (fair_of_rows rfl (portsKept_setPort _ _ ⟨rfl, rfl, rfl, rfl, rfl, rfl⟩))
  · exact fair_takeSelect s _ v
  · exact fair_takeControl s _ v
  · exact .refl s

theorem fair_takeRelease (s : State) (v : Word) : Fair s (s.takeRelease v) := by
  unfold State.takeRelease
  extract_lets settle t
  have released : Fair s t := fair_of_eq rfl rfl
  exact fair_ite (fair_ite (released.trans (fair_settleStep t)) released) (.refl s)

theorem fair_takeConsume (s : State) (v : Word) : Fair s (s.takeConsume v) := fair_ite (fair_of_eq rfl rfl) (.refl s)

theorem rowFair_captureWord (x : Row) (i : Fin 16) (v : Word) : RowFair x (x.captureWord i v) := by
  unfold Row.captureWord
  repeat' split
  all_goals exact rowFair_of_eq rfl rfl rfl

theorem fair_captureStaging (s : State) (w : WinWord) (v : Word) : Fair s (s.captureStaging w v) := by
  unfold State.captureStaging
  split
  case h_5 => exact fair_setRow (rowFair_captureWord _ _ _)
  case h_3 => exact fair_ite (.refl s) (fair_of_eq rfl rfl)
  case h_4 => exact fair_ite (.refl s) (fair_of_eq rfl rfl)
  all_goals exact fair_of_eq rfl rfl

theorem fair_answerEffect (s : State) (w : WinWord) : Fair s (s.answerEffect w) := by
  have kept : ∀ (p : PortId) (o : Port), PortKept (s.port p) o → Fair s (s.setPort p o) := fun p _ h =>
    fair_of_rows rfl (portsKept_setPort s p h)
  unfold State.answerEffect
  split
  case h_1 => exact fair_of_eq rfl rfl
  case h_2 => exact kept _ _ ⟨rfl, rfl, rfl, rfl, rfl, rfl⟩
  case h_3 => exact kept _ _ ⟨rfl, rfl, rfl, rfl, rfl, rfl⟩
  case h_4 => exact kept _ _ ⟨rfl, rfl, rfl, rfl, rfl, rfl⟩
  case h_5 => exact fair_ite (fair_setRow (rowFair_of_eq rfl rfl rfl)) (.refl s)
  case h_6 => exact .refl s

/-! Spans and admission -/

theorem cycleEvent_cfg (s : State) (p : PortId) (iv : Interval) (q : PortId) :
    ((s.cycleEvent p iv).port q).cfg = (s.port q).cfg := by
  by_cases off : (s.port p).link = .off
  · rw [State.cycleEvent, if_pos off]
  · by_cases same : q = p
    · rw [same, cycleEvent_port s p iv off]
      exact afterEvent_cfg _ _ s.now
    · rw [cycleEvent_other s p iv same]

theorem fair_cycleEvent (s : State) (p : PortId) (iv : Interval) : Fair s (s.cycleEvent p iv) :=
  ⟨fun r => rowFair_kept (cycleEvent_row s p iv r), cycleEvent_cfg s p iv⟩

theorem transmit_rows (s : State) (p : PortId) : (s.transmit p).rows = s.rows := by
  unfold State.transmit
  split <;> rfl

theorem fair_beginPost (s : State) : Fair s s.beginPost := by
  unfold State.beginPost
  split
  · exact fair_of_eq rfl rfl
  · exact .refl s

theorem fair_runAmend (s : State) (r : RowId) : Fair s (s.runAmend r) := by
  have amended : Fair s (s.setRow r ((s.row r).amended (s.amendResult r))) := fair_setRow (rowFair_of_eq rfl rfl rfl)
  exact amended.through (fair_settleStep _) rfl rfl

theorem fair_cancelEffect (s : State) (r : RowId) : Fair s (s.cancelEffect r) := by
  unfold State.cancelEffect
  split
  · exact fair_setRow (rowFair_unbooked id rfl)
  · exact fair_endLive s r _
  all_goals exact .refl s

theorem fair_runCancel (s : State) (r : RowId) : Fair s (s.runCancel r) := by
  have answered : Fair (s.cancelEffect r) ((s.cancelEffect r).setRow r (((s.cancelEffect r).row r).answered
      (s.cancelResult r))) := fair_setRow (rowFair_of_eq rfl rfl rfl)
  exact ((fair_cancelEffect s r).trans answered).through (fair_settleStep _) rfl rfl

/-! ## Laws that such work keeps -/

theorem nextStart_held {s : State} {r : RowId} (h : s.nextStart = some r) : (s.row r).state = .held := by
  unfold State.nextStart at h
  split at h
  · split at h
    · cases h
    · split at h
      · exact startDue_held (findRow_some h).1
      · cases h
    · have found := (findRow_some h).1
      exact startDue_held (Bool.and_eq_true_iff.mp found).2
  · cases h

/-- A law that fair work keeps is kept by every block, once a P0 word and a judged POST keep it. -/
theorem keptByBlocks_of_fair {P : State → Prop} (fair : ∀ {s t}, Fair s t → P s → P t)
    (config : ∀ s p v, P s → P (s.takeConfig p v)) (post : ∀ s r ws, P s → P (s.finishPost r ws))
    (cold : ∀ s b, P (State.resetWith s b)) : KeptByBlocks P where
  blind s m q l := fair (fair_of_eq rfl rfl)
  action s w v := fair (fair_takeAction s w v)
  capture s w v h := by
    unfold State.captureWord
    split
    · exact fair (fair_takeConsume s v) h
    · exact fair (fair_takeRelease s v) h
    · exact config s _ v h
    · exact fair (fair_captureStaging s w v) h
  answer s w := fair (fair_answerEffect s w)
  cold s b _ := cold s b
  ms s x := fair (fair_msPart s x)
  cycle s p iv := fair (fair_cycleEvent s p iv)
  transmit s p := fair (fair_of_rows (transmit_rows s p) (portsKept_transmit s p))
  beginPost s := fair (fair_beginPost s)
  finishPost := post
  runAmend s r := fair (fair_runAmend s r)
  runCancel s r := fair (fair_runCancel s r)
  goLive s r next := fair ((fair_goLiveRow _ (nextStart_held next)).trans (fair_pass _ _))
  schedEnd s r _ := fair ((fair_scheduleEnd s r .scheduled).trans (fair_pass _ _))
  stopEnd s r := fair (fair_scheduleEnd s r .stopped)
  prover s := fair (fair_proverHandle s)
  notice s := fair (fair_of_eq rfl rfl)
  settle s := fair (fair_settleStep s)
  complete s := fair (fair_completeRecord s)

end Sys2Proof.Machine
end

section
/-! PROOFS. What a P0 word leaves of the rows and of the configuration (R50 to R53), and with it the laws of the meters
and of the configuration at a step (R51, R136). -/

namespace Sys2Proof.Machine

/-! ## A P0 word -/

/-- The four pieces of work of a disable on the port itself (R93). -/
theorem portWork_emptied (s : State) (p : PortId) (o : Port) (old : LinkState) :
    PortWork p s ((((s.setPort p o).transition p .off .disabled).captureStep p old).linkLoss p) :=
  (((portWork_setPort s p o).trans (portWork_transition _ _ _ _)).trans (portWork_captureStep _ _ _)).trans
    (portWork_linkLoss _ _)

theorem proverDisable_row (s : State) (p : PortId) (r : RowId) : RowKept (s.row r) ((s.proverDisable p).row r) := by
  unfold State.proverDisable
  split
  · exact (testEnded s .aborted).row r
  · exact .refl _

theorem proverDisable_port (s : State) (p q : PortId) :
    (s.proverDisable p).port q = { s.port q with carrying := ((s.proverDisable p).port q).carrying } := by
  unfold State.proverDisable
  split
  · exact (testEnded s .aborted).port q
  · rfl

theorem disablePort_row (s : State) (p : PortId) (r : RowId) : RowKept (s.row r) ((s.disablePort p).row r) := by
  unfold State.disablePort
  extract_lets o old t
  refine RowKept.trans ?_ ((quiet_recompose _ p).row r)
  rw [← (portWork_emptied s p { o with rx := idlePayload, lane := none, lastClass := none } old).row r]
  exact proverDisable_row _ p r

theorem transition_cfg (s : State) (p : PortId) (dest : LinkState) (c : Cause) (q : PortId) :
    ((s.transition p dest c).port q).cfg = (s.port q).cfg := by
  by_cases same : q = p
  · rw [same, transition_port]
    exact (enter_keeps _ _ _).2.2
  · rw [(portWork_transition s p dest c).port q same]

theorem disablePort_cfg (s : State) (p q : PortId) : ((s.disablePort p).port q).cfg = (s.port q).cfg := by
  unfold State.disablePort
  extract_lets o old t
  rw [(quiet_recompose _ p).cfg q, proverDisable_port]
  by_cases same : q = p
  · rw [same, linkLoss_port, captureStep_port]
    show ((t.transition p .off .disabled).port p).cfg = _
    rw [transition_cfg, setPort_port_self]
  · rw [(portWork_emptied s p { o with rx := idlePayload, lane := none, lastClass := none } old).port q same]

theorem setConfig_port (s : State) (p q : PortId) (c : PortConfig) :
    (s.setConfig p c).port q = if q = p then { s.port p with cfg := c } else s.port q := port_setPort _ _ _ _

/-- The port with enable and the options of a P0 word taken, before a change of pair mode (R52). -/
def State.enableTaken (s : State) (p : PortId) (v : Word) : State :=
  let t := s.setConfig p { configOf v with pairMode := (s.port p).cfg.pairMode }
  if !(s.port p).cfg.enable && (configOf v).enable then t.enablePort p
  else if (s.port p).cfg.enable && !(configOf v).enable then t.disablePort p
  else t

theorem applyConfig_eq (s : State) (p : PortId) (v : Word) :
    s.applyConfig p v =
      if (configOf v).pairMode = (s.port p).cfg.pairMode then s.enableTaken p v
      else
        let w := (s.enableTaken p v).setConfig p
          { ((s.enableTaken p v).port p).cfg with pairMode := (configOf v).pairMode }
        if (configOf v).pairMode then w.pairOn p else w.pairOff p := rfl

theorem enableTaken_row (s : State) (p : PortId) (v : Word) (r : RowId) :
    RowKept (s.row r) ((s.enableTaken p v).row r) := by
  unfold State.enableTaken
  extract_lets captured t
  split
  · exact (portWork_transition t p .acquire .enabled).row r ▸ .refl _
  · split
    · exact disablePort_row t p r
    · exact .refl _

theorem enableTaken_cfg (s : State) (p : PortId) (v : Word) (q : PortId) :
    ((s.enableTaken p v).port q).cfg =
      if q = p then { configOf v with pairMode := (s.port p).cfg.pairMode } else (s.port q).cfg := by
  have taken : ((s.setConfig p { configOf v with pairMode := (s.port p).cfg.pairMode }).port q).cfg =
      if q = p then { configOf v with pairMode := (s.port p).cfg.pairMode } else (s.port q).cfg := by
    rw [setConfig_port]
    split <;> rfl
  rw [← taken]
  unfold State.enableTaken
  extract_lets captured t
  split
  · exact transition_cfg t p _ _ q
  · split
    · exact disablePort_cfg t p q
    · rfl

theorem quiet_pairOn (s : State) (p : PortId) :
    Quiet { s with active := s.active.set (pairOf p) .even } (s.pairOn p) := quiet_selectReceive _ _

theorem applyConfig_row (s : State) (p : PortId) (v : Word) (r : RowId) :
    RowKept (s.row r) ((s.applyConfig p v).row r) := by
  have enabled := enableTaken_row s p v r
  rw [applyConfig_eq]
  split
  · exact enabled
  · extract_lets joined w
    split
    · exact enabled.trans ((quiet_pairOn w p).row r)
    · exact enabled

theorem takeConfig_row (s : State) (p : PortId) (v : Word) (r : RowId) : RowKept (s.row r) ((s.takeConfig p v).row r) := by
  unfold State.takeConfig
  split
  · exact applyConfig_row s p v r
  · exact .refl _

/-- The captured fields are those of the word (R50). -/
theorem applyConfig_cfg (s : State) (p : PortId) (v : Word) (q : PortId) :
    ((s.applyConfig p v).port q).cfg = if q = p then configOf v else (s.port q).cfg := by
  have enabled := enableTaken_cfg s p v
  rw [applyConfig_eq]
  split
  case isTrue same =>
    rw [enabled, ← same]
  case isFalse =>
    extract_lets c w
    have joined : (w.port q).cfg = if q = p then configOf v else (s.port q).cfg := by
      rw [setConfig_port]
      split
      · show { ((s.enableTaken p v).port p).cfg with pairMode := (configOf v).pairMode } = configOf v
        rw [enabled, if_pos rfl]
      case isFalse other => rw [enabled, if_neg other]
    split
    · exact ((quiet_pairOn w p).cfg q).trans joined
    · exact joined

/-! ## The meters -/

theorem meterLaw_fair {s t : State} (h : Fair s t) (hs : MeterLaw s) : MeterLaw t :=
  fun r => (h.row r).balanced (hs r)

theorem meterLaw_finishPost (s : State) (r : RowId) (ws : Vector Word 16) (h : MeterLaw s) :
    MeterLaw (s.finishPost r ws) := by
  have posted : ∀ (x : Row) (result : LastResult), (x.posted result).meter = x.meter := fun x result => by
    unfold Row.posted
    split <;> rfl
  intro q
  have row : (s.finishPost r ws).row q = if q = r then
      ((s.row r).load ws).posted (s.postResult r ((s.row r).load ws).captured) else s.row q := row_setRow _ _ _ _
  show ((s.finishPost r ws).row q).meter.Balanced
  rw [row]
  split
  · rw [posted]
    exact h r
  · exact h q

theorem meterLaw_reset : MeterLaw State.reset := fun r => by
  have row : State.reset.row r = Row.reset := Vector.getElem_replicate ..
  rw [row]
  rfl

theorem meterLaw_cold (s : State) (b : BitVec 8) : MeterLaw (s.resetWith b) := meterLaw_reset

theorem meterLaw_kept : KeptByBlocks MeterLaw :=
  keptByBlocks_of_fair meterLaw_fair (fun s p v h r => (rowFair_kept (takeConfig_row s p v r)).balanced (h r))
    meterLaw_finishPost meterLaw_cold

/-- Settles O57: each of the four laws is kept by the operations of every block. -/
theorem stepKeepsRingAndCountLaws : Obligations.StepKeepsRingAndCountLaws := fun _ _ e =>
  ⟨step_keeps noticeLaw_kept e, step_keeps settlementLaw_kept e, step_keeps proverLaw_kept e,
    step_keeps meterLaw_kept e⟩

/-! ## The configuration -/

/-- Every port that a booked row names is enabled (R51). -/
def BookedEnabled (s : State) : Prop :=
  ∀ r, (s.row r).isBooked = true → ∀ p ∈ namedPorts (s.row r).captured, (s.port p).cfg.enable = true

/-- Both members of a pair in pair mode are enabled (R51). -/
def PairsEnabled (s : State) : Prop :=
  ∀ k, (s.port (evenPort k)).cfg.pairMode = true →
    (s.port (evenPort k)).cfg.enable = true ∧ (s.port (oddPort k)).cfg.enable = true

theorem configLaw_iff (s : State) : ConfigLaw s ↔ PairsEnabled s ∧ BookedEnabled s := Iff.rfl

theorem pairsEnabled_cfg {s t : State} (h : ∀ p, (t.port p).cfg = (s.port p).cfg) (hs : PairsEnabled s) :
    PairsEnabled t := by
  intro k
  rw [h, h]
  exact hs k

theorem configLaw_fair {s t : State} (h : Fair s t) (hs : ConfigLaw s) : ConfigLaw t := by
  refine ⟨pairsEnabled_cfg h.cfg hs.1, fun r booked p named => ?_⟩
  obtain ⟨was, copy⟩ := (h.row r).booked booked
  rw [h.cfg]
  exact hs.2 r was p (copy ▸ named)

theorem booksPort_named {s : State} {c : Vector Word 8} {p : PortId} (h : p ∈ namedPorts c) :
    s.booksPort c (s.logical p) := by
  rcases List.mem_cons.mp h with source | dest
  · exact .inl (by rw [source])
  · exact .inr ⟨p, dest, rfl⟩

theorem pairOf_odd (k : PairId) : pairOf (oddPort k) = k := Fin.ext (by simp only [pairOf, oddPort]; omega)

theorem inPair_odd (s : State) (k : PairId) : s.inPair (oddPort k) = (s.port (evenPort k)).cfg.pairMode := by
  rw [State.inPair, evenOf_eq, pairOf_odd]

theorem evenPort_ne_oddPort (k j : PairId) : evenPort k ≠ oddPort j := fun h => by
  have := congrArg Fin.val h
  simp only [evenPort, oddPort] at this
  omega

/-- A disable is refused for a booked port and for a member of a pair in pair mode (R51). -/
theorem configOk_disable {s : State} {p : PortId} {v : Word} (ok : s.configOk p v = true)
    (was : (s.port p).cfg.enable = true) (now : (configOf v).enable = false) :
    s.bookedUses (s.logical p) = false ∧ s.inPair p = false := by
  simp only [State.configOk, Bool.and_eq_true, Bool.not_eq_true', was, now] at ok
  obtain ⟨⟨⟨-, disable⟩, -⟩, -⟩ := ok
  simpa using disable

/-- Pair mode is turned on with both members enabled, and on the even port alone (R51). -/
theorem configOk_join {s : State} {p : PortId} {v : Word} (ok : s.configOk p v = true)
    (was : (s.port p).cfg.pairMode = false) (now : (configOf v).pairMode = true) :
    (configOf v).enable = true ∧ (s.port (oddPort (pairOf p))).cfg.enable = true := by
  simp only [State.configOk, Bool.and_eq_true, Bool.not_eq_true', was, now] at ok
  obtain ⟨⟨⟨⟨-, odd⟩, -⟩, -⟩, join⟩ := ok
  simpa [(by simpa using odd : isOdd p = false)] using join

/-- An enabled port that is not disabled stays enabled. -/
theorem applyConfig_enable {s : State} {p q : PortId} {v : Word} (was : (s.port q).cfg.enable = true)
    (kept : q = p → (configOf v).enable = true) : ((s.applyConfig p v).port q).cfg.enable = true := by
  rw [applyConfig_cfg]
  split
  · exact kept ‹_›
  · exact was

/-- The members of a pair in pair mode are not disabled by a word that R51 accepts. -/
theorem pairsEnabled_applyConfig {s : State} {p : PortId} {v : Word} (ok : s.configOk p v = true)
    (h : PairsEnabled s) : PairsEnabled (s.applyConfig p v) := by
  intro k on
  rw [applyConfig_cfg] at on
  have stays : (s.port (evenPort k)).cfg.pairMode = true → ((s.applyConfig p v).port (evenPort k)).cfg.enable = true
      ∧ ((s.applyConfig p v).port (oddPort k)).cfg.enable = true := by
    intro paired
    obtain ⟨even, odd⟩ := h k paired
    refine ⟨applyConfig_enable even fun e => ?_, applyConfig_enable odd fun e => ?_⟩
    · refine Classical.byContradiction fun off => ?_
      have apart := (configOk_disable ok (e ▸ even) (Bool.eq_false_iff.mpr off)).2
      rw [← e, inPair_even, paired] at apart
      cases apart
    · refine Classical.byContradiction fun off => ?_
      have apart := (configOk_disable ok (e ▸ odd) (Bool.eq_false_iff.mpr off)).2
      rw [← e, inPair_odd, paired] at apart
      cases apart
  split at on
  case isFalse => exact stays on
  case isTrue e =>
    cases paired : (s.port (evenPort k)).cfg.pairMode
    · obtain ⟨even, odd⟩ := configOk_join ok (e ▸ paired) on
      rw [← e, pairOf_even] at odd
      refine ⟨?_, applyConfig_enable odd fun odd' => absurd (e.trans odd'.symm) (evenPort_ne_oddPort k k)⟩
      rw [applyConfig_cfg, if_pos e]
      exact even
    · exact stays paired

theorem configLaw_takeConfig (s : State) (p : PortId) (v : Word) (h : ConfigLaw s) : ConfigLaw (s.takeConfig p v) := by
  unfold State.takeConfig
  split
  case isFalse => exact h
  case isTrue ok =>
    refine ⟨pairsEnabled_applyConfig ok h.1, fun r booked q named => ?_⟩
    obtain ⟨was, copy⟩ := (rowFair_kept (applyConfig_row s p v r)).booked booked
    rw [copy] at named
    have enabled := h.2 r was q named
    refine applyConfig_enable enabled fun e => ?_
    refine Classical.byContradiction fun off => ?_
    have unused := (configOk_disable ok (e ▸ enabled) (Bool.eq_false_iff.mpr off)).1
    have used := (anyRow_eq_false s _).mp unused r
    rw [was, Bool.true_and, ← e] at used
    rw [(uses_iff s _ _).mpr (booksPort_named named)] at used
    cases used

/-- A booking that passes the checks names enabled ports only (R20). -/
theorem badPort_of_ok {s : State} {r : RowId} {w : Vector Word 8} (h : s.postResult r w = .ok) :
    ∀ p ∈ namedPorts w, (s.port p).cfg.enable = true := by
  have good : s.badPort w = false := by
    unfold State.postResult at h
    split at h
    · cases h
    · split at h
      · cases h
      case isFalse bad => exact Bool.eq_false_iff.mpr bad
  intro p named
  have := List.any_eq_false.mp good p named
  simp only [Bool.or_eq_true, not_or, Bool.not_eq_true', Bool.not_eq_false] at this
  exact this.1

theorem configLaw_finishPost (s : State) (r : RowId) (ws : Vector Word 16) (h : ConfigLaw s) :
    ConfigLaw (s.finishPost r ws) := by
  refine ⟨h.1, fun q booked p named => ?_⟩
  have row : (s.finishPost r ws).row q = if q = r then
      ((s.row r).load ws).posted (s.postResult r ((s.row r).load ws).captured) else s.row q := row_setRow _ _ _ _
  show (s.port p).cfg.enable = true
  rw [row] at booked named
  split at booked
  case isFalse other =>
    rw [if_neg other] at named
    exact h.2 q booked p named
  case isTrue same =>
    rw [if_pos same] at named
    unfold Row.posted at booked named
    split at booked
    case isTrue ok =>
      rw [if_pos ok] at named
      exact badPort_of_ok ok p named
    case isFalse => cases booked

theorem reset_port (p : PortId) : State.reset.port p = Port.reset := Vector.getElem_replicate ..

theorem reset_row (r : RowId) : State.reset.row r = Row.reset := Vector.getElem_replicate ..

theorem configLaw_reset : ConfigLaw State.reset :=
  ⟨fun k on => absurd (reset_port (evenPort k) ▸ on) nofun, fun r booked => absurd (reset_row r ▸ booked) nofun⟩

theorem configLaw_kept : KeptByBlocks ConfigLaw :=
  keptByBlocks_of_fair configLaw_fair configLaw_takeConfig configLaw_finishPost fun _ _ => configLaw_reset

end Sys2Proof.Machine
end

section
/-! PROOFS. The laws of the ports at a step: latched conditions and OFF (R52, R109), and the carrying flag (R59). Each is
a property of the ports that the tests' ends, the cycle event and a P0 word keep. -/

namespace Sys2Proof.Machine

/-! ## What a P0 word does to the ports -/

/-- The end of a test recomposes the staged port alone (R120). -/
theorem proverEnd_port_other {s : State} {p q : PortId} (staged : s.prover.port = BitVec.ofNat 32 p.val)
    (other : q ≠ p) (o : ProverOutcome) : (s.proverEnd o).port q = s.port q := by
  rw [proverEnd_form, staged, portOfNat_val]
  dsimp only
  rw [recompose_port, if_neg other]
  rfl

theorem proverDisable_port_other (s : State) {p q : PortId} (other : q ≠ p) :
    (s.proverDisable p).port q = s.port q := by
  unfold State.proverDisable
  split
  case isTrue claimed => exact proverEnd_port_other ((claimed_iff s p).mp claimed).2 other _
  case isFalse => rfl

/-- The port as a disable leaves it (R93). -/
def Port.disabled (o : Port) (now : Time) : Port :=
  let x := ({ o with rx := idlePayload, lane := none, lastClass := none } : Port).enter .off .disabled
  { x with capture := x.afterCapture o.link now, channel := o.channel.afterLoss, carrying := false }

theorem disablePort_port_self (s : State) (p : PortId) : (s.disablePort p).port p = (s.port p).disabled s.now := by
  unfold State.disablePort
  extract_lets o old t
  have emptied := linkLoss_port ((t.transition p .off .disabled).captureStep p old) p
  rw [captureStep_port, transition_port, setPort_port_self] at emptied
  have tested := proverDisable_port (((t.transition p .off .disabled).captureStep p old).linkLoss p) p p
  rw [emptied] at tested
  have stopped : State.mayCarry ((((t.transition p .off .disabled).captureStep p old).linkLoss p).proverDisable p) p
      = false := by
    rw [State.mayCarry, tested]
    exact Bool.and_eq_false_iff.mpr (.inl (Bool.and_eq_false_iff.mpr (.inl (Bool.and_false _))))
  rw [recompose_port, if_pos rfl, stopped, tested]
  rfl

theorem disablePort_port_other (s : State) {p q : PortId} (other : q ≠ p) : (s.disablePort p).port q = s.port q := by
  unfold State.disablePort
  extract_lets o old t
  rw [recompose_port, if_neg other, proverDisable_port_other _ other]
  exact (portWork_emptied s p _ old).port q other

theorem enableTaken_port_other (s : State) {p q : PortId} (v : Word) (other : q ≠ p) :
    (s.enableTaken p v).port q = s.port q := by
  unfold State.enableTaken
  extract_lets captured t
  have same : t.port q = s.port q := by rw [setConfig_port, if_neg other]
  split
  · exact ((portWork_transition t p .acquire .enabled).port q other).trans same
  · split
    · exact (disablePort_port_other t other).trans same
    · exact same

/-- The port of a P0 word with the configuration captured, before a change of enable is taken. -/
def Port.captured (o : Port) (v : Word) : Port :=
  { o with cfg := { configOf v with pairMode := o.cfg.pairMode } }

/-- The port of a P0 word after its enable and options are taken. -/
def Port.enableTaken (o : Port) (v : Word) (now : Time) : Port :=
  if !o.cfg.enable && (configOf v).enable then (o.captured v).enter .acquire .enabled
  else if o.cfg.enable && !(configOf v).enable then (o.captured v).disabled now
  else o.captured v

theorem enableTaken_port_self (s : State) (p : PortId) (v : Word) :
    (s.enableTaken p v).port p = (s.port p).enableTaken v s.now := by
  unfold State.enableTaken Port.enableTaken
  extract_lets captured t
  have taken : t.port p = (s.port p).captured v := setPort_port_self _ _ _
  split
  · exact (transition_port t p _ _).trans (by rw [taken])
  · split
    · exact (disablePort_port_self t p).trans (by rw [taken]; rfl)
    · exact taken

theorem pairOn_ports (s : State) (p : PortId) : (s.pairOn p).ports = s.ports := selectReceive_ports _ _

/-- A change of pair mode is the last of the changes, and of the ports it touches the configuration alone (R52, R53). -/
theorem applyConfig_port (s : State) (p : PortId) (v : Word) (q : PortId) :
    (s.applyConfig p v).port q =
      { (s.enableTaken p v).port q with cfg := if q = p then configOf v else (s.port q).cfg } := by
  have cfg := applyConfig_cfg s p v q
  have ports : (s.applyConfig p v).port q =
      { (s.enableTaken p v).port q with cfg := ((s.applyConfig p v).port q).cfg } := by
    rw [applyConfig_eq]
    split
    · rfl
    · extract_lets c w
      have joined : w.port q = { (s.enableTaken p v).port q with cfg := (w.port q).cfg } := by
        rw [setConfig_port]
        split
        case isTrue same => rw [same]
        case isFalse => rfl
      split
      · rw [port_eq_of_ports (pairOn_ports w p) q]
        exact joined
      · exact joined
  rw [ports, cfg]

theorem applyConfig_port_other (s : State) {p q : PortId} (v : Word) (other : q ≠ p) :
    (s.applyConfig p v).port q = s.port q := by
  rw [applyConfig_port, if_neg other, enableTaken_port_other s v other]

theorem applyConfig_port_self (s : State) (p : PortId) (v : Word) :
    (s.applyConfig p v).port p = { (s.port p).enableTaken v s.now with cfg := configOf v } := by
  rw [applyConfig_port, if_pos rfl, enableTaken_port_self]

/-! ## Latched conditions and OFF -/

/-- R109 and R52 on one port: out of service nothing is latched, and OFF is the state of the disabled port. -/
structure Port.Lawful (o : Port) : Prop where
  latched : o.link.inService = false →
    o.channel.loop = false ∧ o.channel.corrupt = false ∧ o.channel.hubCorrupting = false
  off : o.link = .off ↔ o.cfg.enable = false

/-- The two laws are that every port is lawful. -/
theorem channelEnableLaw_iff (s : State) : ChannelLaw s ∧ EnableLaw s ↔ ∀ p, (s.port p).Lawful :=
  ⟨fun h p => ⟨h.1 p, h.2 p⟩, fun h => ⟨fun p => (h p).latched, fun p => (h p).off⟩⟩

theorem lawful_carrying {o : Port} (h : o.Lawful) (b : Bool) : Port.Lawful { o with carrying := b } := ⟨h.latched, h.off⟩

theorem lawful_kept {o x : Port} (k : PortKept o x) (h : o.Lawful) : x.Lawful := by
  refine ⟨?_, ?_⟩
  · rw [k.link, k.loop, k.corrupt, k.hubCorrupting]
    exact h.latched
  · rw [k.link, k.cfg]
    exact h.off

theorem lawful_reset : Port.reset.Lawful := ⟨fun _ => ⟨rfl, rfl, rfl⟩, iff_of_true rfl rfl⟩

/-- A cycle event keeps OFF, and leaves service for DOWN alone (R76). -/
theorem linked_link (o : Port) (iv : Interval) (on : o.link ≠ .off) :
    (o.linked iv).link ≠ .off
      ∧ (o.link.inService = true → (o.linked iv).link.inService = true ∨ (o.linked iv).link = .down) := by
  obtain ⟨link, -, -⟩ := takeInterval_keeps o iv
  unfold Port.linked Port.afterLink
  split
  case h_1 dest cause decided =>
    obtain ⟨target, service, -⟩ := linkDecision_target decided
    rw [(enter_keeps _ _ _).1]
    exact ⟨target, link ▸ service⟩
  case h_2 =>
    rw [(advanceTimers_keeps _).1, link]
    exact ⟨on, .inl⟩

theorem linked_channel (o : Port) (iv : Interval) : (o.linked iv).channel = o.channel :=
  ((afterLink_frame _ _ _).2.2.2.2.1).trans (takeInterval_keeps o iv).2.1

theorem lawful_afterEvent {o : Port} (h : o.Lawful) (on : o.link ≠ .off) (iv : Interval) (now : Time) :
    (o.afterEvent iv now).Lawful := by
  obtain ⟨stays, service⟩ := linked_link o iv on
  have enabled : o.cfg.enable ≠ false := fun e => on (h.off.mpr e)
  refine ⟨fun out => ?_, iff_of_false stays (afterEvent_cfg o iv now ▸ enabled)⟩
  have out : (o.linked iv).link.inService = false := out
  show ((o.linked iv).eventChannel _ _ _).loop = false ∧ ((o.linked iv).eventChannel _ _ _).corrupt = false
    ∧ ((o.linked iv).eventChannel _ _ _).hubCorrupting = false
  unfold Port.eventChannel
  rw [out, if_neg Bool.false_ne_true, linked_channel]
  split
  case isTrue => exact afterLoss_clear _
  case isFalse notLost =>
    refine h.latched (Bool.eq_false_iff.mpr fun was => ?_)
    rcases service was with still | down
    · rw [out] at still
      cases still
    · exact notLost ⟨was, down⟩

/-- An enable takes a clear channel to ACQUIRE, and a disable clears the channel (R92, R93). -/
theorem lawful_enableTaken {o : Port} (h : o.Lawful) (v : Word) (now : Time) :
    Port.Lawful { o.enableTaken v now with cfg := configOf v } := by
  unfold Port.enableTaken
  split
  case isTrue enabling =>
    obtain ⟨was, new⟩ := Bool.and_eq_true_iff.mp enabling
    have off := h.off.mpr (Bool.not_eq_true' _ ▸ was)
    have clear := h.latched (by rw [off]; rfl)
    exact ⟨fun _ => clear, iff_of_false nofun fun e => by rw [show (configOf v).enable = false from e] at new; cases new⟩
  case isFalse notEnabling =>
    split
    case isTrue disabling =>
      obtain ⟨-, new⟩ := Bool.and_eq_true_iff.mp disabling
      exact ⟨fun _ => afterLoss_clear _, iff_of_true rfl (Bool.not_eq_true' _ ▸ new)⟩
    case isFalse notDisabling =>
      have same : (configOf v).enable = o.cfg.enable := by
        cases old : o.cfg.enable <;> cases new : (configOf v).enable <;> simp_all
      exact ⟨h.latched, same ▸ h.off⟩

theorem takeAttach_port (s : State) (q : PortId) :
    s.takeAttach.port q = { s.port q with carrying := (s.takeAttach.port q).carrying } := by
  unfold State.takeAttach
  extract_lets t
  split
  · exact (quiet_recompose t _).port q
  · rfl

theorem takeSelect_ports (s : State) (p : PortId) (v : Word) : (s.takeSelect p v).ports = s.ports := by
  unfold State.takeSelect
  split
  · split
    · exact (quietRows_reevaluateSourced _ _).ports
    · rfl
  · rfl

theorem channelEnable_portLaw : PortLaw fun s => ∀ p, (s.port p).Lawful where
  same k h p := lawful_kept (k.port p) (h p)
  testEnd s o h p := by
    rw [(testEnded s o).port p]
    exact lawful_carrying (h p) _
  attach s _ h p := by
    rw [takeAttach_port]
    exact lawful_carrying (h p) _
  cycle s p iv h q := by
    by_cases off : (s.port p).link = .off
    · rw [State.cycleEvent, if_pos off]
      exact h q
    · by_cases same : q = p
      · rw [same, cycleEvent_port s p iv off]
        exact lawful_carrying (lawful_afterEvent (h p) off iv s.now) _
      · rw [cycleEvent_other s p iv same]
        exact h q
  config s p v h q := by
    unfold State.takeConfig
    split
    · by_cases same : q = p
      · rw [same, applyConfig_port_self]
        exact lawful_enableTaken (h p) v s.now
      · rw [applyConfig_port_other s v same]
        exact h q
    · exact h q
  select s p v h q := by
    rw [port_eq_of_ports (takeSelect_ports s p v) q]
    exact h q
  cold s b p := by
    rw [resetWith_port]
    exact lawful_reset

/-- Settles O58: the channel and the link are laws of the ports, the configuration is kept by fair work. -/
theorem stepKeepsPortLaws : Obligations.StepKeepsPortLaws := by
  intro s t e
  refine ⟨fun h => ?_, step_keeps configLaw_kept e⟩
  rw [channelEnableLaw_iff] at h ⊢
  exact step_keeps channelEnable_portLaw.kept e h

/-! ## The carrying flag -/

/-- Only the claim of the port itself enters its carrying flag. -/
theorem mayCarry_congr {s t : State} {q : PortId} (port : t.port q = s.port q)
    (claim : t.claimed = some q ↔ s.claimed = some q) : t.mayCarry q = s.mayCarry q := by
  have same : (t.claimed != some q) = (s.claimed != some q) := by
    rw [Bool.eq_iff_iff, bne_iff_ne, bne_iff_ne, ne_eq, ne_eq, claim]
  rw [State.mayCarry, State.mayCarry, port, same]

theorem claimed_staged {s : State} {q : PortId} (h : s.claimed = some q) : portOfNat s.prover.port.toNat = some q := by
  unfold State.claimed at h
  split at h
  · exact h
  · cases h

/-- A change of the claim recomposes the staged port, and no other port's flag turns on it (R115, R120). -/
theorem carryingLaw_restaged {s u : State} (h : CarryingLaw s) (ports : u.ports = s.ports)
    (staged : u.prover.port = s.prover.port) :
    CarryingLaw (match portOfNat u.prover.port.toNat with | some p => u.recompose p | none => u) := by
  have other : ∀ q, portOfNat s.prover.port.toNat ≠ some q → (u.port q).carrying = u.mayCarry q := by
    intro q ne
    have port := port_eq_of_ports ports q
    rw [port, mayCarry_congr port (iff_of_false (fun c => ne (staged ▸ claimed_staged c)) fun c => ne (claimed_staged c))]
    exact h q
  rw [staged]
  split
  case h_1 p named => exact recompose_law fun q ne => other q (by rw [named]; exact fun e => ne (Option.some.inj e).symm)
  case h_2 named => exact fun q => other q (by rw [named]; exact nofun)

theorem cycleEvent_claimed (s : State) (p : PortId) (iv : Interval) : (s.cycleEvent p iv).claimed = s.claimed := by
  by_cases off : (s.port p).link = .off
  · rw [State.cycleEvent, if_pos off]
  · rw [State.claimed, cycleEvent_prover s p iv off]
    split
    · obtain ⟨running, port, -⟩ := check_frame s.prover ((s.port p).receive iv).2.2 iv.cycle
      rw [running, port]
      rfl
    · rfl

theorem mayCarry_of_disabled {s : State} {p : PortId} (h : (s.port p).cfg.enable = false) : s.mayCarry p = false := by
  simp only [State.mayCarry, h, Bool.false_and]

theorem mayCarry_of_out {s : State} {p : PortId} (h : (s.port p).link.inService = false) : s.mayCarry p = false := by
  simp only [State.mayCarry, h, Bool.and_false, Bool.false_and]

/-- A disable ends a test on the port, and no other (R93, R121). -/
theorem disablePort_prover (s : State) (p : PortId) :
    (s.disablePort p).prover =
      if s.claimed = some p then { s.prover with running := false, outcome := .aborted } else s.prover := by
  unfold State.disablePort
  extract_lets o old t
  have emptied := portWork_emptied s p { o with rx := idlePayload, lane := none, lastClass := none } old
  rw [(quiet_recompose _ p).prover, State.proverDisable, emptied.claimed]
  split
  · rw [(testEnded _ _).prover, emptied.prover]
  · exact emptied.prover

theorem enableTaken_prover (s : State) (p : PortId) (v : Word) :
    (s.enableTaken p v).prover =
      if ((s.port p).cfg.enable && !(configOf v).enable) = true ∧ s.claimed = some p then
        { s.prover with running := false, outcome := .aborted }
      else s.prover := by
  unfold State.enableTaken
  extract_lets captured t
  split
  case isTrue enabling =>
    have keeps : ((s.port p).cfg.enable && !(configOf v).enable) = false := by
      rw [(Bool.and_eq_true_iff.mp enabling).2, Bool.not_true, Bool.and_false]
    rw [keeps, if_neg fun h => Bool.false_ne_true h.1]
    exact (portWork_transition t p .acquire .enabled).prover
  case isFalse =>
    split
    case isTrue disabling =>
      rw [disabling, disablePort_prover]
      simp only [true_and]
      rfl
    case isFalse keeps =>
      rw [if_neg fun h => keeps h.1]
      rfl

theorem applyConfig_prover (s : State) (p : PortId) (v : Word) :
    (s.applyConfig p v).prover = (s.enableTaken p v).prover := by
  rw [applyConfig_eq]
  split
  · rfl
  · extract_lets c w
    split
    · exact (quiet_pairOn w p).prover
    · rfl

theorem applyConfig_claimed_other (s : State) {p q : PortId} (v : Word) (other : q ≠ p) :
    (s.applyConfig p v).claimed = some q ↔ s.claimed = some q := by
  rw [State.claimed, applyConfig_prover, enableTaken_prover]
  split
  case isTrue ended =>
    exact iff_of_false nofun fun h => other (Option.some.inj (h.symm.trans ended.2))
  case isFalse => rfl

/-- An enable leaves a port that does not carry, a disable stops it, and options do not enter the flag (R59, R92, R93). -/
theorem carrying_applyConfig {s : State} (h : CarryingLaw s) (p : PortId) (v : Word) :
    ((s.applyConfig p v).port p).carrying = (s.applyConfig p v).mayCarry p := by
  rw [applyConfig_port_self]
  unfold Port.enableTaken
  split
  case isTrue enabling =>
    have was : (s.port p).cfg.enable = false := by simpa using (Bool.and_eq_true_iff.mp enabling).1
    have stopped : (s.port p).carrying = false := (h p).trans (mayCarry_of_disabled was)
    have acquire : ((s.applyConfig p v).port p).link = .acquire := by
      rw [applyConfig_port_self, Port.enableTaken, if_pos enabling]
      rfl
    rw [mayCarry_of_out (by rw [acquire]; rfl)]
    exact stopped
  case isFalse notEnabling =>
    split
    case isTrue disabling =>
      have off : ((s.applyConfig p v).port p).link = .off := by
        rw [applyConfig_port_self, Port.enableTaken, if_neg notEnabling, if_pos disabling]
        rfl
      rw [mayCarry_of_out (by rw [off]; rfl)]
      rfl
    case isFalse notDisabling =>
      have same : (configOf v).enable = (s.port p).cfg.enable := by
        cases old : (s.port p).cfg.enable <;> cases new : (configOf v).enable <;> simp_all
      have prover : (s.applyConfig p v).prover = s.prover := by
        rw [applyConfig_prover, enableTaken_prover, if_neg fun h => notDisabling h.1]
      have claimed : (s.applyConfig p v).claimed = s.claimed := by rw [State.claimed, State.claimed, prover]
      have port : (s.applyConfig p v).port p = { (s.port p).captured v with cfg := configOf v } := by
        rw [applyConfig_port_self, Port.enableTaken, if_neg notEnabling, if_neg notDisabling]
      rw [State.mayCarry, port, claimed]
      show (s.port p).carrying = ((configOf v).enable && (s.port p).link.inService && !(s.port p).channel.loop
        && s.claimed != some p)
      rw [same]
      exact h p

theorem carrying_portLaw : PortLaw CarryingLaw where
  same k h p := by
    rw [k.mayCarry, (k.port p).carrying]
    exact h p
  testEnd s o h := by
    rw [proverEnd_form]
    exact carryingLaw_restaged (u := s.proverStopped o) h rfl rfl
  attach s _ h :=
    carryingLaw_restaged (u := { s with prover := s.prover.begin, proverDue := false }) h rfl rfl
  cycle s p iv h q := by
    by_cases off : (s.port p).link = .off
    · rw [State.cycleEvent, if_pos off]
      exact h q
    · by_cases same : q = p
      · rw [same, cycleEvent_port s p iv off]
      · have port := cycleEvent_other s p iv same
        rw [port, mayCarry_congr port (by rw [cycleEvent_claimed])]
        exact h q
  config s p v h q := by
    unfold State.takeConfig
    split
    · by_cases same : q = p
      · rw [same]
        exact carrying_applyConfig h p v
      · have port := applyConfig_port_other s v same
        rw [port, mayCarry_congr port (applyConfig_claimed_other s v same)]
        exact h q
    · exact h q
  select s p v h q := by
    have port := port_eq_of_ports (takeSelect_ports s p v) q
    have prover := takeSelect_prover s p v
    rw [port, mayCarry_congr port (by rw [State.claimed, State.claimed, prover])]
    exact h q
  cold s b p := by
    rw [State.mayCarry, resetWith_port]
    rfl

/-- Settles O59: the carrying flag is recomposed wherever one of its inputs changes. -/
theorem stepKeepsCarryingLaw : Obligations.StepKeepsCarryingLaw := fun _ _ h e => step_keeps carrying_portLaw.kept e h

/-! ## Receive selection -/

/-- What the law of R61 reads: pair mode, carrying and the active members. -/
structure SelectionSame (s t : State) : Prop where
  pairMode : ∀ q, (t.port q).cfg.pairMode = (s.port q).cfg.pairMode
  carrying : ∀ q, (t.port q).carrying = (s.port q).carrying
  active : t.active = s.active

theorem selectionLaw_same {s t : State} (k : SelectionSame s t) (h : SelectionLaw s) : SelectionLaw t := by
  refine ⟨fun j => (k.pairMode _).trans (h.1 j), fun j => ?_⟩
  rw [k.pairMode, k.active, k.carrying, k.carrying]
  exact h.2 j

/-- R61 for one pair. -/
def PairSelected (s : State) (k : PairId) : Prop :=
  (s.port (evenPort k)).cfg.pairMode = true →
    (s.port (memberPort k s.active[k])).carrying = false → (s.port (memberPort k s.active[k].other)).carrying = false

theorem selectionLaw_iff (s : State) :
    SelectionLaw s ↔ (∀ k, (s.port (oddPort k)).cfg.pairMode = false) ∧ ∀ k, PairSelected s k := Iff.rfl

/-- A pair whose ports and active member stay keeps its selection. -/
theorem pairSelected_congr {s t : State} {k : PairId} (ports : ∀ m, t.port (memberPort k m) = s.port (memberPort k m))
    (active : t.active[k] = s.active[k]) (h : PairSelected s k) : PairSelected t k := by
  have even : t.port (evenPort k) = s.port (evenPort k) := ports .even
  unfold PairSelected
  rw [active, ports, ports, even]
  exact h

theorem pairSelected_of_carrying {s : State} {k : PairId} (h : (s.port (memberPort k s.active[k])).carrying = true) :
    PairSelected s k := fun _ stopped => absurd (h.symm.trans stopped) nofun

/-- No member of another pair is port `p`. -/
theorem memberPort_ne_of_pair {k : PairId} {p : PortId} (h : k ≠ pairOf p) (m : Member) : memberPort k m ≠ p := by
  obtain ⟨n, self⟩ := memberPort_self p
  exact self ▸ memberPort_ne h m n

/-- The automatic condition is applied as the flag changes (R60, R61). -/
theorem selectionLaw_recompose {s : State} (h : SelectionLaw s) (p : PortId) : SelectionLaw (s.recompose p) := by
  by_cases changed : ((s.recompose p).port p).carrying = (s.port p).carrying
  · rw [recompose_port, if_pos rfl] at changed
    rwa [recompose_idle changed]
  · have taken := carryingTaken_recompose changed
    have cfg := (quiet_recompose s p).cfg
    refine ⟨fun k => by rw [cfg]; exact h.1 k, fun k => ?_⟩
    change PairSelected (s.recompose p) k
    by_cases own : k = pairOf p
    · cases switches : switchedOver s (s.recompose p) p
      · have active : (s.recompose p).active = s.active := by rw [taken.active, switches, if_neg Bool.false_ne_true]
        intro paired stopped
        rw [active] at stopped ⊢
        rw [cfg] at paired
        refine Classical.byContradiction fun carries => ?_
        have inPair : s.inPair p = true := by rw [State.inPair, evenOf_eq, ← own, paired]
        rw [own] at stopped carries
        rw [switchedOver, inPair, stopped, Bool.not_eq_false _ |>.mp carries] at switches
        cases switches
      · have active : (s.recompose p).active[k] = s.active[pairOf p].other := by
          rw [taken.active, if_pos switches, active_set, if_pos own]
        have carries := (Bool.and_eq_true_iff.mp switches).2
        exact pairSelected_of_carrying (by rw [active, own]; exact carries)
    · refine pairSelected_congr (fun m => ?_) ?_ (h.2 k)
      · rw [recompose_port, if_neg (memberPort_ne_of_pair own m)]
      · rw [taken.active]
        split
        · rw [active_set, if_neg own]
        · rfl

theorem selectionLaw_proverEnd {s : State} (h : SelectionLaw s) (o : ProverOutcome) : SelectionLaw (s.proverEnd o) := by
  have stopped : SelectionLaw (s.proverStopped o) := selectionLaw_same ⟨fun _ => rfl, fun _ => rfl, rfl⟩ h
  rw [proverEnd_form]
  split
  · exact selectionLaw_recompose stopped _
  · exact stopped

theorem selectionLaw_takeAttach {s : State} (h : SelectionLaw s) : SelectionLaw s.takeAttach := by
  unfold State.takeAttach
  extract_lets t
  have begun : SelectionLaw t := selectionLaw_same ⟨fun _ => rfl, fun _ => rfl, rfl⟩ h
  split
  · exact selectionLaw_recompose begun _
  · exact begun

/-- Up to the last step of a cycle event no carrying flag changes (R77). -/
theorem selectionSame_beforeCarry (s : State) (p : PortId) (iv : Interval) :
    SelectionSame s ((s.beforeCarry p iv).proverContent p ((s.port p).receive iv).2.2 iv.cycle) := by
  rw [proverContent_frame]
  have work := portWork_beforeCarry s p iv
  have port : ∀ q, ((s.beforeCarry p iv).port q).cfg.pairMode = (s.port q).cfg.pairMode
      ∧ ((s.beforeCarry p iv).port q).carrying = (s.port q).carrying := by
    intro q
    by_cases same : q = p
    · rw [same, beforeCarry_port, afterEvent_cfg, afterEvent_carrying]
      exact ⟨rfl, rfl⟩
    · rw [work.port q same]
      exact ⟨rfl, rfl⟩
  exact ⟨fun q => (port q).1, fun q => (port q).2, work.active⟩

theorem selectionLaw_cycleEvent {s : State} (h : SelectionLaw s) (p : PortId) (iv : Interval) :
    SelectionLaw (s.cycleEvent p iv) := by
  by_cases off : (s.port p).link = .off
  · rwa [State.cycleEvent, if_pos off]
  · rw [cycleEvent_eq s p iv off]
    have before := selectionLaw_same (selectionSame_beforeCarry s p iv) h
    unfold State.carryStep
    split
    · exact selectionLaw_recompose before p
    · split
      · have rows := quietRows_reevaluateInput ((s.beforeCarry p iv).proverContent p ((s.port p).receive iv).2.2 iv.cycle) p
        refine selectionLaw_same ⟨fun q => ?_, fun q => ?_, rows.active⟩ before
        · rw [port_eq_of_ports rows.ports q]
        · rw [port_eq_of_ports rows.ports q]
      · exact before

/-- SELECT makes a carrying member active (R64). -/
theorem selectionLaw_takeSelect {s : State} (h : SelectionLaw s) (p : PortId) (v : Word) :
    SelectionLaw (s.takeSelect p v) := by
  unfold State.takeSelect
  split
  case h_2 => exact h
  case h_1 m _ =>
    split
    case isFalse => exact h
    case isTrue taken =>
      obtain ⟨-, -, carries⟩ := taken
      have rows := quietRows_reevaluateSourced (s.switchover (pairOf p) m .select) (evenPort (pairOf p))
      have port : ∀ q, (((s.switchover (pairOf p) m .select).reevaluateSourced (evenPort (pairOf p))).port q) = s.port q :=
        fun q => port_eq_of_ports (rows.ports.trans (switchover_ports s _ m _).1) q
      have active : ((s.switchover (pairOf p) m .select).reevaluateSourced (evenPort (pairOf p))).active
          = s.active.set (pairOf p) m := rows.active
      refine ⟨fun k => by rw [port]; exact h.1 k, fun k => ?_⟩
      change PairSelected _ k
      by_cases own : k = pairOf p
      · refine pairSelected_of_carrying ?_
        rw [active, active_set, if_pos own, port, own]
        exact carries
      · refine pairSelected_congr (fun n => port _) ?_ (h.2 k)
        rw [active, active_set, if_neg own]

/-- A disable stops the port, and receive selection is applied at its end (R93 step 7). -/
theorem selectionLaw_disablePort {s : State} (h : SelectionLaw s) (p : PortId) : SelectionLaw (s.disablePort p) := by
  unfold State.disablePort
  extract_lets o old t
  refine selectionLaw_recompose ?_ p
  have emptied : SelectionLaw (((t.transition p .off .disabled).captureStep p old).linkLoss p) := by
    have work := portWork_emptied s p { o with rx := idlePayload, lane := none, lastClass := none } old
    obtain ⟨capture, channel, self⟩ : ∃ c ch,
        (((t.transition p .off .disabled).captureStep p old).linkLoss p).port p
          = { ({ o with rx := idlePayload, lane := none, lastClass := none } : Port).enter .off .disabled with
              capture := c, channel := ch } :=
      ⟨_, _, by rw [linkLoss_port, captureStep_port, transition_port, setPort_port_self]⟩
    refine selectionLaw_same ⟨fun q => ?_, fun q => ?_, work.active⟩ h
    · by_cases same : q = p
      · rw [same, self]
        rfl
      · exact congrArg (·.cfg.pairMode) (work.port q same)
    · by_cases same : q = p
      · rw [same, self]
        rfl
      · exact congrArg (·.carrying) (work.port q same)
  unfold State.proverDisable
  split
  · exact selectionLaw_proverEnd emptied _
  · exact emptied

theorem selectionLaw_enableTaken {s : State} (h : SelectionLaw s) (p : PortId) (v : Word) :
    SelectionLaw (s.enableTaken p v) := by
  unfold State.enableTaken
  extract_lets captured t
  have same : SelectionSame s t := by
    refine ⟨fun q => ?_, fun q => ?_, rfl⟩
    · rw [setConfig_port]
      split
      case isTrue e => rw [e]
      case isFalse => rfl
    · rw [setConfig_port]
      split
      case isTrue e => rw [e]
      case isFalse => rfl
  have taken := selectionLaw_same same h
  split
  · refine selectionLaw_same ⟨fun q => congrArg (·.pairMode) (transition_cfg t p _ _ q), fun q => ?_,
      (portWork_transition t p .acquire .enabled).active⟩ taken
    by_cases e : q = p
    · rw [e, State.enablePort, transition_port]
      exact enter_carrying _ _ _
    · exact congrArg (·.carrying) ((portWork_transition t p .acquire .enabled).port q e)
  · split
    · exact selectionLaw_disablePort taken p
    · exact taken

/-- The active member is chosen when the pair joins, and does not count once it has split (R53). -/
theorem selectionLaw_pairMode {s : State} (h : SelectionLaw s) {p : PortId} (even : ∃ k, p = evenPort k)
    (c : PortConfig) :
    SelectionLaw (if c.pairMode then (s.setConfig p c).pairOn p else (s.setConfig p c).pairOff p) := by
  obtain ⟨k, rfl⟩ := even
  have joined : ∀ q, q ≠ evenPort k → (s.setConfig (evenPort k) c).port q = s.port q := fun q ne => by
    rw [setConfig_port, if_neg ne]
  have odd : ∀ j, ((s.setConfig (evenPort k) c).port (oddPort j)).cfg.pairMode = false := fun j => by
    rw [joined _ (evenPort_ne_oddPort k j).symm]
    exact h.1 j
  have others : ∀ j : PairId, j ≠ k → ∀ m, (s.setConfig (evenPort k) c).port (memberPort j m) = s.port (memberPort j m) :=
    fun j ne m => joined _ (memberPort_ne ne m .even)
  split
  case isTrue on =>
    obtain ⟨ports, -, active, -⟩ := pairOn_selects (s.setConfig (evenPort k) c) (evenPort k) k (pairOf_even k)
    have port := port_eq_of_ports ports
    refine ⟨fun j => by rw [port]; exact odd j, fun j => ?_⟩
    change PairSelected _ j
    by_cases own : j = k
    · subst own
      intro _
      rw [active, active_set, if_pos rfl, port, port]
      split
      case isTrue only => exact fun stopped => absurd (stopped.symm.trans only.2) nofun
      case isFalse notOnly =>
        intro stopped
        refine Classical.byContradiction fun carries => ?_
        exact notOnly ⟨stopped, Bool.not_eq_false _ |>.mp carries⟩
    · refine pairSelected_congr (fun m => (port _).trans (others j own m)) ?_ (h.2 j)
      rw [active, active_set, if_neg own]
      rfl
  case isFalse off =>
    refine ⟨odd, fun j => ?_⟩
    change PairSelected _ j
    by_cases own : j = k
    · subst own
      intro on
      have self : (((s.setConfig (evenPort j) c).pairOff (evenPort j)).port (evenPort j)).cfg.pairMode = c.pairMode :=
        congrArg (·.cfg.pairMode) (setPort_port_self s (evenPort j) { s.port (evenPort j) with cfg := c })
      exact absurd (self.symm.trans on) off
    · refine pairSelected_congr (others j own) ?_ (h.2 j)
      show (s.active.set (pairOf (evenPort k)) Member.even)[j] = s.active[j]
      rw [active_set, pairOf_even, if_neg own]

/-- Every port is a member of its pair. -/
theorem even_or_odd (p : PortId) : p = evenPort (pairOf p) ∨ p = oddPort (pairOf p) := by
  obtain ⟨m, self⟩ := memberPort_self p
  cases m
  · exact .inl self.symm
  · exact .inr self.symm

theorem isOdd_oddPort (k : PairId) : isOdd (oddPort k) = true := by
  simp only [isOdd, oddPort, beq_iff_eq]
  omega

/-- Pair mode is a setting of even ports (R51). -/
theorem configOk_odd {s : State} {k : PairId} {v : Word} (ok : s.configOk (oddPort k) v = true) :
    (configOf v).pairMode = false := by
  simp only [State.configOk, Bool.and_eq_true, isOdd_oddPort, Bool.true_and, Bool.not_eq_true'] at ok
  exact ok.1.1.1.2

theorem selectionLaw_takeConfig {s : State} (h : SelectionLaw s) (p : PortId) (v : Word) :
    SelectionLaw (s.takeConfig p v) := by
  unfold State.takeConfig
  split
  case isFalse => exact h
  case isTrue ok =>
    have taken := selectionLaw_enableTaken h p v
    rw [applyConfig_eq]
    split
    case isTrue => exact taken
    case isFalse changed =>
      have even : ∃ k, p = evenPort k := by
        rcases even_or_odd p with even | odd
        · exact ⟨_, even⟩
        · rw [odd] at ok changed
          exact absurd ((configOk_odd ok).trans (h.1 _).symm) changed
      exact selectionLaw_pairMode taken even
        { ((s.enableTaken p v).port p).cfg with pairMode := (configOf v).pairMode }

theorem selection_portLaw : PortLaw SelectionLaw where
  same k h := selectionLaw_same
    ⟨fun q => by rw [(k.port q).cfg], fun q => (k.port q).carrying, k.active⟩ h
  testEnd _ o h := selectionLaw_proverEnd h o
  attach _ _ h := selectionLaw_takeAttach h
  cycle _ p iv h := selectionLaw_cycleEvent h p iv
  config _ p v h := selectionLaw_takeConfig h p v
  select _ p v h := selectionLaw_takeSelect h p v
  cold s b := by
    refine ⟨fun k => by rw [resetWith_port]; rfl, fun k on => ?_⟩
    rw [resetWith_port] at on
    cases on

/-- Settles O60: wherever a flag, pair mode or the active member changes, the pair's selection is applied again. -/
theorem stepKeepsSelectionLaw : Obligations.StepKeepsSelectionLaw := fun _ _ h e =>
  step_keeps selection_portLaw.kept e h

end Sys2Proof.Machine
end

section
/-! PROOFS. A step and its outcome: the command at the front runs, a well-formed one completes and leaves the queue of
commands alone (R158, logs 1, 17), and the laws at reset. -/

namespace Sys2Proof.Machine

/-- Settles O1: the two cases of a step. -/
theorem stepRunsFrontCommand : Obligations.StepRunsFrontCommand := fun s =>
  ⟨fun c rest h => by rw [step, h], fun h => by rw [step, h]⟩

/-! ## The outcome of a command -/

/-- No operation of any block touches the commands that wait. -/
theorem pending_pathLaw (l : List Instr) : PathLaw fun s => s.pending = l where
  tame h hs := h.pending.trans hs
  move hs _ hp _ := hp.trans hs
  run _ _ hs := hs
  complete _ hs := hs
  cold _ _ hs := hs

/-- A command on a span completes exactly on a span cycle (11.9). -/
theorem spanEvent_outcome (s : State) (p : PortId) (iv : Interval) (due : Bool) :
    (iv.wf = true → ∃ t, s.spanEvent p iv due = .next t) ∧ (iv.wf = false → ∃ f, s.spanEvent p iv due = .fault f) := by
  unfold State.spanEvent
  exact ⟨fun h => ⟨_, if_pos h⟩, fun h => ⟨_, if_neg (by rw [h]; decide)⟩⟩

/-- A command that carries a transaction completes exactly on one that the bus can carry (R157). -/
theorem hostIssueChecked_outcome (s : State) (t : Transaction) :
    (t.wf = true → ∃ u, s.hostIssueChecked t = .next u) ∧ (t.wf = false → ∃ f, s.hostIssueChecked t = .fault f) := by
  unfold State.hostIssueChecked
  exact ⟨fun h => ⟨_, if_pos h⟩, fun h => ⟨_, if_neg (by rw [h]; decide)⟩⟩

theorem coldReset_outcome (straps : BitVec 8) (t : Transaction) (s : State) :
    (t.wf = true → ∃ u, exec (.coldReset straps (some t)) s = .next u)
      ∧ (t.wf = false → ∃ f, exec (.coldReset straps (some t)) s = .fault f) :=
  ⟨fun h => ⟨_, if_pos h⟩, fun h => ⟨_, if_neg (by rw [h]; decide)⟩⟩

/-- The commands with an operand that can be ill formed are judged on it, and all others complete. -/
theorem exec_outcome (i : Instr) (s : State) :
    (i.wf = true → ∃ t, exec i s = .next t) ∧ (i.wf = false → ∃ f, exec i s = .fault f) := by
  cases i
  case coldReset b a =>
    cases a with
    | none => exact ⟨fun _ => ⟨_, rfl⟩, nofun⟩
    | some t => exact coldReset_outcome b t s
  case hostTransactionArrival t => exact hostIssueChecked_outcome s t
  case plainWrite a v => exact hostIssueChecked_outcome s _
  case cycleEvent p iv => exact spanEvent_outcome s p iv _
  case tReadyExpiry p iv => exact spanEvent_outcome s p iv _
  case tHoldExpiry p iv => exact spanEvent_outcome s p iv _
  case tRestoreExpiry p iv => exact spanEvent_outcome s p iv _
  case errorWindowClose p iv => exact spanEvent_outcome s p iv _
  case commandNoAnswer p iv => exact spanEvent_outcome s p iv _
  all_goals exact ⟨fun _ => ⟨_, rfl⟩, nofun⟩

/-- Settles O2: the outcome by the operand, and the queue of commands as a property of the Memory Path. -/
theorem commandsAnswerNextExactlyWhenWellFormed : Obligations.CommandsAnswerNextExactlyWhenWellFormed := by
  intro i s
  obtain ⟨completes, stops⟩ := exec_outcome i s
  refine ⟨fun wf => ?_, stops⟩
  obtain ⟨t, e⟩ := completes wf
  exact ⟨t, e, (pending_pathLaw s.pending).exec e rfl⟩

/-! ## Reset -/

/-- Settles O54: at reset every queue is empty, every count 0, every port disabled and every row EMPTY. -/
theorem lawsHoldAtReset : Obligations.LawsHoldAtReset := by
  have channelEnable : ChannelLaw State.reset ∧ EnableLaw State.reset :=
    (channelEnableLaw_iff _).mpr (channelEnable_portLaw.cold State.reset 0)
  exact ⟨⟨⟨List.Pairwise.nil, nofun⟩, nofun⟩,
    ⟨Nat.zero_le _, fun h => absurd rfl h, List.nodup_nil, fun pr => by
      cases pr <;> exact iff_of_false List.not_mem_nil fun h => h rfl⟩,
    noticeLaw_reset (s := State.reset) (b := 0), settlementLaw_kept.cold State.reset 0 ⟨by decide, nofun⟩,
    channelEnable.1, channelEnable.2, carrying_portLaw.cold State.reset 0, configLaw_reset,
    selection_portLaw.cold State.reset 0, proverLaw_kept.cold State.reset 0 ⟨Nat.le_refl _, nofun⟩, meterLaw_reset⟩

end Sys2Proof.Machine
end

section
/-! PROOFS. One word of the host at an idle bus (R158 to R163): a rule for the words whose capture, and one for those
whose action, does not look at the path; and with them MARK, the row words, STOP, the staging words, ARM and DISARM. -/

namespace Sys2Proof.Machine

/-- Equivalent conditions choose the same branch. -/
theorem ite_of_iff {α : Sort _} {b c : Prop} [Decidable b] [Decidable c] (h : b ↔ c) (x y : α) :
    (if b then x else y) = if c then x else y := ite_congr (propext h) (fun _ => rfl) fun _ => rfl

/-! ## The rules -/

/-- The host's write of any window word is the issue of one transaction. -/
theorem exec_writeOne (s : State) {off : Nat} (v : Word) (h : off < Config.windowBytes) (h4 : off % 4 = 0) :
    exec (.hostTransactionArrival (s.writeOne off v)) s = .next (s.hostIssue (s.writeOne off v)) :=
  exec_arrival (writeOne_wf s v h h4) s

/-- `s` with another path. -/
def State.withPath (s : State) (q : Path) : State := { s with path := q }

theorem withPath_self (s : State) : s.withPath s.path = s := rfl

/-- An operation that neither looks at the path nor changes it. -/
def PathBlind (f : State → State) : Prop := ∀ s q, f (s.withPath q) = (f s).withPath q

theorem PathBlind.path {f : State → State} (h : PathBlind f) (s : State) : (f s).path = s.path := by
  have kept := h s s.path
  rw [withPath_self] at kept
  rw [kept]
  rfl

/-- Every staging capture is blind to the path. -/
theorem pathBlind_captureStaging (w : WinWord) (v : Word) : PathBlind fun s => s.captureStaging w v :=
  fun s q => captureStaging_path s q w v

theorem writeOk_withPath (s : State) (q : Path) (w : WinWord) (v : Word) : (s.withPath q).writeOk w v = s.writeOk w v := rfl

/-- What was captured blindly, forwarded. -/
theorem setPhase_withPath {s c : State} {off : Nat} {v : Word} (path : c.path = s.path) (region : c.regionSel = s.regionSel) :
    (c.withPath (s.granted (s.writeOne off v)).path).setPhase (s.writeOne off v) (.writing [[((s.busAddr off).toNat, v)]] [])
      = c.forwarding off v := by
  rw [setPhase_granted (s := s) (x := c.withPath (s.granted (s.writeOne off v)).path) rfl region, ← path]
  rfl

/-- What was taken blindly, answered. -/
theorem respond_withPath {s c : State} {t : Transaction} (hi : s.busIdle) (path : c.path = s.path) (a : Response) :
    (c.withPath (s.granted t).path).respond a = c.answered a := by
  rw [respond_granted hi t a (x := c.withPath (s.granted t).path) rfl, ← path]
  rfl

/-- A word whose capture does not look at the path: captured and forwarded, or refused (R159, R161). -/
theorem write_captured {s : State} (hi : s.busIdle) {off : Nat} (h : off < Config.windowBytes) {v : Word} {w : WinWord}
    (hw : locate off = w) (ha : w.isAction = false) (blind : PathBlind fun s => s.captureWord w v) :
    s.hostIssue (s.writeOne off v) =
      if (s.captureStaging w v).writeOk w v then (s.captureWord w v).forwarding off v else s.answered .refused := by
  have path : (s.captureWord w v).path = s.path := blind.path s
  have region : (s.captureWord w v).regionSel = s.regionSel := (tame_captureWord s w v).regionSel
  have staged : (s.granted (s.writeOne off v)).captureStaging w v
      = (s.captureStaging w v).withPath (s.granted (s.writeOne off v)).path := pathBlind_captureStaging w v s _
  have taken : (s.granted (s.writeOne off v)).captureWord w v
      = (s.captureWord w v).withPath (s.granted (s.writeOne off v)).path := blind s _
  rw [write_otherWord hi h hw ha, staged, taken, writeOk_withPath, setPhase_withPath path region]

/-- An ACTION word whose action does not look at the path: taken and answered, or refused (R159, R162). -/
theorem write_taken {s : State} (hi : s.busIdle) {off : Nat} (h : off < Config.windowBytes) {v : Word} {w : WinWord}
    (hw : locate off = w) (ha : w.isAction = true) (blind : PathBlind fun s => s.takeAction w v) :
    s.hostIssue (s.writeOne off v) =
      if s.writeOk w v then (s.takeAction w v).answered .done else s.answered .refused := by
  have path : (s.takeAction w v).path = s.path := blind.path s
  have taken : (s.granted (s.writeOne off v)).takeAction w v
      = (s.takeAction w v).withPath (s.granted (s.writeOne off v)).path := blind s _
  rw [write_actionWord hi h hw ha, taken, respond_withPath hi path]

/-! ## Row words (R8 to R10, R15) -/

theorem controlOk_mark (s : State) (r : RowId) :
    s.controlOk r 4 = true ↔ (s.row r).state = .live ∧ (s.row r).meter.closed.length < 6 := by
  have apart : (4 : Word) ≠ 1 ∧ ¬((4 : Word) = 2 ∨ (4 : Word) = 3) := by decide
  simp only [State.controlOk, if_neg apart.1, if_neg apart.2, if_true, Bool.and_eq_true, isLive_iff, decide_eq_true_iff]

theorem takeControl_mark {s : State} {r : RowId} (h : (s.row r).state = .live) :
    s.takeControl r 4 = s.setRow r (s.row r).markSegment := if_pos ((isLive_iff _).mpr h)

theorem exec_mark (r : RowId) (s : State) :
    exec (.mark r) s = .next (s.hostIssue (s.writeOne (rowOffset r 15) 4)) := rfl

/-- Settles O8: a control write of 4 is accepted exactly under R15's condition, and it closes the segment. -/
theorem markClosesSegmentOrRefused : Obligations.MarkClosesSegmentOrRefused := by
  intro r s hi
  rw [exec_mark, hostIssue_control hi]
  refine ⟨fun h => ⟨_, rfl, ?_⟩, fun h => by rw [if_neg (mt (controlOk_mark s r).mp h)]⟩
  rw [if_pos ((controlOk_mark s r).mpr h), takeControl_mark h.1]
  rfl

theorem setRow_self (s : State) (r : RowId) : s.setRow r (s.row r) = s := by
  simp [State.setRow, State.row]

/-- Only W8 and W9 are captured (R10). -/
theorem captureWord_other {i : Fin 16} (h8 : i ≠ 8) (h9 : i ≠ 9) (x : Row) (v : Word) : x.captureWord i v = x := by
  simp only [Row.captureWord, if_neg h8, if_neg h9, ite_self]

/-- Only a HELD or LIVE row captures (R10). -/
theorem captureWord_free {x : Row} (h : x.isBooked = false) (i : Fin 16) (v : Word) : x.captureWord i v = x := by
  rw [Row.captureWord, h, if_neg (by decide)]

theorem captureWord_low {x : Row} (h : x.isBooked = true) (v : Word) :
    x.captureWord 8 v = { x with stageLow := v } := by
  rw [Row.captureWord, if_pos h, if_pos rfl]

theorem captureWord_high {x : Row} (h : x.isBooked = true) (v : Word) :
    x.captureWord 9 v = { x with stageHigh := v } := by
  rw [Row.captureWord, if_pos h, if_neg (by decide), if_pos rfl]

/-- A capture leaves what decides about the row's words as it is. -/
theorem captureWord_keeps (x : Row) (i : Fin 16) (v : Word) :
    (x.captureWord i v).state = x.state ∧ (x.captureWord i v).inFlight = x.inFlight := by
  unfold Row.captureWord
  repeat' split
  all_goals exact ⟨rfl, rfl⟩

/-- The host's write of a row word other than W15 (R8, R10, R161). -/
theorem hostIssue_rowWord {s : State} (hi : s.busIdle) (r : RowId) {i : Fin 16} (h15 : i ≠ 15) (v : Word) :
    s.hostIssue (s.writeOne (rowOffset r i) v) =
      if s.rowWriteOk r i v then (s.setRow r ((s.row r).captureWord i v)).forwarding (rowOffset r i) v
      else s.answered .refused := by
  have hact : (WinWord.row r i).isAction = false := by simpa [WinWord.isAction] using h15
  rw [write_captured hi (rowOffset_lt r i) (locate_row r i) hact fun _ _ => rfl]
  have hok : (s.captureStaging (.row r i) v).writeOk (.row r i) v = s.rowWriteOk r i v := by
    obtain ⟨hst, hfl⟩ := captureWord_keeps (s.row r) i v
    have hlt : ¬15 ≤ i.val := fun h => h15 (Fin.ext (by omega))
    show (s.setRow r ((s.row r).captureWord i v)).rowWriteOk r i v = _
    unfold State.rowWriteOk Row.isBooked
    simp only [row_setRow, if_true, hst, hfl]
    repeat' split
    all_goals first | rfl | omega
  rw [hok]
  rfl

theorem rowWriteOk_booking (s : State) (r : RowId) {i : Fin 16} (h : i.val < 8) (v : Word) :
    s.rowWriteOk r i v = true ↔ (s.row r).state = .empty := by
  rw [State.rowWriteOk, if_pos h, beq_iff_eq]

theorem rowWriteOk_staging (s : State) (r : RowId) {i : Fin 16} (h : i = 8 ∨ i = 9) (v : Word) :
    s.rowWriteOk r i v = true ↔ (s.row r).state = .empty
      ∨ (((s.row r).state = .held ∨ (s.row r).state = .live) ∧ (s.row r).inFlight = .none) := by
  have hlo : ¬i.val < 8 := by rcases h with rfl | rfl <;> decide
  have hhi : i.val < 10 := by rcases h with rfl | rfl <;> decide
  simp only [State.rowWriteOk, if_neg hlo, if_pos hhi, Bool.or_eq_true, Bool.and_eq_true, beq_iff_eq, isBooked_iff]

theorem rowWriteOk_plain (s : State) (r : RowId) {i : Fin 16} (h : 12 ≤ i.val) (h' : i.val ≤ 14) (v : Word) :
    s.rowWriteOk r i v = true := by
  rw [State.rowWriteOk, if_neg (by omega), if_neg (by omega), if_neg (by omega), if_pos (by omega)]

/-- W15 takes the values 1 to 4 only (R12). -/
theorem controlOk_other (s : State) (r : RowId) {v : Word} (h1 : v ≠ 1) (h2 : v ≠ 2) (h3 : v ≠ 3) (h4 : v ≠ 4) :
    s.controlOk r v = false := by
  simp only [State.controlOk, if_neg h1, h2, h3, or_self, if_false, if_neg h4]

theorem exec_amendStagingWrite (r : RowId) (half : StagingHalf) (v : Word) (s : State) :
    exec (.amendStagingWrite r half v) s = .next (s.hostIssue (s.writeOne (rowOffset r (stagingRowWord half)) v)) := rfl

theorem stagingRowWord_cases (half : StagingHalf) : stagingRowWord half = 8 ∨ stagingRowWord half = 9 := by
  cases half
  · exact .inl rfl
  · exact .inr rfl

/-- The host's write of W8 or W9. -/
theorem hostIssue_staging {s : State} (hi : s.busIdle) (r : RowId) (half : StagingHalf) (v : Word) :
    exec (.amendStagingWrite r half v) s = .next
      (if s.rowWriteOk r (stagingRowWord half) v then
        (s.setRow r ((s.row r).captureWord (stagingRowWord half) v)).forwarding (rowOffset r (stagingRowWord half)) v
      else s.answered .refused) := by
  rw [exec_amendStagingWrite, hostIssue_rowWord hi r (by cases half <;> decide)]

/-- Settles O9, by the class of the row word. -/
theorem rowWordWritesByRowState : Obligations.RowWordWritesByRowState := by
  intro r v s hi
  refine ⟨fun i off hoff => ?words, fun empty half => ?free, fun ok => ?captured, fun no half => ?refused⟩
  case words =>
    obtain rfl : off = rowOffset r i := hoff
    have aligned : rowOffset r i % 4 = 0 := by unfold rowOffset rowBase; omega
    have plain : ∀ h15 : i ≠ 15, i ≠ 8 → i ≠ 9 →
        exec (.hostTransactionArrival (s.writeOne (rowOffset r i) v)) s = .next
          (if s.rowWriteOk r i v then s.forwarding (rowOffset r i) v else s.answered .refused) := by
      intro h15 h8 h9
      rw [exec_writeOne s v (rowOffset_lt r i) aligned, hostIssue_rowWord hi r h15, captureWord_other h8 h9, setRow_self]
    refine ⟨fun lt => ?booking, fun lo hi' => ?spare, fun h15 h1 h2 h3 h4 => ?control⟩
    case booking =>
      have apart : ∀ j : Fin 16, 8 ≤ j.val → i ≠ j := fun j from8 same => Nat.not_lt.mpr from8 (same ▸ lt)
      rw [plain (apart 15 (by decide)) (apart 8 (by decide)) (apart 9 (by decide))]
      have ok := rowWriteOk_booking s r lt v
      exact ⟨fun e => by rw [if_pos (ok.mpr e)], fun e => by rw [if_neg (mt ok.mp e)]⟩
    case spare =>
      have above : ∀ j : Fin 16, ¬12 ≤ j.val → i ≠ j := fun j below same => below (same ▸ lo)
      rw [plain (fun same => absurd (same ▸ hi') (by decide)) (above 8 (by decide)) (above 9 (by decide)), if_pos (rowWriteOk_plain s r lo hi' v)]
    case control =>
      obtain rfl : i = 15 := Fin.ext h15
      rw [exec_writeOne s v (rowOffset_lt r 15) aligned, hostIssue_control hi, controlOk_other s r h1 h2 h3 h4,
        if_neg (by decide)]
  case free =>
    have ok := (rowWriteOk_staging s r (stagingRowWord_cases half) v).mpr (.inl empty)
    have free : (s.row r).isBooked = false := by rw [Row.isBooked, empty]; rfl
    rw [hostIssue_staging hi, if_pos ok, captureWord_free free, setRow_self]
  case captured =>
    have booked := (isBooked_iff (s.row r)).mpr ok.1
    have accepted := fun half => (rowWriteOk_staging s r (stagingRowWord_cases half) v).mpr (.inr ok)
    rw [hostIssue_staging hi, hostIssue_staging hi, if_pos (accepted .low), if_pos (accepted .high)]
    refine ⟨?_, ?_⟩
    · rw [stagingRowWord, captureWord_low booked]
      rfl
    · rw [stagingRowWord, captureWord_high booked]
      rfl
  case refused =>
    have bad : ¬s.rowWriteOk r (stagingRowWord half) v = true := by
      rw [rowWriteOk_staging s r (stagingRowWord_cases half) v]
      rintro (e | ⟨e | e, f⟩) <;> rcases no with n | n | ⟨n, g⟩ <;> simp_all
    rw [hostIssue_staging hi, if_neg bad]

/-! ## Fabric and time words (R32 to R37) -/

theorem exec_stop (s : State) : exec .stop s = .next (s.hostIssue (s.writeOne (anchorOffset .a1) 2)) := rfl

/-- No row is LIVE, in the words of the row list. -/
theorem anyRow_isLive (s : State) : s.anyRow Row.isLive = false ↔ ∀ r, (s.row r).state ≠ .live := by
  rw [anyRow_eq_false]
  exact forall_congr' fun r => by rw [← Bool.not_eq_true, isLive_iff]

/-- STOP is accepted in RUNNING only (R34). -/
theorem writeOk_stop (s : State) : s.writeOk (.anchor .a1) 2 = true ↔ s.fabric = .running := by
  have apart : ((2 : Word) == 1) = false := by decide
  simp only [State.writeOk, State.anchorWriteOk, apart, Bool.false_and, Bool.false_or, beq_self_eq_true, Bool.true_and,
    beq_iff_eq]

/-- Settles O11: STOPPING is entered, and left at once when nothing is LIVE. -/
theorem stopEntersStoppingOrHalted : Obligations.StopEntersStoppingOrHalted := by
  intro s hi
  rw [exec_stop, write_actionWord hi (anchorOffset_lt .a1) (locate_anchor .a1) rfl]
  refine ⟨fun running => ⟨_, rfl, ?_⟩, fun no => by rw [if_neg (mt (writeOk_stop s).mp no)]⟩
  rw [if_pos ((writeOk_stop s).mpr running)]
  have stopping : ∀ t : State, t.fabric = .running → t.takeAction (.anchor .a1) 2
      = (({ t with fabric := .stopping } : State).handNotice .fabricState 0 2 1 0).haltIfDone := by
    intro t ht
    have second : ¬((2 : Word) = 1 ∧ t.fabric = .halted) := by rintro ⟨h, _⟩; exact absurd h (by decide)
    show t.takeFabric 2 = _
    rw [State.takeFabric, if_neg second, if_pos ⟨rfl, ht⟩, State.takeStop, setFabric_eq, ht]
    rfl
  rw [stopping _ (show (s.granted _).fabric = .running from running)]
  refine ⟨fun ⟨r, live⟩ => ?stays, fun none => ?halts⟩
  case stays =>
    rw [State.haltIfDone, if_neg fun h => (anyRow_isLive _).mp h.2 r live]
  case halts =>
    rw [State.haltIfDone, if_pos ⟨rfl, (anyRow_isLive _).mpr none⟩, setFabric_eq]
    rfl

theorem exec_setTime (v : Word) (s : State) :
    exec (.setTime v) s = .next (s.hostIssue (s.writeOne (anchorOffset .a7) v)) := rfl

/-- The host's write of A7 (R33). -/
theorem hostIssue_setTime {s : State} (hi : s.busIdle) (v : Word) :
    s.hostIssue (s.writeOne (anchorOffset .a7) v) =
      if s.fabric = .halted ∧ s.setTimeHigh.extractLsb' 8 24 = 0 then
        ({ s with now := s.setTimeHigh.extractLsb' 0 8 ++ s.setTimeLow } : State).answered .done
      else s.answered .refused := by
  have blind : PathBlind fun s => s.takeAction (.anchor .a7) v := by
    intro t q
    show (if t.fabric = .halted then (t.withPath q).takeSetTime else t.withPath q) = _
    simp only [State.takeAction]
    split
    · rfl
    · rfl
  have ok : s.writeOk (.anchor .a7) v = true ↔ s.fabric = .halted ∧ s.setTimeHigh.extractLsb' 8 24 = 0 := by
    simp only [State.writeOk, State.anchorWriteOk, State.timeStaged, Bool.and_eq_true, beq_iff_eq]
  rw [write_taken hi (anchorOffset_lt .a7) (locate_anchor .a7) rfl blind]
  refine (ite_of_iff ok _ _).trans ?_
  split
  · rename_i h
    rw [State.takeAction, if_pos h.1]
    rfl
  · rfl

/-- The host's write of a staging word of the anchor (R32, R113). -/
theorem hostIssue_anchorStaging {s : State} (hi : s.busIdle) (a : Anchor) (v : Word)
    (ha : (WinWord.anchor a).isAction = false)
    (hc : ∀ t : State, t.captureWord (.anchor a) v = t.captureStaging (.anchor a) v) :
    s.hostIssue (s.writeOne (anchorOffset a) v) =
      if (s.captureStaging (.anchor a) v).writeOk (.anchor a) v then
        (s.captureStaging (.anchor a) v).forwarding (anchorOffset a) v
      else s.answered .refused := by
  have blind : PathBlind fun s => s.captureWord (.anchor a) v := by
    intro t q
    simp only [hc]
    exact captureStaging_path t q _ v
  rw [write_captured hi (anchorOffset_lt a) (locate_anchor a) ha blind, hc]

theorem exec_proverStagingWrite (which : ProverWord) (v : Word) (s : State) :
    exec (.proverStagingWrite which v) s = .next (s.hostIssue (s.writeOne (anchorOffset (proverAnchor which)) v)) := rfl

/-- The staging words of the prover take a value while no test runs (R113). -/
theorem hostIssue_proverStaging {s : State} (hi : s.busIdle) (which : ProverWord) (v : Word) :
    s.hostIssue (s.writeOne (anchorOffset (proverAnchor which)) v) =
      if s.prover.running then s.answered .refused
      else (s.captureStaging (.anchor (proverAnchor which)) v).forwarding (anchorOffset (proverAnchor which)) v := by
  rw [hostIssue_anchorStaging hi (proverAnchor which) v (by cases which <;> rfl) (by cases which <;> exact fun _ => rfl)]
  have ok : (s.captureStaging (.anchor (proverAnchor which)) v).writeOk (.anchor (proverAnchor which)) v
      = !s.prover.running := by
    cases which
    all_goals
      simp only [proverAnchor, State.captureStaging, State.writeOk, State.anchorWriteOk]
      split
      · rfl
      · rfl
  rw [ok]
  cases s.prover.running
  · rfl
  · rfl

/-- Settles O12: the staging words are captured, and A7 loads what is staged. -/
theorem stagedValuesCapturedAndLoaded : Obligations.StagedValuesCapturedAndLoaded := by
  intro v s hi
  refine ⟨fun h => ?load, fun h => ?noLoad, ?low, ?high, fun idle => ?prover, fun runs which => ?testRuns⟩
  case load => rw [exec_setTime, hostIssue_setTime hi, if_pos h]
  case noLoad => rw [exec_setTime, hostIssue_setTime hi, if_neg h]
  case low => exact congrArg _ (hostIssue_anchorStaging hi .a5 v rfl fun _ => rfl)
  case high => exact congrArg _ (hostIssue_anchorStaging hi .a6 v rfl fun _ => rfl)
  case prover =>
    have free : ¬s.prover.running = true := by rw [idle]; decide
    rw [exec_proverStagingWrite, exec_proverStagingWrite, hostIssue_proverStaging hi, hostIssue_proverStaging hi,
      if_neg free, if_neg free, proverAnchor, proverAnchor, State.captureStaging, State.captureStaging, if_neg free,
      if_neg free]
    exact ⟨rfl, rfl⟩
  case testRuns => rw [exec_proverStagingWrite, hostIssue_proverStaging hi, if_pos runs]

/-! ## ARM and DISARM (R89) -/

theorem exec_arm (p : PortId) (s : State) : exec (.arm p) s = .next (s.hostIssue (s.writeOne (portOffset p .p8) 1)) := rfl

theorem exec_disarm (p : PortId) (s : State) : exec (.disarm p) s = .next (s.hostIssue (s.writeOne (portOffset p .p8) 2)) := rfl

theorem takeCapture_blind (p : PortId) (v : Word) : PathBlind fun s => s.takeAction (.port p .p8) v := by
  intro s q
  show (if v = 1 then (s.withPath q).takeArm p else (s.withPath q).takeDisarm p) = _
  simp only [State.takeAction, State.takeCapture]
  split
  · rfl
  · rfl

theorem inService_iff (l : LinkState) : l.inService = true ↔ l = .up ∨ l = .suspect := by
  cases l <;> simp [LinkState.inService]

/-- What ARM does, by the link state (R89). -/
theorem takeArm_eq (s : State) (p : PortId) : s.takeArm p = s.setPort p { s.port p with
    capture := ⟨if (s.port p).link = .up ∨ (s.port p).link = .suspect then .armed else .waitUp, 0, 0⟩ } := by
  simp only [State.takeArm, inService_iff]

theorem captureOk_arm (s : State) (p : PortId) :
    s.captureOk p 1 = true ↔ (s.port p).capture.state = .idle ∨ (s.port p).capture.state = .done := by
  rw [State.captureOk, if_pos rfl, Bool.or_eq_true, beq_iff_eq, beq_iff_eq]

/-- The host's write of P8. -/
theorem hostIssue_capture {s : State} (hi : s.busIdle) (p : PortId) (v : Word) :
    s.hostIssue (s.writeOne (portOffset p .p8) v) =
      if s.captureOk p v then (s.takeCapture p v).answered .done else s.answered .refused :=
  write_taken hi (portOffset_lt p .p8) (locate_port p .p8) rfl (takeCapture_blind p v)

/-- Settles O29: P8 is judged by the capture state for ARM, and always takes DISARM. -/
theorem armAndDisarm : Obligations.ArmAndDisarm := by
  intro p s hi
  rw [exec_arm, exec_disarm, hostIssue_capture hi, hostIssue_capture hi, ← takeArm_eq]
  refine ⟨fun h => ?_, fun h => ?_, ?_⟩
  · rw [if_pos ((captureOk_arm s p).mpr h)]
    rfl
  · rw [if_neg (mt (captureOk_arm s p).mp (not_or.mpr h))]
  · rfl

end Sys2Proof.Machine
end

section
/-! PROOFS. The bus as the host meets it: a command that has to wait, the arbiter's choice, and the reads that clear or
snapshot (R31, R85, R138, R158, R166). -/

namespace Sys2Proof.Machine

/-! ## Waiting (R158, R166) -/

theorem exec_timeRead (s : State) : exec .timeRead s = .next (s.hostReadOne (anchorOffset .a3)) := rfl

theorem exec_meterSnapshotRead (r : RowId) (s : State) :
    exec (.meterSnapshotRead r) s = .next (s.hostReadOne (meterOffset r 0)) := rfl

theorem exec_counterRead (p : PortId) (which : CounterWord) (s : State) :
    exec (.counterRead p which) s = .next (s.hostReadOne (portOffset p (counterPortWord which))) := rfl

/-- What a command of the host does with its transaction: it issues it, and a read of one answered word goes on with the
answer in the same command (log 7). -/
theorem exec_hostTransaction {i : Instr} {s : State} {t : Transaction} (h : s.hostTransaction i = some t)
    (wf : t.wf = true) :
    exec i s = .next (s.hostIssue t)
      ∨ ∃ off, t = s.readOne off ∧ exec i s = .next (s.hostReadOne off) := by
  cases i
  case hostTransactionArrival x =>
    obtain rfl : x = t := Option.some.inj h
    exact .inl (exec_arrival wf s)
  case plainWrite a v =>
    obtain rfl : Transaction.write a [⟨true, v⟩] = t := Option.some.inj h
    exact .inl (exec_arrival wf s)
  case timeRead => exact .inr ⟨_, (Option.some.inj h).symm, exec_timeRead s⟩
  case counterRead p which => exact .inr ⟨_, (Option.some.inj h).symm, exec_counterRead p which s⟩
  case meterSnapshotRead r => exact .inr ⟨_, (Option.some.inj h).symm, exec_meterSnapshotRead r s⟩
  case coldReset | msEvent | cycleEvent | cycleTransmit | msideGrant | forwardComplete | postBegin
      | admissionRowReadDone | amendExecute | cancelExecute | goLive | scheduledEnd | stopEnd | tReadyExpiry
      | tHoldExpiry | tRestoreExpiry | errorWindowClose | proverExpiry | commandNoAnswer | noticeWriteDone | recordBegin
      | settlementFirstHalfDone | recordComplete =>
    have none : (none : Option Transaction) = some t := h
    cases none
  all_goals
    obtain rfl : s.writeOne _ _ = t := Option.some.inj h
    exact .inl rfl

/-- A transaction that waits for its grant has no work to do. -/
theorem progress_arrived (s : State) (t : Transaction) : (s.setPhase t .arrived).progress = s.setPhase t .arrived := by
  unfold State.progress State.setPhase
  split <;> simp_all

/-- Settles O13: while M-side is held the transaction waits, and while one is current none is issued. -/
theorem hostCommandWaitsForMside : Obligations.HostCommandWaitsForMside := by
  intro i s t ht wf
  refine ⟨fun ⟨empty, held⟩ => ?waits, fun busy => ?ignored⟩
  case waits =>
    have arrives : s.arrive t = s.setPhase t .arrived := by
      rw [← hostIssue_busy empty held t, State.hostIssue, empty]
      rfl
    rcases exec_hostTransaction ht wf with e | ⟨off, rfl, e⟩
    · rw [e, hostIssue_busy empty held]
      rfl
    · rw [e, State.hostReadOne, empty, arrives, progress_arrived]
      rfl
  case ignored =>
    have some : s.path.current.isSome = true := Option.isSome_iff_ne_none.mpr busy
    rcases exec_hostTransaction ht wf with e | ⟨off, rfl, e⟩
    · rw [e, State.hostIssue, if_pos some]
    · rw [e, State.hostReadOne, if_pos some]

/-! ## The arbiter (R166) -/

theorem exec_msideGrant (s : State) : exec .msideGrant s = .next s.arbitrate := rfl

theorem arbitrate_held {s : State} (h : s.path.mside ≠ .free) : s.arbitrate = s := if_neg h

/-- No host transaction waits: the head of the Outbound Queue, if there is one, is granted. -/
theorem arbitrate_noHost {s : State} (free : s.path.mside = .free) (none : s.path.current = none) :
    s.arbitrate = { s with path := s.path.grantOutbound } := by
  rw [State.arbitrate, if_pos free, none]

/-- A host transaction waits: it is granted alone, or where it was not granted last. -/
theorem arbitrate_host {s : State} {t : Transaction} (free : s.path.mside = .free)
    (waits : s.path.current = some ⟨t, .arrived⟩) :
    s.arbitrate = if s.path.outbound = [] ∨ s.path.lastGrant = .outbound then s.grantPside t
      else { s with path := s.path.grantOutbound } := by
  rw [State.arbitrate, if_pos free, waits]

/-- The grant of a waiting Outbound entry. -/
theorem grantOutbound_waiting {q : Path} (h : q.outbound ≠ []) :
    q.grantOutbound = { q with mside := .outbound, lastGrant := .outbound } := if_neg h

theorem grantOutbound_empty {q : Path} (h : q.outbound = []) (free : q.mside = .free) : q.grantOutbound = q := by
  rw [Path.grantOutbound, if_pos h, ← free]

/-- Settles O16, by who waits. -/
theorem arbiterGrants : Obligations.ArbiterGrants := by
  intro t s outside
  rw [exec_msideGrant]
  refine ⟨fun ⟨free, waits, turn⟩ => ?host, fun ⟨free, queued, other⟩ => ?outbound, fun stays => ?idle⟩
  case host =>
    rw [arbitrate_host free waits, if_pos turn]
    exact congrArg _ (judge_outside (s := s) rfl outside)
  case outbound =>
    rcases other with none | ⟨waits, last⟩
    · rw [arbitrate_noHost free none, grantOutbound_waiting queued]
    · have passed : ¬(s.path.outbound = [] ∨ s.path.lastGrant = .outbound) := by
        rw [last]
        exact not_or.mpr ⟨queued, by decide⟩
      rw [arbitrate_host free waits, if_neg passed, grantOutbound_waiting queued]
  case idle =>
    by_cases free : s.path.mside = .free
    · obtain ⟨empty, none⟩ := stays.resolve_left (not_not_intro free)
      rw [arbitrate_noHost free none, grantOutbound_empty empty free]
    · rw [arbitrate_held free]

/-! ## Clearing and snapshot reads (R31, R85, R138) -/

/-- P4 holds the slip flag above the hit count (R85). -/
theorem hitWord_eq (o : Port) : o.hitWord = (BitVec.ofBool o.slip ++ o.hits).setWidth 32 := by
  apply BitVec.eq_of_getLsbD_eq
  intro i hi
  rw [Port.hitWord, BitVec.getLsbD_or, getLsbD_place _ _ hi, getLsbD_placeBit _ _ hi, BitVec.getLsbD_setWidth,
    BitVec.getLsbD_append, BitVec.testBit_toNat]
  by_cases low : i < 8
  · have apart : i ≠ 8 := by omega
    simp [low, apart, hi]
  · have above : o.hits.getLsbD i = false := BitVec.getLsbD_of_ge _ _ (by omega)
    have place : i - 8 = 0 ↔ i = 8 := by omega
    simp [low, above, place, hi]

/-- The meter words of a LIVE or ENDED row show its record (R138). -/
theorem shownMeter_record {x : Row} (h : x.state = .live ∨ x.state = .ended) : x.shownMeter = x.meter := by
  rcases h with h | h <;> rw [Row.shownMeter, h]

theorem shownMeter_none {x : Row} (h : x.state ≠ .live ∧ x.state ≠ .ended) : x.shownMeter = Meter.zero := by
  unfold Row.shownMeter
  split
  · exact absurd ‹_› h.1
  · exact absurd ‹_› h.2
  · rfl

/-- The host's read of M0. -/
theorem read_snapshot {s : State} (hi : s.busIdle) (r : RowId) :
    s.hostReadOne (meterOffset r 0)
      = (s.setRow r (s.row r).fillHold).answered (.data [(s.row r).shownMeter.carriage]) :=
  read_answeredWord hi (meterOffset_lt r 0) (locate_meter r 0) rfl

/-- The host's read of a clearing word. -/
theorem read_counter {s : State} (hi : s.busIdle) (p : PortId) (which : CounterWord) :
    s.hostReadOne (portOffset p (counterPortWord which))
      = (s.answerEffect (.port p (counterPortWord which))).answered (.data [s.answer (.port p (counterPortWord which))]) :=
  read_answeredWord hi (portOffset_lt p _) (locate_port p _) (by cases which <;> rfl)

/-- Settles O22: each word is answered, with what answering it does. -/
theorem clearingAndSnapshotReads : Obligations.ClearingAndSnapshotReads := by
  intro r p s hi
  rw [exec_timeRead, exec_meterSnapshotRead, exec_counterRead, exec_counterRead, exec_counterRead, read_snapshot hi,
    read_counter hi, read_counter hi, read_counter hi, ← hitWord_eq]
  refine ⟨?time, fun shown => ?shown, fun hidden => ?hidden, rfl, rfl, rfl⟩
  case time => exact congrArg _ (read_answeredWord hi (anchorOffset_lt .a3) (locate_anchor .a3) rfl)
  case shown =>
    rw [Row.fillHold, shownMeter_record shown]
    rfl
  case hidden =>
    rw [Row.fillHold, shownMeter_none hidden]
    rfl

end Sys2Proof.Machine
end

section
/-! PROOFS. The answered words (R6, R31, R54, R88, R91, R97, R113, R138, R149, R159, R174, R175): the status words as
sums of their fields, and that a read gives them and changes nothing. -/

namespace Sys2Proof.Machine

/-- The read of an answered word that answering leaves alone, with the value that its owner gives. -/
theorem reads_value {s : State} (hi : s.busIdle) {off : Nat} {w : WinWord} (hw : locate off = w)
    (h : off < Config.windowBytes) (h4 : off % 4 = 0) (ha : w.isAnswered = true) (he : s.answerEffect w = s) {v : Word}
    (hv : s.answer w = v) : s.reads off v := hv ▸ reads_word hi h h4 hw ha he

theorem reads_anchor {s : State} (hi : s.busIdle) (a : Anchor) (ha : (WinWord.anchor a).isAnswered = true) (h3 : a ≠ .a3) :
    s.reads (anchorOffset a) (s.answer (.anchor a)) := by
  refine reads_value hi (locate_anchor a) (anchorOffset_lt a) (by cases a <;> decide) ha ?_ rfl
  exact answerEffect_plain s (by simpa using h3) (by simp) (by simp)

theorem reads_port {s : State} (hi : s.busIdle) (p : PortId) (w : PortWord) (ha : (WinWord.port p w).isAnswered = true)
    (hp : w ≠ .p2 ∧ w ≠ .p3 ∧ w ≠ .p4) : s.reads (portOffset p w) (s.answer (.port p w)) := by
  refine reads_value hi (locate_port p w) (portOffset_lt p w) (by unfold portOffset portBase; omega) ha ?_ rfl
  exact answerEffect_plain s (by simp) (fun q => by simp [hp]) (by simp)

theorem reads_row {s : State} (hi : s.busIdle) (r : RowId) (i : Fin 16) (ha : (WinWord.row r i).isAnswered = true) :
    s.reads (rowOffset r i) (s.answer (.row r i)) :=
  reads_value hi (locate_row r i) (rowOffset_lt r i) (by unfold rowOffset rowBase; omega) ha rfl rfl

theorem reads_meter {s : State} (hi : s.busIdle) (r : RowId) {i : Fin 4} (h : i ≠ 0) :
    s.reads (meterOffset r i) ((s.row r).hold.word i) :=
  reads_value hi (locate_meter r i) (meterOffset_lt r i) (by unfold meterOffset meterBase; omega) rfl
    (if_neg h) (if_neg h)

/-- The word of a flag. -/
theorem placeBit_eq (lo : Nat) (b : Bool) : placeBit lo b = BitVec.ofNat 32 (2 ^ lo * b.toNat) := place_eq lo b.toNat

/-- A flag of a condition. -/
theorem placeBit_if (lo : Nat) {c : Prop} [Decidable c] {b : Bool} (h : b = true ↔ c) :
    placeBit lo b = if c then BitVec.ofNat 32 (2 ^ lo) else 0 := by
  rw [placeBit_eq]
  split
  · rw [h.mpr ‹_›, Bool.toNat_true, Nat.mul_one]
  · rw [eq_false_of_ne_true (mt h.mp ‹_›)]
    rfl

/-- W10, field by field (R6). -/
theorem statusWord_eq (x : Row) : x.statusWord = (BitVec.ofNat 32 x.state.code
    ||| (if x.state = .empty ∨ x.state = .posting then 0 else BitVec.ofNat 32 (2 ^ 3 * x.inFlight.code))
    ||| (if x.state = .posting then 0 else BitVec.ofNat 32 (2 ^ 5 * x.lastResult.code))
    ||| (if x.state = .live ∨ x.state = .ended then
        BitVec.ofNat 32 (2 ^ 10 * x.health.code) ||| BitVec.ofNat 32 (2 ^ 12 * x.meter.closed.length) else 0)
    ||| (if x.state = .posting ∨ x.state = .held then 0 else BitVec.ofNat 32 (2 ^ 15 * x.late.toNat))
    ||| (if x.state = .empty ∨ x.state = .ended then BitVec.ofNat 32 (2 ^ 16 * x.endReason.code) else 0)
    ||| (if x.state = .empty then 0 else BitVec.ofNat 32 (2 ^ 24 * (x.currentEnd.toNat / 2 ^ 32)))) := by
  have high : (x.currentEnd.extractLsb' 32 8).toNat = x.currentEnd.toNat / 2 ^ 32 := by
    have := x.currentEnd.isLt
    simp only [BitVec.extractLsb'_toNat, Nat.shiftRight_eq_div_pow]
    omega
  unfold Row.statusWord Row.shownHealth Row.shownSegments
  rw [high]
  simp only [place_eq, placeBit_eq]
  cases x.state
  all_goals simp [InFlight.code, LastResult.code, Health.code, EndReason.code, BitVec.or_assoc]

/-- W11 (R6). -/
theorem endWord_eq (x : Row) :
    x.endWord = if x.state = .empty then x.settleSeq else x.currentEnd.extractLsb' 0 32 := by
  unfold Row.endWord
  split
  · rw [if_pos ‹_›]
  · rw [if_neg ‹_›]
    rfl

/-- P1, field by field (R88). -/
theorem linkWord_eq (s : State) (p : PortId) : s.linkWord p = (BitVec.ofNat 32 (s.port p).link.code
    ||| BitVec.ofNat 32 (2 ^ 3 * (s.port p).carrying.toNat)
    ||| BitVec.ofNat 32 (2 ^ 4 * (s.port p).rdy.value.toNat) ||| BitVec.ofNat 32 (2 ^ 5 * (s.port p).backup.value.toNat)
    ||| BitVec.ofNat 32 (2 ^ 6 * (s.port p).inputLoss.value.toNat)
    ||| BitVec.ofNat 32 (2 ^ 7 * (s.port p).channel.loop.toNat)
    ||| BitVec.ofNat 32 (2 ^ 8 * (s.port p).channel.corrupt.toNat)
    ||| BitVec.ofNat 32 (2 ^ 9 * (s.port p).channel.hubCorrupting.toNat)
    ||| (if s.claimed = some p then BitVec.ofNat 32 (2 ^ 10) else 0)
    ||| (if s.inPair p = true ∧ s.active[pairOf p] = .odd then BitVec.ofNat 32 (2 ^ 11) else 0)
    ||| BitVec.ofNat 32 (2 ^ 12 * (s.port p).lastDown.code)) := by
  have claim : placeBit 10 (s.claimed == some p) = if s.claimed = some p then BitVec.ofNat 32 (2 ^ 10) else 0 :=
    placeBit_if 10 beq_iff_eq
  have member : BitVec.ofNat 32 (2 ^ 11 * if s.inPair p then s.active[pairOf p].code else 0)
      = if s.inPair p = true ∧ s.active[pairOf p] = .odd then BitVec.ofNat 32 (2 ^ 11) else 0 := by
    cases s.inPair p
    · simp
    · cases s.active[pairOf p] <;> simp [Member.code]
  rw [State.linkWord, claim, place_eq 11, member]
  simp only [place_eq, placeBit_eq, Nat.pow_zero, Nat.one_mul]

/-- P6, field by field (R97). -/
theorem channelWord_eq (c : Channel) : c.word = ((if c.outstanding = none then 0 else 1)
    ||| BitVec.ofNat 32 (2 * c.lastCommand.toNat) ||| BitVec.ofNat 32 (2 ^ 4 * c.lastResult.code)
    ||| BitVec.ofNat 32 (2 ^ 8 * c.sent)) := by
  have busy : placeBit 0 c.outstanding.isSome = if c.outstanding = none then 0 else 1 := by
    cases c.outstanding <;> simp [placeBit, place]
  rw [Channel.word, busy]
  simp only [place_eq, Nat.pow_one]

/-- P11 (R90, R91). -/
theorem durationWord_eq (c : Capture) (now : Time) : c.durationWord now = if c.state = .timing then
    BitVec.ofNat 32 (min (2 ^ 32 - 1) (now.toNat - c.start.toNat)) else c.duration := by
  rw [Capture.durationWord]
  refine ite_congr rfl (fun _ => ?_) fun _ => rfl
  unfold captureSpan
  split
  · rw [Nat.min_eq_right (by omega)]
  · rw [Nat.min_eq_left (by omega)]
    decide

/-- A field below bit `lo` beside the flag at it. -/
theorem flag_or_field {lo n : Nat} (h : n < 2 ^ lo) :
    BitVec.ofNat 32 (2 ^ lo) ||| BitVec.ofNat 32 n = BitVec.ofNat 32 (2 ^ lo + n) := by
  have whole := Nat.two_pow_add_eq_or_of_lt h 1
  rw [Nat.mul_one] at whole
  rw [whole, BitVec.ofNat_or]

/-- The Slot Table word, by the owners of its two entries (R54). -/
theorem slotWord_eq (s : State) (p : PortId) (i : SlotId) : s.slotWord p i
    = ((match (s.port (s.logical p)).txOwner[i] with
        | some q => BitVec.ofNat 32 (2 ^ 31 + 2 ^ 16 * q.val)
        | none => 0)
      ||| (match (s.port (s.logical p)).rxOwner[i] with
        | some q => BitVec.ofNat 32 (2 ^ 15 + q.val)
        | none => 0)) := by
  unfold State.slotWord
  simp only [place_eq, placeBit_eq]
  generalize (s.port (s.logical p)).txOwner[i] = tx
  generalize (s.port (s.logical p)).rxOwner[i] = rx
  have high : ∀ q : RowId, BitVec.ofNat 32 (2 ^ 31 + 2 ^ 16 * q.val) = BitVec.ofNat 32 (2 ^ 31) ||| BitVec.ofNat 32 (2 ^ 16 * q.val) :=
    fun q => (flag_or_field (by have := q.isLt; omega)).symm
  have low : ∀ q : RowId, BitVec.ofNat 32 (2 ^ 15 + q.val) = BitVec.ofNat 32 (2 ^ 15) ||| BitVec.ofNat 32 q.val :=
    fun q => (flag_or_field (by have := q.isLt; omega)).symm
  have tx_eq : BitVec.ofNat 32 (2 ^ 31 * tx.isSome.toNat) ||| BitVec.ofNat 32 (2 ^ 16 * (tx.map (·.val)).getD 0)
      = (match tx with | some q => BitVec.ofNat 32 (2 ^ 31 + 2 ^ 16 * q.val) | none => 0) := by
    cases tx with
    | none => rfl
    | some q => exact (high q).symm
  have rx_eq : BitVec.ofNat 32 (2 ^ 15 * rx.isSome.toNat) ||| BitVec.ofNat 32 (2 ^ 0 * (rx.map (·.val)).getD 0)
      = (match rx with | some q => BitVec.ofNat 32 (2 ^ 15 + q.val) | none => 0) := by
    cases rx with
    | none => rfl
    | some q => exact (congrArg _ (by rw [Nat.pow_zero, Nat.one_mul]; rfl)).trans (low q).symm
  rw [← tx_eq, ← rx_eq, BitVec.or_assoc, BitVec.or_assoc, BitVec.or_assoc]
  cases tx <;> cases rx <;> rfl

/-- A2 (R175). -/
theorem fabricWord_eq (s : State) : s.fabricWord
    = (BitVec.ofNat 32 s.fabric.code ||| BitVec.ofNat 32 (2 ^ 2 * s.notice.overflow.toNat)
      ||| (if s.settle.unit = .waitRing then 8 else 0) ||| BitVec.ofNat 32 (2 ^ 4 * s.prover.running.toNat)) := by
  have wait : placeBit 3 (s.settle.unit == .waitRing) = if s.settle.unit = .waitRing then BitVec.ofNat 32 (2 ^ 3) else 0 :=
    placeBit_if 3 beq_iff_eq
  rw [State.fabricWord, wait]
  simp only [place_eq, placeBit_eq, Nat.pow_zero, Nat.one_mul]
  rfl

/-- A19 (R113). -/
theorem proverWord_eq (u : Prover) : u.word
    = (BitVec.ofNat 32 u.running.toNat ||| BitVec.ofNat 32 (2 * u.locked.toNat)
      ||| BitVec.ofNat 32 (2 ^ 2 * u.outcome.code) ||| BitVec.ofNat 32 (2 ^ 8 * (u.port.toNat % 32))) := by
  simp only [Prover.word, place_eq, placeBit_eq, Nat.pow_zero, Nat.one_mul, Nat.pow_one]

/-- An ACTION word is answered with 0, and that does nothing (R159). -/
theorem action_reads_zero {w : WinWord} (h : w.isAction = true) (s : State) :
    w.isAnswered = true ∧ s.answerEffect w = s ∧ s.answer w = 0 := by
  cases w with
  | anchor a => cases a <;> first | exact ⟨rfl, rfl, rfl⟩ | cases h
  | port p w => cases w <;> first | exact ⟨rfl, rfl, rfl⟩ | cases h
  | row r i =>
    obtain rfl : i = 15 := by simpa [WinWord.isAction] using h
    exact ⟨rfl, rfl, rfl⟩
  | slot p i => cases h
  | meter r i => cases h
  | notice i => cases h
  | ring i => cases h
  | plain => cases h

/-- Settles O20: each word's value, and that the read changes nothing. -/
theorem answeredWordValues : Obligations.AnsweredWordValues := by
  intro r p i s hi
  refine ⟨⟨_, rfl, ?_, ?_, ?_, ?_, ?_⟩, ⟨_, _, rfl, rfl, ?_, ?_, ?_, ?_, ?_, ?_⟩, ⟨_, rfl, ?_⟩, ?_, ?_, ?_, ?_, ?_, ?_, ?_,
    ?_, ?_, ?_, ?_, fun off h h4 ha => ?_⟩
  · rw [← statusWord_eq]; exact reads_row hi r 10 rfl
  · rw [← endWord_eq]; exact reads_row hi r 11 rfl
  · exact reads_meter hi r (i := 1) (by decide)
  · exact reads_meter hi r (i := 2) (by decide)
  · exact reads_meter hi r (i := 3) (by decide)
  · rw [← linkWord_eq]; exact reads_port hi p .p1 rfl (by decide)
  · rw [← channelWord_eq]; exact reads_port hi p .p6 rfl (by decide)
  · exact reads_port hi p .p7 rfl (by decide)
  · exact reads_port hi p .p9 rfl (by decide)
  · exact reads_port hi p .p10 rfl (by decide)
  · rw [← durationWord_eq]; exact reads_port hi p .p11 rfl (by decide)
  · exact reads_value hi (locate_slot p i) (by unfold Config.windowBytes; omega) (by omega) rfl rfl (slotWord_eq s p i)
  · rw [← fabricWord_eq]; exact reads_anchor hi .a2 rfl (by decide)
  · exact reads_anchor hi .a4 rfl (by decide)
  · exact reads_anchor hi .a8 rfl (by decide)
  · exact reads_anchor hi .a9 rfl (by decide)
  · exact reads_anchor hi .a10 rfl (by decide)
  · exact reads_anchor hi .a11 rfl (by decide)
  · exact reads_anchor hi .a12 rfl (by decide)
  · rw [← proverWord_eq]; exact reads_anchor hi .a19 rfl (by decide)
  · exact reads_anchor hi .a20 rfl (by decide)
  · exact reads_anchor hi .a21 rfl (by decide)
  · exact reads_anchor hi .a22 rfl (by decide)
  · obtain ⟨answered, quiet, zero⟩ := action_reads_zero ha s
    exact reads_value hi rfl h h4 answered quiet zero

end Sys2Proof.Machine
end

section
/-! PROOFS. Reads and writes that go to memory: which words of the window refuse a write, what a forwarded word leaves
in memory, and the pieces of a read (R146, R148, R157 to R164, R171, R173). -/

namespace Sys2Proof.Machine

/-! ## Words that nothing captures -/

/-- A word whose write changes nothing in the part: forwarded, or refused (R159). -/
theorem write_free {s : State} (hi : s.busIdle) {off : Nat} (h : off < Config.windowBytes) {v : Word} {w : WinWord}
    (hw : locate off = w) (ha : w.isAction = false)
    (hc : ∀ t : State, t.captureStaging w v = t ∧ t.captureWord w v = t) :
    s.hostIssue (s.writeOne off v) = if s.writeOk w v then s.forwarding off v else s.answered .refused := by
  rw [write_captured hi h hw ha fun t q => ((hc _).2.trans (congrArg (State.withPath · q) (hc t).2.symm)), (hc s).1,
    (hc s).2]

/-- A word that its owner answers, and that is neither an action nor captured, takes no value (R159). -/
theorem answersOnly_refuses {w : WinWord} (h : w.answersOnly = true) (s : State) (v : Word) :
    w.isAction = false ∧ (s.captureStaging w v).writeOk w v = false := by
  cases w with
  | anchor a => cases a <;> first | exact ⟨rfl, rfl⟩ | cases h
  | port p w => cases w <;> first | exact ⟨rfl, rfl⟩ | cases h
  | slot p i => exact ⟨rfl, rfl⟩
  | meter r i => exact ⟨rfl, rfl⟩
  | row r i =>
    have status : i = 10 ∨ i = 11 := by
      simp only [WinWord.answersOnly, WinWord.isAnswered, WinWord.isAction, Bool.and_eq_true, Bool.or_eq_true,
        beq_iff_eq, Bool.not_eq_true'] at h
      rcases h.1.1 with ⟨(h10 | h11) | h15, no⟩
      · exact .inl h10
      · exact .inr h11
      · exact absurd h15 (by simpa using no)
    rcases status with rfl | rfl
    · exact ⟨rfl, rfl⟩
    · exact ⟨rfl, rfl⟩
  | notice i => cases h
  | ring i => cases h
  | plain => cases h

/-- A write of a value that names no action is refused (R34, R89, R98, R113). -/
theorem write_noAction {s : State} (hi : s.busIdle) {off : Nat} (h : off < Config.windowBytes) (h4 : off % 4 = 0) {v : Word}
    {w : WinWord} (hw : locate off = w) (ha : w.isAction = true) (no : s.writeOk w v = false) :
    exec (.hostTransactionArrival (s.writeOne off v)) s = .next (s.answered .refused) := by
  rw [exec_writeOne s v h h4, write_actionWord hi h hw ha, no, if_neg (by decide)]

theorem anchorWriteOk_other (s : State) {v : Word} (h1 : v ≠ 1) (h2 : v ≠ 2) :
    s.writeOk (.anchor .a1) v = false ∧ s.writeOk (.anchor .a16) v = false := by
  have no1 : (v == 1) = false := beq_false_of_ne h1
  have no2 : (v == 2) = false := beq_false_of_ne h2
  simp only [State.writeOk, State.anchorWriteOk, no1, no2, Bool.false_and, Bool.or_self, and_self]

theorem captureOk_other (s : State) (p : PortId) {v : Word} (h1 : v ≠ 1) (h2 : v ≠ 2) :
    s.writeOk (.port p .p8) v = false := by
  show s.captureOk p v = false
  rw [State.captureOk, if_neg h1]
  exact beq_false_of_ne h2

theorem commandOk_other (s : State) (p : PortId) {v : Word} (h1 : v ≠ 1) (h2 : v ≠ 2) (h3 : v ≠ 3) :
    s.writeOk (.port p .p5) v = false := by
  show s.commandOk p v = false
  rw [State.commandOk, commandOf, if_neg h1, if_neg h2, if_neg h3]
  rfl

/-- The words of a held settlement record, and of the slot in writing, are kept (R146, R148). -/
theorem writeOk_ring (s : State) (i : Fin 512) (v : Word) : s.writeOk (.ring i) v = false ↔
    (∃ k : BitVec 10, k.toNat % 512 = i.val
        ∧ ringDist k s.settle.release < ringDist s.settle.append s.settle.release)
      ∨ ∃ w, s.settle.writing = some w ∧ w.index.toNat % 512 = i.val := by
  have writing : s.settle.slotInWriting i = true ↔ ∃ w, s.settle.writing = some w ∧ w.index.toNat % 512 = i.val := by
    unfold Settlement.slotInWriting
    split <;> simp_all
  rw [← ringDist_lt, ← writing, State.writeOk, Bool.not_eq_false', Bool.or_eq_true, Settlement.heldSlot,
    decide_eq_true_iff]
  rfl

/-- The unconsumed entries of the Notice Ring and those in writing are kept (R171, R173). -/
theorem writeOk_notice (s : State) (i : Fin 512) (v : Word) : s.writeOk (.notice i) v = false ↔
    ∃ k : BitVec 10, k.toNat % 512 = i.val ∧ ringDist k s.notice.consume
      < ringDist s.notice.produce s.notice.consume + s.notice.inWriting.length := by
  rw [← ringDist_lt]
  simp [State.writeOk, NoticeWriter.protects]

/-- The host's write of a word that is protected or free (R146, R148, R173). -/
theorem write_protected {s : State} (hi : s.busIdle) {off : Nat} (h : off < Config.windowBytes) (h4 : off % 4 = 0) {v : Word}
    {w : WinWord} (hw : locate off = w) (ha : w.isAction = false)
    (hc : ∀ t : State, t.captureStaging w v = t ∧ t.captureWord w v = t) {c : Prop} (kept : s.writeOk w v = false ↔ c) :
    (c → exec (.hostTransactionArrival (s.writeOne off v)) s = .next (s.answered .refused))
      ∧ (¬c → exec (.hostTransactionArrival (s.writeOne off v)) s = .next (s.forwarding off v)) := by
  rw [exec_writeOne s v h h4, write_free hi h hw ha hc]
  refine ⟨fun hk => ?_, fun hf => ?_⟩
  · rw [kept.mpr hk, if_neg (by decide)]
  · rw [if_pos (by simpa using mt kept.mp hf)]

/-- Settles O21, by the kind of word. -/
theorem answeredWordsRefuseWrites : Obligations.AnsweredWordsRefuseWrites := by
  intro s hi
  refine ⟨fun off v h h4 only => ?answered, fun off v p bad => ?values, fun i j v => ⟨_, rfl, ?ring⟩,
    fun i j v => ⟨_, rfl, ?notice⟩⟩
  case answered =>
    obtain ⟨noAction, _⟩ := answersOnly_refuses only s v
    have no := (answersOnly_refuses only (s.granted (s.writeOne off v)) v).2
    rw [exec_writeOne s v h h4, write_otherWord hi h rfl noAction, no, if_neg (by decide)]
  case values =>
    have aligned : ∀ w, portOffset p w % 4 = 0 := fun w => by unfold portOffset portBase; omega
    rcases bad with ⟨rfl | rfl | rfl, h1, h2⟩ | ⟨rfl, h1, h2, h3⟩
    · exact write_noAction hi (anchorOffset_lt .a1) rfl (locate_anchor .a1) rfl (anchorWriteOk_other s h1 h2).1
    · exact write_noAction hi (anchorOffset_lt .a16) rfl (locate_anchor .a16) rfl (anchorWriteOk_other s h1 h2).2
    · exact write_noAction hi (portOffset_lt p .p8) (aligned .p8) (locate_port p .p8) rfl (captureOk_other s p h1 h2)
    · exact write_noAction hi (portOffset_lt p .p5) (aligned .p5) (locate_port p .p5) rfl (commandOk_other s p h1 h2 h3)
  case ring =>
    exact write_protected hi (by unfold Config.windowBytes; omega) (by omega) (locate_ring i j) rfl (fun _ => ⟨rfl, rfl⟩)
      (writeOk_ring s i v)
  case notice =>
    exact write_protected hi (by unfold Config.windowBytes; omega) (by omega) (locate_notice i j) rfl (fun _ => ⟨rfl, rfl⟩)
      (writeOk_notice s i v)

/-! ## The parts of the work at M-side (R158, R162, R164) -/

theorem exec_forwardComplete (s : State) : exec .forwardComplete s = .next s.progress := rfl

/-- `s` with another memory. -/
def State.withMem (s : State) (m : Memory) : State := { s with mem := m }

/-- A run of a write completes. -/
theorem progress_writing {s : State} {t : Transaction} {run : List (Nat × Word)} {runs : List (List (Nat × Word))}
    {acts : List (WinWord × Word)} (hm : s.path.mside = .pside)
    (hc : s.path.current = some ⟨t, .writing (run :: runs) acts⟩) :
    s.progress = if runs = [] then ((s.withMem (s.mem.writeRun run)).takeActions acts).respond .done
      else (s.withMem (s.mem.writeRun run)).setPhase t (.writing runs acts) := by
  rw [State.progress, hm, hc]
  rfl

/-- A run of a read completes. -/
theorem progress_run {s : State} {t : Transaction} {got : List Word} {a n : Nat} {rest : List ReadPiece}
    (hm : s.path.mside = .pside) (hc : s.path.current = some ⟨t, .reading got (.run a n :: rest)⟩) :
    s.progress = if rest = [] then s.respond (.data (got ++ s.mem.readWords a n))
      else s.setPhase t (.reading (got ++ s.mem.readWords a n) rest) := by
  rw [State.progress, hm, hc]
  rfl

/-- An answered word is answered. -/
theorem progress_answer {s : State} {t : Transaction} {got : List Word} {w : WinWord} {rest : List ReadPiece}
    (hm : s.path.mside = .pside) (hc : s.path.current = some ⟨t, .reading got (.answer w :: rest)⟩) :
    s.progress = if rest = [] then (s.answerEffect w).respond (.data (got ++ [s.answer w]))
      else (s.answerEffect w).setPhase t (.reading (got ++ [s.answer w]) rest) := by
  rw [State.progress, hm, hc]
  rfl

/-- A transaction at a phase, on a bus that was idle, answered: M-side is free again. -/
theorem respond_phase {s : State} (hi : s.busIdle) (t : Transaction) (ph : PsidePhase) (m : Memory) (a : Response) :
    (((s.granted t).setPhase t ph).withMem m).respond a = (s.withMem m).answered a := by
  obtain ⟨h1, h2, h3⟩ := hi
  simp only [State.withMem, State.respond, State.answered, State.granted, State.setPhase, Path.grantOutbound, h3, if_true, ← h1, ← h2]

/-! ## Forwarded words (R157, R159, R162) -/

/-- A run of one word is written, and the host is answered. -/
theorem forwardComplete_word {s : State} (hi : s.busIdle) (t : Transaction) (a : Nat) (v : Word) :
    exec .forwardComplete ((s.granted t).setPhase t (.writing [[(a, v)]] []))
      = .next ((s.withMem (s.mem.writeWord a v)).answered .done) := by
  have work := progress_writing (s := (s.granted t).setPhase t (.writing [[(a, v)]] [])) (t := t) (run := [(a, v)])
    (runs := []) (acts := []) rfl rfl
  rw [exec_forwardComplete, work, if_pos rfl]
  exact congrArg _ (respond_phase hi t (.writing [[(a, v)]] []) (s.mem.writeWord a v) .done)

theorem forwardComplete_forwarding {s : State} (hi : s.busIdle) (off : Nat) (v : Word) :
    exec .forwardComplete (s.forwarding off v)
      = .next ((s.withMem (s.mem.writeWord (s.busAddr off).toNat v)).answered .done) :=
  forwardComplete_word hi (s.writeOne off v) (s.busAddr off).toNat v

/-- A byte address of the window is the base and an offset. -/
theorem inWindow_offset {s : State} {a : Nat} (h : s.inWindow a = true) :
    ∃ off, off < Config.windowBytes ∧ a = s.base + off := by
  rw [State.inWindow, decide_eq_true_iff] at h
  exact ⟨a - s.base, by omega, by omega⟩

/-- A word written at an aligned address reads back, and every other byte is as it was. -/
theorem writeWord_reads {m : Memory} (hm : Memory.wf m) {a : Nat} (ha : a + 4 ≤ 2 ^ 32) (v : Word) :
    (m.writeWord a v).readWord a = v
      ∧ ∀ b, b < a ∨ a + 4 ≤ b → (m.writeWord a v).readByte b = m.readByte b :=
  ⟨readWord_writeWord hm ha v, fun _ hb => readByte_writeWord_outside hm ha v hb⟩

/-- A one-word write at an aligned address is a transaction that the bus can carry (R157). -/
theorem plainWrite_wf {addr : Word} (v : Word) (h4 : addr.toNat % 4 = 0) : (Transaction.write addr [⟨true, v⟩]).wf = true := by
  have := addr.isLt
  rw [Transaction.wf, decide_eq_true_iff]
  simp only [Transaction.length, Transaction.addr, List.length_singleton]
  omega

theorem exec_plainWrite {addr v : Word} (h : (Transaction.write addr [⟨true, v⟩]).wf = true) (s : State) :
    exec (.plainWrite addr v) s = .next (s.hostIssue (.write addr [⟨true, v⟩])) := if_pos h

/-- A plain write outside the window, or of a word that no chapter names, is forwarded (R157, R159). -/
theorem hostIssue_plain {s : State} (hi : s.busIdle) {addr v : Word}
    (free : s.inWindow addr.toNat = false ∨ s.wordAt addr.toNat = .plain) :
    s.hostIssue (.write addr [⟨true, v⟩])
      = (s.granted (.write addr [⟨true, v⟩])).setPhase (.write addr [⟨true, v⟩]) (.writing [[(addr.toNat, v)]] []) := by
  by_cases inside : s.inWindow addr.toNat = true
  case neg =>
    have outside : s.outsideWindow (.write addr [⟨true, v⟩]) = true := by
      simp [State.outsideWindow, spanOf, spanFrom, Transaction.addr, Transaction.length, inside]
    exact (hostIssue_idle hi _).trans (judge_outside (g := s.granted _) rfl outside)
  case pos =>
    obtain ⟨off, hoff, ha⟩ := inWindow_offset inside
    have haddr : addr = s.busAddr off := by
      apply BitVec.eq_of_toNat_eq
      rw [busAddr_toNat s hoff, ha]
    have plain : locate off = .plain := by
      rw [← wordAt_busAddr s hoff, ← haddr]
      exact free.resolve_left (by rw [inside]; decide)
    subst haddr
    exact (write_free hi hoff plain rfl fun _ => ⟨rfl, rfl⟩).trans (if_pos rfl)

/-- Settles O18: the run is written when it completes, and nothing else changes. -/
theorem forwardedWordsReachMemory : Obligations.ForwardedWordsReachMemory := by
  intro s hi hm
  refine ⟨fun off v h h4 => ?window, fun addr v h4 free => ?plain⟩
  case window =>
    have top := base_le s
    have reads := writeWord_reads hm (a := s.base + off) (by simp only [Config.windowBytes] at h; omega) v
    refine ⟨_, forwardComplete_forwarding hi off v, rfl, ?_⟩
    rw [busAddr_toNat s h]
    exact reads
  case plain =>
    have top := addr.isLt
    have issued := exec_plainWrite (plainWrite_wf v h4) s
    rw [hostIssue_plain hi free] at issued
    exact ⟨_, _, issued, rfl, forwardComplete_word hi _ _ v, rfl, writeWord_reads hm (by omega) v⟩

/-! ## Reads inside the window (R164) -/

/-- The first address of a transaction's span. -/
theorem addr_mem_spanOf {t : Transaction} (h : t.wf = true) : t.addr.toNat ∈ spanOf t := by
  rw [Transaction.wf, decide_eq_true_iff] at h
  exact (mem_spanFrom _ _ _).mpr ⟨0, by omega, by omega⟩

/-- A span that meets the window is not one outside it. -/
theorem outsideWindow_false {s : State} {t : Transaction} {a : Nat} (ha : a ∈ spanOf t) (h : s.inWindow a = true) :
    s.outsideWindow t = false := by
  rw [State.outsideWindow, ← Bool.not_eq_true, List.all_eq_true]
  intro all
  exact absurd (all a ha) (by rw [h]; decide)

theorem outsideWindow_inside {s : State} {t : Transaction} (wf : t.wf = true) (h : s.insideWindow t = true) :
    s.outsideWindow t = false :=
  outsideWindow_false (addr_mem_spanOf wf) (List.all_eq_true.mp h _ (addr_mem_spanOf wf))

/-- The judgement of a read inside the window (R157, R164). -/
theorem hostIssue_read {s : State} (hi : s.busIdle) {a : Word} {n : Nat} (wf : (Transaction.read a n).wf = true)
    (inside : s.insideWindow (.read a n) = true) (hc : crosses (.read a n) = false) :
    s.hostIssue (.read a n)
      = (s.granted (.read a n)).setPhase (.read a n) (.reading [] (s.readPieces (spanFrom a.toNat n))) := by
  have meets : ¬((spanOf (.read a n)).all fun b => !(s.granted (.read a n)).inWindow b) = true := by
    have := outsideWindow_inside wf inside
    rw [State.outsideWindow] at this
    exact fun h => absurd (this.symm.trans h) (by decide)
  rw [hostIssue_idle hi]
  show State.judgeRead _ _ = _
  rw [State.judgeRead, if_neg meets, hc, if_neg (by decide), readPieces_congr (s := s) (t := s.granted (.read a n)) rfl]
  rfl

/-- A word that is not answered is read from memory. -/
theorem reads_memory {s : State} (hi : s.busIdle) {off : Nat} (h : off < Config.windowBytes) (h4 : off % 4 = 0)
    (no : (locate off).isAnswered = false) : s.reads off (s.mem.readWord (s.base + off)) := by
  refine ⟨_, exec_arrival (readOne_wf s h h4) s, ?_⟩
  have pieces : s.hostIssue (s.readOne off)
      = (s.granted (s.readOne off)).setPhase (s.readOne off) (.reading [] [.run (s.busAddr off).toNat 1]) := by
    rw [hostIssue_idle hi, judge_readOne s (s.granted (s.readOne off)) h rfl, no, if_neg (by decide)]
  have work := progress_run (s := (s.granted (s.readOne off)).setPhase (s.readOne off)
    (.reading [] [.run (s.busAddr off).toNat 1])) (got := []) (a := (s.busAddr off).toNat) (n := 1) (rest := []) rfl rfl
  rw [pieces, exec_forwardComplete, work, if_pos rfl, ← busAddr_toNat s h]
  exact congrArg _ (respond_phase hi (s.readOne off) _ s.mem _)

theorem isAnswered_anchor (a : Anchor) :
    (WinWord.anchor a).isAnswered = decide (a ≠ .a5 ∧ a ≠ .a6 ∧ a ≠ .a17 ∧ a ≠ .a18) := by
  cases a <;> rfl

theorem isAnswered_port (p : PortId) (x : PortWord) : (WinWord.port p x).isAnswered = decide (x ≠ .p0) := by
  cases x <;> rfl

theorem isAnswered_row (r : RowId) (i : Fin 16) :
    (WinWord.row r i).isAnswered = true ↔ i.val = 10 ∨ i.val = 11 ∨ i.val = 15 := by
  simp only [WinWord.isAnswered, Bool.or_eq_true, beq_iff_eq, or_assoc, Fin.ext_iff]
  rfl

/-- The words that an owner answers (R159, R160). -/
theorem isAnswered_iff (w : WinWord) : w.isAnswered = true ↔
    ((∃ x, w = .anchor x ∧ x ≠ .a5 ∧ x ≠ .a6 ∧ x ≠ .a17 ∧ x ≠ .a18) ∨ (∃ p x, w = .port p x ∧ x ≠ .p0)
      ∨ (∃ p i, w = .slot p i) ∨ (∃ r i, w = .row r i ∧ (i.val = 10 ∨ i.val = 11 ∨ i.val = 15))
      ∨ ∃ r i, w = .meter r i) := by
  constructor
  · intro answered
    cases w with
    | anchor a => exact .inl ⟨a, rfl, of_decide_eq_true ((isAnswered_anchor a).symm.trans answered)⟩
    | port p x => exact .inr (.inl ⟨p, x, rfl, of_decide_eq_true ((isAnswered_port p x).symm.trans answered)⟩)
    | slot p i => exact .inr (.inr (.inl ⟨p, i, rfl⟩))
    | row r i => exact .inr (.inr (.inr (.inl ⟨r, i, rfl, (isAnswered_row r i).mp answered⟩)))
    | meter r i => exact .inr (.inr (.inr (.inr ⟨r, i, rfl⟩)))
    | notice i | ring i | plain => cases answered
  · rintro (⟨a, rfl, h⟩ | ⟨p, x, rfl, h⟩ | ⟨p, i, rfl⟩ | ⟨r, i, rfl, h⟩ | ⟨r, i, rfl⟩)
    · exact (isAnswered_anchor a).trans (decide_eq_true h)
    · exact (isAnswered_port p x).trans (decide_eq_true h)
    · rfl
    · exact (isAnswered_row r i).mpr h
    · rfl

/-- Settles O15: a read inside the window is judged into its pieces, and one word that is not answered comes from memory. -/
theorem readsInsideWindow : Obligations.ReadsInsideWindow := by
  intro s hi
  refine ⟨fun a n wf inside hc => ?_, fun off h h4 no => reads_memory hi h h4 no, isAnswered_iff⟩
  obtain ⟨pieces, hp, words, full, apart, _⟩ := readPieces_span s n a.toNat
  refine ⟨pieces, ?_, words, full, apart⟩
  rw [exec_arrival wf, hostIssue_read hi wf inside hc, hp]
  rfl

end Sys2Proof.Machine
end

section
/-! PROOFS. How the span of a transaction decides its treatment (R157), the write burst inside the window judged whole
(R161, R162), and the burst that loads the time (R33). -/

namespace Sys2Proof.Machine

/-- A judgement that answers at once. -/
theorem granted_respond {s : State} (hi : s.busIdle) (t : Transaction) (a : Response) :
    (s.granted t).respond a = s.answered a := respond_granted hi t a rfl

/-- A write burst judges its words as its state stands, whatever the path. -/
theorem granted_outside (s : State) (t u : Transaction) :
    ((spanOf u).all fun b => !(s.granted t).inWindow b) = s.outsideWindow u := rfl

/-- A span that crosses a 64-byte boundary and touches the window is refused (R157). -/
theorem hostIssue_crossing {s : State} (hi : s.busIdle) {t : Transaction} (hc : crosses t = true)
    (meets : ∃ a ∈ touched t, s.inWindow a = true) : s.hostIssue t = s.answered .refused := by
  obtain ⟨a, ha, inside⟩ := meets
  rw [hostIssue_idle hi, ← granted_respond hi t]
  cases t with
  | read addr n =>
    have out : ¬s.outsideWindow (.read addr n) = true := by rw [outsideWindow_false ha inside]; decide
    show State.judgeRead _ _ = _
    rw [State.judgeRead, granted_outside, if_neg out, if_pos hc]
  | write addr ws =>
    obtain ⟨x, hx, rfl⟩ := List.mem_map.mp ha
    have out : ¬s.outsideWindow (.write addr ws) = true := by
      rw [outsideWindow_false (mem_writtenFrom ws addr.toNat x hx) inside]
      decide
    have written : ((writtenFrom addr.toNat ws).any fun x => s.inWindow x.1) = true := List.any_eq_true.mpr ⟨x, hx, inside⟩
    show State.judgeWrite _ _ _ = _
    rw [State.judgeWrite, granted_outside, if_neg out, if_pos hc]
    exact if_pos written

/-- A write inside the window that writes nothing has no effect (R157). -/
theorem hostIssue_nothing {s : State} (hi : s.busIdle) {t : Transaction} (wf : t.wf = true)
    (inside : s.insideWindow t = true) (none : touched t = []) : s.hostIssue t = s.answered .done := by
  have out : ¬s.outsideWindow t = true := by rw [outsideWindow_inside wf inside]; decide
  rw [hostIssue_idle hi, ← granted_respond hi t]
  cases t with
  | read addr n =>
    have some := addr_mem_spanOf wf
    rw [show spanOf (.read addr n) = [] from none] at some
    cases some
  | write addr ws =>
    have empty : writtenFrom addr.toNat ws = [] := List.map_eq_nil_iff.mp none
    show State.judgeWrite _ _ _ = _
    rw [State.judgeWrite, granted_outside, if_neg out, show (Transaction.write addr ws).addr = addr from rfl, empty]
    split
    · exact (if_neg (by simp)).trans (if_pos inside)
    · rfl

/-! ## A burst inside the window (R161, R162) -/

/-- The words of a burst by name. -/
def State.namedWords (s : State) (words : List (Nat × Word)) : List (WinWord × Word) :=
  words.map fun x => (s.wordAt x.1, x.2)

/-- R161, R33: every word of a burst is accepted against the state with its staging words in place, and A1 and A7 are
not both there. -/
def State.accepts (s : State) (named : List (WinWord × Word)) : Prop :=
  (∀ x ∈ named, (named.foldl (fun g x => g.captureStaging x.1 x.2) s).writeOk x.1 x.2 = true)
    ∧ ¬((∃ v, (WinWord.anchor .a1, v) ∈ named) ∧ ∃ v, (WinWord.anchor .a7, v) ∈ named)

/-- The bus's judgement of a burst is that of its named words. -/
theorem burstOk_named (s : State) (t : Transaction) (words : List (Nat × Word)) :
    (s.granted t).burstOk (words.map fun x => (s.wordAt x.1, x.2)) = true ↔ s.accepts (s.namedWords words) :=
  burstOk_iff s t (s.namedWords words)

/-- A refused burst changes nothing. -/
theorem burst_refused {s : State} (hi : s.busIdle) {a : Word} {ws : List WriteWord}
    (wf : (Transaction.write a ws).wf = true) (inside : s.insideWindow (.write a ws) = true)
    (hc : crosses (.write a ws) = false) (writes : touched (.write a ws) ≠ [])
    (no : ¬s.accepts (s.namedWords (writtenFrom a.toNat ws))) :
    s.hostIssue (.write a ws) = s.answered .refused := by
  rw [hostIssue_idle hi, judge_burst s wf inside hc writes,
    if_neg (mt (burstOk_named s (.write a ws) _).mp no), granted_respond hi]

/-- An accepted burst: the captures, and then its runs, or its actions at once where nothing is forwarded. -/
theorem burst_accepted {s : State} (hi : s.busIdle) {a : Word} {ws : List WriteWord}
    (wf : (Transaction.write a ws).wf = true) (inside : s.insideWindow (.write a ws) = true)
    (hc : crosses (.write a ws) = false) (writes : touched (.write a ws) ≠ [])
    (ok : s.accepts (s.namedWords (writtenFrom a.toNat ws))) :
    s.hostIssue (.write a ws) =
      if groupRuns ((writtenFrom a.toNat ws).filter fun x => !(s.wordAt x.1).isAction) = [] then
        (((s.namedWords (writtenFrom a.toNat ws)).foldl (fun g x => g.captureWord x.1 x.2)
          (s.granted (.write a ws))).takeActions
            ((s.namedWords (writtenFrom a.toNat ws)).filter fun x => x.1.isAction)).respond .done
      else ((s.namedWords (writtenFrom a.toNat ws)).foldl (fun g x => g.captureWord x.1 x.2)
          (s.granted (.write a ws))).setPhase (.write a ws)
        (.writing (groupRuns ((writtenFrom a.toNat ws).filter fun x => !(s.wordAt x.1).isAction))
          ((s.namedWords (writtenFrom a.toNat ws)).filter fun x => x.1.isAction)) := by
  rw [hostIssue_idle hi, judge_burst s wf inside hc writes,
    if_pos ((burstOk_named s (.write a ws) _).mpr ok)]
  rfl

/-- What is forwarded of a burst, by the names of its words. -/
theorem mem_namedWords {s : State} {words : List (Nat × Word)} {x : Nat × Word} (h : x ∈ words) :
    (s.wordAt x.1, x.2) ∈ s.namedWords words := List.mem_map_of_mem (f := fun x => (s.wordAt x.1, x.2)) h

/-- A burst of actions alone forwards nothing. -/
theorem runs_none {s : State} {words : List (Nat × Word)} (h : ∀ x ∈ s.namedWords words, x.1.isAction = true) :
    groupRuns (words.filter fun x => !(s.wordAt x.1).isAction) = []
      ∧ ((s.namedWords words).filter fun x => x.1.isAction) = s.namedWords words := by
  refine ⟨?_, List.filter_eq_self.mpr h⟩
  rw [List.filter_eq_nil_iff.mpr fun x hx => by rw [h _ (mem_namedWords hx)]; decide]
  rfl

/-- A burst with another word than actions forwards a run. -/
theorem runs_some {s : State} {words : List (Nat × Word)} (h : ∃ x ∈ s.namedWords words, x.1.isAction = false) :
    groupRuns (words.filter fun x => !(s.wordAt x.1).isAction) ≠ [] := by
  obtain ⟨x, hx, no⟩ := h
  obtain ⟨y, hy, rfl⟩ := List.mem_map.mp hx
  exact groupRuns_ne_nil (List.ne_nil_of_mem (List.mem_filter.mpr ⟨hy, by rw [no]; rfl⟩))

/-! ## The burst that loads the time (R33) -/

/-- The burst of A5, A6 and A7. -/
def State.timeBurst (s : State) (low high v : Word) : Transaction :=
  .write (s.busAddr 0x14) [⟨true, low⟩, ⟨true, high⟩, ⟨true, v⟩]

theorem timeBurst_addr (s : State) : (s.busAddr 0x14).toNat = s.base + 0x14 := busAddr_toNat s (by decide)

/-- It lies inside the window and crosses no boundary. -/
theorem timeBurst_inside (s : State) (low high v : Word) :
    s.insideWindow (s.timeBurst low high v) = true ∧ crosses (s.timeBurst low high v) = false := by
  have block : s.base % 64 = 0 := by unfold State.base; omega
  constructor
  · rw [State.insideWindow, List.all_eq_true]
    intro x hx
    obtain ⟨i, hlt, rfl⟩ := (mem_spanFrom _ _ _).mp hx
    have h3 : i < 3 := hlt
    show s.inWindow ((s.busAddr 0x14).toNat + 4 * i) = true
    rw [timeBurst_addr, State.inWindow, decide_eq_true_iff]
    simp only [Config.windowBytes]
    omega
  · show decide ((s.busAddr 0x14).toNat / 64 ≠ ((s.busAddr 0x14).toNat + 4 * (3 - 1)) / 64) = false
    rw [timeBurst_addr, decide_eq_false_iff_not]
    omega

/-- Its words by name. -/
theorem timeBurst_words (s : State) :
    s.wordAt (s.busAddr 0x14).toNat = .anchor .a5 ∧ s.wordAt ((s.busAddr 0x14).toNat + 4) = .anchor .a6
      ∧ s.wordAt ((s.busAddr 0x14).toNat + 4 + 4) = .anchor .a7 := by
  rw [timeBurst_addr]
  refine ⟨?_, ?_, ?_⟩
  · rw [State.wordAt, Nat.add_sub_cancel_left]
    rfl
  · rw [State.wordAt, Nat.add_assoc, Nat.add_sub_cancel_left]
    rfl
  · rw [State.wordAt, Nat.add_assoc, Nat.add_assoc, Nat.add_sub_cancel_left]
    rfl

theorem timeBurst_named (s : State) (low high v : Word) :
    s.namedWords [((s.busAddr 0x14).toNat, low), ((s.busAddr 0x14).toNat + 4, high), ((s.busAddr 0x14).toNat + 4 + 4, v)]
      = [(.anchor .a5, low), (.anchor .a6, high), (.anchor .a7, v)] := by
  obtain ⟨at5, at6, at7⟩ := timeBurst_words s
  simp only [State.namedWords, List.map_cons, List.map_nil, at5, at6, at7]

/-- The staged words of the burst decide on A7. -/
theorem timeBurst_accepts (s : State) (low high v : Word) :
    s.accepts [(.anchor .a5, low), (.anchor .a6, high), (.anchor .a7, v)]
      ↔ s.fabric = .halted ∧ high.extractLsb' 8 24 = 0 := by
  unfold State.accepts
  simp only [List.foldl_cons, List.foldl_nil, State.captureStaging, List.forall_mem_cons, State.writeOk,
    State.anchorWriteOk, State.timeStaged, Bool.and_eq_true, beq_iff_eq, true_and]
  simp

/-- The burst in progress: the staging words captured, their run at M-side, A7 to follow. -/
def State.timeBurstPhase (s : State) (low high v : Word) : PsidePhase :=
  .writing [[((s.busAddr 0x14).toNat, low), ((s.busAddr 0x14).toNat + 4, high)]] [(.anchor .a7, v)]

/-- `s` with a staged time. -/
def State.staged (s : State) (low high : Word) : State := { s with setTimeLow := low, setTimeHigh := high }

/-- Two words that follow each other are one run. -/
theorem groupRuns_pair (a : Nat) (x y : Word) : groupRuns [(a, x), (a + 4, y)] = [[(a, x), (a + 4, y)]] := by
  simp [groupRuns]

/-- The one run of the burst: A7 is no part of it. -/
theorem timeBurst_runs {s : State} {a : Nat} (words : s.wordAt a = .anchor .a5 ∧ s.wordAt (a + 4) = .anchor .a6
    ∧ s.wordAt (a + 4 + 4) = .anchor .a7) (low high v : Word) :
    groupRuns ([(a, low), (a + 4, high), (a + 4 + 4, v)].filter fun x => !(s.wordAt x.1).isAction)
      = [[(a, low), (a + 4, high)]] := by
  obtain ⟨at5, at6, at7⟩ := words
  have kept : ([(a, low), (a + 4, high), (a + 4 + 4, v)].filter fun x => !(s.wordAt x.1).isAction)
      = [(a, low), (a + 4, high)] := by
    rw [List.filter_cons_of_pos (by rw [at5]; rfl), List.filter_cons_of_pos (by rw [at6]; rfl),
      List.filter_cons_of_neg (by rw [at7]; decide), List.filter_nil]
  rw [kept, groupRuns_pair]

/-- The burst is judged: its staging words are captured, and its one run is forwarded. -/
theorem timeBurst_judged {s : State} (hi : s.busIdle) {low high v : Word}
    (wf : (s.timeBurst low high v).wf = true) (ok : s.fabric = .halted ∧ high.extractLsb' 8 24 = 0) :
    s.hostIssue (s.timeBurst low high v)
      = ((s.staged low high).granted (s.timeBurst low high v)).setPhase (s.timeBurst low high v)
          (s.timeBurstPhase low high v) := by
  have named := timeBurst_named s low high v
  obtain ⟨inside, hc⟩ := timeBurst_inside s low high v
  rw [← timeBurst_accepts s low high v, ← named] at ok
  have judged := burst_accepted hi wf inside hc (by simp [touched, writtenFrom]) ok
  rw [show writtenFrom (s.busAddr 0x14).toNat [⟨true, low⟩, ⟨true, high⟩, ⟨true, v⟩]
      = [((s.busAddr 0x14).toNat, low), ((s.busAddr 0x14).toNat + 4, high), ((s.busAddr 0x14).toNat + 4 + 4, v)] from rfl,
    timeBurst_runs (timeBurst_words s), named, if_neg (List.cons_ne_nil _ _)] at judged
  exact judged

/-- Its run completes: the two words are in memory, and the new time is loaded. -/
theorem timeBurst_completes {s : State} (hi : s.busIdle) {low high v : Word} (halted : s.fabric = .halted) :
    (((s.staged low high).granted (s.timeBurst low high v)).setPhase (s.timeBurst low high v)
        (s.timeBurstPhase low high v)).progress
      = ({ s with
          now := high.extractLsb' 0 8 ++ low, setTimeLow := low, setTimeHigh := high
          mem := s.mem.writeWords (s.base + 0x14) [low, high] } : State).answered .done := by
  have work := progress_writing (s := ((s.staged low high).granted (s.timeBurst low high v)).setPhase
    (s.timeBurst low high v) (s.timeBurstPhase low high v)) (t := s.timeBurst low high v)
    (run := [((s.busAddr 0x14).toNat, low), ((s.busAddr 0x14).toNat + 4, high)]) (runs := [])
    (acts := [(.anchor .a7, v)]) rfl rfl
  have loads : ∀ t : State, t.fabric = .halted → t.takeActions [(.anchor .a7, v)] = t.takeSetTime :=
    fun t h => if_pos h
  have stopped : ∀ m, ((((s.staged low high).granted (s.timeBurst low high v)).setPhase
    (s.timeBurst low high v) (s.timeBurstPhase low high v)).withMem m).fabric = .halted := fun _ => halted
  rw [work, if_pos rfl, loads _ (stopped _), ← timeBurst_addr]
  exact respond_phase (s := (s.staged low high).takeSetTime) hi
    (s.timeBurst low high v) (s.timeBurstPhase low high v) (s.mem.writeWords (s.busAddr 0x14).toNat [low, high]) .done

/-- Settles O14, by where the span lies; the burst of A5, A6 and A7 is one inside the window. -/
theorem spanDecidesTreatment : Obligations.SpanDecidesTreatment := by
  intro t s hi wf
  rw [exec_arrival wf]
  refine ⟨fun outside => ?outside, fun ⟨hc, meets⟩ => ?crossing, fun ⟨inside, empty⟩ => ?nothing,
    fun a ws ht inside hc writes => ?burst, fun low high v ht => ?time⟩
  case outside =>
    rw [hostIssue_idle hi, judge_outside (g := s.granted t) (s := s) rfl outside]
    rfl
  case crossing => rw [hostIssue_crossing hi hc meets]
  case nothing => rw [hostIssue_nothing hi wf inside empty]
  case burst =>
    subst ht
    refine ⟨_, s.namedWords (writtenFrom a.toNat ws), _, _, rfl, rfl, rfl, rfl, fun no => ?refused, fun ok =>
      ⟨fun acts => ?actions, fun other => ?runs⟩⟩
    case refused =>
      rw [burst_refused hi wf inside hc writes]
      rintro ⟨all, apart⟩
      rcases no with ⟨x, hx, bad⟩ | both
      · exact absurd ((all x hx).symm.trans bad) (by decide)
      · exact apart both
    case actions => rw [burst_accepted hi wf inside hc writes ok, if_pos (runs_none acts).1, (runs_none acts).2]
    case runs => rw [burst_accepted hi wf inside hc writes ok, if_neg (runs_some other)]
  case time =>
    obtain rfl : t = s.timeBurst low high v := ht
    refine ⟨fun ok => ?loads, fun no => ?refused⟩
    case loads =>
      have completes := timeBurst_completes hi ok.1 (low := low) (high := high) (v := v)
      exact ⟨_, _, congrArg _ (timeBurst_judged hi wf ok), rfl, rfl,
        (exec_forwardComplete _).trans (congrArg Host.Outcome.next completes), rfl, rfl⟩
    case refused =>
      obtain ⟨inside, hc⟩ := timeBurst_inside s low high v
      have named := timeBurst_named s low high v
      refine congrArg _ (burst_refused hi wf inside hc (by simp [touched, writtenFrom]) ?_)
      rw [← timeBurst_accepts s low high v, ← named] at no
      exact no

end Sys2Proof.Machine
end

section
/-! PROOFS. The actions at their effect event (R162, R163), and the work at M-side that leads to it (R158, R164): ATTACH
and DETACH (R114, R115, R121), MARK, SELECT, AMEND, CANCEL and ARM, taken against the state of that event. -/

namespace Sys2Proof.Machine

/-! ## ATTACH and DETACH (R114, R115, R121) -/

/-- R115 step 1: the test begins. -/
def State.testBegun (s : State) : State := { s with prover := s.prover.begin, proverDue := false }

/-- ATTACH on the staged port. -/
theorem takeAttach_staged {s : State} {p : PortId} (h : s.prover.port = BitVec.ofNat 32 p.val) :
    s.takeAttach = s.testBegun.recompose p := by
  have staged : portOfNat s.prover.port.toNat = some p := by rw [h]; exact portOfNat_val p
  rw [State.takeAttach, staged]
  rfl

/-- All that ATTACH does where its conditions hold. -/
structure Attached (p : PortId) (s t : State) : Prop where
  prover : t.prover = ⟨true, s.prover.port, s.prover.duration, .none, false, 0, 0, 0, 0, BitVec.allOnes 23,
    BitVec.allOnes 23⟩
  claimed : t.claimed = some p
  port : t.port p = { s.port p with carrying := false }
  other : ∀ q, q ≠ p → t.port q = s.port q
  mem : t.mem = s.mem
  row : ∀ r, RowKept (s.row r) (t.row r)

theorem attached_takeAttach {s : State} {p : PortId} (h : s.attachAllowed p) : Attached p s s.takeAttach := by
  have staged := h.2.1
  have quiet : Quiet s.testBegun s.takeAttach := by
    rw [takeAttach_staged staged]
    exact quiet_recompose _ _
  have claims : s.testBegun.claimed = some p := (claimed_iff _ _).mpr ⟨rfl, staged⟩
  have stops : s.testBegun.mayCarry p = false := by
    rw [State.mayCarry, claims, bne_self_eq_false, Bool.and_false]
  refine ⟨quiet.prover, quiet.claimed.trans claims, ?_, fun q hq => ?_, quiet.mem, quiet.row⟩
  · rw [takeAttach_staged staged, recompose_port, if_pos rfl, stops]
    rfl
  · rw [takeAttach_staged staged, recompose_port, if_neg hq]
    rfl

theorem takeProver_attach {s : State} {p : PortId} (h : s.attachAllowed p) : s.takeProver 1 = s.takeAttach := by
  rw [State.takeProver, if_pos rfl, if_pos ((attachOk_iff s).mpr ⟨p, h⟩)]

theorem takeProver_noAttach {s : State} (h : ∀ p, ¬s.attachAllowed p) : s.takeProver 1 = s := by
  rw [State.takeProver, if_pos rfl, if_neg fun ok => (attachOk_iff s).mp ok |>.elim h]

theorem takeProver_detach (s : State) : s.takeProver 2 = if s.prover.running then s.proverEnd .aborted else s := by
  rw [State.takeProver, if_neg (by decide), if_pos rfl]
  rfl

theorem exec_attach (s : State) : exec .attach s = .next (s.hostIssue (s.writeOne (anchorOffset .a16) 1)) := rfl

theorem exec_detach (s : State) : exec .detach s = .next (s.hostIssue (s.writeOne (anchorOffset .a16) 2)) := rfl

/-- The host's write of A16. -/
theorem hostIssue_prover {s : State} (hi : s.busIdle) (v : Word) :
    s.hostIssue (s.writeOne (anchorOffset .a16) v) =
      if s.anchorWriteOk .a16 v then ((s.granted (s.writeOne (anchorOffset .a16) v)).takeProver v).respond .done
      else s.answered .refused :=
  write_actionWord hi (anchorOffset_lt .a16) (locate_anchor .a16) rfl

theorem anchorWriteOk_attach (s : State) : s.anchorWriteOk .a16 1 = s.attachOk := by
  have other : ((1 : Word) == 2) = false := by decide
  simp only [State.anchorWriteOk, beq_self_eq_true, Bool.true_and, other, Bool.false_and, Bool.or_false]

theorem anchorWriteOk_detach (s : State) : s.anchorWriteOk .a16 2 = s.prover.running := by
  have other : ((2 : Word) == 1) = false := by decide
  simp only [State.anchorWriteOk, beq_self_eq_true, Bool.true_and, other, Bool.false_and, Bool.false_or]

theorem respond_response (s : State) (a : Response) : (s.respond a).path.response = some a := by
  unfold State.respond Path.grantOutbound
  split
  · rfl
  · rfl

/-- Settles O30: ATTACH under the conditions of R114, DETACH while a test runs. -/
theorem attachAndDetach : Obligations.AttachAndDetach := by
  intro p s hi
  rw [exec_attach, exec_detach, hostIssue_prover hi, hostIssue_prover hi, anchorWriteOk_attach, anchorWriteOk_detach,
    takeProver_detach]
  refine ⟨fun allowed => ?attach, fun none => ?noAttach, fun runs => ?detach, fun idle => ?noDetach⟩
  case attach =>
    have granted : (s.granted (s.writeOne (anchorOffset .a16) 1)).attachAllowed p := allowed
    obtain ⟨prover, claimed, port, other, mem, row⟩ := attached_takeAttach granted
    rw [if_pos ((attachOk_iff s).mpr ⟨p, allowed⟩), takeProver_attach granted]
    exact ⟨_, rfl, prover, claimed, port, other, mem, fun r => ⟨(row r).state, (row r).captured⟩, respond_response _ _⟩
  case noAttach =>
    rw [if_neg fun ok => (attachOk_iff s).mp ok |>.elim none]
  case detach =>
    have ended := testEnded (s.granted (s.writeOne (anchorOffset .a16) 2)) .aborted
    rw [if_pos runs, show (s.granted (s.writeOne (anchorOffset .a16) 2)).prover.running = true from runs, if_pos rfl]
    exact ⟨_, rfl, ended.prover, ended.claimed, respond_response _ _, ended.mem, ended.notice, ended.port⟩
  case noDetach => rw [idle, if_neg (by decide)]

/-! ## The other actions at their effect event (R163) -/

/-- AMEND and CANCEL are queued on a row that is still HELD or LIVE. -/
theorem takeControl_queued (s : State) (r : RowId) {v : Word} {f : InFlight} {a : Action}
    (h : (v = 2 ∧ f = .amend ∧ a = .amend) ∨ (v = 3 ∧ f = .cancel ∧ a = .cancel)) :
    s.takeControl r v = if (s.row r).isBooked then s.takeQueued r f a else s := by
  rcases h with ⟨rfl, rfl, rfl⟩ | ⟨rfl, rfl, rfl⟩
  · rfl
  · rfl

theorem takeControl_mark_other {s : State} {r : RowId} (h : (s.row r).state ≠ .live) : s.takeControl r 4 = s :=
  if_neg (mt (isLive_iff _).mp h)

theorem takeSelect_active (s : State) (k : PairId) (m : Member) (hp : (s.port (evenPort k)).cfg.pairMode = true)
    (ha : s.active[k] ≠ m) (hc : (s.port (memberPort k m)).carrying = true) :
    s.takeSelect (evenPort k) (BitVec.ofNat 32 m.code) = (s.switchover k m .select).reevaluateSourced (evenPort k) := by
  rw [takeSelect_pair s (pairOf_even k).symm (memberOf_code m), if_pos ⟨(inPair_even s k).trans hp, ha, hc⟩]

theorem takeSelect_idle (s : State) (k : PairId) (m : Member) (h : (s.port (evenPort k)).cfg.pairMode = false
    ∨ s.active[k] = m ∨ (s.port (memberPort k m)).carrying = false) :
    s.takeSelect (evenPort k) (BitVec.ofNat 32 m.code) = s := by
  rw [takeSelect_pair s (pairOf_even k).symm (memberOf_code m), if_neg]
  rintro ⟨pair, apart, carries⟩
  rw [inPair_even] at pair
  rcases h with h | h | h
  · exact absurd (pair.symm.trans h) (by decide)
  · exact apart h
  · exact absurd (carries.symm.trans h) (by decide)

/-- Actions are taken one after the other. -/
theorem takeActions_cons (s : State) (w : WinWord) (v : Word) (more : List (WinWord × Word)) :
    s.takeActions ((w, v) :: more) = (s.takeActions [(w, v)]).takeActions more := rfl

theorem takeActions_one (s : State) (w : WinWord) (v : Word) : s.takeActions [(w, v)] = s.takeAction w v := rfl

/-- Settles O17: the three kinds of work at M-side, and each action against the state of its event. -/
theorem forwardCompleteDoesNextPart : Obligations.ForwardCompleteDoesNextPart := by
  intro t s hm
  rw [exec_forwardComplete]
  refine ⟨fun run runs acts hc => ?write, fun got a n rest hc => ?read, fun got w rest hc => ?answer,
    ⟨rfl, fun w v more => takeActions_cons s w v more⟩, fun r v f a h => ?queued, fun r h => takeControl_mark_other h,
    fun k m v hv => ?select, fun p h => ?attach, fun h => takeProver_noAttach h, fun h => ?detach, fun h => ?noDetach,
    fun p => takeArm_eq s p⟩
  case write =>
    rw [progress_writing hm hc]
    exact ⟨fun more => by rw [if_neg more]; rfl, fun last => by rw [if_pos last]; rfl⟩
  case read =>
    rw [progress_run hm hc]
    exact ⟨fun more => by rw [if_neg more]; rfl, fun last => by rw [if_pos last]⟩
  case answer =>
    rw [progress_answer hm hc]
    exact ⟨fun more => by rw [if_neg more], fun last => by rw [if_pos last]⟩
  case queued =>
    rw [takeActions_one, State.takeAction, takeControl_queued s r h]
    refine ⟨fun booked => ?_, fun ⟨notHeld, notLive⟩ => ?_⟩
    · rw [if_pos ((isBooked_iff _).mpr booked)]
      rfl
    · rw [if_neg fun booked => ((isBooked_iff _).mp booked).elim notHeld notLive]
  case select =>
    subst hv
    refine ⟨fun idle => takeSelect_idle s k m idle, fun ⟨hp, ha, hc⟩ => ⟨_, takeSelect_active s k m hp ha hc, ?_⟩⟩
    have kept := quietRows_reevaluateSourced (s.switchover k m .select) (evenPort k)
    exact ⟨kept.active, kept.ports⟩
  case attach =>
    have attached := attached_takeAttach h
    rw [takeActions_one, State.takeAction, takeProver_attach h]
    exact ⟨attached.prover, attached.claimed⟩
  case detach =>
    rw [takeActions_one, State.takeAction, takeProver_detach, if_pos h]
    exact (testEnded s .aborted).prover
  case noDetach =>
    rw [takeActions_one, State.takeAction, takeProver_detach, h, if_neg (by decide)]

end Sys2Proof.Machine
end

section
/-! PROOFS. SELECT (R63, R64) and the maintenance commands (R98, R99, R102) at the bus. -/

namespace Sys2Proof.Machine

/-! ## SELECT (R63, R64) -/

theorem countsSwitch_iff (s : State) (l : PortId) (x : Row) :
    s.countsSwitch l x = true ↔ x.state = .live ∧ s.logical (sourcePort x.captured) = l := by
  rw [State.countsSwitch, Bool.and_eq_true, isLive_iff, State.usesRx, beq_iff_eq]

/-- In pair mode a booking sourced on the pair receives by the active member (R57, R66). -/
theorem rxPath_sourced {s : State} {k : PairId} {q : PortId} (pair : s.inPair (evenPort k) = true)
    (h : s.logical q = evenPort k) : s.rxPath q = s.activePort k := by
  unfold State.logical at h
  unfold State.rxPath
  split at h
  · rename_i inPair
    have same : pairOf q = k := by rw [← pairOf_even (pairOf q), ← evenOf_eq, h, pairOf_even]
    rw [if_pos inPair, same]
  · rename_i alone
    exact absurd (h ▸ pair) alone

/-- The number of rows that a switchover counts, over the rows by name (log 29). -/
theorem switchCounted_eq (s : State) (l : PortId) : s.switchCounted l =
    (List.finRange 256).countP fun r => (s.row r).state == .live && s.logical (sourcePort (s.row r).captured) == l
      && (s.row r).meter.switchCount != BitVec.allOnes 16 := countP_rows s _

/-- A switchover leaves every row's state, booking and health as they are. -/
theorem switchover_row_kept (s : State) (k : PairId) (m : Member) (c : SwitchCause) (r : RowId) :
    ((s.switchover k m c).row r).state = (s.row r).state ∧ ((s.switchover k m c).row r).captured = (s.row r).captured
      ∧ ((s.switchover k m c).row r).health = (s.row r).health := by
  rw [switchover_row]
  split
  · exact ⟨rfl, rfl, rfl⟩
  · exact ⟨rfl, rfl, rfl⟩

theorem reheld_health {x : Row} (h : Health) (live : x.state = .live) : (x.reheld h).health = h := by
  rw [reheld_live h live]

theorem reheld_switchCount (x : Row) (h : Health) : (x.reheld h).meter.switchCount = x.meter.switchCount := by
  unfold Row.reheld Row.setHealth
  split
  · dsimp only
    split
    · rfl
    · rfl
  · rfl

theorem reheld_idle {x : Row} (h : Health) (idle : x.state ≠ .live) : x.reheld h = x := if_neg fun c => idle c.1

/-- All that an effective SELECT of member `m` of pair `k`, with even port `p`, does (R63, R64). -/
structure Selected (p : PortId) (k : PairId) (m : Member) (s t : State) : Prop where
  active : t.active = s.active.set k m
  ports : t.ports = s.ports
  mem : t.mem = s.mem
  settle : t.settle = s.settle
  switchover : t.roomFor 1 → s.hands t .switchover p.val m.code 2 (BitVec.ofNat 32 (s.switchCounted p))
  sourced : ∀ r, ((s.row r).state = .live ∧ s.logical (sourcePort (s.row r).captured) = p) →
    (t.row r).meter.switchCount = satInc (s.row r).meter.switchCount
      ∧ (t.row r).health = t.feedHealth (s.row r).captured
      ∧ (t.feedHealth (s.row r).captured ≠ (s.row r).health → t.roomFor 1 →
        s.hands t .feedHealth r.val (t.feedHealth (s.row r).captured).code (BitVec.ofNat 32 (s.row r).health.code)
          (BitVec.ofNat 32 (memberPort k m).val))
  other : ∀ r, ¬((s.row r).state = .live ∧ s.logical (sourcePort (s.row r).captured) = p) → t.row r = s.row r

theorem selected {s : State} {p : PortId} {k : PairId} (m : Member) (hp : evenPort k = p) (pair : s.inPair p = true) :
    Selected p k m s ((s.switchover k m .select).reevaluateSourced (evenPort k)) := by
  subst hp
  have swapped := quiet_switchover s k m .select
  have taken := reevaluated_sourced (s.switchover k m .select) (evenPort k)
  have uses : ∀ r, (s.switchover k m .select).usesRx ((s.switchover k m .select).row r).captured (evenPort k) = true
      ↔ s.logical (sourcePort (s.row r).captured) = evenPort k := by
    intro r
    rw [swapped.usesRx, (switchover_row_kept s k m .select r).2.1, State.usesRx, beq_iff_eq]
  have health : ∀ w, ((s.switchover k m .select).reevaluateSourced (evenPort k)).feedHealth w
      = (s.switchover k m .select).feedHealth w := fun w => feedHealth_congr taken.kept.ports taken.kept.active w
  have path : ∀ w, s.logical (sourcePort w) = evenPort k →
      (s.switchover k m .select).sourcePath w = memberPort k m := by
    intro w hw
    rw [State.sourcePath, rxPath_sourced ((swapped.inPair _).trans pair) ((swapped.logical _).trans hw), State.activePort,
      (switchover_ports s k m .select).2, active_set, if_pos rfl]
  have calm := taken.kept.quiet.calm
  refine ⟨taken.kept.active, taken.kept.ports, ?mem, ?settle, fun room => ?switchover, fun r sourced => ?sourced,
    fun r other => ?other⟩
  case mem => rw [taken.kept.quiet.mem, swapped.mem]
  case settle => rw [taken.kept.quiet.settle, swapped.settle]
  case switchover =>
    exact hands_within (switchover_hands (swapped.calm.room (calm.room room)) k m .select) List.prefix_rfl rfl calm.inWriting
  case sourced =>
    obtain ⟨live, source⟩ := sourced
    obtain ⟨state, captured, was⟩ := switchover_row_kept s k m .select r
    have row := taken.row r ((uses r).mpr source)
    have counted : (s.switchover k m .select).row r = (s.row r).countSwitch := by
      rw [switchover_row, if_pos ((countsSwitch_iff _ _ _).mpr ⟨live, source⟩)]
    refine ⟨?_, ?_, fun changed room => ?_⟩
    · rw [row, reheld_switchCount, counted]
      rfl
    · rw [row, reheld_health _ (state.trans live), captured, health]
    · have told := taken.hands r ((uses r).mpr source) (state.trans live) (by rw [captured, was, ← health]; exact changed) room
      rw [captured, was, path _ source, ← health] at told
      exact hands_within told swapped.calm.inWriting swapped.now.symm.symm List.prefix_rfl
  case other =>
    have kept : (s.switchover k m .select).row r = s.row r := by
      rw [switchover_row, if_neg (mt (countsSwitch_iff _ _ _).mp other)]
    by_cases source : s.logical (sourcePort (s.row r).captured) = evenPort k
    · rw [taken.row r ((uses r).mpr source), kept, reheld_idle _ fun live => other ⟨live, source⟩]
    · rw [taken.other r (mt (uses r).mp source), kept]

theorem exec_select (p : PortId) (v : Word) (s : State) :
    exec (.select p v) s = .next (s.hostIssue (s.writeOne (portOffset p .p12) v)) := rfl

/-- The host's write of P12. -/
theorem hostIssue_select {s : State} (hi : s.busIdle) (p : PortId) (v : Word) :
    s.hostIssue (s.writeOne (portOffset p .p12) v) =
      if s.selectOk p v then ((s.granted (s.writeOne (portOffset p .p12) v)).takeSelect p v).respond .done
      else s.answered .refused :=
  write_actionWord hi (portOffset_lt p .p12) (locate_port p .p12) rfl

/-- SELECT names a member of a pair in pair mode, by its even port (R64). -/
theorem selectOk_refused {s : State} {p : PortId} {v : Word}
    (h : p.val % 2 = 1 ∨ (v ≠ 0 ∧ v ≠ 1) ∨ s.inPair p = false) : s.selectOk p v = false := by
  unfold State.selectOk memberOf
  rcases h with odd | ⟨h0, h1⟩ | alone
  · have isOdd : isOdd p = true := beq_iff_eq.mpr odd
    rw [isOdd]
    split
    · rfl
    · rfl
  · rw [if_neg h0, if_neg h1]
  · rw [alone]
    split
    · rw [Bool.and_false, Bool.false_and]
    · rfl

theorem selectOk_member {s : State} {p : PortId} (m : Member) (even : p.val % 2 = 0) (pair : s.inPair p = true) :
    s.selectOk p (BitVec.ofNat 32 m.code) = (s.port (memberPort (pairOf p) m)).carrying := by
  have notOdd : isOdd p = false := by
    rw [isOdd, even]
    rfl
  unfold State.selectOk
  rw [memberOf_code]
  dsimp only
  rw [pair, notOdd]
  rfl

theorem takeSelect_member (s : State) (p : PortId) (m : Member) :
    s.takeSelect p (BitVec.ofNat 32 m.code)
      = if s.inPair p = true ∧ s.active[pairOf p] ≠ m ∧ (s.port (memberPort (pairOf p) m)).carrying = true then
          (s.switchover (pairOf p) m .select).reevaluateSourced (evenPort (pairOf p))
        else s :=
  takeSelect_pair s rfl (memberOf_code m)

theorem evenPort_pairOf {p : PortId} (h : p.val % 2 = 0) : evenPort (pairOf p) = p :=
  Fin.ext (by simp only [evenPort, pairOf]; omega)

/-- The host bus's part of the exchange is outside all that a switchover touches. -/
theorem Selected.respond {p : PortId} {k : PairId} {m : Member} {s t : State} {w : Transaction}
    (h : Selected p k m (s.granted w) t) : Selected p k m s (t.respond .done) where
  active := h.active
  ports := h.ports
  mem := h.mem
  settle := h.settle
  switchover := h.switchover
  sourced := h.sourced
  other := h.other

/-- Settles O27, by what the word names. -/
theorem selectSwitchesMember : Obligations.SelectSwitchesMember := by
  intro p v s hi
  rw [exec_select, hostIssue_select hi]
  refine ⟨fun no => by rw [selectOk_refused no, if_neg (by decide)], fun m even hv pair => ?_⟩
  subst hv
  rw [selectOk_member m even pair, takeSelect_member]
  refine ⟨fun dark => ?refused, fun ⟨carries, already⟩ => ?already, fun ⟨carries, apart⟩ => ?switches⟩
  case refused => rw [dark, if_neg (by decide)]
  case already =>
    rw [if_pos carries, if_neg fun h => h.2.1 already, granted_respond hi]
  case switches =>
    have done := (selected (s := s.granted (s.writeOne (portOffset p .p12) (BitVec.ofNat 32 m.code))) m
      (evenPort_pairOf even) pair).respond
    rw [if_pos carries, if_pos ⟨pair, apart, carries⟩, ← switchCounted_eq]
    exact ⟨_, rfl, done.active, done.ports, done.mem, done.settle, respond_response _ _, done.switchover,
      fun r => ⟨done.sourced r, done.other r⟩⟩

/-! ## Maintenance commands (R98, R99, R102) -/

theorem setChannel_setChannel (s : State) (p : PortId) (a b : Channel) :
    (s.setChannel p a).setChannel p b = s.setChannel p b := by
  have same : (s.setChannel p a).port p = { s.port p with channel := a } := setChannel_port_self s p a
  rw [State.setChannel, same]
  simp [State.setChannel, State.setPort]

/-- A command that ends at once: it is the last command, and MAINT_RESULT is handed (R99, R102). -/
theorem endCommand_accepted (s : State) (p : PortId) (c : MaintCommand) (o : MaintResult) :
    (s.setChannel p ((s.port p).channel.accept c)).endCommand p c o
      = (s.setChannel p { (s.port p).channel.accept c with outstanding := none, lastResult := o }).handNotice .maintResult
          p.val o.code (BitVec.ofNat 32 c.code) 0 := by
  rw [State.endCommand, setChannel_setChannel, setChannel_port_self]
  rfl

theorem takeCommand_noLink {s : State} {p : PortId} (out : (s.port p).link.inService = false) (c : MaintCommand) :
    s.takeCommand p c
      = (s.setChannel p { (s.port p).channel.accept c with outstanding := none, lastResult := .noLink }).handNotice
          .maintResult p.val 4 (BitVec.ofNat 32 c.code) 0 := by
  rw [State.takeCommand, out]
  exact endCommand_accepted s p c .noLink

theorem takeCommand_inService {s : State} {p : PortId} {c : MaintCommand} (service : (s.port p).link.inService = true)
    (busy : c = .loopAll ∧ s.loopInService p = true) :
    s.takeCommand p c
      = (s.setChannel p { (s.port p).channel.accept c with outstanding := none, lastResult := .inService }).handNotice
          .maintResult p.val 5 (BitVec.ofNat 32 c.code) 0 := by
  rw [State.takeCommand, service]
  exact (if_pos busy).trans (endCommand_accepted s p c .inService)

theorem takeCommand_stays {s : State} {p : PortId} {c : MaintCommand} (service : (s.port p).link.inService = true)
    (free : ¬(c = .loopAll ∧ s.loopInService p = true)) :
    s.takeCommand p c = s.setChannel p ((s.port p).channel.accept c) := by
  rw [State.takeCommand, service]
  exact if_neg free

theorem commandOf_code (c : MaintCommand) : commandOf (BitVec.ofNat 32 c.code) = some c := by
  cases c
  · rfl
  · rfl
  · rfl

/-- The command that the host gives by the value of a maintenance command. -/
def MaintCommand.instr (c : MaintCommand) (p : PortId) : Instr :=
  match c with
  | .loopAll => .loopAll p
  | .corruptCheck => .corruptCheck p
  | .normal => .normal p

theorem exec_maint (c : MaintCommand) (p : PortId) (s : State) :
    exec (c.instr p) s = .next (s.hostIssue (s.writeOne (portOffset p .p5) (BitVec.ofNat 32 c.code))) := by
  cases c
  · rfl
  · rfl
  · rfl

/-- The host's write of P5 with a command. -/
theorem hostIssue_maint {s : State} (hi : s.busIdle) (p : PortId) (c : MaintCommand) :
    s.hostIssue (s.writeOne (portOffset p .p5) (BitVec.ofNat 32 c.code)) =
      if s.commandOk p (BitVec.ofNat 32 c.code) then
        ((s.granted (s.writeOne (portOffset p .p5) (BitVec.ofNat 32 c.code))).takeCommand p c).respond .done
      else s.answered .refused := by
  rw [write_actionWord hi (portOffset_lt p .p5) (locate_port p .p5) rfl, writeOk_p5, State.takeAction, State.takeMaint,
    commandOf_code]

theorem commandOk_iff (s : State) (p : PortId) (c : MaintCommand) : s.commandOk p (BitVec.ofNat 32 c.code) = true ↔
    (s.port p).cfg.enable = true ∧ (s.port p).channel.outstanding = none := by
  rw [State.commandOk, commandOf_code, Option.isSome_some, Bool.true_and, Bool.and_eq_true, Option.isNone_iff_eq_none]

/-- R99: a path that a LIVE booking uses. -/
theorem loopInService_iff (s : State) (p : PortId) :
    s.loopInService p = true ↔ s.rxPath p = p ∧ s.liveUses (s.logical p) = true := by
  rw [State.loopInService, Bool.and_eq_true, State.unpairedOrActive, beq_iff_eq]

/-- Settles O28, by how the command is judged. -/
theorem maintenanceCommandJudged : Obligations.MaintenanceCommandJudged := by
  intro c p s hi
  refine ⟨c.instr p, s.granted (s.writeOne (portOffset p .p5) (BitVec.ofNat 32 c.code)), (s.port p).channel.accept c,
    by cases c <;> rfl, rfl, rfl, ?_⟩
  rw [exec_maint, hostIssue_maint hi]
  refine ⟨fun no => ?refused, fun ⟨enabled, free, notUp, notSuspect⟩ => ?noLink, fun ⟨enabled, free, service⟩ => ?judged⟩
  case refused =>
    have bad : ¬s.commandOk p (BitVec.ofNat 32 c.code) = true := by
      rw [commandOk_iff]
      rintro ⟨enabled, free⟩
      exact no.elim (fun h => absurd (enabled.symm.trans h) (by decide)) fun h => h free
    rw [if_neg bad]
  case noLink =>
    have out : (s.port p).link.inService = false := by
      rw [← Bool.not_eq_true, inService_iff]
      exact not_or.mpr ⟨notUp, notSuspect⟩
    rw [if_pos ((commandOk_iff s p c).mpr ⟨enabled, free⟩), takeCommand_noLink (s := s.granted _) out]
    rfl
  case judged =>
    rw [if_pos ((commandOk_iff s p c).mpr ⟨enabled, free⟩), ← loopInService_iff]
    refine ⟨fun busy => ?_, fun ok => ?_⟩
    · rw [takeCommand_inService (s := s.granted _) ((inService_iff _).mpr service) busy]
      rfl
    · rw [takeCommand_stays (s := s.granted _) ((inService_iff _).mpr service) ok]
      exact congrArg _ (respond_granted hi _ _ rfl)

end Sys2Proof.Machine
end

section
/-! PROOFS. The part's own writes to memory: notices handed and produced (R170, R171, R172), the record that begins
(R143, R151), and its halves (R146, R147). -/

namespace Sys2Proof.Machine

/-! ## Notices (R170, R171, R172) -/

theorem hasRoom_iff (u : NoticeWriter) :
    u.hasRoom = true ↔ ringDist u.produce u.consume + u.inWriting.length < 512 := decide_eq_true_iff

/-- N0, field by field. -/
theorem noticeHead_eq {k : NoticeKind} {subject code : Nat} (hs : subject < 256) (hc : code < 256) :
    noticeHead k subject code
      = BitVec.ofNat 32 (k.code + 2 ^ 8 * (subject % 2 ^ 8) + 2 ^ 16 * (code % 2 ^ 8)) := by
  have hk : k.code < 2 ^ 8 := by cases k <;> decide
  have low : k.code + 2 ^ 8 * subject = 2 ^ 8 * subject ||| k.code := by
    rw [Nat.add_comm, Nat.two_pow_add_eq_or_of_lt hk]
  have all : k.code + 2 ^ 8 * subject + 2 ^ 16 * code = 2 ^ 16 * code ||| (k.code + 2 ^ 8 * subject) := by
    rw [Nat.add_comm, Nat.two_pow_add_eq_or_of_lt (by omega)]
  rw [Nat.mod_eq_of_lt (show subject < 2 ^ 8 from hs), Nat.mod_eq_of_lt (show code < 2 ^ 8 from hc), all, low, noticeHead, place_eq, place_eq, place_eq, BitVec.ofNat_or,
    BitVec.ofNat_or, Nat.pow_zero, Nat.one_mul]
  rw [BitVec.or_comm, BitVec.or_comm (BitVec.ofNat 32 k.code)]

theorem handNotice_room {s : State} (h : s.notice.hasRoom = true) (k : NoticeKind) (a b : Nat) (c d : Word) :
    s.handNotice k a b c d = { s with
      notice := { s.notice with inWriting := s.notice.inWriting ++ [s.composeNotice k a b c d] }
      path := s.path.offer .notice (.noticeWrite (s.composeNotice k a b c d)) } := by
  simp only [State.handNotice, h, if_true]

theorem handNotice_full {s : State} (h : s.notice.hasRoom ≠ true) (k : NoticeKind) (a b : Nat) (c d : Word) :
    s.handNotice k a b c d = { s with notice := { s.notice with overflow := true } } := by
  simp only [State.handNotice, if_neg h]

theorem inProgress_outbound {s : State} {e : OutEntry} {rest : List OutEntry} (held : s.path.mside = .outbound)
    (head : s.path.outbound = e :: rest) : s.inProgress = some e := by
  rw [State.inProgress, if_pos held, head]
  rfl

theorem inProgress_eq_some {s : State} {e : OutEntry} (h : s.inProgress = some e) :
    s.path.mside = .outbound ∧ ∃ rest, s.path.outbound = e :: rest := by
  unfold State.inProgress at h
  split at h
  · exact ⟨‹_›, List.head?_eq_some_iff.mp h⟩
  · exact absurd h (by simp)

theorem noticeWritten_head {s : State} {n : Notice} (h : s.inProgress = some (.noticeWrite n)) :
    s.noticeWritten = ((s.completeHead (.noticeWrite n)).noticeProduced).freeMside := by
  rw [State.noticeWritten, h]

theorem noticeWritten_idle {s : State} (h : ∀ n, s.inProgress ≠ some (.noticeWrite n)) : s.noticeWritten = s := by
  unfold State.noticeWritten
  split
  · exact absurd ‹_› (h _)
  · rfl

theorem produced_cons {u : NoticeWriter} {n : Notice} {more : List Notice} (h : u.inWriting = n :: more) :
    u.produced = { u with inWriting := more, produce := u.produce + 1 } := by
  rw [NoticeWriter.produced, h]

theorem noteLow_iff (s : State) : s.noteLow = true ↔ s.notice.produce ≠ s.notice.consume ∨ s.notice.overflow = true := by
  rw [State.noteLow, Bool.or_eq_true, bne_iff_ne]

theorem freeMside_eq (s : State) : s.freeMside = (s.withPath { s.path with mside := .free }).arbitrate := rfl

theorem apply_notice (n : Notice) (b : Nat) (m : Memory) : (OutEntry.noticeWrite n).apply b m
    = m.writeWords (b + 0x20000 + 16 * (n.index.toNat % 512)) [n.n0, n.n1, n.n2, n.n3] := by
  rw [Nat.add_assoc b]
  rfl

/-- The state after the completion of a notice's write, before M-side is granted again (R172). -/
theorem noticeProduced_eq {s : State} {n : Notice} {more : List Notice} (writing : s.notice.inWriting = n :: more) :
    ((s.completeHead (.noticeWrite n)).noticeProduced).withPath
        { ((s.completeHead (.noticeWrite n)).noticeProduced).path with mside := .free }
      = { s with
          mem := s.mem.writeWords (s.base + 0x20000 + 16 * (n.index.toNat % 512)) [n.n0, n.n1, n.n2, n.n3]
          notice := { s.notice with inWriting := more, produce := s.notice.produce + 1 }
          path := { s.path.leave with mside := .free } } := by
  rw [← apply_notice, ← produced_cons writing]
  simp only [State.withPath, State.noticeProduced, State.completeHead]

theorem exec_noticeWriteDone (s : State) : exec .noticeWriteDone s = .next s.noticeWritten := rfl

/-- Settles O50. -/
theorem noticesHandedAndProduced : Obligations.NoticesHandedAndProduced := by
  intro s
  refine ⟨fun k subject code n2 n3 => ⟨fun room => ?handed, fun full => ?dropped⟩,
    fun n rest more held head writing => ?produced, fun other => ?idle⟩
  case handed =>
    refine ⟨_, rfl, fun hs hc => ?_⟩
    rw [handNotice_room ((hasRoom_iff _).mpr room), State.composeNotice, noticeHead_eq hs hc]
    rfl
  case dropped => exact handNotice_full (mt (hasRoom_iff _).mp full) _ _ _ _ _
  case produced =>
    rw [exec_noticeWriteDone, noticeWritten_head (inProgress_outbound held head), freeMside_eq]
    exact ⟨_, rfl, noticeProduced_eq writing, noteLow_iff _⟩
  case idle =>
    refine congrArg _ (noticeWritten_idle fun n h => ?_)
    obtain ⟨held, rest, head⟩ := inProgress_eq_some h
    exact other.elim (fun free => free held) fun no => no n rest head

/-! ## A record begins (R143, R146, R151) -/

theorem exec_recordBegin (s : State) : exec .recordBegin s = .next s.settleStep := rfl

theorem settleStep_queued {s : State} {r : RowId} {others : List RowId} (idle : s.settle.writing = none)
    (queue : s.settle.queue = r :: others) :
    s.settleStep = if s.settle.held = Config.ringSlots then s.waitRing
      else if (s.row r).inFlight ≠ .none then { s with settle := { s.settle with unit := .waitAction } }
      else s.beginRecord r others := by
  rw [State.settleStep, idle, queue]

/-- Settles O51, by what the head of the Settlement Queue has to wait for. -/
theorem recordBegins : Obligations.RecordBegins := by
  intro r others s idle queue
  rw [exec_recordBegin, settleStep_queued idle queue]
  refine ⟨fun ⟨room, free⟩ => ⟨_, rfl, ?begins⟩, fun full => ?ring, fun ⟨room, busy⟩ => ?action⟩
  case begins =>
    rw [if_neg (show s.settle.held ≠ Config.ringSlots from room), if_neg (not_not_intro free)]
    rfl
  case ring =>
    rw [if_pos (show s.settle.held = Config.ringSlots from full), State.waitRing]
    refine ⟨fun was => by rw [if_pos was], fun was => ?_⟩
    rw [if_neg was, queue]
    rfl
  case action => rw [if_neg (show s.settle.held ≠ Config.ringSlots from room), if_pos busy]

/-! ## The halves of a record complete (R146, R147) -/

theorem firstHalfDone_head {s : State} {i : BitVec 10} {ws : List Word}
    (h : s.inProgress = some (.recordHalf i false ws)) :
    s.firstHalfDone = (s.completeHead (.recordHalf i false ws)).freeMside := by
  rw [State.firstHalfDone, h]

theorem firstHalfDone_idle {s : State} (h : ∀ i ws, s.inProgress ≠ some (.recordHalf i false ws)) :
    s.firstHalfDone = s := by
  unfold State.firstHalfDone
  split
  · exact absurd ‹_› (h _ _)
  · rfl

theorem secondHalfDone_head {s : State} {i : BitVec 10} {ws : List Word}
    (h : s.inProgress = some (.recordHalf i true ws)) :
    s.secondHalfDone = ((s.completeHead (.recordHalf i true ws)).completeRecord).freeMside := by
  rw [State.secondHalfDone, h]

theorem exec_settlementFirstHalfDone (s : State) : exec .settlementFirstHalfDone s = .next s.firstHalfDone := rfl

theorem exec_recordComplete (s : State) : exec .recordComplete s = .next s.secondHalfDone := rfl

/-- R143: the step that follows a record leaves the ring's indices and the sequence alone. -/
theorem settleStep_ring (s : State) : s.settleStep.settle.append = s.settle.append
    ∧ s.settleStep.settle.release = s.settle.release ∧ s.settleStep.settle.nextSeq = s.settle.nextSeq := by
  unfold State.settleStep
  split
  · exact ⟨rfl, rfl, rfl⟩
  · split
    · exact ⟨rfl, rfl, rfl⟩
    · split
      · unfold State.waitRing
        split
        · exact ⟨rfl, rfl, rfl⟩
        · exact ⟨rfl, rfl, rfl⟩
      · split
        · exact ⟨rfl, rfl, rfl⟩
        · exact ⟨rfl, rfl, rfl⟩

/-- R143: what the step leaves alone. -/
theorem settleStep_kept (s : State) : s.settleStep.rows = s.rows ∧ s.settleStep.mem = s.mem
    ∧ s.settleStep.ports = s.ports ∧ s.settleStep.now = s.now := by
  rw [settleStep_frame]
  exact ⟨rfl, rfl, rfl, rfl⟩

/-- R153: the last sequence is followed by 1. -/
theorem seqAfter_eq (q : Word) : seqAfter q = if q = BitVec.allOnes 32 then 1 else q + 1 := by
  have wraps : q + 1 = 0 ↔ q = BitVec.allOnes 32 := by
    rw [← BitVec.toNat_inj, ← BitVec.toNat_inj, BitVec.toNat_add, BitVec.toNat_allOnes, show (1 : Word).toNat = 1 from rfl,
      show (0 : Word).toNat = 0 from rfl]
    have := q.isLt
    omega
  rw [seqAfter]
  exact ite_of_iff wraps _ _

/-- The state in which SETTLED is handed: the ring takes the record and its row is EMPTY (R147 steps 1 to 4). -/
def State.recordTaken (s : State) (w : RecordInWriting) : State :=
  { s with
    settle := { s.settle with append := s.settle.append + 1, nextSeq := seqAfter s.settle.nextSeq, writing := none }
    rows := s.rows.set w.row ((s.row w.row).settled s.settle.nextSeq) }

theorem completeRecord_writing {s : State} {w : RecordInWriting} (h : s.settle.writing = some w) :
    s.completeRecord = ((s.recordTaken w).handNotice .settled w.row.val (s.row w.row).endReason.code s.settle.nextSeq
      (w.index.setWidth 32)).settleStep := by
  rw [State.completeRecord, h]
  rfl

theorem recordTaken_row (s : State) (w : RecordInWriting) (q : RowId) :
    (s.recordTaken w).row q = if q = w.row then (s.row w.row).settled s.settle.nextSeq else s.row q :=
  row_setRow s w.row q _

/-- All that the completion of a record does before M-side is free again (R147). -/
structure RecordCompleted (s : State) (w : RecordInWriting) (m : Memory) (t : State) : Prop where
  append : t.settle.append = s.settle.append + 1
  release : t.settle.release = s.settle.release
  nextSeq : t.settle.nextSeq = if s.settle.nextSeq = BitVec.allOnes 32 then 1 else s.settle.nextSeq + 1
  row : t.row w.row = (s.row w.row).settled s.settle.nextSeq
  other : ∀ q, q ≠ w.row → t.row q = s.row q
  hands : s.roomFor 1 → s.hands t .settled w.row.val (s.row w.row).endReason.code s.settle.nextSeq (w.index.setWidth 32)
  mem : t.mem = m
  ports : t.ports = s.ports
  now : t.now = s.now

theorem completeRecord_completes {s : State} {w : RecordInWriting} (h : s.settle.writing = some w) :
    RecordCompleted s w s.mem s.completeRecord := by
  rw [completeRecord_writing h]
  obtain ⟨rows, mem, ports, now⟩ := settleStep_kept ((s.recordTaken w).handNotice .settled w.row.val (s.row w.row).endReason.code
    s.settle.nextSeq (w.index.setWidth 32))
  have ring := settleStep_ring ((s.recordTaken w).handNotice .settled w.row.val (s.row w.row).endReason.code
    s.settle.nextSeq (w.index.setWidth 32))
  have calm := calm_settleStep ((s.recordTaken w).handNotice .settled w.row.val (s.row w.row).endReason.code
    s.settle.nextSeq (w.index.setWidth 32))
  refine ⟨ring.1, ring.2.1, ring.2.2.trans (seqAfter_eq _), ?row, fun q hq => ?other, fun room => ?hands, mem,
    ports, now⟩
  case row => exact (row_eq_of_rows rows _).trans ((recordTaken_row s w w.row).trans (if_pos rfl))
  case other => exact (row_eq_of_rows rows _).trans ((recordTaken_row s w q).trans (if_neg hq))
  case hands =>
    exact hands_within (handNotice_hands (s := s.recordTaken w) room _ _ _ _ _) List.prefix_rfl rfl calm.inWriting

/-- The path is outside all that the record's completion touches. -/
theorem RecordCompleted.freed {s t : State} {e : OutEntry} {w : RecordInWriting} {m : Memory}
    (h : RecordCompleted (s.completeHead e) w m t) (q : Path) : RecordCompleted s w m (t.withPath q) where
  append := h.append
  release := h.release
  nextSeq := h.nextSeq
  row := h.row
  other := h.other
  hands := h.hands
  mem := h.mem
  ports := h.ports
  now := h.now

theorem apply_firstHalf (i : BitVec 10) (ws : List Word) (b : Nat) (m : Memory) :
    (OutEntry.recordHalf i false ws).apply b m = m.writeWords (b + 0x40000 + 128 * (i.toNat % 512)) ws := by
  rw [Nat.add_assoc b]
  rfl

theorem apply_secondHalf (i : BitVec 10) (ws : List Word) (b : Nat) (m : Memory) :
    (OutEntry.recordHalf i true ws).apply b m = m.writeWords (b + 0x40000 + 128 * (i.toNat % 512) + 64) ws := by
  rw [Nat.add_assoc b]
  rfl

/-- Settles O53, by the half that completes. -/
theorem recordHalvesComplete : Obligations.RecordHalvesComplete := by
  intro s
  refine ⟨fun i ws rest held head => ?first, fun other => ?idle, fun w i ws rest held head writing => ?second⟩
  case first =>
    rw [exec_settlementFirstHalfDone, firstHalfDone_head (inProgress_outbound held head), ← apply_firstHalf]
    rfl
  case idle =>
    refine congrArg _ (firstHalfDone_idle fun i ws h => ?_)
    obtain ⟨held, rest, head⟩ := inProgress_eq_some h
    exact other.elim (fun free => free held) fun no => no i ws rest head
  case second =>
    have done := (completeRecord_completes (s := s.completeHead (.recordHalf i true ws)) writing).freed
      { (s.completeHead (.recordHalf i true ws)).completeRecord.path with mside := .free }
    rw [exec_recordComplete, secondHalfDone_head (inProgress_outbound held head), freeMside_eq]
    exact ⟨_, rfl, done.append, done.release, done.nextSeq, done.row, done.other, done.hands,
      done.mem.trans (apply_secondHalf i ws s.base s.mem), rfl, done.ports, done.now⟩

end Sys2Proof.Machine
end

section
/-! PROOFS. The part after a cold reset (R29, R48, R94, R111, R124, R141, R155, R169, R176). -/

namespace Sys2Proof.Machine

/-- R169: the notice in progress at M-side is written. -/
theorem memAtReset_notice {s : State} {n : Notice} {rest : List OutEntry} (held : s.path.mside = .outbound)
    (head : s.path.outbound = .noticeWrite n :: rest) :
    s.memAtReset = s.mem.writeWords (s.base + noticeOffset n.index) [n.n0, n.n1, n.n2, n.n3] := by
  simp only [State.memAtReset, held, head, OutEntry.apply]

theorem resetWith_row (s : State) (straps : BitVec 8) (r : RowId) : (s.resetWith straps).row r = Row.reset := by
  simp only [State.row, State.resetWith, State.cold, Fin.getElem_fin, Vector.getElem_replicate]

theorem resetWith_active (s : State) (straps : BitVec 8) (k : PairId) : (s.resetWith straps).active[k] = .even := by
  simp only [State.resetWith, State.cold, Fin.getElem_fin, Vector.getElem_replicate]

/-- The values that R97 gives the slots. -/
theorem portReset_slots (i : SlotId) :
    Port.reset.rx[i] = [] ∧ Port.reset.rxOwner[i] = none ∧ Port.reset.txOwner[i] = none := by
  simp only [Port.reset, idlePayload, Fin.getElem_fin, Vector.getElem_replicate, and_self]

theorem resetWith_linkWord (s : State) (straps : BitVec 8) (p : PortId) : (s.resetWith straps).linkWord p = 0 := by
  have alone : (s.resetWith straps).inPair p = false := by
    rw [State.inPair, resetWith_port]
    rfl
  have free : (s.resetWith straps).claimed = none := rfl
  rw [State.linkWord, resetWith_port, alone, free, if_neg (by decide), show (none == some p) = false from rfl]
  decide

theorem resetWith_fabricWord (s : State) (straps : BitVec 8) : (s.resetWith straps).fabricWord = 0 := by
  have fields : (s.resetWith straps).fabricWord = place 0 FabricState.halted.code ||| placeBit 2 false
      ||| placeBit 3 (SettleUnit.idle == .waitRing) ||| placeBit 4 false := rfl
  rw [fields]
  decide

/-- A ring that holds no notice and has none in writing protects no slot (R173). -/
theorem resetWith_writeOk_notice (s : State) (straps : BitVec 8) (i : Fin 512) (v : Word) :
    (s.resetWith straps).writeOk (.notice i) v = true := by
  rw [← Bool.not_eq_false, writeOk_notice]
  have notice : (s.resetWith straps).notice = ⟨0, 0, false, []⟩ := rfl
  have none : ringDist (0 : BitVec 10) 0 + ([] : List Notice).length = 0 := by decide
  rintro ⟨k, -, held⟩
  rw [notice, none] at held
  exact absurd held (Nat.not_lt_zero _)

theorem exec_coldReset_arrived (straps : BitVec 8) {a : Transaction} (wf : a.wf = true) (s : State) :
    exec (.coldReset straps (some a)) s = exec (.hostTransactionArrival a) (s.resetWith straps) := by
  have reset : exec (.coldReset straps (some a)) s = .next ((s.resetWith straps).arrive a) := if_pos wf
  have host : exec (.hostTransactionArrival a) (s.resetWith straps) = .next ((s.resetWith straps).hostIssue a) := if_pos wf
  rw [reset, host]
  rfl

/-- Settles O3. -/
theorem coldResetRecordsAndNotices : Obligations.ColdResetRecordsAndNotices := by
  intro straps s
  refine ⟨s.resetWith straps, exec_coldReset_none straps s, rfl, rfl, memAtReset_of_free, rfl, rfl, rfl, rfl, rfl,
    fun r => ?row, rfl, rfl, rfl, resetWith_active s straps, rfl, rfl, rfl, rfl, rfl, fun p => ?port, rfl, rfl, rfl,
    rfl, resetWith_fabricWord s straps, fun n rest held head => memAtReset_notice held head, resetWith_writeOk_notice s straps,
    fun a wf => exec_coldReset_arrived straps wf s⟩
  case row =>
    rw [resetWith_row]
    exact ⟨rfl, rfl, rfl, rfl, rfl, rfl, rfl, rfl, rfl, rfl, rfl, rfl, rfl, rfl, rfl, rfl⟩
  case port =>
    rw [resetWith_port]
    exact ⟨rfl, rfl, rfl, rfl, rfl, rfl, rfl, rfl, rfl, rfl, rfl, rfl, rfl, rfl, rfl, rfl, rfl, rfl, rfl, rfl,
      portReset_slots, resetWith_linkWord s straps p⟩

end Sys2Proof.Machine
end

section
/-! PROOFS. The ms event (R30, R38, R119, R127, R129): its parts in order, the order in which the Scheduler takes what
is due, and what an end of a booking does (R36, R37, R43, R56). -/

namespace Sys2Proof.Machine

/-! ## The parts of the ms event (R30, R119, R127, R129) -/

theorem exec_msEvent_cons (x : MsPart) (more : List MsPart) (s : State) :
    exec (.msEvent (x :: more)) s = exec (.msEvent more) (s.msPart x) := rfl

theorem meterHandle_idle {s : State} (h : s.meterDue = false) : s.meterHandle = s := if_neg (by rw [h]; decide)

theorem proverHandle_notDue {s : State} (h : s.proverDue = false) : s.proverHandle = s := if_neg (by rw [h]; decide)

theorem proverHandle_idle {s : State} (due : s.proverDue = true) (h : s.prover.running = false) :
    s.proverHandle = { s with proverDue := false } := by
  rw [State.proverHandle, if_pos due, if_neg (by rw [h]; decide)]

/-- The state in which the prover judges whether the test is complete (R119). -/
def State.testCounted (s : State) : State := { s with proverDue := false, prover := s.prover.countMs }

theorem proverHandle_running {s : State} (due : s.proverDue = true) (h : s.prover.running = true) :
    s.proverHandle = if s.prover.elapsed + 1 = s.prover.duration then s.testCounted.proverEnd .complete
      else s.testCounted := by
  rw [State.proverHandle, if_pos due, if_pos h]
  rfl

theorem schedulerHandle_none {s : State} (h : s.pass = .none) : s.schedulerHandle = s := by
  rw [State.schedulerHandle, h]

theorem advanceTime_end {s : State} (h : s.now = BitVec.allOnes 40) : s.advanceTime = s := if_pos h

/-- Every block has handled the ms event before: the Time Base just advances. -/
theorem advanceTime_handled {s : State} (h : s.now ≠ BitVec.allOnes 40) (meter : s.meterDue = false)
    (prover : s.proverDue = false) (pass : s.pass = .none) :
    s.advanceTime = { s with now := s.now + 1, meterDue := true, proverDue := true, pass := .ends 0 } := by
  rw [State.advanceTime, if_neg h, meterHandle_idle meter, proverHandle_notDue prover, schedulerHandle_none pass]

theorem meterHandle_frame {s : State} (h : s.meterDue = true) :
    s.meterHandle = { s with meterDue := false, rows := s.meterHandle.rows } := by
  rw [State.meterHandle, if_pos h]

theorem exec_proverExpiry (s : State) : exec .proverExpiry s = .next (if s.proverExpires then s.proverHandle else s) := rfl

/-- Settles O36, part by part. -/
theorem msEventPartsCountTheMillisecond : Obligations.MsEventPartsCountTheMillisecond := by
  intro s
  refine ⟨fun x more u first => ?cons, rfl, fun last => congrArg _ (advanceTime_end last),
    fun ⟨h, meter, prover, pass⟩ => congrArg _ (advanceTime_handled h meter prover pass), fun due => ?meter,
    fun due => ⟨fun idle => congrArg _ (proverHandle_idle due idle), fun running => ?prover⟩⟩
  case cons =>
    have done : s.msPart x = u := Host.Outcome.next.inj first
    rw [exec_msEvent_cons, done]
  case meter =>
    refine ⟨s.meterHandle, rfl, meterHandle_frame due, fun r => ⟨_, rfl, ?_⟩⟩
    rw [meterHandle_row due]
    exact countMs_cases (s.row r) s.now
  case prover =>
    refine ⟨_, s.proverHandle, rfl, rfl, fun more => ?counts, fun last => ?completes⟩
    case counts => rw [proverHandle_running due running, if_neg more]; rfl
    case completes =>
      have expires : s.proverExpires = true := by
        rw [State.proverExpires, due, running, last, beq_self_eq_true]
        rfl
      have ended := testEnded s.testCounted .complete
      rw [exec_proverExpiry, if_pos expires, proverHandle_running due running, if_pos last]
      exact ⟨rfl, ended.prover, ended.claimed, ended.due, ended.now, ended.mem, ended.notice⟩

/-! ## What the Scheduler takes next (R38) -/

/-- `s` with the Scheduler at another point of its pass. -/
def State.withPass (s : State) (x : SchedulerPass) : State := { s with pass := x }

theorem exec_scheduledEnd {s : State} {r : RowId} (h : s.nextEnd = some r) :
    exec .scheduledEnd s = .next ((s.scheduleEnd r .scheduled).withPass (.ends (r.val + 1))) := by
  have e : exec .scheduledEnd s = .next (match s.nextEnd with
    | some r => { s.scheduleEnd r .scheduled with pass := .ends (r.val + 1) }
    | none => s) := rfl
  rw [e, h]
  rfl

theorem exec_scheduledEnd_none {s : State} (h : s.nextEnd = none) : exec .scheduledEnd s = .next s := by
  have e : exec .scheduledEnd s = .next (match s.nextEnd with
    | some r => { s.scheduleEnd r .scheduled with pass := .ends (r.val + 1) }
    | none => s) := rfl
  rw [e, h]

theorem exec_goLive {s : State} {r : RowId} (h : s.nextStart = some r) :
    exec .goLive s = .next ((s.goLiveRow r (s.isLate r)).withPass (.starts (r.val + 1))) := by
  have e : exec .goLive s = .next (match s.nextStart with
    | some r => { s.goLiveRow r (s.isLate r) with pass := .starts (r.val + 1) }
    | none => s) := rfl
  rw [e, h]
  rfl

theorem exec_goLive_none {s : State} (h : s.nextStart = none) : exec .goLive s = .next s := by
  have e : exec .goLive s = .next (match s.nextStart with
    | some r => { s.goLiveRow r (s.isLate r) with pass := .starts (r.val + 1) }
    | none => s) := rfl
  rw [e, h]

theorem endDue_iff (s : State) (r : RowId) :
    s.endDue r = true ↔ (s.row r).state = .live ∧ (s.row r).currentEnd.toNat ≤ s.now.toNat := by
  rw [State.endDue, Bool.and_eq_true, beq_iff_eq, decide_eq_true_iff]

theorem startDue_iff (s : State) (r : RowId) : s.startDue r = true ↔ (s.row r).state = .held
    ∧ (bookedStart (s.row r).captured).toNat ≤ s.now.toNat ∧ s.now.toNat < (s.row r).currentEnd.toNat := by
  rw [State.startDue, Bool.and_eq_true, Bool.and_eq_true, beq_iff_eq, decide_eq_true_iff, decide_eq_true_iff, and_assoc]

theorem nextEnd_ends {s : State} {lo : Nat} (pass : s.pass = .ends lo) (h : s.fabric ≠ .halted) :
    s.nextEnd = State.findRow fun r => decide (lo ≤ r.val) && s.endDue r := by
  rw [State.nextEnd, pass]
  exact if_neg h

/-- The lowest row from `lo` upward that satisfies a condition. -/
theorem findRow_from {f : RowId → Bool} {lo : Nat} {r : RowId} (hr : lo ≤ r.val) (h : f r = true)
    (low : ∀ q : RowId, lo ≤ q.val → q < r → f q = false) :
    (State.findRow fun q => decide (lo ≤ q.val) && f q) = some r := by
  refine findRow_eq (by rw [decide_eq_true hr, h]; rfl) fun q hq => ?_
  by_cases above : lo ≤ q.val
  · rw [low q above hq, Bool.and_false]
  · rw [decide_eq_false above, Bool.false_and]

theorem findRow_none {f : RowId → Bool} (h : ∀ q, f q = false) : State.findRow f = none :=
  List.find?_eq_none.mpr fun q _ => by rw [h q]; decide

/-- The pass stands at the ends: the Scheduler takes those from row `lo` upward, then the starts. -/
theorem schedulerHandle_atEnds {s : State} {lo : Nat} (pass : s.pass = .ends lo) (h : s.fabric ≠ .halted) :
    s.schedulerHandle = ((s.runEnds lo).runStarts 0).withPass .none := by
  rw [State.schedulerHandle, pass]
  exact if_neg h

theorem schedulerHandle_halted {s : State} {lo : Nat} (pass : s.pass = .ends lo) (h : s.fabric = .halted) :
    s.schedulerHandle = s.withPass .none := by
  rw [State.schedulerHandle, pass]
  exact if_pos h

theorem schedulerHandle_atStarts {s : State} {lo : Nat} (pass : s.pass = .starts lo) :
    s.schedulerHandle = (s.runStarts lo).withPass .none := by
  rw [State.schedulerHandle, pass]
  rfl

theorem runEnds_first {s : State} {lo : Nat} {r : RowId} (hr : lo ≤ r.val) (due : s.endDue r = true)
    (low : ∀ q : RowId, lo ≤ q.val → q < r → s.endDue q = false) :
    s.runEnds lo = (s.scheduleEnd r .scheduled).runEnds (r.val + 1) :=
  forRows_first (C := fun r s => s.endDue r) (g := fun r s => s.scheduleEnd r .scheduled) hr due low

theorem runEnds_none {s : State} {lo : Nat} (h : ∀ q : RowId, lo ≤ q.val → s.endDue q = false) : s.runEnds lo = s :=
  forRows_none (C := fun r s => s.endDue r) h

theorem runStarts_first {s : State} {lo : Nat} {r : RowId} (running : s.fabric = .running) (hr : lo ≤ r.val)
    (due : s.startDue r = true) (low : ∀ q : RowId, lo ≤ q.val → q < r → s.startDue q = false) :
    s.runStarts lo = (s.goLiveRow r (s.isLate r)).runStarts (r.val + 1) := by
  rw [runStarts_form, runStarts_form]
  exact forRows_first (C := fun q s => decide (s.fabric = .running) && s.startDue q)
    (g := fun q s => s.goLiveRow q (s.isLate q)) hr (by rw [decide_eq_true running, due]; rfl)
    fun q above below => by rw [low q above below, Bool.and_false]

theorem runStarts_none {s : State} {lo : Nat}
    (h : s.fabric ≠ .running ∨ ∀ q : RowId, lo ≤ q.val → s.startDue q = false) : s.runStarts lo = s := by
  rw [runStarts_form]
  refine forRows_none (C := fun q s => decide (s.fabric = .running) && s.startDue q)
    (g := fun q s => s.goLiveRow q (s.isLate q)) fun q above => ?_
  rcases h with other | idle
  · rw [decide_eq_false other, Bool.false_and]
  · rw [idle q above, Bool.and_false]

/-- An end by the Scheduler is the head of what is left of the ms event. -/
theorem schedulerHandle_end {s : State} {lo : Nat} {r : RowId} (pass : s.pass = .ends lo) (h : s.fabric ≠ .halted)
    (hr : lo ≤ r.val) (due : s.endDue r = true) (low : ∀ q : RowId, lo ≤ q.val → q < r → s.endDue q = false) :
    s.schedulerHandle = ((s.scheduleEnd r .scheduled).withPass (.ends (r.val + 1))).schedulerHandle := by
  have rest : ((s.scheduleEnd r .scheduled).withPass (.ends (r.val + 1))).schedulerHandle
      = if (s.scheduleEnd r .scheduled).fabric = .halted then (s.scheduleEnd r .scheduled).withPass .none
        else (((s.scheduleEnd r .scheduled).runEnds (r.val + 1)).runStarts 0).withPass .none :=
    schedulerHandle_ends (s.scheduleEnd r .scheduled) (r.val + 1)
  rw [schedulerHandle_atEnds pass h, runEnds_first hr due low, rest]
  split
  · have halted : (s.scheduleEnd r .scheduled).fabric = .halted := ‹_›
    have ended : (s.scheduleEnd r .scheduled).runEnds (r.val + 1) = s.scheduleEnd r .scheduled :=
      runEnds_none fun q _ => endDue_false fun live =>
        absurd (scheduleEnd_halted halted h q) (by rw [Row.isLive, live]; decide)
    rw [ended, runStarts_none (.inl (by rw [halted]; decide))]
  · rfl

theorem nextStart_starts {s : State} {lo : Nat} (pass : s.pass = .starts lo) (running : s.fabric = .running) :
    s.nextStart = State.findRow fun r => decide (lo ≤ r.val) && s.startDue r := by
  rw [State.nextStart, if_pos running, pass]

/-- While an end is due no start is taken. -/
theorem nextStart_waits {s : State} {lo : Nat} {r : RowId} (pass : s.pass = .ends lo) (h : s.nextEnd = some r) :
    s.nextStart = none := by
  rw [State.nextStart, pass]
  dsimp only
  rw [h, if_neg (Option.some_ne_none r), ite_self]

theorem exec_scheduler (s : State) : exec (.msEvent [.scheduler]) s = .next s.schedulerHandle := rfl

/-- Settles O37, by the point at which the Scheduler's pass stands. -/
theorem schedulerTakesEndsThenStarts : Obligations.SchedulerTakesEndsThenStarts := by
  intro s
  refine ⟨fun pass => congrArg _ (schedulerHandle_none pass), fun lo pass => ⟨fun halted => ?halted,
    fun r h hr live reached low => ?ends, fun ⟨h, idle⟩ => ?endsDone⟩, fun lo pass => ⟨?noEnd,
    fun r running hr held begun open_ low => ?starts, fun idle => ?startsDone⟩⟩
  case halted => exact congrArg _ (schedulerHandle_halted pass halted)
  case ends =>
    have due := (endDue_iff s r).mpr ⟨live, reached⟩
    have below : ∀ q : RowId, lo ≤ q.val → q < r → s.endDue q = false := fun q above hq => endDue_false (low q above hq)
    have next : s.nextEnd = some r := (nextEnd_ends pass h).trans (findRow_from hr due below)
    refine ⟨_, exec_scheduledEnd next, rfl, ?_, exec_goLive_none (nextStart_waits pass next), ?_⟩
    · exact congrArg Row.state (ended_scheduleEnd s r .scheduled).1.row
    · rw [exec_scheduler, exec_scheduler, schedulerHandle_end pass h hr due below]
  case endsDone =>
    have none : ∀ q : RowId, lo ≤ q.val → s.endDue q = false := fun q above => endDue_false (idle q above)
    rw [exec_scheduler, exec_scheduler, schedulerHandle_atEnds pass h, runEnds_none none, schedulerHandle_starts]
    rfl
  case noEnd => exact exec_scheduledEnd_none (by rw [State.nextEnd, pass])
  case starts =>
    have due := (startDue_iff s r).mpr ⟨held, begun, open_⟩
    have below : ∀ q : RowId, lo ≤ q.val → q < r → s.startDue q = false := fun q above hq => startDue_false (low q above hq)
    have next : s.nextStart = some r := (nextStart_starts pass running).trans (findRow_from hr due below)
    refine ⟨_, exec_goLive next, rfl, ?_⟩
    rw [exec_scheduler, exec_scheduler, schedulerHandle_atStarts pass, runStarts_first running hr due below]
    exact congrArg _ (schedulerHandle_starts (s.goLiveRow r (s.isLate r)) (r.val + 1)).symm
  case startsDone =>
    have none : s.fabric ≠ .running ∨ ∀ q : RowId, lo ≤ q.val → s.startDue q = false :=
      idle.imp id fun all q above => startDue_false (all q above)
    have noStart : s.nextStart = .none := by
      by_cases running : s.fabric = .running
      · rw [nextStart_starts pass running]
        refine findRow_none fun q => ?_
        by_cases above : lo ≤ q.val
        · rw [none.resolve_left (not_not_intro running) q above, Bool.and_false]
        · rw [decide_eq_false above, Bool.false_and]
      · exact if_neg running
    refine ⟨?_, exec_goLive_none noStart⟩
    rw [exec_scheduler, schedulerHandle_atStarts pass, runStarts_none none]
    rfl

/-! ## The end of a booking (R36, R37, R43, R56) -/

theorem exec_stopEnd {s : State} {r : RowId} (h : s.stopRow = some r) : exec .stopEnd s = .next (s.scheduleEnd r .stopped) := by
  have e : exec .stopEnd s = .next (match s.stopRow with
    | some r => s.scheduleEnd r .stopped
    | none => s) := rfl
  rw [e, h]

theorem Ended.withPass {r : RowId} {e : EndReason} {s t : State} (h : Ended r e s t) (x : SchedulerPass) :
    Ended r e s (t.withPass x) where
  row := h.row
  other := h.other
  port := h.port
  slots := h.slots
  notice := h.notice
  halted := h.halted
  fabric := h.fabric
  mem := h.mem
  now := h.now
  queue := h.queue
  admission := h.admission

/-- The Scheduler's next end is of a LIVE row whose current end has been reached. -/
theorem nextEnd_some {s : State} {r : RowId} (h : s.nextEnd = some r) :
    (s.row r).state = .live ∧ (s.row r).currentEnd.toNat ≤ s.now.toNat := by
  unfold State.nextEnd at h
  split at h
  · split at h
    · cases h
    · have found := (findRow_some h).1
      rw [Bool.and_eq_true] at found
      exact (endDue_iff s r).mp found.2
  · cases h

/-- The next STOP end is of the lowest LIVE row, in STOPPING. -/
theorem stopRow_some {s : State} {r : RowId} (h : s.stopRow = some r) :
    (s.row r).state = .live ∧ s.fabric = .stopping ∧ ∀ q, q < r → (s.row q).state ≠ .live := by
  unfold State.stopRow at h
  split at h
  · obtain ⟨found, low⟩ := findRow_some h
    exact ⟨beq_iff_eq.mp found, ‹_›, fun q hq => beq_eq_false_iff_ne.mp (low q hq)⟩
  · cases h

/-- Settles O39, by who ends the booking. -/
theorem endsFinishBooking : Obligations.EndsFinishBooking := by
  intro r s i reason who
  obtain ⟨ended, waits, queue⟩ := ended_scheduleEnd s r reason
  rcases who with ⟨hi, hr, next⟩ | ⟨hi, hr, next⟩
  · subst hi hr
    have told := ended.withPass (.ends (r.val + 1))
    refine ⟨(nextEnd_some next).1, fun _ => (nextEnd_some next).2, (by simp), _, exec_scheduledEnd next, ?_⟩
    exact ⟨told.row, told.other, told.port, told.slots, waits, queue, told.notice, told.halted, told.fabric, told.mem,
      told.now⟩
  · subst hi hr
    refine ⟨(stopRow_some next).1, (by simp), fun _ => (stopRow_some next).2, _, exec_stopEnd next, ?_⟩
    exact ⟨ended.row, ended.other, ended.port, ended.slots, waits, queue, ended.notice, ended.halted, ended.fabric,
      ended.mem, ended.now⟩

end Sys2Proof.Machine
end

section
/-! PROOFS. A go-live (R38, R41, R55, R56, R122) and START (R35, R45). -/

namespace Sys2Proof.Machine

/-! ## The row at its go-live (R41) -/

/-- The fields of a row that went live with health `h` at time `now`. -/
structure LiveRow (x : Row) (now : Time) (late : Bool) (h : Health) (y : Row) : Prop where
  state : y.state = .live
  actualStart : y.actualStart = now
  late : y.late = late
  countedTo : y.meter.countedTo = now
  served : y.meter.served = 0
  outage : y.meter.outage = 0
  prescaler : y.meter.prescaler = 0
  segment : y.meter.segment = 0
  carriage : y.meter.carriage = 0
  closed : y.meter.closed = []
  switchCount : y.meter.switchCount = 0
  health : y.health = h
  outageCount : y.meter.outageCount = if y.health = .healthy ∨ y.health = .silent then 0 else 1
  captured : y.captured = x.captured
  currentEnd : y.currentEnd = x.currentEnd
  inFlight : y.inFlight = x.inFlight
  hold : y.hold = x.hold

/-- The first evaluation of a row that has just gone live, from HEALTHY, by the health that it finds. -/
theorem liveRow_reheld (x : Row) (now : Time) (late : Bool) (h : Health) :
    LiveRow x now late h ((x.started now late).reheld h) := by
  cases h
  case healthy => exact ⟨rfl, rfl, rfl, rfl, rfl, rfl, rfl, rfl, rfl, rfl, rfl, rfl, rfl, rfl, rfl, rfl, rfl⟩
  case silent => exact ⟨rfl, rfl, rfl, rfl, rfl, rfl, rfl, rfl, rfl, rfl, rfl, rfl, rfl, rfl, rfl, rfl, rfl⟩
  case partialFeed => exact ⟨rfl, rfl, rfl, rfl, rfl, rfl, rfl, rfl, rfl, rfl, rfl, rfl, rfl, rfl, rfl, rfl, rfl⟩
  case lost => exact ⟨rfl, rfl, rfl, rfl, rfl, rfl, rfl, rfl, rfl, rfl, rfl, rfl, rfl, rfl, rfl, rfl, rfl⟩

/-- What the rows that follow in START leave of a row that went live. -/
theorem LiveRow.kept {x y z : Row} {now : Time} {late : Bool} {h : Health} (live : LiveRow x now late h y)
    (kept : RowKept y z) : z.state = .live ∧ z.actualStart = now ∧ z.late = late ∧ z.currentEnd = x.currentEnd
      ∧ z.captured = x.captured ∧ z.meter.countedTo = now ∧ z.meter.served = 0 ∧ z.meter.outage = 0
      ∧ z.meter.prescaler = 0 ∧ z.meter.segment = 0 ∧ z.meter.carriage = 0 ∧ z.meter.closed = [] := by
  rw [kept.1]
  exact ⟨live.state, live.actualStart, live.late, live.currentEnd, live.captured, live.countedTo, live.served,
    live.outage, live.prescaler, live.segment, live.carriage, live.closed⟩

theorem Started.liveRow {r : RowId} {late : Bool} {s t : State} (h : Started r late s t) :
    LiveRow (s.row r) s.now late (t.feedHealth (s.row r).captured) (t.row r) := by
  rw [h.row]
  exact liveRow_reheld (s.row r) s.now late _

theorem Started.withPass {r : RowId} {late : Bool} {s t : State} (h : Started r late s t) (x : SchedulerPass) :
    Started r late s (t.withPass x) where
  row := h.row
  other := h.other
  live := h.live
  health := h.health
  test := h.test
  fabric := h.fabric
  now := h.now
  settle := h.settle
  queue := h.queue

/-! ## The slots at a go-live (R55, R56) -/

theorem proverPreempt_port (s : State) (w : Vector Word 8) (q : PortId) :
    (s.proverPreempt w).port q = { s.port q with carrying := ((s.proverPreempt w).port q).carrying } := by
  rcases proverPreempt_either s w with ended | same
  · exact ended.port q
  · rw [same]

theorem proverPreempt_owners (s : State) (w : Vector Word 8) (q : PortId) :
    ((s.proverPreempt w).port q).rxOwner = (s.port q).rxOwner ∧ ((s.proverPreempt w).port q).txOwner = (s.port q).txOwner
      ∧ ((s.proverPreempt w).port q).cfg = (s.port q).cfg := by
  rw [proverPreempt_port]
  exact ⟨rfl, rfl, rfl⟩

theorem proverPreempt_logical (s : State) (w : Vector Word 8) (q : PortId) : (s.proverPreempt w).logical q = s.logical q :=
  logical_congr (fun p => (proverPreempt_owners s w p).2.2) q

/-- After its slots are allocated a go-live touches no port. -/
theorem goLiveRow_port (s : State) (r : RowId) (late : Bool) (q : PortId) :
    (s.goLiveRow r late).port q = ((s.proverPreempt (s.row r).captured).allocate r).port q := by
  rw [goLiveRow_form, handNotice_port, port_eq_of_ports (reevaluate_ports _ r).1, State.rowStarted, setRow_port]

theorem goLiveRow_rx (s : State) (r : RowId) (late : Bool) (q : PortId) (i : SlotId) :
    ((s.goLiveRow r late).port q).rxOwner[i] =
      if q = s.logical (sourcePort (s.row r).captured) ∧ (s.port q).rxOwner[i] = none
          ∧ slotsBelow (s.port q).rxOwner none i < slotCount (s.row r).captured then some r
      else (s.port q).rxOwner[i] := by
  have captured := (proverPreempt_row s (s.row r).captured r).captured
  rw [goLiveRow_port, allocate_rx _ r _ captured, proverPreempt_logical, (proverPreempt_owners s _ q).1]
  by_cases here : q = s.logical (sourcePort (s.row r).captured)
  · rw [if_pos here, takeSlots_getElem]
    exact ite_of_iff ⟨fun h => ⟨here, h⟩, fun h => h.2⟩ _ _
  · rw [if_neg here, if_neg fun h => here h.1]

theorem goLiveRow_tx (s : State) (r : RowId) (late : Bool)
    (apart : ((destPorts (s.row r).captured).map s.logical).Nodup) (q : PortId) (i : SlotId) :
    ((s.goLiveRow r late).port q).txOwner[i] =
      if q ∈ (destPorts (s.row r).captured).map s.logical ∧ (s.port q).txOwner[i] = none
          ∧ slotsBelow (s.port q).txOwner none i < slotCount (s.row r).captured then some r
      else (s.port q).txOwner[i] := by
  have captured := (proverPreempt_row s (s.row r).captured r).captured
  have logical : (s.proverPreempt (s.row r).captured).logical = s.logical := funext (proverPreempt_logical s _)
  rw [goLiveRow_port, allocate_tx _ r _ captured (by rw [logical]; exact apart), logical, (proverPreempt_owners s _ q).2.1]
  by_cases here : q ∈ (destPorts (s.row r).captured).map s.logical
  · rw [if_pos here, takeSlots_getElem]
    exact ite_of_iff ⟨fun h => ⟨here, h⟩, fun h => h.2⟩ _ _
  · rw [if_neg here, if_neg fun h => here h.1]

/-! ## The test that a go-live preempts (R122) -/

theorem Started.preempts {r : RowId} {late : Bool} {s t : State} (h : Started r late s t) {p : PortId}
    (claimed : s.claimed = some p) (uses : s.booksPort (s.row r).captured (s.logical p) ∧ s.unpairedOrActive p = true) :
    t.prover = { s.prover with running := false, outcome := .preempted }
      ∧ (s.roomFor 1 → s.hands t .proverDone p.val 3 s.prover.elapsed s.prover.errorBits) := by
  obtain ⟨running, port⟩ := (claimed_iff s p).mp claimed
  have code : s.prover.port.toNat % 256 = p.val := by
    rw [port, BitVec.toNat_ofNat]
    omega
  rcases h.test with ⟨-, prover, notice⟩ | ⟨same, -⟩
  · exact ⟨prover, code ▸ notice⟩
  · have ends := ((proverPreempt_claimed (s.row r).captured claimed).1 uses).symm.trans same
    have stopped : s.prover.running = false := by
      rw [← ends, (testEnded s .preempted).prover]
    rw [running] at stopped
    cases stopped

theorem Started.spares {r : RowId} {late : Bool} {s t : State} (h : Started r late s t)
    (same : s.proverPreempt (s.row r).captured = s) : t.prover = s.prover := by
  rcases h.test with ⟨ended, prover, -⟩ | ⟨-, prover⟩
  · exact prover.trans (ended.prover.symm.trans (congrArg State.prover same))
  · exact prover

theorem withPass_mem (s : State) (x : SchedulerPass) : (s.withPass x).mem = s.mem := rfl

theorem withPass_port (s : State) (x : SchedulerPass) (q : PortId) : (s.withPass x).port q = s.port q := rfl

/-! ## GO_LIVE (R38, R41) -/

/-- The Scheduler's next start is of a HELD row whose time has come, in RUNNING. -/
theorem nextStart_some {s : State} {r : RowId} (h : s.nextStart = some r) : s.fabric = .running ∧ s.startDue r = true := by
  unfold State.nextStart at h
  split at h
  · refine ⟨‹_›, ?_⟩
    split at h
    · cases h
    · split at h
      · exact (findRow_some h).1
      · cases h
    · have found := (findRow_some h).1
      rw [Bool.and_eq_true] at found
      exact found.2
  · cases h

/-- Settles O38. -/
theorem goLiveStartsBooking : Obligations.GoLiveStartsBooking := by
  intro r s next
  obtain ⟨running, due⟩ := nextStart_some next
  obtain ⟨held, begun, open_⟩ := (startDue_iff s r).mp due
  have goes := exec_goLive next
  have started := (started_goLiveRow (s.isLate r) held).withPass (.starts (r.val + 1))
  have ports := withPass_port (s.goLiveRow r (s.isLate r)) (.starts (r.val + 1))
  have mem : ((s.goLiveRow r (s.isLate r)).withPass (.starts (r.val + 1))).mem = s.mem := by
    rw [withPass_mem, (calm_goLiveRow s r (s.isLate r)).mem]
  have row := started.liveRow
  generalize (s.goLiveRow r (s.isLate r)).withPass (.starts (r.val + 1)) = t at *
  refine ⟨running, held, begun, open_, t, _, goes, rfl, row.state, row.actualStart, row.late, row.countedTo, row.served, row.outage, row.prescaler, row.segment,
    row.carriage, row.closed, row.switchCount, row.health, row.outageCount, row.captured, row.currentEnd, row.inFlight,
    row.hold, fun q hq => ⟨(started.other q hq).state, (started.other q hq).captured⟩, started.fabric, started.now, mem,
    started.settle, fun q i => by rw [ports, goLiveRow_rx], fun apart q i => by rw [ports, goLiveRow_tx s r _ apart],
    fun p run port => ?claim, fun idle => started.spares (proverPreempt_idle _ idle), fun room => ⟨fun ill => ?feed, ?live⟩⟩
  case claim =>
    have claimed := (claimed_iff s p).mpr ⟨run, port⟩
    rw [← unpairedOrActive_iff]
    exact ⟨started.preempts claimed, fun no => started.spares ((proverPreempt_claimed _ claimed).2 no)⟩
  case feed =>
    rw [row.health] at ill ⊢
    exact started.health ill room
  case live =>
    rw [row.late]
    exact started.live room

/-! ## START (R35, R45) -/

theorem exec_start (s : State) : exec .start s = .next (s.hostIssue (s.writeOne (anchorOffset .a1) 1)) := rfl

/-- START is accepted in HALTED only (R34). -/
theorem writeOk_start (s : State) : s.writeOk (.anchor .a1) 1 = true ↔ s.fabric = .halted := by
  have apart : ((1 : Word) == 2) = false := by decide
  simp only [State.writeOk, State.anchorWriteOk, apart, Bool.false_and, Bool.or_false, beq_self_eq_true, Bool.true_and,
    beq_iff_eq]

/-- START in HALTED: RUNNING is entered, and each row is judged in turn (R34, R35). -/
theorem takeAction_start {s : State} (h : s.fabric = .halted) : s.takeAction (.anchor .a1) 1 =
    (({ s with fabric := .running } : State).handNotice .fabricState 0 1 0 0).forRows fun r s => s.startRow r := by
  have e : s.takeAction (.anchor .a1) 1 = s.takeFabric 1 := rfl
  rw [e, State.takeFabric, if_pos ⟨rfl, h⟩, State.takeStart, setFabric_eq, h]
  rfl

/-- R35: the row's booking cannot be carried any more. -/
def Row.isMissed (x : Row) (now : Time) : Prop :=
  x.currentEnd.toNat ≤ now.toNat ∨ ((bookedStart x.captured).toNat < now.toNat ∧ lateOk x.captured = false)

theorem startRow_idle {s : State} {r : RowId} (h : (s.row r).state ≠ .held) : s.startRow r = s := if_neg h

theorem startRow_missed {s : State} {r : RowId} (held : (s.row r).state = .held) (h : (s.row r).isMissed s.now) :
    s.startRow r = s.endMissed r := by
  rw [State.startRow, if_pos held]
  rcases h with ended | ⟨begun, early⟩
  · exact if_pos ended
  · by_cases ended : (s.row r).currentEnd.toNat ≤ s.now.toNat
    · exact if_pos ended
    · rw [if_neg ended, if_pos begun, early]
      rfl

theorem startRow_goesLive {s : State} {r : RowId} (held : (s.row r).state = .held) (h : ¬(s.row r).isMissed s.now)
    (begun : (bookedStart (s.row r).captured).toNat ≤ s.now.toNat) : s.startRow r = s.goLiveRow r (s.isLate r) := by
  obtain ⟨open_, inTime⟩ := not_or.mp h
  rw [State.startRow, if_pos held, State.isLate, if_neg open_]
  by_cases late : (bookedStart (s.row r).captured).toNat < s.now.toNat
  · have allowed : lateOk (s.row r).captured = true := by
      rw [← Bool.not_eq_false]
      exact fun no => inTime ⟨late, no⟩
    rw [if_pos late, if_pos allowed, decide_eq_true late]
  · rw [if_neg late, if_pos (BitVec.eq_of_toNat_eq (by omega)), decide_eq_false late]

theorem startRow_waits {s : State} {r : RowId} (h : ¬(s.row r).isMissed s.now)
    (early : s.now.toNat < (bookedStart (s.row r).captured).toNat) : s.startRow r = s := by
  unfold State.startRow
  dsimp only
  split
  · rw [if_neg (not_or.mp h).1, if_neg (by omega), if_neg (by rintro e; rw [e] at early; omega)]
  · rfl

/-- What START leaves of row `r` of `s` in `t` (R35, R45). -/
structure RowJudged (s t : State) (r : RowId) : Prop where
  other : (s.row r).state ≠ .held → RowKept (s.row r) (t.row r)
  missed : (s.row r).state = .held → (s.row r).isMissed s.now →
    t.row r = (s.row r).endMissed s.now ∧ (r ∈ t.settle.queue ∨ ∃ w, t.settle.writing = some w ∧ w.row = r)
      ∧ (t.roomFor 1 → s.hands t .bookingEnded r.val 3 (timeLow s.now) 0)
  started : (s.row r).state = .held → ¬(s.row r).isMissed s.now →
    (bookedStart (s.row r).captured).toNat ≤ s.now.toNat →
    (∃ h y, LiveRow (s.row r) s.now (s.isLate r) h y ∧ RowKept y (t.row r))
      ∧ (t.roomFor 1 → s.hands t .bookingLive r.val (s.isLate r).toNat (timeLow (s.row r).currentEnd)
        (timeLow (bookedStart (s.row r).captured)))
  waits : (s.row r).state = .held → ¬(s.row r).isMissed s.now →
    s.now.toNat < (bookedStart (s.row r).captured).toNat → t.row r = s.row r

theorem rowJudged_startRow (s : State) (r : RowId) : RowJudged s (s.startRow r) r where
  other idle := by
    rw [startRow_idle idle]
    exact RowKept.refl _
  missed held h := by
    have done := missed_endMissed s r
    rw [startRow_missed held h]
    exact ⟨(done.row r).trans (if_pos rfl), done.waits, fun room => done.notice (done.kept.calm.room room)⟩
  started held h begun := by
    have done := started_goLiveRow (s.isLate r) held
    rw [startRow_goesLive held h begun]
    exact ⟨⟨_, _, done.liveRow, RowKept.refl _⟩, done.live⟩
  waits _ h early := by rw [startRow_waits h early]

/-- The judgement of one row, with the rows before it and after it. -/
theorem RowJudged.within {s u v t : State} {r : RowId} (h : RowJudged u v r) (now : u.now = s.now)
    (told : s.notice.inWriting <+: u.notice.inWriting)
    (rowBefore : RowKept (s.row r) (u.row r)) (after : StartKept v t) (rowAfter : RowKept (v.row r) (t.row r)) :
    RowJudged s t r := by
  have same : (s.row r).state = .held → u.row r = s.row r := fun held => rowBefore.2 (by rw [held]; decide)
  have late : u.row r = s.row r → u.isLate r = s.isLate r := fun e => by rw [State.isLate, State.isLate, e, now]
  refine ⟨fun idle => ?other, fun held missed => ?missed, fun held inTime begun => ?started, fun held inTime early => ?waits⟩
  case other => exact (rowBefore.trans (h.other (by rw [rowBefore.state]; exact idle))).trans rowAfter
  case missed =>
    have e := same held
    obtain ⟨row, waits, notice⟩ := h.missed (by rw [e]; exact held) (by rw [e, now]; exact missed)
    rw [now] at notice
    refine ⟨?_, after.waits r waits, fun room =>
      hands_within (notice (after.calm.room room)) told now after.calm.inWriting⟩
    rw [rowAfter.2 (by rw [row]; exact fun c => nomatch c), row, e, now]
  case started =>
    have e := same held
    obtain ⟨⟨g, y, live, kept⟩, notice⟩ := h.started (by rw [e]; exact held) (by rw [e, now]; exact inTime)
      (by rw [e, now]; exact begun)
    rw [late e, e] at notice
    rw [late e, e, now] at live
    exact ⟨⟨g, y, live, kept.trans rowAfter⟩, fun room =>
      hands_within (notice (after.calm.room room)) told now after.calm.inWriting⟩
  case waits =>
    have e := same held
    have row := h.waits (by rw [e]; exact held) (by rw [e, now]; exact inTime) (by rw [e, now]; exact early)
    rw [rowAfter.2 (by rw [row, e, held]; decide), row, e]

theorem rowJudged_startRows (s : State) (r : RowId) : RowJudged s (s.forRows fun r s => s.startRow r) r := by
  obtain ⟨u, before, rowBefore, after, rowAfter⟩ := startRows_turn s r
  exact (rowJudged_startRow u r).within before.now before.calm.inWriting rowBefore after rowAfter

theorem startKept_startRows (s : State) : StartKept s (s.forRows fun r s => s.startRow r) := by
  obtain ⟨u, before, -, after, -⟩ := startRows_turn s 0
  exact (before.trans (startRow_other u (r := 0) (q := 1) (by decide)).1).trans after

/-- A row that ended MISSED, in its own words (R45, R126). -/
theorem endMissed_eq (x : Row) (now : Time) : x.endMissed now = { x with
    state := .ended, endReason := .missed, late := false, actualStart := now, actualEnd := now, health := .healthy
    meter := ⟨(x.endMissed now).meter.countedTo, 0, 0, [0], 0, 0, 0, 0, 0⟩ } := rfl

/-- From `s` to `t` START was taken (R34, R35). -/
structure StartTaken (s t : State) : Prop where
  fabric : t.fabric = .running
  now : t.now = s.now
  mem : t.mem = s.mem
  queue : t.actionQueue = s.actionQueue
  told : s.roomFor 1 → s.hands t .fabricState 0 1 0 0
  row : ∀ r, RowJudged s t r

theorem startTaken {s : State} (h : s.fabric = .halted) : StartTaken s (s.takeAction (.anchor .a1) 1) := by
  rw [takeAction_start h]
  have kept := startKept_startRows (({ s with fabric := .running } : State).handNotice .fabricState 0 1 0 0)
  have calm := calm_handNotice ({ s with fabric := .running } : State) .fabricState 0 1 0 0
  refine ⟨kept.fabric, kept.now, kept.calm.mem, kept.queue, fun room => ?told, fun r => ?row⟩
  case told =>
    exact hands_within (handNotice_hands (s := { s with fabric := .running }) room _ _ _ _ _) List.prefix_rfl rfl
      kept.calm.inWriting
  case row =>
    have judged := rowJudged_startRows (({ s with fabric := .running } : State).handNotice .fabricState 0 1 0 0) r
    exact judged.within (s := s) rfl calm.inWriting (RowKept.refl _) (StartKept.refl _) (RowKept.refl _)

/-- The host bus's part of the exchange is outside all that START does. -/
theorem StartTaken.answered {s t : State} {w : Transaction} (h : StartTaken (s.granted w) t) (a : Response) :
    StartTaken s (t.respond a) where
  fabric := h.fabric
  now := h.now
  mem := h.mem
  queue := h.queue
  told := h.told
  row r := ⟨(h.row r).other, (h.row r).missed, (h.row r).started, (h.row r).waits⟩

/-- Settles O10, by what becomes of each row. -/
theorem startJudgesHeldRows : Obligations.StartJudgesHeldRows := by
  intro s hi
  rw [exec_start, write_actionWord hi (anchorOffset_lt .a1) (locate_anchor .a1) rfl]
  refine ⟨fun halted => ?starts, fun no => by rw [if_neg (mt (writeOk_start s).mp no)]⟩
  have taken := (startTaken (s := s.granted (s.writeOne (anchorOffset .a1) 1)) halted).answered .done
  rw [if_pos ((writeOk_start s).mpr halted)]
  refine ⟨_, rfl, taken.fabric, taken.now, taken.mem, taken.queue, respond_response _ _, taken.told, fun r =>
    ⟨fun idle => ?other, fun held => ?held⟩⟩
  case other =>
    have kept := (taken.row r).other idle
    exact ⟨kept.state, fun still => kept.2 still⟩
  case held =>
    split
    · obtain ⟨row, waits, notice⟩ := (taken.row r).missed held ‹_›
      exact ⟨by rw [row]; exact endMissed_eq _ _, waits, notice⟩
    · split
      · obtain ⟨⟨h, y, live, kept⟩, notice⟩ := (taken.row r).started held ‹_› ‹_›
        obtain ⟨state, start, late, currentEnd, captured, countedTo, served, outage, prescaler, segment, carriage,
          closed⟩ := live.kept kept
        refine ⟨state, start, late, currentEnd, captured, countedTo, served, outage, prescaler, segment, carriage, closed,
          fun room => ?_⟩
        rw [late]
        exact notice room
      · exact (taken.row r).waits held ‹_› (Nat.lt_of_not_le ‹_›)

end Sys2Proof.Machine
end

section
/-! PROOFS. The Admission Unit: POST, AMEND and CANCEL execute (R17 to R26). -/

namespace Sys2Proof.Machine

/-! ## An executed action leaves the queue (R17, R23) -/

/-- The low word of a time is its low half. -/
theorem timeLow_timeOf (lo hi : Word) : timeLow (timeOf lo hi) = lo := by
  unfold timeLow timeOf
  exact BitVec.extractLsb'_append_eq_right

/-- N2 of ACTION_RESULT (11.7). -/
def actionWord (a : Action) (b : BookingState) : Word := BitVec.ofNat 32 (a.code + 2 ^ 8 * b.code)

theorem actionWord_eq (a : Action) (b : BookingState) : place 0 a.code ||| place 8 b.code = actionWord a b := by
  have low : a.code < 2 ^ 8 := by cases a <;> decide
  rw [place_eq, place_eq, BitVec.or_comm, ← BitVec.ofNat_or, Nat.pow_zero, Nat.one_mul, ← Nat.two_pow_add_eq_or_of_lt low,
    Nat.add_comm, actionWord]

/-- The state after the executed action at the head has been told and has left the queue. -/
def State.actionDone (s : State) (r : RowId) (a : Action) : State := (s.actionResult r a).entryDone

/-- From `s` to `t` the action of row `r` at the head was told and left the queue (R17, R23). -/
structure ActionDone (r : RowId) (a : Action) (s t : State) : Prop where
  rows : t.rows = s.rows
  ports : t.ports = s.ports
  mem : t.mem = s.mem
  fabric : t.fabric = s.fabric
  queue : t.actionQueue = s.actionQueue.tail
  admission : t.admission = .idle
  now : t.now = s.now
  calm : Calm s t
  notice : s.roomFor 1 → s.hands t .actionResult r.val (s.row r).lastResult.code (actionWord a (s.row r).state)
    (if (s.row r).state = .empty then 0 else timeLow (s.row r).currentEnd)

theorem actionDone (s : State) (r : RowId) (a : Action) : ActionDone r a s (s.actionDone r a) where
  rows := rfl
  ports := rfl
  mem := rfl
  fabric := rfl
  queue := rfl
  admission := rfl
  now := rfl
  calm := (calm_actionResult s r a).trans (calm_entryDone _)
  notice room := by
    rw [← actionWord_eq]
    exact hands_within (handNotice_hands room _ _ _ _ _) List.prefix_rfl rfl List.prefix_rfl

/-- From `s` to `t` the action of row `r` was judged, which made the row `x`; it was told, and the Settlement Unit took
its next step (R17, R23, R143). -/
structure Finished (r : RowId) (a : Action) (x : Row) (s t : State) : Prop where
  row : t.row r = x
  other : ∀ q, q ≠ r → t.row q = s.row q
  ports : t.ports = s.ports
  mem : t.mem = s.mem
  fabric : t.fabric = s.fabric
  queue : t.actionQueue = s.actionQueue.tail
  admission : t.admission = .idle
  told : s.notice.inWriting <+: t.notice.inWriting
  waits : r ∈ s.settle.queue → r ∈ t.settle.queue ∨ ∃ w, t.settle.writing = some w ∧ w.row = r
  stands : s.settle.writing ≠ none → t.settle.queue = s.settle.queue
  notice : s.roomFor 1 → s.hands t .actionResult r.val x.lastResult.code (actionWord a x.state)
    (if x.state = .empty then 0 else timeLow x.currentEnd)

theorem finished (s : State) (r : RowId) (a : Action) (x : Row) :
    Finished r a x s ((s.setRow r x).actionDone r a).settleStep := by
  have done := actionDone (s.setRow r x) r a
  have settle : ((s.setRow r x).actionDone r a).settle = s.settle := rfl
  have row : (s.setRow r x).row r = x := (row_setRow s r r x).trans (if_pos rfl)
  generalize (s.setRow r x).actionDone r a = t at *
  have frame := settleStep_frame t
  have calm := calm_settleStep t
  have rows : t.settleStep.rows = t.rows := by rw [frame]
  have notice := done.notice
  rw [row] at notice
  refine ⟨?row, fun q hq => ?other, ?ports, ?mem, ?fabric, ?queue, ?admission, ?told, fun h => ?waits, fun h => ?stands,
    fun room => ?notice⟩
  case row => rw [row_eq_of_rows rows, row_eq_of_rows done.rows, row]
  case other => rw [row_eq_of_rows rows, row_eq_of_rows done.rows, row_setRow, if_neg hq]
  case ports => rw [frame]; exact done.ports
  case mem => rw [frame]; exact done.mem
  case fabric => rw [frame]; exact done.fabric
  case queue => rw [frame]; exact done.queue
  case admission => rw [frame]; exact done.admission
  case told => exact done.calm.inWriting.trans calm.inWriting
  case waits => exact settleStep_member t r (by rw [settle]; exact h)
  case stands => rw [settleStep_writing (by rw [settle]; exact h), settle]
  case notice => exact hands_within (notice room) List.prefix_rfl rfl calm.inWriting

/-- An action that leaves its row's state leaves every row's state. -/
theorem Finished.state_eq {r : RowId} {a : Action} {x : Row} {s t : State} (h : Finished r a x s t)
    (same : x.state = (s.row r).state) (q : RowId) : (t.row q).state = (s.row q).state := by
  by_cases here : q = r
  · rw [here, h.row, same]
  · rw [h.other q here]

/-! ## POST (R17 to R23) -/

theorem exec_admissionRowReadDone (s : State) : exec .admissionRowReadDone s = .next s.rowReadDone := rfl

theorem beginPost_head {s : State} {r : RowId} {rest : List QueuedAction} (idle : s.admission = .idle)
    (head : s.actionQueue = ⟨r, .post⟩ :: rest) :
    s.beginPost = ({ s with admission := .reading r } : State).offer .admission (.rowRead r) := by
  rw [State.beginPost, idle, head]

theorem beginPost_other {s : State} (h : s.admission ≠ .idle ∨ ∀ r rest, s.actionQueue ≠ ⟨r, .post⟩ :: rest) :
    s.beginPost = s := by
  unfold State.beginPost
  split
  · rename_i r rest idle head
    exact h.elim (fun no => absurd idle no) fun no => absurd head (no r rest)
  · rfl

theorem rowReadDone_head {s : State} {r : RowId} (h : s.inProgress = some (.rowRead r)) :
    s.rowReadDone = ((s.completeHead (.rowRead r)).finishPost r (s.rowWords r)).freeMside := by
  rw [State.rowReadDone, h]

theorem load_captured (x : Row) (ws : Vector Word 16) (i : Fin 8) :
    (x.load ws).captured[i] = ws[i.val] := by
  match i with
  | 0 | 1 | 2 | 3 | 4 | 5 | 6 | 7 => rfl

theorem rowWords_getElem (s : State) (r : RowId) (i : Nat) (h : i < 16) :
    (s.rowWords r)[i] = s.mem.readWord (s.base + 0x10000 + 64 * r.val + 4 * i) := by
  rw [State.rowWords, vecOf_getElem, Nat.add_assoc, Nat.add_assoc, ← Nat.add_assoc 0x10000]
  rfl

/-- The row that the words of memory make of row `r` (R18). -/
def State.loaded (s : State) (r : RowId) : Row := (s.row r).load (s.rowWords r)

/-- The row as its POST leaves it (R23). -/
def State.postedRow (s : State) (r : RowId) : Row := (s.loaded r).posted (s.postResult r (s.loaded r).captured)

theorem finishPost_eq (s : State) (r : RowId) :
    (s.completeHead (.rowRead r)).finishPost r (s.rowWords r)
      = ((s.completeHead (.rowRead r)).setRow r (s.postedRow r)).actionDone r .post := rfl

theorem posted_ok {x : Row} {result : LastResult} (h : result = .ok) :
    x.posted result = { x with state := .held, currentEnd := bookedEnd x.captured, lastResult := .ok } := if_pos h

theorem posted_failed {x : Row} {result : LastResult} (h : result ≠ .ok) :
    x.posted result = { x with state := .empty, lastResult := result } := if_neg h

theorem posted_lastResult (x : Row) (result : LastResult) : (x.posted result).lastResult = result := by
  by_cases h : result = .ok
  · rw [posted_ok h, h]
  · rw [posted_failed h]

theorem posted_words (x : Row) (result : LastResult) : (x.posted result).captured = x.captured
    ∧ (x.posted result).stageLow = x.stageLow ∧ (x.posted result).stageHigh = x.stageHigh := by
  by_cases h : result = .ok
  · rw [posted_ok h]
    exact ⟨rfl, rfl, rfl⟩
  · rw [posted_failed h]
    exact ⟨rfl, rfl, rfl⟩

/-- The words of ACTION_RESULT of a POST (R23). -/
theorem posted_told (x : Row) (result : LastResult) :
    actionWord .post (x.posted result).state = (if (x.posted result).lastResult = .ok then 0x201 else 1)
      ∧ (if (x.posted result).state = .empty then 0 else timeLow (x.posted result).currentEnd)
        = if (x.posted result).lastResult = .ok then x.captured[6] else 0 := by
  have heldWord : actionWord .post .held = 0x201 := by decide
  have emptyWord : actionWord .post .empty = 1 := by decide
  by_cases h : result = .ok
  · rw [posted_ok h]
    exact ⟨heldWord.trans (if_pos rfl).symm, (timeLow_timeOf _ _).trans (if_pos rfl).symm⟩
  · rw [posted_failed h]
    exact ⟨emptyWord.trans (if_neg h).symm, (if_neg h).symm⟩

/-- All that the completion of the row read of a POST does before M-side is free again (R18 to R23). -/
structure Posted (r : RowId) (s t : State) : Prop where
  row : t.row r = s.postedRow r
  other : ∀ q, q ≠ r → t.row q = s.row q
  ports : t.ports = s.ports
  mem : t.mem = s.mem
  queue : t.actionQueue = s.actionQueue.tail
  admission : t.admission = .idle
  notice : s.roomFor 1 → s.hands t .actionResult r.val (s.postedRow r).lastResult.code (actionWord .post (s.postedRow r).state)
    (if (s.postedRow r).state = .empty then 0 else timeLow (s.postedRow r).currentEnd)

theorem posted_finishPost (s : State) (r : RowId) (q : Path) :
    Posted r s (((s.completeHead (.rowRead r)).finishPost r (s.rowWords r)).withPath q) := by
  have done := actionDone ((s.completeHead (.rowRead r)).setRow r (s.postedRow r)) r .post
  have row : ((s.completeHead (.rowRead r)).setRow r (s.postedRow r)).row r = s.postedRow r :=
    (row_setRow _ r r _).trans (if_pos rfl)
  rw [finishPost_eq]
  generalize ((s.completeHead (.rowRead r)).setRow r (s.postedRow r)).actionDone r .post = t at *
  have notice := done.notice
  rw [row] at notice
  exact {
    row := (row_eq_of_rows done.rows r).trans row
    other := fun q hq => (row_eq_of_rows done.rows q).trans ((row_setRow _ r q _).trans (if_neg hq))
    ports := done.ports
    mem := done.mem
    queue := done.queue
    admission := done.admission
    notice := notice }

/-- Settles O33. -/
theorem postExecutes : Obligations.PostExecutes := by
  intro s
  refine ⟨fun r rest idle head => congrArg _ (beginPost_head idle head), fun other => congrArg _ (beginPost_other other),
    fun r rest held head => ?_⟩
  have posted := posted_finishPost s r
    { ((s.completeHead (.rowRead r)).finishPost r (s.rowWords r)).path with mside := .free }
  rw [exec_admissionRowReadDone, rowReadDone_head (inProgress_outbound held head), freeMside_eq]
  have free : (((s.completeHead (.rowRead r)).finishPost r (s.rowWords r)).withPath
    { ((s.completeHead (.rowRead r)).finishPost r (s.rowWords r)).path with mside := .free }).path.mside = .free := rfl
  generalize ((s.completeHead (.rowRead r)).finishPost r (s.rowWords r)).withPath
    { ((s.completeHead (.rowRead r)).finishPost r (s.rowWords r)).path with mside := .free } = u at *
  obtain ⟨captured, stageLow, stageHigh⟩ := posted_words (s.loaded r) (s.postResult r (s.loaded r).captured)
  obtain ⟨told, ends⟩ := posted_told (s.loaded r) (s.postResult r (s.loaded r).captured)
  have result := posted_lastResult (s.loaded r) (s.postResult r (s.loaded r).captured)
  refine ⟨(s.loaded r).captured, u, rfl, fun i => ?word, ?captured, ?low, ?high, ?result, fun ok => ?held, fun bad => ?empty,
    posted.other, posted.ports, posted.mem, posted.queue, posted.admission, free, fun room => ?notice⟩
  case word => rw [State.loaded, load_captured, rowWords_getElem]
  case captured => rw [posted.row]; exact captured
  case low => rw [posted.row, State.postedRow, stageLow]; exact rowWords_getElem s r 8 (by decide)
  case high => rw [posted.row, State.postedRow, stageHigh]; exact rowWords_getElem s r 9 (by decide)
  case result => rw [posted.row, State.postedRow, result]; rfl
  case held =>
    rw [posted.row, State.postedRow, result] at ok
    rw [posted.row, State.postedRow, posted_ok ok]
    exact ⟨rfl, rfl⟩
  case empty =>
    rw [posted.row, State.postedRow, result] at bad
    rw [posted.row, State.postedRow, posted_failed bad, endWord_eq, if_pos rfl]
    exact ⟨rfl, rfl⟩
  case notice =>
    have notice := posted.notice room
    rw [State.postedRow, told, ends] at notice
    rw [posted.row]
    exact notice

/-! ## AMEND (R17, R24, R25) -/

theorem headAction_eq {s : State} {r : RowId} {a : Action} {rest : List QueuedAction} (idle : s.admission = .idle)
    (head : s.actionQueue = ⟨r, a⟩ :: rest) : s.headAction a = some r := by
  rw [State.headAction, idle, head]
  exact if_pos rfl

theorem exec_amendExecute {s : State} {r : RowId} (h : s.headAction .amend = some r) :
    exec .amendExecute s = .next (s.runAmend r) := by
  have e : exec .amendExecute s = .next (match s.headAction .amend with
    | some r => s.runAmend r
    | none => s) := rfl
  rw [e, h]

theorem exec_cancelExecute {s : State} {r : RowId} (h : s.headAction .cancel = some r) :
    exec .cancelExecute s = .next (s.runCancel r) := by
  have e : exec .cancelExecute s = .next (match s.headAction .cancel with
    | some r => s.runCancel r
    | none => s) := rfl
  rw [e, h]

theorem finished_runAmend (s : State) (r : RowId) :
    Finished r .amend ((s.row r).amended (s.amendResult r)) s (s.runAmend r) := finished s r .amend _

theorem amendResult_ended {s : State} {r : RowId} (h : (s.row r).state = .ended) : s.amendResult r = .tooLate := by
  rw [State.amendResult]
  dsimp only
  rw [h]

theorem amendResult_held {s : State} {r : RowId} (h : (s.row r).state = .held) :
    s.amendResult r = s.amendChecks r (bookedStart (s.row r).captured).toNat
      (decide ((s.row r).proposedEnd.toNat ≤ (bookedStart (s.row r).captured).toNat)) := by
  rw [State.amendResult]
  dsimp only
  rw [h]

theorem amendResult_live {s : State} {r : RowId} (h : (s.row r).state = .live) :
    s.amendResult r = if s.fabric = .running then s.amendChecks r (s.row r).actualStart.toNat false else .wrongState := by
  rw [State.amendResult]
  dsimp only
  rw [h]

/-- The checks of R25, in the words of the proposed end. -/
theorem amendChecks_eq (s : State) (r : RowId) (start : Nat) {early : Bool} {c : Prop} [Decidable c]
    (h : early = true ↔ c) : s.amendChecks r start early =
      if (s.row r).stageHigh.extractLsb' 8 24 ≠ 0 then .malformed
      else if c ∨ start + 604800000 < (s.row r).proposedEnd.toNat then .malformed
      else if (s.row r).proposedEnd.toNat ≤ s.now.toNat then .tooLate
      else if (s.row r).currentEnd.toNat < (s.row r).proposedEnd.toNat
          ∧ s.capacityOk r (s.row r).captured start (s.row r).proposedEnd.toNat = false then .noCapacity
      else .ok := by
  have long : Config.longestBooking < (s.row r).proposedEnd.toNat - start
      ↔ start + 604800000 < (s.row r).proposedEnd.toNat := by
    rw [show Config.longestBooking = 604800000 from rfl]
    omega
  rw [State.amendChecks]
  exact ite_congr rfl (fun _ => rfl) fun _ => ite_of_iff (or_congr h long) _ _

/-- R25: the checks of a HELD or LIVE row, from the start of its window. -/
theorem amendResult_booked {s : State} {r : RowId}
    (h : (s.row r).state = .held ∨ ((s.row r).state = .live ∧ s.fabric = .running)) {start : Nat}
    (hs : start = if (s.row r).state = .held then (bookedStart (s.row r).captured).toNat
      else (s.row r).actualStart.toNat) :
    s.amendResult r =
      if (s.row r).stageHigh.extractLsb' 8 24 ≠ 0 then .malformed
      else if ((s.row r).state = .held ∧ (s.row r).proposedEnd.toNat ≤ start)
          ∨ start + 604800000 < (s.row r).proposedEnd.toNat then .malformed
      else if (s.row r).proposedEnd.toNat ≤ s.now.toNat then .tooLate
      else if (s.row r).currentEnd.toNat < (s.row r).proposedEnd.toNat
          ∧ s.capacityOk r (s.row r).captured start (s.row r).proposedEnd.toNat = false then .noCapacity
      else .ok := by
  rcases h with held | ⟨live, running⟩
  · rw [if_pos held] at hs
    rw [amendResult_held held, ← hs]
    exact amendChecks_eq s r start (by rw [decide_eq_true_iff]; exact (and_iff_right held).symm)
  · have notHeld : (s.row r).state ≠ .held := by rw [live]; decide
    rw [if_neg notHeld] at hs
    rw [amendResult_live live, if_pos running, ← hs]
    exact amendChecks_eq s r start (iff_of_false (by decide) fun c => notHeld c.1)

/-- Settles O34. -/
theorem amendExecutes : Obligations.AmendExecutes := by
  intro r rest s idle head
  have done := finished_runAmend s r
  refine ⟨_, _, s.runAmend r, rfl, rfl, exec_amendExecute (headAction_eq idle head), ?_⟩
  rw [done.row]
  refine ⟨rfl, amendResult_ended, fun ⟨live, stopping⟩ => ?stopping, fun booked => amendResult_booked booked rfl, ?queue,
    done.admission, done.other, done.notice, done.ports, done.mem, done.fabric⟩
  case stopping =>
    refine (amendResult_live live).trans (if_neg ?_)
    rw [stopping]
    decide
  case queue => rw [done.queue, head]; rfl

/-! ## CANCEL (R17, R26) -/

theorem cancelEffect_held {s : State} {r : RowId} (h : (s.row r).state = .held) :
    s.cancelEffect r = s.setRow r { s.row r with state := .empty } := by
  rw [State.cancelEffect, h]

theorem cancelEffect_live {s : State} {r : RowId} (h : (s.row r).state = .live) :
    s.cancelEffect r = s.endLive r .cancelled := by
  rw [State.cancelEffect, h]

theorem cancelEffect_other {s : State} {r : RowId} (held : (s.row r).state ≠ .held) (live : (s.row r).state ≠ .live) :
    s.cancelEffect r = s := by
  unfold State.cancelEffect
  split
  · exact absurd ‹_› held
  · exact absurd ‹_› live
  · rfl
  · rfl
  · rfl

theorem cancelResult_booked {s : State} {r : RowId} (h : (s.row r).state = .held ∨ (s.row r).state = .live) :
    s.cancelResult r = .ok := if_pos ((isBooked_iff _).mpr h)

theorem cancelResult_ended {s : State} {r : RowId} (h : (s.row r).state = .ended) : s.cancelResult r = .tooLate := by
  rw [State.cancelResult, if_neg]
  rw [isBooked_iff, h]
  decide

theorem finished_runCancel (s : State) (r : RowId) :
    Finished r .cancel (((s.cancelEffect r).row r).answered (s.cancelResult r)) (s.cancelEffect r) (s.runCancel r) :=
  finished (s.cancelEffect r) r .cancel _

/-- What the effect of a CANCEL leaves of a row, in every state of it. -/
theorem cancelEffect_kept (s : State) (r : RowId) : (s.cancelEffect r).actionQueue = s.actionQueue
    ∧ (∀ q, q ≠ r → (s.cancelEffect r).row q = s.row q) ∧ (s.cancelEffect r).mem = s.mem := by
  by_cases held : (s.row r).state = .held
  · rw [cancelEffect_held held]
    exact ⟨rfl, fun q hq => by rw [row_setRow, if_neg hq], rfl⟩
  · by_cases live : (s.row r).state = .live
    · rw [cancelEffect_live live]
      have ended := (ended_endLive s r .cancelled).1
      exact ⟨ended.queue, ended.other, ended.mem⟩
    · rw [cancelEffect_other held live]
      exact ⟨rfl, fun _ _ => rfl, rfl⟩

theorem cancelWord_empty : actionWord .cancel .empty = 3 := by decide

theorem cancelWord_ended : actionWord .cancel .ended = 0x403 := by decide

/-- Settles O35, by the state of the row. -/
theorem cancelExecutes : Obligations.CancelExecutes := by
  intro r rest s idle head
  have done := finished_runCancel s r
  obtain ⟨queue, other, mem⟩ := cancelEffect_kept s r
  refine ⟨s.runCancel r, exec_cancelExecute (headAction_eq idle head), fun held => ?held, fun ended => ?ended,
    fun live => ?live, ?queue, done.admission, fun q hq => (done.other q hq).trans (other q hq), done.mem.trans mem⟩
  case held =>
    rw [cancelEffect_held held, cancelResult_booked (.inl held), row_setRow, if_pos rfl] at done
    refine ⟨done.row, done.ports, done.fabric, fun room => ?_⟩
    have notice := done.notice room
    rw [← cancelWord_empty]
    exact notice
  case ended =>
    rw [cancelEffect_other (by rw [ended]; decide) (by rw [ended]; decide), cancelResult_ended ended] at done
    refine ⟨done.row, done.ports, done.fabric, fun room => ?_⟩
    have notice := done.notice room
    have state : ((s.row r).answered .tooLate).state = .ended := ended
    rw [state, cancelWord_ended] at notice
    exact notice
  case live =>
    obtain ⟨ended, told, settle⟩ := ended_endLive s r .cancelled
    rw [cancelEffect_live live, cancelResult_booked (.inr live)] at done
    have row := done.row.trans (congrArg (fun x => x.answered .ok) ended.row)
    have same : (∀ q, ((s.runCancel r).row q).state ≠ .live) ↔ ∀ q, ((s.endLive r .cancelled).row q).state ≠ .live :=
      forall_congr' fun q => by rw [done.state_eq rfl q]
    have port : ∀ p, (s.runCancel r).port p = (s.endLive r .cancelled).port p := port_eq_of_ports done.ports
    refine ⟨row, fun p => ?port, fun p i => ?slots, ?waits, fun writing => ?stands, ?fabric, fun room => ?endedTold,
      fun changed room => ?haltTold, fun room => ?result⟩
    case port => rw [port]; exact ended.port p
    case slots => rw [port]; exact ended.slots p i
    case waits => exact done.waits (by rw [settle]; exact List.mem_append_right _ List.mem_cons_self)
    case stands =>
      rw [done.stands (by rw [settle]; exact writing), settle]
    case fabric =>
      rw [done.fabric, ended.fabric]
      exact ite_of_iff (and_congr_right fun _ => same.symm) _ _
    case endedTold => exact hands_within (ended.notice room) List.prefix_rfl rfl done.told
    case haltTold =>
      rw [done.fabric] at changed
      exact hands_within (ended.halted changed room) List.prefix_rfl rfl done.told
    case result =>
      have notice := done.notice (told.room (j := 2) room)
      rw [ended.row] at notice
      rw [← cancelWord_ended]
      exact hands_within notice (calm_endLive s r .cancelled).inWriting ended.now List.prefix_rfl
  case queue => rw [done.queue, queue, head]; rfl

end Sys2Proof.Machine
end

section
/-! PROOFS. The checks of POST on the captured words (R2, R3, R19 to R22). -/

namespace Sys2Proof.Machine

/-! ## The named ports (R2, R3) -/

/-- Destination field `i` of W3. -/
def destField (w : Vector Word 8) (i : Nat) : Nat := (w[3].extractLsb' (5 * i) 5).toNat

/-- The port fields that a booking uses name ports. -/
def fieldsNamePorts (w : Vector Word 8) : Prop :=
  sourceField w ≤ 23 ∧ ∀ i, i < 4 → i < destCount w → destField w i ≤ 23

theorem mem_destPorts {w : Vector Word 8} (named : ∀ i, i < 4 → i < destCount w → destField w i ≤ 23) (p : PortId) :
    p ∈ destPorts w ↔ ∃ i, i < 4 ∧ i < destCount w ∧ destField w i = p.val := by
  rw [destPorts, List.mem_map]
  refine ⟨?_, fun ⟨i, h4, hc, hp⟩ => ⟨p.val, (mem_used w _).mpr ⟨i, h4, hc, hp⟩, portOfField_self p⟩⟩
  rintro ⟨x, hx, rfl⟩
  obtain ⟨i, h4, hc, rfl⟩ := (mem_used w x).mp hx
  exact ⟨i, h4, hc, (portOfField_val (named i h4 hc)).symm⟩

theorem sourcePort_eq {w : Vector Word 8} {p : PortId} (h : p.val = sourceField w) : sourcePort w = p := by
  rw [sourcePort, ← h, portOfField_self]

theorem mem_namedPorts {w : Vector Word 8} (named : fieldsNamePorts w) (count : destCount w ≤ 4) (p : PortId) :
    p ∈ namedPorts w ↔ p.val = sourceField w ∨ ∃ i, i < destCount w ∧ p.val = destField w i := by
  have source : p = sourcePort w ↔ p.val = sourceField w := by
    refine ⟨?_, fun h => (sourcePort_eq h).symm⟩
    rintro rfl
    exact portOfField_val named.1
  rw [namedPorts, List.mem_cons, source, mem_destPorts named.2]
  exact or_congr_right ⟨fun ⟨i, _, hc, h⟩ => ⟨i, hc, h.symm⟩, fun ⟨i, hc, h⟩ => ⟨i, by omega, hc, h.symm⟩⟩

theorem inPair_eq (s : State) (p : PortId) : s.inPair p = (s.port (evenPort (pairOf p))).cfg.pairMode := by
  rw [State.inPair, evenOf_eq]

theorem logical_val (s : State) (p : PortId) :
    (s.logical p).val = if (s.port (evenPort (pairOf p))).cfg.pairMode = true then p.val / 2 * 2 else p.val := by
  rw [State.logical, inPair_eq, evenOf_eq]
  split
  · simp only [evenPort, pairOf]
    omega
  · rfl

/-! ## MALFORMED, BAD_PORT and TOO_LATE (R19, R20, R21) -/

theorem spareSet_iff (w : Vector Word 8) : spareSet w = true ↔
    (w[2].extractLsb' 5 3 ≠ 0 ∨ w[2].extractLsb' 14 2 ≠ 0 ∨ w[2].extractLsb' 17 15 ≠ 0
      ∨ w[3].extractLsb' 23 9 ≠ 0 ∨ w[5].extractLsb' 8 24 ≠ 0 ∨ w[7].extractLsb' 8 24 ≠ 0) := by
  simp only [spareSet, Bool.or_eq_true, bne_iff_ne, or_assoc]

theorem unusedSet_iff (w : Vector Word 8) : ((destFields w).drop (destCount w)).any (· != 0) = true ↔
    ∃ i, i < 4 ∧ destCount w ≤ i ∧ destField w i ≠ 0 := by
  rw [List.any_eq_true]
  refine ⟨?_, fun ⟨i, h4, hc, h⟩ => ⟨_, (mem_unused w _).mpr ⟨i, h4, hc, rfl⟩, bne_iff_ne.mpr h⟩⟩
  rintro ⟨x, hx, h⟩
  obtain ⟨i, h4, hc, rfl⟩ := (mem_unused w x).mp hx
  exact ⟨i, h4, hc, bne_iff_ne.mp h⟩

theorem usedAbove_iff (w : Vector Word 8) :
    ((destFields w).take (destCount w)).any (fun d => decide (23 < d)) = true ↔
      ∃ i, i < 4 ∧ i < destCount w ∧ 23 < destField w i := by
  rw [List.any_eq_true]
  refine ⟨?_, fun ⟨i, h4, hc, h⟩ => ⟨_, (mem_used w _).mpr ⟨i, h4, hc, rfl⟩, decide_eq_true h⟩⟩
  rintro ⟨x, hx, h⟩
  obtain ⟨i, h4, hc, rfl⟩ := (mem_used w x).mp hx
  exact ⟨i, h4, hc, of_decide_eq_true h⟩

/-- Two named ports are on one logical port (R19). -/
def State.clashes (s : State) (w : Vector Word 8) : Prop :=
  ∃ p q : PortId, s.logical p = s.logical q
    ∧ ((∃ i j, i < j ∧ j < 4 ∧ j < destCount w ∧ destField w i = p.val ∧ destField w j = q.val)
      ∨ (sourceField w = p.val ∧ ∃ j, j < 4 ∧ j < destCount w ∧ destField w j = q.val))

/-- R19: where a used port field names no port the booking is MALFORMED already, so that the ports can be compared by
their fields. -/
theorem above_or_clash (s : State) (w : Vector Word 8) :
    (23 < sourceField w ∨ (∃ i, i < 4 ∧ i < destCount w ∧ 23 < destField w i) ∨ ¬((namedPorts w).map s.logical).Nodup)
      ↔ (23 < sourceField w ∨ (∃ i, i < 4 ∧ i < destCount w ∧ 23 < destField w i) ∨ s.clashes w) := by
  by_cases source : 23 < sourceField w
  · exact iff_of_true (.inl source) (.inl source)
  · by_cases dest : ∃ i, i < 4 ∧ i < destCount w ∧ 23 < destField w i
    · exact iff_of_true (.inr (.inl dest)) (.inr (.inl dest))
    · have named : ∀ i, i < 4 → i < destCount w → destField w i ≤ 23 := fun i h4 hc =>
        Nat.le_of_not_lt fun h => dest ⟨i, h4, hc, h⟩
      exact or_congr_right (or_congr_right (nodup_named s w (Nat.le_of_not_lt source) named))

theorem malformed_iff (s : State) (w : Vector Word 8) : s.malformed w = true ↔
    (w[2].extractLsb' 5 3 ≠ 0 ∨ w[2].extractLsb' 14 2 ≠ 0 ∨ w[2].extractLsb' 17 15 ≠ 0
      ∨ w[3].extractLsb' 23 9 ≠ 0 ∨ w[5].extractLsb' 8 24 ≠ 0 ∨ w[7].extractLsb' 8 24 ≠ 0)
    ∨ slotCount w = 0 ∨ 8 < slotCount w ∨ destCount w = 0 ∨ 4 < destCount w
    ∨ (∃ i, i < 4 ∧ destCount w ≤ i ∧ destField w i ≠ 0)
    ∨ 23 < sourceField w ∨ (∃ i, i < 4 ∧ i < destCount w ∧ 23 < destField w i) ∨ s.clashes w
    ∨ (bookedEnd w).toNat ≤ (bookedStart w).toNat ∨ (bookedStart w).toNat + 604800000 < (bookedEnd w).toNat := by
  have long : Config.longestBooking < (bookedEnd w).toNat - (bookedStart w).toNat
      ↔ (bookedStart w).toNat + 604800000 < (bookedEnd w).toNat := by
    rw [show Config.longestBooking = 604800000 from rfl]
    omega
  have ports := above_or_clash s w
  rw [State.malformed]
  simp only [Bool.or_eq_true, beq_iff_eq, decide_eq_true_iff, Bool.not_eq_true', decide_eq_false_iff_not]
  rw [spareSet_iff, unusedSet_iff, usedAbove_iff, long]
  grind

theorem badPort_iff {s : State} {w : Vector Word 8} (h : s.malformed w = false) : s.badPort w = true ↔
    ∃ p : PortId, (p.val = sourceField w ∨ ∃ i, i < destCount w ∧ p.val = destField w i)
      ∧ ((s.port p).cfg.enable = false ∨ (p.val % 2 = 1 ∧ (s.port (evenPort (pairOf p))).cfg.pairMode = true)) := by
  have formed := mt (malformed_iff s w).mpr (by rw [h]; decide)
  have named : fieldsNamePorts w := ⟨by grind, fun i h4 hc => by grind⟩
  have count : destCount w ≤ 4 := by grind
  rw [State.badPort, List.any_eq_true]
  refine exists_congr fun p => and_congr (mem_namedPorts named count p) ?_
  rw [Bool.or_eq_true, Bool.not_eq_true', Bool.and_eq_true, inPair_eq, isOdd, beq_iff_eq]

theorem postTooLate_iff (s : State) (w : Vector Word 8) : s.postTooLate w = true ↔
    (bookedEnd w).toNat ≤ s.now.toNat ∨ ((bookedStart w).toNat < s.now.toNat ∧ w[2].getLsbD 16 = false) := by
  rw [State.postTooLate, Bool.or_eq_true, Bool.and_eq_true, decide_eq_true_iff, decide_eq_true_iff, Bool.not_eq_true', lateOk]

/-! ## Capacity (R22) -/

/-- Row `q` is counted against row `r` over [lo, hi) (R22). -/
def State.counts (s : State) (r : RowId) (lo hi : Nat) (q : RowId) : Bool := decide (q ≠ r) && (s.row q).overlaps lo hi

theorem overlaps_iff (x : Row) (lo hi : Nat) : x.overlaps lo hi = true ↔ (x.state = .held ∨ x.state = .live)
    ∧ (if x.state = .live then x.actualStart else bookedStart x.captured).toNat < hi ∧ lo < x.currentEnd.toNat := by
  have start : x.windowStart = (if x.state = .live then x.actualStart else bookedStart x.captured).toNat :=
    (apply_ite BitVec.toNat _ _ _).symm
  rw [Row.overlaps, Bool.and_eq_true, Bool.and_eq_true, isBooked_iff, decide_eq_true_iff, decide_eq_true_iff, start,
    and_assoc]

theorem slotsKept_eq (s : State) (r : RowId) (lo hi : Nat) {uses : Row → Bool} {c : RowId → Prop} [DecidablePred c]
    (h : ∀ q, uses (s.row q) = true ↔ c q) : s.slotsKept r uses lo hi = ((List.finRange 256).map fun q =>
      if s.counts r lo hi q = true ∧ c q then slotCount (s.row q).captured else 0).sum := by
  refine congrArg List.sum (List.map_congr_left fun q _ => ite_of_iff ?_ _ _)
  rw [State.counts, Bool.and_eq_true, decide_eq_true_iff, h q, and_assoc]
  exact and_congr_right fun _ => and_comm

theorem capacityOk_iff (s : State) (r : RowId) (w : Vector Word 8) (lo hi : Nat) : s.capacityOk r w lo hi = true ↔
    s.slotsKept r (fun x => s.usesRx x.captured (s.logical (sourcePort w))) lo hi + slotCount w ≤ 40
      ∧ ∀ d ∈ destPorts w, s.slotsKept r (fun x => s.usesTx x.captured (s.logical d)) lo hi + slotCount w ≤ 40 := by
  rw [State.capacityOk, Bool.and_eq_true, decide_eq_true_iff, List.all_eq_true]
  exact and_congr_right fun _ => forall_congr' fun d => imp_congr_right fun _ => decide_eq_true_iff

theorem usesRx_iff (s : State) (w : Vector Word 8) (l : PortId) : s.usesRx w l = true ↔ s.logical (sourcePort w) = l :=
  beq_iff_eq

theorem usesTx_iff (s : State) (w : Vector Word 8) (l : PortId) :
    s.usesTx w l = true ↔ ∃ d ∈ destPorts w, s.logical d = l := by
  rw [State.usesTx, List.any_eq_true]
  exact exists_congr fun d => and_congr_right fun _ => beq_iff_eq

/-- Settles O32, check by check. -/
theorem postChecksOnCapturedWords : Obligations.PostChecksOnCapturedWords := by
  intro w s
  refine ⟨slotCount w, sourceField w, destCount w, destField w, bookedStart w, bookedEnd w, rfl, rfl, rfl, fun _ => rfl,
    rfl, rfl, rfl, rfl, rfl, fun p hp => sourcePort_eq hp, fun p named => mem_destPorts named p, logical_val s,
    malformed_iff s w, badPort_iff, postTooLate_iff s w, fun r lo hi => ?_⟩
  refine ⟨s.counts r lo hi, fun l => s.slotsKept r (fun x => s.usesRx x.captured l) lo hi,
    fun l => s.slotsKept r (fun x => s.usesTx x.captured l) lo hi, fun q => ?kept, fun q ended late => ?past,
    fun l => slotsKept_eq s r lo hi fun q => usesRx_iff s _ l, fun l => slotsKept_eq s r lo hi fun q => usesTx_iff s _ l,
    capacityOk_iff s r w lo hi⟩
  case kept => rw [State.counts, Bool.and_eq_true, decide_eq_true_iff, overlaps_iff]
  case past =>
    rw [← Bool.not_eq_true, State.counts, Bool.and_eq_true, overlaps_iff]
    omega

end Sys2Proof.Machine
end

section
/-! PROOFS. Writes of P0: what is refused (R51), and what enable, disable, pair mode and the options do (R50, R52, R53,
R92, R93). -/

namespace Sys2Proof.Machine

/-! ## P0 at the bus (R50, R51) -/

/-- The host's write of P0. -/
theorem hostIssue_config {s : State} (hi : s.busIdle) (p : PortId) (v : Word) :
    s.hostIssue (s.writeOne (portOffset p .p0) v) =
      if s.configOk p v then
        ((s.granted (s.writeOne (portOffset p .p0) v)).applyConfig p v).setPhase (s.writeOne (portOffset p .p0) v)
          (.writing [[((s.busAddr (portOffset p .p0)).toNat, v)]] [])
      else s.answered .refused := by
  have ok : (s.granted (s.writeOne (portOffset p .p0) v)).configOk p v = s.configOk p v := rfl
  have judged : ((s.granted (s.writeOne (portOffset p .p0) v)).captureStaging (.port p .p0) v).writeOk (.port p .p0) v
      = s.configOk p v := rfl
  have taken : (s.granted (s.writeOne (portOffset p .p0) v)).captureWord (.port p .p0) v
      = (s.granted (s.writeOne (portOffset p .p0) v)).takeConfig p v := rfl
  rw [write_otherWord hi (portOffset_lt p .p0) (locate_port p .p0) rfl, judged, taken, State.takeConfig, ok]
  split
  · rfl
  · rfl

theorem exec_portEnable (p : PortId) (v : Word) (s : State) :
    exec (.portEnable p v) s = .next (s.hostIssue (s.writeOne (portOffset p .p0) (setBit v 0 true))) := rfl

theorem exec_portDisable (p : PortId) (v : Word) (s : State) :
    exec (.portDisable p v) s = .next (s.hostIssue (s.writeOne (portOffset p .p0) (setBit v 0 false))) := rfl

theorem exec_pairModeOn (k : PairId) (v : Word) (s : State) :
    exec (.pairModeOn k v) s = .next (s.hostIssue (s.writeOne (portOffset (evenPort k) .p0) (setBit v 1 true))) := rfl

theorem exec_pairModeOff (k : PairId) (v : Word) (s : State) :
    exec (.pairModeOff k v) s = .next (s.hostIssue (s.writeOne (portOffset (evenPort k) .p0) (setBit v 1 false))) := rfl

theorem exec_portOptionsWrite (p : PortId) (v : Word) (s : State) :
    exec (.portOptionsWrite p v) s = .next (s.hostIssue (s.writeOne (portOffset p .p0) (s.optionsWord p v))) := rfl

/-! ## Refusals (R51) -/

theorem p0SpareClear_false (v : Word) :
    p0SpareClear v = false ↔ v.extractLsb' 4 4 ≠ 0 ∨ v.extractLsb' 16 16 ≠ 0 := by
  rw [p0SpareClear, Bool.and_eq_false_iff, beq_eq_false_iff_ne, beq_eq_false_iff_ne]

theorem bookedUses_iff (s : State) (l : PortId) : s.bookedUses l = true ↔
    ∃ r, ((s.row r).state = .held ∨ (s.row r).state = .live) ∧ s.booksPort (s.row r).captured l := by
  rw [State.bookedUses, anyRow_eq_true]
  exact exists_congr fun r => by rw [Bool.and_eq_true, isBooked_iff, uses_iff]

theorem bookedNames_iff (s : State) (p : PortId) : s.bookedNames p = true ↔
    ∃ r, ((s.row r).state = .held ∨ (s.row r).state = .live)
      ∧ (p = sourcePort (s.row r).captured ∨ p ∈ destPorts (s.row r).captured) := by
  rw [State.bookedNames, anyRow_eq_true]
  exact exists_congr fun r => by rw [Bool.and_eq_true, isBooked_iff, List.contains_iff_mem, namedPorts, List.mem_cons]

/-- A booking names a member of the pair of even port `p`. -/
theorem pairNamed_iff (s : State) (p : PortId) :
    (s.bookedNames p = true ∨ s.bookedNames (oddPort (pairOf p)) = true) ↔
      ∃ r q, ((s.row r).state = .held ∨ (s.row r).state = .live) ∧ (q = p ∨ q = oddPort (pairOf p))
        ∧ (q = sourcePort (s.row r).captured ∨ q ∈ destPorts (s.row r).captured) := by
  rw [bookedNames_iff, bookedNames_iff]
  constructor
  · rintro (⟨r, booked, named⟩ | ⟨r, booked, named⟩)
    · exact ⟨r, _, booked, .inl rfl, named⟩
    · exact ⟨r, _, booked, .inr rfl, named⟩
  · rintro ⟨r, q, booked, rfl | rfl, named⟩
    · exact .inl ⟨r, booked, named⟩
    · exact .inr ⟨r, booked, named⟩

theorem isOdd_iff (p : PortId) : isOdd p = true ↔ p.val % 2 = 1 := beq_iff_eq

theorem isOdd_false (p : PortId) : isOdd p = false ↔ p.val % 2 = 0 := by
  rw [isOdd, beq_eq_false_iff_ne]
  omega

/-- The test on a member of the pair of even port `p`. -/
theorem pairClaimed_iff (s : State) {p : PortId} (even : p.val % 2 = 0) :
    (s.claimed = some p ∨ s.claimed = some (oddPort (pairOf p))) ↔ s.prover.running = true
      ∧ (s.prover.port = BitVec.ofNat 32 p.val ∨ s.prover.port = BitVec.ofNat 32 (p.val + 1)) := by
  have odd : (oddPort (pairOf p)).val = p.val + 1 := by
    simp only [oddPort, pairOf]
    omega
  rw [claimed_iff, claimed_iff, odd, and_or_left]

/-- The four refusals of R51 and R53, each as its own test. -/
theorem configOk_false (s : State) (p : PortId) (v : Word) : s.configOk p v = false ↔
    p0SpareClear v = false
    ∨ (isOdd p = true ∧ (configOf v).pairMode = true)
    ∨ ((s.port p).cfg.enable = true ∧ (configOf v).enable = false
      ∧ (s.bookedUses (s.logical p) = true ∨ s.inPair p = true))
    ∨ (isOdd p = false ∧ (configOf v).pairMode ≠ (s.port p).cfg.pairMode
      ∧ ((s.bookedNames p = true ∨ s.bookedNames (oddPort (pairOf p)) = true) ∨ s.actionQueue ≠ []
        ∨ (s.claimed = some p ∨ s.claimed = some (oddPort (pairOf p)))))
    ∨ (isOdd p = false ∧ (configOf v).pairMode = true ∧ (s.port p).cfg.pairMode = false
      ∧ ((configOf v).enable = false ∨ (s.port (oddPort (pairOf p))).cfg.enable = false)) := by
  have queue : s.actionQueue.isEmpty = false ↔ s.actionQueue ≠ [] := by
    rw [← Bool.not_eq_true, List.isEmpty_iff]
  simp only [State.configOk, Bool.and_eq_false_iff, Bool.not_eq_false', Bool.and_eq_true, Bool.or_eq_true,
    Bool.not_eq_true', bne_iff_ne, beq_iff_eq, queue, and_assoc, or_assoc]

/-- Settles O23: each refusal of the list of R51, and the refused write. -/
theorem configWriteRefusals : Obligations.ConfigWriteRefusals := by
  intro p v s
  refine ⟨?refusals, fun hi no => ?refused⟩
  case refusals =>
    rw [configOk_false, p0SpareClear_false, bookedUses_iff, pairNamed_iff, isOdd_iff, isOdd_false, inPair_eq]
    refine or_congr_right (or_congr_right (or_congr_right (or_congr_left ?_)))
    refine and_congr_right fun even => and_congr_right fun _ => or_congr_right (or_congr_right ?_)
    exact pairClaimed_iff s even
  case refused =>
    have off : 0x1000 + 128 * p.val = portOffset p .p0 := rfl
    rw [off, exec_writeOne s v (portOffset_lt p .p0) (by unfold portOffset portBase; omega), hostIssue_config hi, no,
      if_neg (by decide)]

/-! ## Enable and disable (R50, R52, R92, R93) -/

theorem setPort_setPort (s : State) (p : PortId) (a b : Port) : (s.setPort p a).setPort p b = s.setPort p b := by
  simp [State.setPort]

/-- The fields of a word one of whose low bits a command sets. -/
theorem configOf_setBit (v : Word) {i : Nat} (b : Bool) (h : i < 8) : configOf (setBit v i b) =
    ⟨if 0 = i then b else v.getLsbD 0, if 1 = i then b else v.getLsbD 1, if 2 = i then b else v.getLsbD 2,
      if 3 = i then b else v.getLsbD 3, v.extractLsb' 8 8⟩ := by
  have low : i < 32 := by omega
  rw [configOf, setBit_getLsbD v i 0 b low (by decide), setBit_getLsbD v i 1 b low (by decide),
    setBit_getLsbD v i 2 b low (by decide), setBit_getLsbD v i 3 b low (by decide), setBit_high v i b h]

theorem configOf_enable (v : Word) (b : Bool) :
    configOf (setBit v 0 b) = ⟨b, v.getLsbD 1, v.getLsbD 2, v.getLsbD 3, v.extractLsb' 8 8⟩ :=
  configOf_setBit v b (by decide)

theorem configOf_pairMode (v : Word) (b : Bool) :
    configOf (setBit v 1 b) = ⟨v.getLsbD 0, b, v.getLsbD 2, v.getLsbD 3, v.extractLsb' 8 8⟩ :=
  configOf_setBit v b (by decide)

/-- The options word of a port leaves its enable and its pair mode. -/
theorem configOf_options (s : State) (p : PortId) (v : Word) : configOf (s.optionsWord p v) =
    ⟨(s.port p).cfg.enable, (s.port p).cfg.pairMode, v.getLsbD 2, v.getLsbD 3, v.extractLsb' 8 8⟩ := by
  have bit (j : Nat) (h : j < 32) := setBit_getLsbD v 0 j (s.port p).cfg.enable (by decide) h
  rw [State.optionsWord, configOf_pairMode, bit 0 (by decide), bit 2 (by decide), bit 3 (by decide),
    setBit_high v 0 _ (by decide)]
  rfl

/-- The port that a word with configuration `c` enables (R78, R92). -/
def Port.enabledWith (o : Port) (c : PortConfig) : Port :=
  { o with
    cfg := c
    link := .acquire, receiver := .searching none 0, lastOffset := none
    rdy := ⟨false, 0⟩, backup := ⟨false, 0⟩, inputLoss := ⟨false, 0⟩
    repBackup := false, repInputLoss := false, nearEnd := 0, farEnd := 0, hits := 0, slip := false
    window := none, tReady := none, tHold := none, tRestore := none }

theorem enableTaken_enables {s : State} {p : PortId} {v : Word} (was : (s.port p).cfg.enable = false)
    (now : (configOf v).enable = true) : s.enableTaken p v =
      (s.setPort p ((s.port p).enabledWith { configOf v with pairMode := (s.port p).cfg.pairMode })).handNotice
        .linkState p.val 1 (BitVec.ofNat 32 (s.port p).link.code) 1 := by
  rw [State.enableTaken, was, now]
  refine (if_pos rfl).trans ?_
  rw [State.enablePort, State.transition, State.setConfig, setPort_port_self, setPort_setPort]
  rfl

theorem configOf_same {v : Word} {b : Bool} (h : (configOf v).pairMode = b) : { configOf v with pairMode := b } = configOf v := by
  rw [← h]

/-- Settles O24. -/
theorem portEnableEntersAcquire : Obligations.PortEnableEntersAcquire := by
  intro p v s hi
  rw [exec_portEnable, hostIssue_config hi]
  refine ⟨fun ⟨ok, was, same⟩ => ⟨_, rfl, ?_⟩, fun no => by rw [no, if_neg (by decide)]⟩
  have pairMode : (configOf (setBit v 0 true)).pairMode
      = ((s.granted (s.writeOne (portOffset p .p0) (setBit v 0 true))).port p).cfg.pairMode := by
    rw [configOf_enable]
    exact same
  rw [if_pos ok, applyConfig_eq, if_pos pairMode, enableTaken_enables (s := s.granted _) was (by rw [configOf_enable]),
    configOf_same pairMode, configOf_enable]
  rfl

/-! A port that no booking uses -/

/-- No LIVE booking uses port `p`, which is no member of a pair in pair mode: a change of its carrying flag reaches no
row. -/
structure Unused (s : State) (p : PortId) : Prop where
  alone : s.inPair p = false
  free : ∀ r, (s.row r).state = .live → s.uses (s.row r).captured (s.logical p) = false

theorem inPair_congr {s t : State} (h : ∀ q, (t.port q).cfg.pairMode = (s.port q).cfg.pairMode) (q : PortId) :
    t.inPair q = s.inPair q := by
  rw [State.inPair, h]
  rfl

theorem uses_congr {s t : State} (h : ∀ q, (t.port q).cfg.pairMode = (s.port q).cfg.pairMode) (w : Vector Word 8)
    (p : PortId) : t.uses w (t.logical p) = s.uses w (s.logical p) := by
  have logical : t.logical = s.logical := funext fun q => by rw [State.logical, inPair_congr h]; rfl
  rw [State.uses, State.usesRx, State.usesTx, logical]
  rfl

theorem Unused.congr {s t : State} {p : PortId} (h : Unused s p) (rows : t.rows = s.rows)
    (mode : ∀ q, (t.port q).cfg.pairMode = (s.port q).cfg.pairMode) : Unused t p where
  alone := (inPair_congr mode p).trans h.alone
  free r live := by
    rw [row_eq_of_rows rows] at live ⊢
    rw [uses_congr mode]
    exact h.free r live

theorem rows_ext {s t : State} (h : ∀ r, t.row r = s.row r) : t.rows = s.rows :=
  Vector.ext fun i hi => h ⟨i, hi⟩

theorem recompose_unused {s : State} {p : PortId} (h : Unused s p) : (s.recompose p).rows = s.rows := by
  by_cases changed : ((s.recompose p).port p).carrying = (s.port p).carrying
  · have idle : s.mayCarry p = (s.port p).carrying := by
      rw [← changed, recompose_port, if_pos rfl]
    rw [recompose_idle idle]
  · have stays : switchedOver s (s.recompose p) p = false := by
      rw [switchedOver, h.alone, Bool.false_and, Bool.false_and]
    refine rows_ext fun r => ?_
    rw [(carryingTaken_recompose changed).row r, stays, Bool.false_and, if_neg (by decide)]
    by_cases live : (s.row r).state = .live
    · rw [h.free r live, if_neg (by decide), Row.reheld, if_neg fun c => c.2 rfl]
    · exact reheld_idle _ live

theorem proverDisable_unused {s : State} {p : PortId} (h : Unused s p) : (s.proverDisable p).rows = s.rows := by
  unfold State.proverDisable
  split
  · rename_i claimed
    rw [proverEnd_form, ((claimed_iff s p).mp claimed).2, portOfNat_val]
    exact recompose_unused (s := s.proverStopped .aborted) (h.congr rfl fun _ => rfl)
  · rfl

theorem disablePort_unused {s : State} {p : PortId} (h : Unused s p) : (s.disablePort p).rows = s.rows := by
  have mode (q : PortId) : ((s.disablePort p).port q).cfg.pairMode = (s.port q).cfg.pairMode := by rw [disablePort_cfg]
  unfold State.disablePort at mode ⊢
  extract_lets o old t at mode
  have emptied := portWork_emptied s p { o with rx := idlePayload, lane := none, lastClass := none } old
  have rows : (((t.transition p .off .disabled).captureStep p old).linkLoss p).rows = s.rows := by rw [emptied.rest]
  have emptiedMode (q : PortId) : ((((t.transition p .off .disabled).captureStep p old).linkLoss p).port q).cfg.pairMode
      = (s.port q).cfg.pairMode := by
    rw [← mode q, (quiet_recompose _ p).cfg q, proverDisable_port]
  have tested := (proverDisable_unused (h.congr rows emptiedMode)).trans rows
  exact (recompose_unused (h.congr tested fun q => by rw [proverDisable_port]; exact emptiedMode q)).trans tested

/-- What a disable leaves of a Maintenance Channel (R102, R109). -/
theorem afterLoss_command (ch : Channel) : ch.afterLoss.lastReport = 0 ∧ ch.afterLoss.outstanding = none
    ∧ ch.afterLoss.lastResult = if ch.outstanding = none then ch.lastResult else .noLink := by
  unfold Channel.afterLoss
  split
  · rename_i c sent
    exact ⟨rfl, rfl, (if_neg (by rw [sent]; exact Option.some_ne_none c)).symm⟩
  · rename_i none
    exact ⟨rfl, none, (if_pos none).symm⟩

/-- The port as a P0 word that disables it leaves it (R93). -/
def Port.disabledWith (o : Port) (c : PortConfig) : Port :=
  { o with
    cfg := c
    link := .off, receiver := .searching none 0, lastOffset := none
    rdy := ⟨false, 0⟩, backup := ⟨false, 0⟩, inputLoss := ⟨false, 0⟩
    repBackup := false, repInputLoss := false, nearEnd := 0, farEnd := 0, hits := 0, slip := false
    window := none, tReady := none, tHold := none, tRestore := none
    capture := { o.capture with state := .idle }
    rx := idlePayload, lane := none, lastClass := none, carrying := false, channel := o.channel.afterLoss }

theorem afterCapture_off {o : Port} {old : LinkState} (off : o.link = .off) (was : old ≠ .off) (now : Time) :
    o.afterCapture old now = { o.capture with state := .idle } := by
  rw [Port.afterCapture, off, if_neg was.symm, if_neg (by decide), if_neg (fun c => nomatch c.1), if_pos rfl]

theorem disabled_eq {o : Port} (h : o.link ≠ .off) (now : Time) : o.disabled now = o.disabledWith o.cfg := by
  have capture := afterCapture_off (o := ({ o with rx := idlePayload, lane := none, lastClass := none } : Port).enter .off
    .disabled) rfl h now
  rw [Port.disabled, capture]
  rfl

/-- From `s` to `t` a P0 word with configuration `c` disabled port `p` (R52, R93). -/
structure PortDisabled (p : PortId) (c : PortConfig) (s t : State) : Prop where
  port : t.port p = (s.port p).disabledWith c
  other : ∀ q, q ≠ p → t.port q = s.port q
  claimed : s.claimed = some p → t.prover = { s.prover with running := false, outcome := .aborted }
  unclaimed : s.claimed ≠ some p → t.prover = s.prover
  rows : t.rows = s.rows
  mem : t.mem = s.mem

/-- A word that may disable port `p` finds no booking on it (R51). -/
theorem unused_of_configOk {s : State} {p : PortId} {v : Word} (ok : s.configOk p v = true)
    (was : (s.port p).cfg.enable = true) (now : (configOf v).enable = false) : Unused s p := by
  obtain ⟨unbooked, alone⟩ := configOk_disable ok was now
  refine ⟨alone, fun r live => ?_⟩
  rw [← Bool.not_eq_true, uses_iff]
  intro uses
  have booked := (bookedUses_iff s (s.logical p)).mpr ⟨r, .inr live, uses⟩
  rw [unbooked] at booked
  exact absurd booked (by decide)

theorem portDisabled {s : State} {p : PortId} {v : Word} (ok : s.configOk p v = true)
    (was : (s.port p).cfg.enable = true) (now : (configOf v).enable = false) (on : (s.port p).link ≠ .off)
    (same : (configOf v).pairMode = (s.port p).cfg.pairMode) :
    PortDisabled p (configOf v) s (s.applyConfig p v) := by
  have disables : ((s.port p).cfg.enable && !(configOf v).enable) = true := by
    rw [was, now]
    rfl
  have enables : (!(s.port p).cfg.enable && (configOf v).enable) ≠ true := by
    rw [was, now]
    decide
  have prover := (applyConfig_prover s p v).trans (enableTaken_prover s p v)
  have taken : s.applyConfig p v = (s.setConfig p { configOf v with pairMode := (s.port p).cfg.pairMode }).disablePort p := by
    rw [applyConfig_eq, if_pos same, State.enableTaken]
    exact (if_neg enables).trans (if_pos disables)
  refine ⟨?port, fun q hq => applyConfig_port_other s v hq, fun claim => ?claimed, fun claim => ?unclaimed, ?rows, ?mem⟩
  case port =>
    rw [applyConfig_port_self, Port.enableTaken, if_neg enables, if_pos disables,
      disabled_eq (o := (s.port p).captured v) on]
    rfl
  case claimed => rw [prover, if_pos ⟨disables, claim⟩]
  case unclaimed => rw [prover, if_neg fun c => claim c.2]
  case rows =>
    rw [taken]
    refine disablePort_unused ((unused_of_configOk ok was now).congr rfl fun q => ?_)
    rw [setConfig_port]
    split
    · rename_i own
      rw [own]
    · rfl
  case mem =>
    have tame := tame_captureWord s (.port p .p0) v
    have captured : s.captureWord (.port p .p0) v = s.applyConfig p v := if_pos ok
    rw [captured] at tame
    exact tame.mem

theorem PortDisabled.granted {p : PortId} {c : PortConfig} {s t : State} {w : Transaction}
    (h : PortDisabled p c (s.granted w) t) (x : Transaction) (ph : PsidePhase) : PortDisabled p c s (t.setPhase x ph) where
  port := h.port
  other := h.other
  claimed := h.claimed
  unclaimed := h.unclaimed
  rows := h.rows
  mem := h.mem

/-- Settles O25. -/
theorem portDisableEntersOff : Obligations.PortDisableEntersOff := by
  intro p v s hi
  rw [exec_portDisable, hostIssue_config hi]
  refine ⟨fun ⟨ok, was, on, same⟩ => ?taken, fun no => by rw [no, if_neg (by decide)]⟩
  have disabled := (portDisabled (s := s.granted (s.writeOne (portOffset p .p0) (setBit v 0 false))) ok was
    (by rw [configOf_enable]) on (by rw [configOf_enable]; exact same)).granted (s.writeOne (portOffset p .p0) (setBit v 0 false))
    (.writing [[((s.busAddr (portOffset p .p0)).toNat, setBit v 0 false)]] [])
  obtain ⟨loop, corrupt, hub⟩ := afterLoss_clear (s.port p).channel
  obtain ⟨report, outstanding, result⟩ := afterLoss_command (s.port p).channel
  rw [configOf_enable] at disabled
  rw [if_pos ok]
  refine ⟨_, rfl, ?_⟩
  rw [disabled.port]
  exact ⟨rfl, rfl, rfl, rfl, rfl, rfl, rfl, rfl, rfl, rfl, rfl, rfl, rfl, rfl, rfl, rfl, rfl, rfl, rfl, rfl, rfl, loop, corrupt,
    hub, report, outstanding, result, disabled.claimed, disabled.unclaimed, disabled.other, disabled.rows, disabled.mem, rfl⟩

end Sys2Proof.Machine
end

section
/-! PROOFS. Pair mode and the options of a P0 word (R52, R53). -/

namespace Sys2Proof.Machine

/-! ## Options, and pair mode turned off (R50, R53) -/

/-- A word that leaves the enable takes the other fields in place. -/
theorem enableTaken_same {s : State} {p : PortId} {v : Word} (same : (configOf v).enable = (s.port p).cfg.enable) :
    s.enableTaken p v = s.setConfig p { configOf v with pairMode := (s.port p).cfg.pairMode } := by
  rw [State.enableTaken, same, Bool.not_and_self, Bool.and_not_self]
  rfl

theorem applyConfig_options {s : State} {p : PortId} {v : Word} (enable : (configOf v).enable = (s.port p).cfg.enable)
    (mode : (configOf v).pairMode = (s.port p).cfg.pairMode) :
    s.applyConfig p v = s.setPort p { s.port p with cfg := configOf v } := by
  rw [applyConfig_eq, if_pos mode, enableTaken_same enable, configOf_same mode]
  rfl

/-- The configuration of a word with a new pair mode, captured in two steps. -/
theorem setConfig_setConfig {s : State} {p : PortId} {v : Word} {b : Bool} :
    (s.setConfig p { configOf v with pairMode := b }).setConfig p
        { ((s.setConfig p { configOf v with pairMode := b }).port p).cfg with pairMode := (configOf v).pairMode }
      = s.setPort p { s.port p with cfg := configOf v } := by
  rw [State.setConfig, State.setConfig, setPort_port_self, setPort_setPort]

theorem applyConfig_pairOff {s : State} {p : PortId} {v : Word} (enable : (configOf v).enable = (s.port p).cfg.enable)
    (was : (s.port p).cfg.pairMode = true) (now : (configOf v).pairMode = false) : s.applyConfig p v =
      (s.setPort p { s.port p with cfg := configOf v }).pairOff p := by
  rw [applyConfig_eq, if_neg (by rw [was, now]; decide), enableTaken_same enable, setConfig_setConfig, now]
  rfl

/-- A word whose capture does not look at the path, forwarded (R161, R162). -/
theorem forwarded_config {s c : State} (p : PortId) {v : Word} (path : c.path = s.path) (region : c.regionSel = s.regionSel)
    (taken : (s.granted (s.writeOne (portOffset p .p0) v)).applyConfig p v
      = c.withPath (s.granted (s.writeOne (portOffset p .p0) v)).path) :
    ((s.granted (s.writeOne (portOffset p .p0) v)).applyConfig p v).setPhase (s.writeOne (portOffset p .p0) v)
        (.writing [[((s.busAddr (portOffset p .p0)).toNat, v)]] []) = c.forwarding (portOffset p .p0) v := by
  rw [taken, setPhase_withPath path region]

/-! ## Pair mode turned on (R53) -/

/-- Only the members of a pair have its even port as their logical port (R3). -/
theorem logical_member {s : State} {q : PortId} {k : PairId} (h : s.logical q = evenPort k) :
    q = evenPort k ∨ q = oddPort k := by
  unfold State.logical at h
  split at h
  · have same : pairOf q = k := by rw [← pairOf_even (pairOf q), ← evenOf_eq, h, pairOf_even]
    exact same ▸ even_or_odd q
  · exact .inl h

theorem pairOf_evenPort_odd (k : PairId) : oddPort (pairOf (evenPort k)) = oddPort k := by rw [pairOf_even]

theorem isOdd_evenPort (k : PairId) : isOdd (evenPort k) = false :=
  (isOdd_false _).mpr (by simp only [evenPort]; omega)

/-- A change of pair mode finds no booking on a member of the pair (R51). -/
theorem unnamed_of_configOk {s : State} {k : PairId} {v : Word} (ok : s.configOk (evenPort k) v = true)
    (changed : (configOf v).pairMode ≠ (s.port (evenPort k)).cfg.pairMode) :
    ¬(s.bookedNames (evenPort k) = true ∨ s.bookedNames (oddPort k) = true) := by
  intro named
  rw [← pairOf_evenPort_odd] at named
  have refused := (configOk_false s (evenPort k) v).mpr
    (.inr (.inr (.inr (.inl ⟨isOdd_evenPort k, changed, .inl named⟩))))
  rw [ok] at refused
  cases refused

/-- The state in which the receive member is selected: from `s` on, pair mode of pair `k` is on, no booking names a
member of it, and carrying flags, members, rows and memory are as they were (R51, R53). -/
structure BeforeJoin (k : PairId) (s w : State) : Prop where
  unnamed : ¬(s.bookedNames (evenPort k) = true ∨ s.bookedNames (oddPort k) = true)
  rows : w.rows = s.rows
  active : w.active = s.active
  even : (w.port (evenPort k)).carrying = (s.port (evenPort k)).carrying
  odd : (w.port (oddPort k)).carrying = (s.port (oddPort k)).carrying
  told : s.notice.inWriting <+: w.notice.inWriting
  now : w.now = s.now

/-- No row is sourced on a pair that no booking names. -/
theorem BeforeJoin.uncounted {k : PairId} {s w : State} (h : BeforeJoin k s w) (r : RowId) :
    w.countsSwitch (evenPort k) (w.row r) = false := by
  rw [← Bool.not_eq_true, countsSwitch_iff, row_eq_of_rows h.rows]
  rintro ⟨live, source⟩
  have named (q : PortId) (hq : sourcePort (s.row r).captured = q) : s.bookedNames q = true :=
    (bookedNames_iff s q).mpr ⟨r, .inr live, .inl hq.symm⟩
  exact h.unnamed ((logical_member source).imp (named _) (named _))

/-- From `s` by way of `w` to `t` the receive member of pair `k` was selected for pair mode (R53). -/
structure Joined (k : PairId) (s w t : State) : Prop where
  active : t.active = s.active.set k (if (s.port (evenPort k)).carrying = false
    ∧ (s.port (oddPort k)).carrying = true then .odd else .even)
  rows : t.rows = s.rows
  told : w.notice.inWriting <+: t.notice.inWriting
  switchover : (s.port (evenPort k)).carrying = false → (s.port (oddPort k)).carrying = true → w.roomFor 1 →
    s.hands t .switchover (evenPort k).val 1 1 0

theorem BeforeJoin.joined {k : PairId} {s w : State} (h : BeforeJoin k s w) : Joined k s w (w.pairOn (evenPort k)) := by
  obtain ⟨-, -, active, kept⟩ := pairOn_selects w (evenPort k) k (pairOf_even k)
  obtain ⟨rows, switchover⟩ := kept h.uncounted
  rw [h.even, h.odd] at active switchover
  rw [h.active] at active
  refine ⟨active, rows.trans h.rows, (calm_pairOn w (evenPort k)).inWriting, fun dark carries room => ?_⟩
  exact hands_within (switchover dark carries room) h.told h.now List.prefix_rfl

/-- Pair mode turned on by a word for an enabled even port (R53). -/
theorem applyConfig_pairOn {s : State} {p : PortId} {v : Word} (enable : (configOf v).enable = (s.port p).cfg.enable)
    (was : (s.port p).cfg.pairMode = false) (now : (configOf v).pairMode = true) : s.applyConfig p v =
      (s.setPort p { s.port p with cfg := configOf v }).pairOn p := by
  rw [applyConfig_eq, if_neg (by rw [was, now]; decide), enableTaken_same enable, setConfig_setConfig, now]
  rfl

/-- Pair mode turned on by the word that enables the even port (R52, R53, R92). -/
theorem applyConfig_enables_pairOn {s : State} {p : PortId} {v : Word} (wasOff : (s.port p).cfg.enable = false)
    (enable : (configOf v).enable = true) (was : (s.port p).cfg.pairMode = false) (now : (configOf v).pairMode = true) :
    s.applyConfig p v = ((s.setPort p ((s.port p).enabledWith (configOf v))).handNotice .linkState p.val 1
      (BitVec.ofNat 32 (s.port p).link.code) 1).pairOn p := by
  have twice (a b : Port) (n : Word) : ((s.setPort p a).handNotice .linkState p.val 1 n 1).setPort p b
      = (s.setPort p b).handNotice .linkState p.val 1 n 1 :=
    congrArg (fun t : State => t.handNotice .linkState p.val 1 n 1) (setPort_setPort s p a b)
  rw [applyConfig_eq, if_neg (by rw [was, now]; decide), enableTaken_enables wasOff enable, State.setConfig, twice,
    handNotice_port, setPort_port_self, now]
  refine (if_pos rfl).trans ?_
  rw [Port.enabledWith, ← now]
  rfl

theorem beforeJoin_on {s : State} {k : PairId} (c : PortConfig)
    (unnamed : ¬(s.bookedNames (evenPort k) = true ∨ s.bookedNames (oddPort k) = true)) :
    BeforeJoin k s (s.setPort (evenPort k) { s.port (evenPort k) with cfg := c }) where
  unnamed := unnamed
  rows := rfl
  active := rfl
  even := by rw [setPort_port_self]
  odd := by rw [port_setPort, if_neg (evenPort_ne_oddPort k k).symm]
  told := List.prefix_rfl
  now := rfl

theorem beforeJoin_enabled {s : State} {k : PairId} (c : PortConfig)
    (unnamed : ¬(s.bookedNames (evenPort k) = true ∨ s.bookedNames (oddPort k) = true)) :
    BeforeJoin k s ((s.setPort (evenPort k) ((s.port (evenPort k)).enabledWith c)).handNotice .linkState (evenPort k).val 1
      (BitVec.ofNat 32 (s.port (evenPort k)).link.code) 1) where
  unnamed := unnamed
  rows := rfl
  active := rfl
  even := by
    rw [handNotice_port, setPort_port_self]
    rfl
  odd := by rw [handNotice_port, port_setPort, if_neg (evenPort_ne_oddPort k k).symm]
  told := (calm_handNotice _ _ _ _ _ _).inWriting
  now := rfl

theorem applyConfig_mem {s : State} {p : PortId} {v : Word} (ok : s.configOk p v = true) : (s.applyConfig p v).mem = s.mem := by
  have tame := tame_captureWord s (.port p .p0) v
  rw [show s.captureWord (.port p .p0) v = s.applyConfig p v from if_pos ok] at tame
  exact tame.mem

/-- From `s` to `t` a word with configuration `c` turned pair mode of pair `k` on at its enabled even port (R53). -/
structure PairOn (k : PairId) (c : PortConfig) (s t : State) : Prop where
  even : t.port (evenPort k) = { s.port (evenPort k) with cfg := c }
  other : ∀ q, q ≠ evenPort k → t.port q = s.port q
  active : t.active = s.active.set k (if (s.port (evenPort k)).carrying = false
    ∧ (s.port (oddPort k)).carrying = true then .odd else .even)
  rows : t.rows = s.rows
  mem : t.mem = s.mem
  switchover : (s.port (evenPort k)).carrying = false → (s.port (oddPort k)).carrying = true → s.roomFor 1 →
    s.hands t .switchover (evenPort k).val 1 1 0

theorem pairOn_applied {s : State} {k : PairId} {v : Word} (ok : s.configOk (evenPort k) v = true)
    (enable : (configOf v).enable = (s.port (evenPort k)).cfg.enable)
    (was : (s.port (evenPort k)).cfg.pairMode = false) (now : (configOf v).pairMode = true) :
    PairOn k (configOf v) s (s.applyConfig (evenPort k) v) := by
  have mem := applyConfig_mem ok
  have joined := (beforeJoin_on (configOf v) (unnamed_of_configOk ok (by rw [was, now]; decide))).joined
  have other (q : PortId) (hq : q ≠ evenPort k) := applyConfig_port_other s v hq
  have even : (s.applyConfig (evenPort k) v).port (evenPort k) = { s.port (evenPort k) with cfg := configOf v } := by
    rw [applyConfig_pairOn enable was now, port_eq_of_ports (pairOn_ports _ _), setPort_port_self]
  rw [← applyConfig_pairOn enable was now] at joined
  exact ⟨even, other, joined.active, joined.rows, mem, joined.switchover⟩

theorem PairOn.granted {k : PairId} {c : PortConfig} {s t : State} {w : Transaction} (h : PairOn k c (s.granted w) t)
    (x : Transaction) (ph : PsidePhase) : PairOn k c s (t.setPhase x ph) where
  even := h.even
  other := h.other
  active := h.active
  rows := h.rows
  mem := h.mem
  switchover := h.switchover

/-- From `s` to `t` a word with configuration `c` enabled the even port of pair `k` and turned pair mode on (R52, R53). -/
structure EnabledPairOn (k : PairId) (c : PortConfig) (s t : State) : Prop where
  even : t.port (evenPort k) = (s.port (evenPort k)).enabledWith c
  other : ∀ q, q ≠ evenPort k → t.port q = s.port q
  active : t.active = s.active.set k (if (s.port (evenPort k)).carrying = false
    ∧ (s.port (oddPort k)).carrying = true then .odd else .even)
  rows : t.rows = s.rows
  mem : t.mem = s.mem
  link : s.roomFor 1 → s.hands t .linkState (evenPort k).val 1 (BitVec.ofNat 32 (s.port (evenPort k)).link.code) 1
  switchover : (s.port (evenPort k)).carrying = false → (s.port (oddPort k)).carrying = true → s.roomFor 2 →
    s.hands t .switchover (evenPort k).val 1 1 0

theorem enabledPairOn_applied {s : State} {k : PairId} {v : Word} (ok : s.configOk (evenPort k) v = true)
    (wasOff : (s.port (evenPort k)).cfg.enable = false) (enable : (configOf v).enable = true)
    (was : (s.port (evenPort k)).cfg.pairMode = false) (now : (configOf v).pairMode = true) :
    EnabledPairOn k (configOf v) s (s.applyConfig (evenPort k) v) := by
  have mem := applyConfig_mem ok
  have joined := (beforeJoin_enabled (configOf v) (unnamed_of_configOk ok (by rw [was, now]; decide))).joined
  have other (q : PortId) (hq : q ≠ evenPort k) := applyConfig_port_other s v hq
  have even : (s.applyConfig (evenPort k) v).port (evenPort k) = (s.port (evenPort k)).enabledWith (configOf v) := by
    rw [applyConfig_enables_pairOn wasOff enable was now, port_eq_of_ports (pairOn_ports _ _), handNotice_port,
      setPort_port_self]
  rw [← applyConfig_enables_pairOn wasOff enable was now] at joined
  refine ⟨even, other, joined.active, joined.rows, mem, fun room => ?link, fun dark carries room => ?switchover⟩
  case link =>
    exact hands_within (handNotice_hands (s := s.setPort (evenPort k) ((s.port (evenPort k)).enabledWith (configOf v)))
      room _ _ _ _ _) List.prefix_rfl rfl joined.told
  case switchover =>
    have hands := hands_handNotice (s.setPort (evenPort k) ((s.port (evenPort k)).enabledWith (configOf v))) .linkState
      (evenPort k).val 1 (BitVec.ofNat 32 (s.port (evenPort k)).link.code) 1
    exact joined.switchover dark carries (hands.room (k := 1) room)

theorem EnabledPairOn.granted {k : PairId} {c : PortConfig} {s t : State} {w : Transaction}
    (h : EnabledPairOn k c (s.granted w) t) (x : Transaction) (ph : PsidePhase) : EnabledPairOn k c s (t.setPhase x ph) where
  even := h.even
  other := h.other
  active := h.active
  rows := h.rows
  mem := h.mem
  link := h.link
  switchover := h.switchover

theorem pairOff_even (s : State) (k : PairId) : s.pairOff (evenPort k) = { s with active := s.active.set k .even } :=
  congrArg (fun j : PairId => ({ s with active := s.active.set j .even } : State)) (pairOf_even k)

/-- Settles O26, command by command. -/
theorem pairModeAndOptionsWrites : Obligations.PairModeAndOptionsWrites := by
  intro k p v s hi
  rw [exec_pairModeOn, exec_portEnable, exec_pairModeOff, exec_portOptionsWrite, hostIssue_config hi, hostIssue_config hi,
    hostIssue_config hi, hostIssue_config hi]
  refine ⟨fun ⟨ok, was, on⟩ => ?joins, fun no => by rw [no, if_neg (by decide)], fun ⟨ok, wasOff, was, now⟩ => ?enables,
    fun ⟨ok, was, on⟩ => ?parts, fun no => by rw [no, if_neg (by decide)], fun ok => ?options,
    fun no => by rw [no, if_neg (by decide)]⟩
  case joins =>
    have enable := (configOk_join ok was (by rw [configOf_pairMode])).1
    have bit : v.getLsbD 0 = true := by
      rw [configOf_pairMode] at enable
      exact enable
    have joined := (pairOn_applied (s := s.granted (s.writeOne (portOffset (evenPort k) .p0) (setBit v 1 true))) ok
      (by rw [enable]; exact on.symm) was (by rw [configOf_pairMode])).granted
      (s.writeOne (portOffset (evenPort k) .p0) (setBit v 1 true))
      (.writing [[((s.busAddr (portOffset (evenPort k) .p0)).toNat, setBit v 1 true)]] [])
    rw [configOf_pairMode, bit] at joined
    rw [if_pos ok]
    refine ⟨_, rfl, joined.even, ?_, fun j hj => ?_, joined.other, joined.rows, joined.mem, joined.switchover, rfl⟩
    · rw [joined.active, active_set, if_pos rfl]
    · rw [joined.active, active_set, if_neg hj]
  case enables =>
    have joined := (enabledPairOn_applied (s := s.granted (s.writeOne (portOffset (evenPort k) .p0) (setBit v 0 true))) ok
      wasOff (by rw [configOf_enable]) was (by rw [configOf_enable]; exact now)).granted
      (s.writeOne (portOffset (evenPort k) .p0) (setBit v 0 true))
      (.writing [[((s.busAddr (portOffset (evenPort k) .p0)).toNat, setBit v 0 true)]] [])
    rw [configOf_enable, now] at joined
    rw [if_pos ok]
    exact ⟨_, rfl, joined.even, joined.active, joined.other, joined.rows, joined.mem, joined.link, joined.switchover, rfl⟩
  case parts =>
    rw [if_pos ok, forwarded_config (s := s) (c := (s.setPort (evenPort k) { s.port (evenPort k) with
      cfg := configOf (setBit v 1 false) }).pairOff (evenPort k)) (evenPort k) rfl rfl, configOf_pairMode, pairOff_even]
    · rfl
    · exact applyConfig_pairOff (s := s.granted _) (by rw [configOf_pairMode]; exact on) was (by rw [configOf_pairMode])
  case options =>
    rw [if_pos ok, forwarded_config (s := s) (c := s.setPort p { s.port p with cfg := configOf (s.optionsWord p v) }) p rfl rfl,
      configOf_options]
    exact applyConfig_options (s := s.granted _) (by rw [configOf_options]; rfl) (by rw [configOf_options]; rfl)

end Sys2Proof.Machine
end

section
/-! PROOFS. The indices that the host writes: releases of the Settlement Ring (R150, R152) and consumes of the Notice
Ring (R174). -/

namespace Sys2Proof.Machine

/-! ## Acceptable indices (R150, R174) -/

theorem exec_releaseWrite (v : Word) (s : State) :
    exec (.releaseWrite v) s = .next (s.hostIssue (s.writeOne (anchorOffset .a11) v)) := rfl

theorem exec_consumeWrite (v : Word) (s : State) :
    exec (.consumeWrite v) s = .next (s.hostIssue (s.writeOne (anchorOffset .a9) v)) := rfl

/-- The index that a word names. -/
theorem index_eq (v : Word) : v.extractLsb' 0 10 = v.setWidth 10 := by
  apply BitVec.eq_of_toNat_eq
  simp

/-- The bits above an index are clear. -/
theorem indexSpare_iff (v : Word) : (v.extractLsb' 10 22 == 0) = true ↔ v.toNat < 1024 := by
  have bound := v.isLt
  rw [beq_iff_eq, ← BitVec.toNat_inj, BitVec.extractLsb'_toNat, Nat.shiftRight_eq_div_pow,
    show (0 : BitVec 22).toNat = 0 from rfl]
  omega

theorem releaseOk_iff (u : Settlement) (v : Word) : u.releaseOk v = true ↔
    v.toNat < 1024 ∧ ringDist (v.setWidth 10) u.release ≤ ringDist u.append u.release := by
  rw [Settlement.releaseOk, Bool.and_eq_true, indexSpare_iff, decide_eq_true_iff, index_eq]
  rfl

theorem consumeOk_iff (u : NoticeWriter) (v : Word) : u.consumeOk v = true ↔
    v.toNat < 1024 ∧ ringDist (v.setWidth 10) u.consume ≤ ringDist u.produce u.consume := by
  rw [NoticeWriter.consumeOk, Bool.and_eq_true, indexSpare_iff, decide_eq_true_iff, index_eq]

/-! ## The writes at the bus (R161, R162) -/

/-- The host's write of A11. -/
theorem hostIssue_release {s : State} (hi : s.busIdle) (v : Word) :
    s.hostIssue (s.writeOne (anchorOffset .a11) v) =
      if s.settle.releaseOk v then
        ((s.granted (s.writeOne (anchorOffset .a11) v)).takeRelease v).setPhase (s.writeOne (anchorOffset .a11) v)
          (.writing [[((s.busAddr (anchorOffset .a11)).toNat, v)]] [])
      else s.answered .refused :=
  write_otherWord hi (anchorOffset_lt .a11) (locate_anchor .a11) rfl

/-- The host's write of A9. -/
theorem hostIssue_consume {s : State} (hi : s.busIdle) (v : Word) :
    s.hostIssue (s.writeOne (anchorOffset .a9) v) =
      if s.notice.consumeOk v then (s.takeConsume v).forwarding (anchorOffset .a9) v else s.answered .refused := by
  refine write_captured hi (anchorOffset_lt .a9) (locate_anchor .a9) rfl fun t q => ?_
  have taken (u : State) : u.captureWord (.anchor .a9) v = u.takeConsume v := rfl
  dsimp only
  rw [taken, taken, State.takeConsume, State.takeConsume]
  by_cases ok : t.notice.consumeOk v = true
  · rw [if_pos ok, if_pos (show (t.withPath q).notice.consumeOk v = true from ok), index_eq]
    rfl
  · rw [if_neg ok, if_neg (show ¬(t.withPath q).notice.consumeOk v = true from ok)]

/-! ## A release (R150, R152) -/

/-- `s` with the release index moved to `i`. -/
def State.released (s : State) (i : BitVec 10) : State := { s with settle := { s.settle with release := i } }

theorem takeRelease_ok {s : State} {v : Word} (ok : s.settle.releaseOk v = true) : s.takeRelease v =
    if s.settle.unit = .waitRing then (s.released (v.setWidth 10)).settleStep else s.released (v.setWidth 10) := by
  rw [State.takeRelease, if_pos ok, ← index_eq]
  rfl

/-- What every accepted release leaves of the Settlement Unit, of the rows and of memory. -/
theorem takeRelease_kept {s : State} {v : Word} (ok : s.settle.releaseOk v = true) :
    (s.takeRelease v).settle.release = v.setWidth 10 ∧ (s.takeRelease v).settle.append = s.settle.append
      ∧ (s.takeRelease v).settle.nextSeq = s.settle.nextSeq ∧ (s.takeRelease v).rows = s.rows
      ∧ (s.takeRelease v).mem = s.mem := by
  rw [takeRelease_ok ok]
  split
  · obtain ⟨append, release, nextSeq⟩ := settleStep_ring (s.released (v.setWidth 10))
    obtain ⟨rows, mem, -, -⟩ := settleStep_kept (s.released (v.setWidth 10))
    exact ⟨release, append, nextSeq, rows, mem⟩
  · exact ⟨rfl, rfl, rfl, rfl, rfl⟩

/-- The Settlement Unit's state in words A2 (R151, R152, R175). -/
theorem answer_waiting (s : State) : (s.answer (.anchor .a2)).getLsbD 3 = (s.settle.unit == .waitRing) :=
  fabricWord_waiting s

/-- An entry joins while the host's transaction is at M-side (R165, R166). -/
theorem offer_joins {q : Path} {pr : Producer} (room : q.outbound.length < 8) (backlog : q.backlog pr = [])
    (held : q.mside = .pside) (e : OutEntry) : q.offer pr e = { q with outbound := q.outbound ++ [e] } := by
  have notFree : q.grantsAtOnce = false := by
    rw [Path.grantsAtOnce, held]
    rfl
  rw [Path.offer, if_pos ⟨room, backlog⟩, Path.join, notFree]
  rfl

/-- Two entries of one producer join an empty queue in order. -/
theorem offer_offer_empty {q : Path} {pr : Producer} (empty : q.outbound = []) (backlog : q.backlog pr = [])
    (held : q.mside = .pside) (a b : OutEntry) : (q.offer pr a).offer pr b = { q with outbound := [a, b] } := by
  rw [offer_joins (by rw [empty]; decide) backlog held, empty]
  exact offer_joins (q := { q with outbound := [a] }) (by rw [List.length_singleton]; decide)
    (by cases pr <;> exact backlog) held b

/-- An empty queue leaves no transaction waiting to join it (R165). -/
theorem outboundLaw_backlog {s : State} (law : OutboundLaw s) (empty : s.path.outbound = []) (pr : Producer) :
    s.path.backlog pr = [] := by
  obtain ⟨-, full, -, waits⟩ := law
  have none : s.path.waiting = [] := by
    refine Classical.byContradiction fun some => ?_
    have length := full some
    rw [empty] at length
    exact absurd length (by decide)
  refine Classical.byContradiction fun backlog => ?_
  have waiting := (waits pr).mpr backlog
  rw [none] at waiting
  cases waiting

/-- The write of A11 that is accepted, in progress at M-side. -/
def State.releaseTaken (s : State) (v : Word) : State :=
  ((s.granted (s.writeOne (anchorOffset .a11) v)).takeRelease v).setPhase (s.writeOne (anchorOffset .a11) v)
    (.writing [[((s.busAddr (anchorOffset .a11)).toNat, v)]] [])

/-- A release that does not look at the path, forwarded. -/
theorem releaseTaken_forwarding {s c : State} {v : Word} (path : c.path = s.path) (region : c.regionSel = s.regionSel)
    (taken : (s.granted (s.writeOne (anchorOffset .a11) v)).takeRelease v
      = c.withPath (s.granted (s.writeOne (anchorOffset .a11) v)).path) :
    s.releaseTaken v = c.forwarding (anchorOffset .a11) v := by
  rw [State.releaseTaken, taken, setPhase_withPath path region]

theorem takeRelease_notWaiting {s : State} {v : Word} (ok : s.settle.releaseOk v = true) (unit : s.settle.unit ≠ .waitRing) :
    s.takeRelease v = s.released (v.setWidth 10) := by
  rw [takeRelease_ok ok, if_neg unit]

theorem takeRelease_waiting {s : State} {v : Word} {r : RowId} {others : List RowId} (ok : s.settle.releaseOk v = true)
    (unit : s.settle.unit = .waitRing) (idle : s.settle.writing = none) (queue : s.settle.queue = r :: others) :
    s.takeRelease v =
      if ringDist s.settle.append (v.setWidth 10) = 512 then s.released (v.setWidth 10)
      else if (s.row r).inFlight ≠ .none then
        { s with settle := { s.settle with release := v.setWidth 10, unit := .waitAction } }
      else (s.released (v.setWidth 10)).beginRecord r others := by
  rw [takeRelease_ok ok, if_pos unit, settleStep_queued (s := s.released (v.setWidth 10)) idle queue, State.waitRing,
    if_pos (show (s.released (v.setWidth 10)).settle.unit = .waitRing from unit)]
  rfl

/-- The record of row `r`, with words `ws`, has begun, and its halves are all that the Outbound Queue holds. -/
def State.recordBegun (s : State) (r : RowId) (others : List RowId) (ws : List Word) : State :=
  { s with
    settle := ⟨others, some ⟨r, s.settle.append, ws⟩, .writing, s.settle.append, s.settle.release, s.settle.nextSeq⟩
    path := { s.path with outbound := [.recordHalf s.settle.append false (ws.take 16),
      .recordHalf s.settle.append true (ws.drop 16)] } }

theorem beginRecord_empty {s : State} (empty : s.path.outbound = []) (backlog : s.path.backlog .settlement = [])
    (held : s.path.mside = .pside) (r : RowId) (others : List RowId) :
    s.beginRecord r others = s.recordBegun r others (composeRecord (s.row r) s.settle.nextSeq) := by
  have begun : s.beginRecord r others = State.withPath (s.recordBegun r others (composeRecord (s.row r) s.settle.nextSeq))
      ((s.path.offer .settlement (.recordHalf s.settle.append false ((composeRecord (s.row r) s.settle.nextSeq).take 16))).offer
        .settlement (.recordHalf s.settle.append true ((composeRecord (s.row r) s.settle.nextSeq).drop 16))) := rfl
  rw [begun, offer_offer_empty empty backlog held]
  rfl

/-- The waiting unit begins the head row's record: both halves join the empty queue (R143, R146, R152, R165). -/
theorem releaseTaken_begins {s : State} {v : Word} {r : RowId} {others : List RowId} (hi : s.busIdle)
    (law : OutboundLaw s)
    (taken : (s.granted (s.writeOne (anchorOffset .a11) v)).takeRelease v
      = ((s.granted (s.writeOne (anchorOffset .a11) v)).released (v.setWidth 10)).beginRecord r others) :
    s.releaseTaken v = ((s.released (v.setWidth 10)).recordBegun r others
      (composeRecord (s.row r) s.settle.nextSeq)).forwarding (anchorOffset .a11) v := by
  rw [State.releaseTaken, taken, beginRecord_empty (s := (s.granted _).released _) hi.2.2 (outboundLaw_backlog law hi.2.2 .settlement) rfl]
  rfl

theorem anchorOffset_a11 : anchorOffset .a11 = 0x2C := rfl

theorem anchorOffset_a9 : anchorOffset .a9 = 0x24 := rfl

/-- Settles O31: the refusals, and an accepted release by what the Settlement Unit was waiting for. -/
theorem ringIndexWrites : Obligations.RingIndexWrites := by
  intro v s hi
  rw [exec_releaseWrite, exec_consumeWrite, hostIssue_release hi, hostIssue_consume hi, ← releaseOk_iff, ← consumeOk_iff,
    ← anchorOffset_a11, ← anchorOffset_a9]
  refine ⟨fun ok => ?release, fun no => by rw [if_neg no], fun ok => ?consume, fun no => by rw [if_neg no]⟩
  case consume =>
    rw [if_pos ok, State.takeConsume, if_pos ok, index_eq]
  case release =>
    obtain ⟨release, append, nextSeq, rows, mem⟩ :=
      takeRelease_kept (s := s.granted (s.writeOne (anchorOffset .a11) v)) ok
    refine ⟨s.releaseTaken v, by rw [if_pos ok]; rfl, release, append, nextSeq, rows, mem, fun unit => ?plain,
      fun r others unit idle queue => ?waiting, rfl⟩
    case plain =>
      exact releaseTaken_forwarding (s := s) (c := s.released (v.setWidth 10)) rfl rfl
        (takeRelease_notWaiting (s := s.granted (s.writeOne (anchorOffset .a11) v)) ok unit)
    case waiting =>
      have taken := takeRelease_waiting (s := s.granted (s.writeOne (anchorOffset .a11) v)) ok unit idle queue
      refine ⟨fun full => ?full, fun room busy => ?action, fun room free law => ?begins⟩
      case full =>
        have t := releaseTaken_forwarding (s := s) (c := s.released (v.setWidth 10)) rfl rfl (taken.trans (if_pos full))
        refine ⟨t, ?_⟩
        rw [t, answer_waiting]
        exact beq_iff_eq.mpr unit
      case action =>
        have t := releaseTaken_forwarding (s := s) (c := { s with settle := { s.settle with
          release := v.setWidth 10, unit := .waitAction } }) rfl rfl (taken.trans ((if_neg room).trans (if_pos busy)))
        refine ⟨t, ?_⟩
        rw [t, answer_waiting]
        rfl
      case begins =>
        have t := releaseTaken_begins hi law (taken.trans ((if_neg room).trans (if_neg (not_not_intro free))))
        refine ⟨_, rfl, t, ?_⟩
        rw [t, answer_waiting]
        rfl

end Sys2Proof.Machine
end

section
/-! PROOFS. A cycle is composed and sent (R57, R58, R70, R72, R107, R108, R116). -/

namespace Sys2Proof.Machine

/-! ## The message field (R107, R108) -/

theorem messageOf_overhead {c : LineCycle} {a b d e : Bool} {m : Message} (h : c.overhead = overheadOf a b d e m) :
    messageOf c = m := by
  rw [messageOf, h, overhead_kind, overhead_code]

/-- An answer to a remote command goes first. -/
theorem field_answer {ch : Channel} {m : Message} (present : ch.present = some m) (command : m.kind = 1) :
    ch.field = (⟨if m.code = 2 ∨ m.code = 3 then 2 else 3, m.code⟩, false) := by
  have answer : answerTo m.code = ⟨if m.code = 2 ∨ m.code = 3 then 2 else 3, m.code⟩ := by
    rw [answerTo]
    split
    · rfl
    · rfl
  rw [Channel.field, present]
  exact (if_pos command).trans (by rw [answer])

theorem field_own {ch : Channel} (free : ∀ m, ch.present = some m → m.kind ≠ 1) : ch.field = ch.ownField := by
  unfold Channel.field
  split
  · rename_i m present
    exact if_neg (free m present)
  · rfl

theorem ownField_command {ch : Channel} {x : MaintCommand} (out : ch.outstanding = some x) (more : ch.sent < 125) :
    ch.ownField = (⟨1, BitVec.ofNat 8 x.code⟩, true) := by
  rw [Channel.ownField, out]
  exact if_pos more

theorem ownField_idle {ch : Channel} (h : ch.outstanding = none ∨ 125 ≤ ch.sent) : ch.ownField = (⟨0, 0⟩, false) := by
  unfold Channel.ownField
  split
  · rename_i x out
    exact if_neg (Nat.not_lt.mpr (h.resolve_left (by rw [out]; exact Option.some_ne_none x)))
  · rfl

/-! ## The overhead and the check (R70, R72) -/

theorem compose_overhead (o : Port) (payload : Payload) : (o.compose payload).overhead
    = overheadOf o.link.sendsReady false false o.sendsFbe o.channel.field.1 := rfl

theorem sendsReady_eq (l : LinkState) :
    l.sendsReady = decide (l = .awaitReady ∨ l = .restore ∨ l = .up ∨ l = .suspect) := by cases l <;> decide

theorem sendsFbe_eq (o : Port) : o.sendsFbe = decide (o.lastClass = some .inverted ∨ o.lastClass = some .bad) := by
  unfold Port.sendsFbe
  split
  · rename_i cls last
    rw [last]
    cases cls <;> decide
  · rename_i last
    rw [last]
    decide

/-! ## The payload (R57, R58, R116) -/

theorem payloadFor_eq (s : State) (p : PortId) : s.payloadFor p =
    if s.claimed = some p then patternPayload s.prover.generator else s.crossPayload p :=
  ite_of_iff beq_iff_eq _ _

theorem crossPayload_getElem (s : State) (p : PortId) (i : SlotId) :
    (s.crossPayload p)[i] = s.slotContent (s.logical p) i := vecOf_getElem _ _ _

theorem slotContent_free {s : State} {l : PortId} {i : SlotId} (h : (s.port l).txOwner[i] = none) :
    s.slotContent l i = [] := by
  rw [State.slotContent, h]

/-- The rank of an owned slot among its owner's. -/
theorem idxOf_ownedSlots {v : Vector (Option RowId) 40} {r : RowId} {i : SlotId} (h : v[i] = some r) :
    (ownedSlots v r).idxOf i = slotsBelow v (some r) i :=
  idxOf_filter_finRange (fun i => v[i] == some r) i (beq_iff_eq.mpr h)

theorem ownedSlots_getElem {v : Vector (Option RowId) 40} {r : RowId} {j : SlotId} (h : v[j] = some r) :
    (ownedSlots v r)[slotsBelow v (some r) j]? = some j := by
  have owned : j ∈ ownedSlots v r := List.mem_filter.mpr ⟨List.mem_finRange j, beq_iff_eq.mpr h⟩
  rw [← idxOf_ownedSlots h]
  exact List.getElem?_eq_some_iff.mpr ⟨List.idxOf_lt_length_of_mem owned, List.getElem_idxOf _⟩

/-- R57: a transmit slot carries the receive slot of the same rank of the same row. -/
theorem slotContent_owned {s : State} {l : PortId} {r : RowId} {i j : SlotId} (tx : (s.port l).txOwner[i] = some r)
    (rx : (s.port (s.logical (sourcePort (s.row r).captured))).rxOwner[j] = some r)
    (rank : slotsBelow (s.port l).txOwner (some r) i
      = slotsBelow (s.port (s.logical (sourcePort (s.row r).captured))).rxOwner (some r) j) :
    s.slotContent l i = (s.port (s.rxPath (sourcePort (s.row r).captured))).rx[j] := by
  rw [State.slotContent, tx]
  dsimp only
  rw [idxOf_ownedSlots tx, rank, ownedSlots_getElem rx]

/-! ## The transmission (R70) -/

theorem exec_cycleTransmit (p : PortId) (s : State) : exec (.cycleTransmit p) s = .next (s.transmit p) := rfl

/-- The state after port `p` has sent its cycle. -/
def State.sentCycle (s : State) (p : PortId) : State :=
  { s.setPort p ((s.port p).sent (s.payloadFor p)) with prover := s.proverAfterSend p }

theorem transmit_on {s : State} {p : PortId} (h : (s.port p).link ≠ .off) : s.transmit p = s.sentCycle p := if_neg h

theorem sentCycle_port (s : State) (p q : PortId) :
    (s.sentCycle p).port q = if q = p then (s.port p).sent (s.payloadFor p) else s.port q := port_setPort s p q _

theorem proverAfterSend_claimed {s : State} {p : PortId} (h : s.claimed = some p) : s.proverAfterSend p =
    { s.prover with generator := patternAdvance 1310720 s.prover.generator } := if_pos (beq_iff_eq.mpr h)

theorem proverAfterSend_other {s : State} {p : PortId} (h : s.claimed ≠ some p) : s.proverAfterSend p = s.prover :=
  if_neg (mt beq_iff_eq.mp h)

/-- Settles O49. -/
theorem cycleTransmitComposesCycle : Obligations.CycleTransmitComposesCycle := by
  intro p s
  rw [exec_cycleTransmit]
  refine ⟨fun off => congrArg _ (if_pos off), fun on => ⟨s.sentCycle p, (s.port p).compose (s.payloadFor p), _,
    if (s.port p).channel.field.2 then (s.port p).channel.sent + 1 else (s.port p).channel.sent, by rw [transmit_on on], rfl,
    payloadFor_eq s p, ?rdy, ?backup, ?inputLoss, ?fbe, fun m present command => ?answer, fun free => ⟨fun x out more =>
    ?command, fun none => ?idle⟩, rfl, (sentCycle_port s p p).trans (if_pos rfl), fun q hq => (sentCycle_port s p q).trans (if_neg hq),
    rfl, proverAfterSend_other, proverAfterSend_claimed, fun unclaimed => ?cross⟩⟩
  case rdy => rw [rdyOf, compose_overhead, overhead_rdy, sendsReady_eq]
  case backup => rw [backupOf, compose_overhead, overhead_backup]
  case inputLoss => rw [inputLossOf, compose_overhead, overhead_inputLoss]
  case fbe => rw [fbeOf, compose_overhead, overhead_fbe, sendsFbe_eq]
  case answer =>
    rw [messageOf_overhead (compose_overhead _ _), field_answer present command]
    exact ⟨rfl, rfl⟩
  case command =>
    rw [messageOf_overhead (compose_overhead _ _), field_own free, ownField_command out more]
    exact ⟨rfl, rfl⟩
  case idle =>
    rw [messageOf_overhead (compose_overhead _ _), field_own free, ownField_idle none]
    exact ⟨rfl, rfl⟩
  case cross =>
    have payload : ((s.port p).compose (s.payloadFor p)).payload = s.crossPayload p :=
      (payloadFor_eq s p).trans (if_neg unclaimed)
    rw [payload]
    refine ⟨fun i free => ?_, fun r src i j source tx rx rank => ?_⟩
    · rw [crossPayload_getElem, slotContent_free free]
    · subst source
      rw [crossPayload_getElem, slotContent_owned tx rx rank]

end Sys2Proof.Machine
end

section
/-! PROOFS. What a cycle event leaves in place, and the content that its receive slots and the Line Prover take. -/

namespace Sys2Proof.Machine

/-- R77: what a cycle event leaves of the state, beyond its port and the healths of the rows. -/
theorem cycleEvent_keeps (s : State) (p : PortId) (iv : Interval) (h : (s.port p).link ≠ .off) :
    (s.cycleEvent p iv).mem = s.mem ∧ (s.cycleEvent p iv).now = s.now ∧ (s.cycleEvent p iv).fabric = s.fabric
      ∧ (s.cycleEvent p iv).settle = s.settle ∧ (s.cycleEvent p iv).actionQueue = s.actionQueue := by
  have work := portWork_beforeCarry s p iv
  have quiet := quiet_carryStep ((s.beforeCarry p iv).proverContent p ((s.port p).receive iv).2.2 iv.cycle) p
    (s.port p).inputLoss.value
  rw [← cycleEvent_eq s p iv h, proverContent_frame] at quiet
  exact ⟨quiet.mem.trans work.mem, quiet.now.trans work.now, quiet.fabric.trans work.fabric,
    quiet.settle.trans work.settle, quiet.actionQueue.trans work.actionQueue⟩

/-- R77: the class of the interval is the last class of the port after the event. -/
theorem cycleEvent_lastClass (s : State) (p : PortId) (iv : Interval) (h : (s.port p).link ≠ .off) :
    ((s.cycleEvent p iv).port p).lastClass = some ((s.port p).receive iv).2.2 := by
  rw [cycleEvent_port s p iv h]
  exact linked_lastClass _ _

theorem received_iff (cls : IntervalClass) : cls.received = true ↔ cls = .good ∨ cls = .inverted ∨ cls = .bad := by
  cases cls <;> decide

theorem not_received_iff (cls : IntervalClass) : cls.received = false ↔ cls = .missing ∨ cls = .nothing := by
  cases cls <;> decide

/-- The owners are the port's own through the whole event. -/
theorem linked_owners (o : Port) (iv : Interval) :
    (o.linked iv).txOwner = o.txOwner ∧ (o.linked iv).rxOwner = o.rxOwner := by
  obtain ⟨-, tx, rx, -, -, -⟩ := afterLink_frame (o.takeInterval iv)
    (!o.receiver.isAligned && (o.takeInterval iv).receiver.isAligned)
    (o.receiver.isAligned && !(o.takeInterval iv).receiver.isAligned)
  obtain ⟨-, -, -, -, -, tx', rx', -⟩ := takeInterval_frame o iv
  exact ⟨tx.trans tx', rx.trans rx'⟩

/-- Settles O40: the event's port is its steps 1 to 7 with the recomposed flag, and the rest is what they leave. -/
theorem cycleEventFrame : Obligations.CycleEventFrame := by
  intro p iv s wf
  rw [exec_cycleEvent s p wf]
  constructor
  · intro off
    unfold State.cycleEvent
    rw [if_pos off]
  · intro on
    have port := cycleEvent_port s p iv on
    have owners := linked_owners (s.port p) iv
    refine ⟨_, _, rfl, cycleEvent_lastClass s p iv on, ?_, ?_, fun q hq => cycleEvent_other s p iv hq, ?_, ?_, ?_,
      fun r => ?_, cycleEvent_keeps s p iv on⟩
    · rw [port]
      simp only [Port.afterEvent, received_iff]
    · exact congrArg Port.carrying port
    · rw [port]
      exact afterEvent_cfg _ _ s.now
    · rw [port]
      exact owners.1
    · rw [port]
      exact owners.2
    · have kept := cycleEvent_row s p iv r
      exact ⟨kept.state, kept.captured⟩

/-! The Line Prover (R117, R118) -/

/-- R117, R118: the checker moves by its lock, bad run, error bits and predictor alone. -/
theorem check_moves (u : Prover) (cls : IntervalClass) (c : LineCycle) :
    u.check cls c = { u with
      locked := (u.check cls c).locked, badRun := (u.check cls c).badRun, errorBits := (u.check cls c).errorBits
      predictor := (u.check cls c).predictor } := by
  unfold Prover.check Prover.track Prover.search Prover.lose Prover.checkRun
  generalize patternAdvance Config.cycleBits u.predictor = after
  dsimp only
  repeat' split
  all_goals rfl

/-- R117: in SEARCH a received cycle sets the predictor, and locks the checker when it matches. -/
theorem check_search {u : Prover} {cls : IntervalClass} (c : LineCycle) (received : cls.received = true)
    (search : u.locked = false) {wrong : Nat} {after : BitVec 23}
    (h : patternCompare ((payloadBits c.payload).drop 23) (patternLoad ((payloadBits c.payload).take 23)) = (wrong, after)) :
    u.check cls c = { u with
      locked := decide (wrong = 0), badRun := if wrong = 0 then 0 else u.badRun, predictor := after } := by
  simp only [Prover.check, received, search, Prover.search, h, if_true, Bool.false_eq_true, if_false]
  by_cases hw : wrong = 0
  · simp only [hw, if_true, decide_true]
  · simp only [hw, if_false, decide_false, ← search]

/-- R118: in LOCKED a received cycle adds its wrong bits. -/
theorem check_track {u : Prover} {cls : IntervalClass} (c : LineCycle) (received : cls.received = true)
    (locked : u.locked = true) {wrong : Nat} {after : BitVec 23}
    (h : patternCompare (payloadBits c.payload) u.predictor = (wrong, after)) {run : Nat}
    (hrun : run = if 1000 < wrong then u.badRun + 1 else 0) :
    u.check cls c = { u with
      locked := decide (run < 4), badRun := if run < 4 then run else 0, predictor := after
      errorBits := BitVec.ofNat 32 (min (2 ^ 32 - 1) (u.errorBits.toNat + wrong)) } := by
  subst hrun
  unfold Prover.check Prover.track
  rw [if_pos received, if_pos locked, h, ← satAdd_eq]
  exact checkRun_locked (u := { u with
    errorBits := satAdd u.errorBits wrong
    badRun := if Config.badBits < wrong then u.badRun + 1 else 0
    predictor := after }) locked

/-- R118: in LOCKED an interval that is not received grows the bad run. -/
theorem check_lose {u : Prover} {cls : IntervalClass} (c : LineCycle) (lost : cls.received = false)
    (locked : u.locked = true) :
    u.check cls c = { u with
      locked := decide (u.badRun + 1 < 4), badRun := if u.badRun + 1 < 4 then u.badRun + 1 else 0
      predictor := patternAdvance Config.cycleBits u.predictor } := by
  unfold Prover.check Prover.lose
  rw [if_neg (by rw [lost]; exact Bool.false_ne_true), if_pos locked]
  generalize patternAdvance Config.cycleBits u.predictor = after
  exact checkRun_locked (u := { u with badRun := u.badRun + 1, predictor := after }) locked

/-- Settles O46: the claimed port's event is one step of the checker, by its lock and whether the cycle is received. -/
theorem cycleEventFeedsLineProver : Obligations.CycleEventFeedsLineProver := by
  intro p iv s wf on
  have prover := cycleEvent_prover s p iv on
  refine ⟨_, _, _, _, _, exec_cycleEvent s p wf, cycleEvent_lastClass s p iv on, rfl, rfl, rfl, ?_, fun claimed => ?_⟩
  · intro free
    rw [prover, if_neg free]
  · rw [prover, if_pos claimed]
    refine ⟨check_moves _ _ _, ?_, ?_, ?_, ?_⟩
    · rintro ⟨received, search⟩
      exact ⟨_, _, rfl, check_search iv.cycle ((received_iff _).mpr received) search rfl⟩
    · intro lost search
      simp only [Prover.check, (not_received_iff _).mpr lost, search, Bool.false_eq_true, if_false]
    · rintro ⟨received, locked⟩
      exact ⟨_, _, _, rfl, rfl, check_track iv.cycle ((received_iff _).mpr received) locked rfl rfl⟩
    · intro lost locked
      exact check_lose iv.cycle ((not_received_iff _).mpr lost) locked

end Sys2Proof.Machine
end

section
/-! PROOFS. The link step of a cycle event: what its decision is and what the state it enters leaves in the port. -/

namespace Sys2Proof.Machine

/-! Steps 1 to 3 of R77 -/

/-- R73, R77: the receiver, the last offset and the class after the interval. -/
theorem takeInterval_receive (o : Port) (iv : Interval) : (o.takeInterval iv).receiver = (o.receive iv).1
    ∧ (o.takeInterval iv).lastOffset = (o.receive iv).2.1 ∧ (o.takeInterval iv).lastClass = some (o.receive iv).2.2 :=
  ⟨rfl, rfl, rfl⟩

/-- R83, R84: the counts after the interval. -/
theorem takeInterval_counts (o : Port) (iv : Interval) : (o.takeInterval iv).hits = o.hits
    ∧ (o.takeInterval iv).slip = o.slip
    ∧ (o.takeInterval iv).nearEnd = (if o.nearCounts (o.receive iv).2.2 then satInc o.nearEnd else o.nearEnd)
    ∧ (o.takeInterval iv).farEnd = if o.farCounts (o.receive iv).2.2 iv.cycle then satInc o.farEnd else o.farEnd := by
  unfold Port.takeInterval Port.filterStatus Port.countInterval
  dsimp only
  split <;> exact ⟨rfl, rfl, rfl, rfl⟩

/-- R80: the reported pair is not the filter's. -/
theorem takeInterval_reported (o : Port) (iv : Interval) : (o.takeInterval iv).repBackup = o.repBackup
    ∧ (o.takeInterval iv).repInputLoss = o.repInputLoss := by
  unfold Port.takeInterval Port.filterStatus Port.countInterval
  dsimp only
  split <;> exact ⟨rfl, rfl⟩

/-- R80: an interval that is not a GOOD cycle keeps the filtered values. -/
theorem takeInterval_rdy_of_not_good {o : Port} {iv : Interval} (h : (o.receive iv).2.2 ≠ .good) :
    (o.takeInterval iv).rdy.value = o.rdy.value := by
  unfold Port.takeInterval Port.filterStatus
  dsimp only
  rw [if_neg h]
  rfl

/-- R73: the third marker in a row at the candidate offset aligns. -/
theorem receive_gains {o : Port} {iv : Interval} {x : Nat} (h : o.receiver = .searching (some x) 2)
    (marker : iv.markers.head? = some x) : o.receive iv = (.aligned x 0, o.lastOffset, .nothing) := by
  unfold Port.receive
  rw [h, marker]
  simp only [Receiver.search, if_true]

/-- R73: the fourth miss in a row loses the alignment. -/
theorem receive_loses {o : Port} {iv : Interval} {x : Nat} (h : o.receiver = .aligned x 3) (miss : x ∉ iv.markers) :
    o.receive iv = (.searching none 0, some x, .missing) := by
  unfold Port.receive
  rw [h]
  simp only [if_neg miss, if_true]

/-! The decision (R76) -/

/-- What the link step of a cycle event decides (R77 step 4). -/
def Port.decision (o : Port) (iv : Interval) : Option (LinkState × Cause) :=
  (o.takeInterval iv).linkDecision (!o.receiver.isAligned && (o.takeInterval iv).receiver.isAligned)
    (o.receiver.isAligned && !(o.takeInterval iv).receiver.isAligned)

theorem decision_gained {o : Port} {iv : Interval} {x : Nat} (h : o.receiver = .searching (some x) 2)
    (marker : iv.markers.head? = some x) : o.decision iv = (o.takeInterval iv).linkDecision true false := by
  unfold Port.decision
  rw [(takeInterval_receive o iv).1, receive_gains h marker, h]
  rfl

theorem decision_lost {o : Port} {iv : Interval} {x : Nat} (h : o.receiver = .aligned x 3) (miss : x ∉ iv.markers) :
    o.decision iv = (o.takeInterval iv).linkDecision false true := by
  unfold Port.decision
  rw [(takeInterval_receive o iv).1, receive_loses h miss, h]
  rfl

/-- A port whose alignment holds does not lose it. -/
theorem not_lost_iff (o : Port) (iv : Interval) :
    (o.receiver.isAligned && !(o.takeInterval iv).receiver.isAligned) = false ↔ o.staysAligned iv := by
  unfold Port.staysAligned
  cases o.receiver.isAligned <;> cases (o.takeInterval iv).receiver.isAligned <;> decide

/-- A port that is aligned already, or still searches, does not gain alignment. -/
theorem not_gained_iff (o : Port) (iv : Interval) :
    (!o.receiver.isAligned && (o.takeInterval iv).receiver.isAligned) = false
      ↔ o.receiver.isAligned = true ∨ (o.takeInterval iv).receiver.isAligned = false := by
  cases o.receiver.isAligned <;> cases (o.takeInterval iv).receiver.isAligned <;> decide

/-- R76: a transition leaves the state it is decided in. -/
theorem linkDecision_moves {o : Port} {g l : Bool} {dest : LinkState} {c : Cause}
    (h : o.linkDecision g l = some (dest, c)) : dest ≠ o.link := by
  unfold Port.linkDecision at h
  split at h <;> rename_i was <;> rw [was] <;> repeat' split at h
  all_goals cases h
  all_goals decide

/-- R78: after a decided transition the link step is the entry of its state. -/
theorem linked_of_decision {o : Port} {iv : Interval} {dest : LinkState} {cause : Cause}
    (h : o.decision iv = some (dest, cause)) : o.linked iv = (o.takeInterval iv).enter dest cause :=
  linked_enter h

/-- R75: without one it advances the timers. -/
theorem linked_of_no_decision {o : Port} {iv : Interval} (h : o.decision iv = none) :
    o.linked iv = (o.takeInterval iv).advanceTimers :=
  linked_stays h

/-- A link that is in its state after the step has not moved. -/
theorem decision_none_of_link {o : Port} {iv : Interval} (h : (o.linked iv).link = o.link) : o.decision iv = none := by
  cases hd : o.decision iv with
  | none => rfl
  | some x =>
    obtain ⟨dest, cause⟩ := x
    rw [linked_of_decision hd, (enter_keeps _ _ _).1, ← (takeInterval_keeps o iv).1] at h
    exact absurd h (linkDecision_moves hd)

/-! What the states entered leave in the port (R75, R78, R79) -/

/-- R78: entering ACQUIRE. -/
theorem enter_acquire (o : Port) (c : Cause) : (o.enter .acquire c).receiver = .searching none 0
    ∧ (o.enter .acquire c).tReady = none ∧ (o.enter .acquire c).lastDown = o.lastDown := ⟨rfl, rfl, rfl⟩

/-- R78: entering AWAIT_READY. -/
theorem enter_awaitReady (o : Port) (c : Cause) : (o.enter .awaitReady c).receiver = o.receiver
    ∧ (o.enter .awaitReady c).tReady = some 0 := ⟨rfl, rfl⟩

/-- R78: entering RESTORE. -/
theorem enter_restore (o : Port) (c : Cause) : (o.enter .restore c).receiver = o.receiver
    ∧ (o.enter .restore c).tReady = some 0 ∧ (o.enter .restore c).tRestore = none
    ∧ (o.enter .restore c).window = some ErrorWindow.fresh ∧ (o.enter .restore c).nearEnd = 0
    ∧ (o.enter .restore c).farEnd = 0 ∧ (o.enter .restore c).hits = 0 ∧ (o.enter .restore c).slip = false
    ∧ (o.enter .restore c).lastDown = o.lastDown := ⟨rfl, rfl, rfl, rfl, rfl, rfl, rfl, rfl, rfl⟩

/-- R78: entering SUSPECT. -/
theorem enter_suspect (o : Port) (c : Cause) : (o.enter .suspect c).receiver = o.receiver
    ∧ (o.enter .suspect c).lastOffset = o.lastOffset ∧ (o.enter .suspect c).tHold = some 0 := ⟨rfl, rfl, rfl⟩

/-- R78: entering DOWN clears the search, the filtered RDY, the window, the counts and the timers. -/
theorem enter_down (o : Port) (c : Cause) : (o.enter .down c).lastDown = c.downReason
    ∧ (o.enter .down c).receiver = .searching none 0 ∧ (o.enter .down c).rdy = ⟨false, 0⟩
    ∧ (o.enter .down c).window = none ∧ (o.enter .down c).nearEnd = 0 ∧ (o.enter .down c).farEnd = 0
    ∧ (o.enter .down c).hits = 0 ∧ (o.enter .down c).slip = false ∧ (o.enter .down c).tReady = none
    ∧ (o.enter .down c).tHold = none ∧ (o.enter .down c).tRestore = none :=
  ⟨rfl, rfl, rfl, rfl, rfl, rfl, rfl, rfl, rfl, rfl, rfl⟩

/-- R79: a return from SUSPECT to UP counts a hit, and a slip when the offset has moved. -/
theorem enter_up_suspect {o : Port} (was : o.link = .suspect) (c : Cause) :
    o.enter .up c = (o.countHit).startTimers .up := by
  unfold Port.enter
  exact if_pos was

/-- R78: entering UP from AWAIT_READY opens an error window. -/
theorem enter_up_awaitReady {o : Port} (was : o.link = .awaitReady) (c : Cause) :
    o.enter .up c = { o.startTimers .up with window := some ErrorWindow.fresh } := by
  unfold Port.enter
  exact (if_neg (by rw [was]; decide)).trans (if_pos was)

/-- R78: entering UP ends the timers, from wherever. -/
theorem enter_up_timers (o : Port) (c : Cause) : (o.enter .up c).tReady = none ∧ (o.enter .up c).tRestore = none := by
  unfold Port.enter
  dsimp only
  repeat' split
  all_goals exact ⟨rfl, rfl⟩

/-! What the event leaves in the port -/

/-- What a cycle event leaves in its port `o`, now `y`, by the port after the link step. -/
structure PortEvent (o y : Port) (iv : Interval) (now : Time) : Prop where
  link : y.link = (o.linked iv).link
  receiver : y.receiver = (o.linked iv).receiver
  lastOffset : y.lastOffset = (o.linked iv).lastOffset
  rdy : y.rdy = (o.linked iv).rdy
  backup : y.backup = (o.linked iv).backup
  inputLoss : y.inputLoss = (o.linked iv).inputLoss
  nearEnd : y.nearEnd = (o.linked iv).nearEnd
  farEnd : y.farEnd = (o.linked iv).farEnd
  hits : y.hits = (o.linked iv).hits
  slip : y.slip = (o.linked iv).slip
  tReady : y.tReady = (o.linked iv).tReady
  tHold : y.tHold = (o.linked iv).tHold
  tRestore : y.tRestore = (o.linked iv).tRestore
  lastDown : y.lastDown = (o.linked iv).lastDown
  lastClass : y.lastClass = some (o.receive iv).2.2
  window : y.window = (o.linked iv).closeWindow.window
  capture : y.capture = (o.linked iv).afterCapture o.link now
  repBackup : y.repBackup = if (o.linked iv).link.inService then (o.linked iv).backup.value else (o.linked iv).repBackup
  repInputLoss : y.repInputLoss =
    if (o.linked iv).link.inService then (o.linked iv).inputLoss.value else (o.linked iv).repInputLoss
  channel : y.channel = (o.linked iv).eventChannel o.link (o.receive iv).2.2 iv.cycle
  carrying : y.link.inService = false → y.carrying = false

theorem cycleEvent_portEvent (s : State) (p : PortId) (iv : Interval) (h : (s.port p).link ≠ .off) :
    PortEvent (s.port p) ((s.cycleEvent p iv).port p) iv s.now := by
  have port := cycleEvent_port s p iv h
  have idle : ∀ t : State, (t.port p).link.inService = false → t.mayCarry p = false := by
    intro t out
    unfold State.mayCarry
    dsimp only
    rw [out, Bool.and_false, Bool.false_and, Bool.false_and]
  have carrying := congrArg Port.carrying port
  generalize s.cycleEvent p iv = t at port carrying ⊢
  have recomposed : (t.port p).link.inService = false → (t.port p).carrying = false :=
    fun out => carrying.trans (idle t out)
  generalize t.port p = y at port recomposed ⊢
  subst port
  exact ⟨rfl, rfl, rfl, rfl, rfl, rfl, rfl, rfl, rfl, rfl, rfl, rfl, rfl, rfl, linked_lastClass _ _, rfl, rfl, rfl, rfl, rfl,
    recomposed⟩

section
variable {o y : Port} {iv : Interval} {now : Time}

/-- R86: the window that the event opens is not full. -/
theorem PortEvent.window_fresh (e : PortEvent o y iv now) (h : (o.linked iv).window = some ErrorWindow.fresh) :
    y.window = some ErrorWindow.fresh := by
  rw [e.window, Port.closeWindow, h]
  rfl

theorem PortEvent.window_none (e : PortEvent o y iv now) (h : (o.linked iv).window = none) : y.window = none := by
  rw [e.window, Port.closeWindow, h]
  rfl

theorem linked_capture (o : Port) (iv : Interval) : (o.linked iv).capture = o.capture :=
  ((afterLink_frame _ _ _).2.2.2.2.2).trans (takeInterval_frame o iv).2.2.2.2.1

/-- R96: with the link in UP or SUSPECT the channel takes the content. -/
theorem PortEvent.channel_inService (e : PortEvent o y iv now) (h : y.link.inService = true) :
    y.channel = o.channel.takeContent (o.receive iv).2.2 iv.cycle := by
  rw [e.link] at h
  rw [e.channel, Port.eventChannel, if_pos h, linked_channel, if_neg]
  rintro ⟨-, down⟩
  rw [down] at h
  exact Bool.false_ne_true h

/-- R109: a link that leaves UP or SUSPECT for DOWN empties the channel. -/
theorem PortEvent.channel_lost (e : PortEvent o y iv now) (was : o.link.inService = true) (h : y.link = .down) :
    y.channel = o.channel.afterLoss := by
  rw [e.link] at h
  rw [e.channel, Port.eventChannel, h, linked_channel, if_neg (by decide), if_pos ⟨was, rfl⟩]

/-- R89: an armed capture waits no longer when the link comes to UP. -/
theorem PortEvent.capture_waitUp (e : PortEvent o y iv now) (was : o.link ≠ .up) (h : y.link = .up)
    (waits : o.capture.state = .waitUp) : y.capture.state = .armed := by
  rw [e.link] at h
  rw [e.capture, Port.afterCapture, h, if_neg was.symm, if_pos rfl, linked_capture, if_pos waits]

/-- R90: a TIMING capture is DONE when the link comes to UP. -/
theorem PortEvent.capture_timing (e : PortEvent o y iv now) (was : o.link ≠ .up) (h : y.link = .up)
    (timing : o.capture.state = .timing) :
    y.capture = { o.capture with state := .done, duration := captureSpan now o.capture.start } := by
  rw [e.link] at h
  rw [e.capture, Port.afterCapture, h, if_neg was.symm, if_pos rfl, linked_capture,
    if_neg (by rw [timing]; decide), if_pos timing]

end

end Sys2Proof.Machine
end

section
/-! PROOFS. The transitions of a cycle event: alignment, the remote's RDY and the error window, and the timers. -/

namespace Sys2Proof.Machine

/-- A cycle event whose link step enters `dest` (R76). -/
structure Transition (s t : State) (p : PortId) (iv : Interval) (dest : LinkState) (cause : Cause) : Prop where
  event : PortEvent (s.port p) (t.port p) iv s.now
  linked : (s.port p).linked iv = ((s.port p).takeInterval iv).enter dest cause
  link : (t.port p).link = dest
  notice : s.roomFor 1 → s.hands t .linkState p.val dest.code (BitVec.ofNat 32 (s.port p).link.code)
    (BitVec.ofNat 32 cause.code)

theorem cycleEvent_transition {s : State} {p : PortId} {iv : Interval} {dest : LinkState} {cause : Cause}
    (h : (s.port p).decision iv = some (dest, cause)) : Transition s (s.cycleEvent p iv) p iv dest cause := by
  have on : (s.port p).link ≠ .off := by
    rw [← (takeInterval_keeps (s.port p) iv).1]
    exact (linkDecision_target h).2.2
  have event := cycleEvent_portEvent s p iv on
  have linked := linked_of_decision h
  refine ⟨event, linked, ?_, cycleEvent_handsLink h⟩
  rw [event.link, linked]
  exact (enter_keeps _ _ _).1

/-- A port whose link has just gone to DOWN (R78). -/
structure WentDown (y : Port) (reason : DownReason) : Prop where
  link : y.link = .down
  lastDown : y.lastDown = reason
  receiver : y.receiver = .searching none 0
  rdy : y.rdy = ⟨false, 0⟩
  window : y.window = none
  nearEnd : y.nearEnd = 0
  farEnd : y.farEnd = 0
  hits : y.hits = 0
  slip : y.slip = false
  tReady : y.tReady = none
  tHold : y.tHold = none
  tRestore : y.tRestore = none
  carrying : y.carrying = false

theorem Transition.down {s t : State} {p : PortId} {iv : Interval} {cause : Cause}
    (h : Transition s t p iv .down cause) : WentDown (t.port p) cause.downReason := by
  obtain ⟨lastDown, receiver, rdy, window, nearEnd, farEnd, hits, slip, tReady, tHold, tRestore⟩ :=
    enter_down ((s.port p).takeInterval iv) cause
  rw [← h.linked] at lastDown receiver rdy window nearEnd farEnd hits slip tReady tHold tRestore
  exact ⟨h.link, h.event.lastDown.trans lastDown, h.event.receiver.trans receiver, h.event.rdy.trans rdy,
    h.event.window_none window, h.event.nearEnd.trans nearEnd, h.event.farEnd.trans farEnd, h.event.hits.trans hits,
    h.event.slip.trans slip, h.event.tReady.trans tReady, h.event.tHold.trans tHold, h.event.tRestore.trans tRestore,
    h.event.carrying (by rw [h.link]; rfl)⟩

/-! Alignment gained -/

section
variable {s : State} {p : PortId} {iv : Interval} {x : Nat} (search : (s.port p).receiver = .searching (some x) 2)
  (marker : iv.markers.head? = some x)
include search marker

/-- R76: the receiver that aligns takes ACQUIRE to AWAIT_READY. -/
theorem gained_acquire (was : (s.port p).link = .acquire) :
    (s.port p).decision iv = some (.awaitReady, .alignmentGained) := by
  rw [decision_gained search marker, Port.linkDecision, (takeInterval_keeps _ _).1, was]
  rfl

/-- R76: it takes SUSPECT to UP. -/
theorem gained_suspect (was : (s.port p).link = .suspect) : (s.port p).decision iv = some (.up, .alignmentGained) := by
  rw [decision_gained search marker, Port.linkDecision, (takeInterval_keeps _ _).1, was]
  rfl

/-- R76: it takes DOWN to RESTORE. -/
theorem gained_down (was : (s.port p).link = .down) : (s.port p).decision iv = some (.restore, .alignmentGained) := by
  rw [decision_gained search marker, Port.linkDecision, (takeInterval_keeps _ _).1, was]
  rfl

end

/-! Alignment lost -/

section
variable {s : State} {p : PortId} {iv : Interval} {x : Nat} (aligned : (s.port p).receiver = .aligned x 3)
  (miss : x ∉ iv.markers)
include aligned miss

/-- R76: the receiver that loses its alignment takes AWAIT_READY to ACQUIRE, where the remote is not ready. -/
theorem lost_awaitReady (was : (s.port p).link = .awaitReady) (notReady : (s.port p).rdy.value = false) :
    (s.port p).decision iv = some (.acquire, .alignmentLost) := by
  have filtered : ((s.port p).takeInterval iv).rdy.value = false :=
    (takeInterval_rdy_of_not_good (by rw [receive_loses aligned miss]; exact IntervalClass.noConfusion)).trans notReady
  rw [decision_lost aligned miss, Port.linkDecision, (takeInterval_keeps _ _).1, was]
  dsimp only
  rw [filtered]
  rfl

/-- R76: it takes UP to SUSPECT, where the remote is ready and the window does not declare. -/
theorem lost_up (was : (s.port p).link = .up) (ready : (s.port p).rdy.value = true)
    (quiet : ¬(s.port p).windowReaches .missing) : (s.port p).decision iv = some (.suspect, .alignmentLost) := by
  have filtered : ((s.port p).takeInterval iv).rdy.value = true :=
    (takeInterval_rdy_of_not_good (by rw [receive_loses aligned miss]; exact IntervalClass.noConfusion)).trans ready
  have calm : ((s.port p).takeInterval iv).declares = false := by
    rw [Bool.eq_false_iff, Ne, declares_iff, receive_loses aligned miss]
    exact quiet
  rw [decision_lost aligned miss, Port.linkDecision, (takeInterval_keeps _ _).1, was]
  dsimp only
  rw [filtered, calm]
  rfl

/-- R76: it takes RESTORE to DOWN. -/
theorem lost_restore (was : (s.port p).link = .restore) : (s.port p).decision iv = some (.down, .alignmentLost) := by
  rw [decision_lost aligned miss, Port.linkDecision, (takeInterval_keeps _ _).1, was]
  rfl

end

/-- Eight bits at their maximum stay there. -/
theorem satInc_byte (b : Byte) : satInc b = if b = 255 then 255 else b + 1 := by
  unfold satInc
  rw [show BitVec.allOnes 8 = 255 from rfl]
  split
  · assumption
  · rfl

/-- R83, R84, R80: an interval without a cycle leaves the counts and the filtered RDY. -/
theorem takeInterval_nothing {o : Port} {iv : Interval} (h : (o.receive iv).2.2 = .nothing) :
    (o.takeInterval iv).nearEnd = o.nearEnd ∧ (o.takeInterval iv).farEnd = o.farEnd
      ∧ (o.takeInterval iv).rdy.value = o.rdy.value := by
  obtain ⟨-, -, nearEnd, farEnd⟩ := takeInterval_counts o iv
  have near : o.nearCounts .nothing = false := by
    unfold Port.nearCounts
    rw [show IntervalClass.fails .nothing = false from rfl, Bool.and_false, Bool.false_and]
  have far : o.farCounts .nothing iv.cycle = false := by
    unfold Port.farCounts
    rw [show (IntervalClass.nothing == .good) = false from rfl, Bool.and_false, Bool.false_and]
  rw [h, near] at nearEnd
  rw [h, far] at farEnd
  exact ⟨nearEnd, farEnd, takeInterval_rdy_of_not_good (by rw [h]; decide)⟩

/-- R79: the offset has moved. -/
theorem slipped_eq (x : Nat) (last : Option Nat) :
    ((Receiver.aligned x 0).offset != last) = decide (last ≠ some x) := by
  rw [Bool.eq_iff_iff, bne_iff_ne, decide_eq_true_iff]
  exact ne_comm

/-- Settles O42: six transitions, each by its decision and what its entry leaves. -/
theorem cycleEventMovesAlignment : Obligations.CycleEventMovesAlignment := by
  intro p iv x s wf
  rw [exec_cycleEvent s p wf]
  constructor
  · rintro ⟨search, marker⟩
    have received := receive_gains search marker
    have receiver : ((s.port p).takeInterval iv).receiver = .aligned x 0 := by
      rw [(takeInterval_receive _ _).1, received]
    refine ⟨fun was => ⟨_, rfl, ?_⟩, fun was => ⟨_, rfl, ?_⟩, fun was => ⟨_, rfl, ?_⟩⟩
    · have moved := cycleEvent_transition (gained_acquire search marker was)
      have notice := moved.notice
      rw [was] at notice
      have event := moved.event
      refine ⟨moved.link, ?_, ?_, ?_, notice⟩
      · rw [event.receiver, moved.linked, (enter_awaitReady _ _).1, receiver]
      · rw [event.tReady, moved.linked, (enter_awaitReady _ _).2]
      · rw [event.lastClass, received]
    · have moved := cycleEvent_transition (gained_suspect search marker was)
      have notice := moved.notice
      rw [was] at notice
      have event := moved.event
      have linked := moved.linked
      rw [enter_up_suspect ((takeInterval_keeps _ _).1.trans was)] at linked
      obtain ⟨hits, slip, -, -⟩ := takeInterval_counts (s.port p) iv
      obtain ⟨nearEnd, farEnd, rdy⟩ := takeInterval_nothing (o := s.port p) (iv := iv) (by rw [received])
      have offset : ((s.port p).takeInterval iv).lastOffset = (s.port p).lastOffset := by
        rw [(takeInterval_receive _ _).2.1, received]
      refine ⟨moved.link, ?_, ?_, ?_, ?_, ?_, ?_, ?_, ?_, notice⟩
      · rw [event.receiver, linked]
        exact receiver
      · rw [event.tHold, linked]
        rfl
      · rw [event.hits, linked, ← satInc_byte, ← hits]
        rfl
      · rw [event.slip, linked]
        show (_ || ((s.port p).takeInterval iv).receiver.offset != ((s.port p).takeInterval iv).lastOffset) = _
        rw [receiver, slip, offset]
        exact congrArg _ (slipped_eq x _)
      · rw [event.nearEnd, linked]
        exact nearEnd
      · rw [event.farEnd, linked]
        exact farEnd
      · rw [event.rdy, linked]
        exact rdy
      · rw [event.lastClass, received]
    · have moved := cycleEvent_transition (gained_down search marker was)
      have notice := moved.notice
      rw [was] at notice
      have event := moved.event
      obtain ⟨align, tReady, tRestore, window, nearEnd, farEnd, hits, slip, lastDown⟩ :=
        enter_restore ((s.port p).takeInterval iv) .alignmentGained
      rw [← moved.linked] at align tReady tRestore window nearEnd farEnd hits slip lastDown
      exact ⟨moved.link, event.receiver.trans (align.trans receiver), event.tReady.trans tReady,
        event.tRestore.trans tRestore, event.window_fresh window, event.nearEnd.trans nearEnd, event.farEnd.trans farEnd,
        event.hits.trans hits, event.slip.trans slip,
        event.lastDown.trans (lastDown.trans (takeInterval_frame _ _).2.2.2.1),
        by rw [event.lastClass, received], notice⟩
  · rintro ⟨aligned, miss⟩
    have received := receive_loses aligned miss
    obtain ⟨receiver, offset, -⟩ := takeInterval_receive (s.port p) iv
    rw [received] at receiver offset
    refine ⟨?_, ?_, fun was => ⟨_, rfl, ?_⟩⟩
    · rintro ⟨was, notReady⟩
      have moved := cycleEvent_transition (lost_awaitReady aligned miss was notReady)
      have notice := moved.notice
      rw [was] at notice
      obtain ⟨search, tReady, -⟩ := enter_acquire ((s.port p).takeInterval iv) .alignmentLost
      rw [← moved.linked] at search tReady
      exact ⟨_, rfl, moved.link, moved.event.receiver.trans search, moved.event.tReady.trans tReady,
        by rw [moved.event.lastClass, received], notice⟩
    · rintro ⟨was, ready, quiet⟩
      have moved := cycleEvent_transition (lost_up aligned miss was ready quiet)
      have notice := moved.notice
      rw [was] at notice
      obtain ⟨search, recorded, tHold⟩ := enter_suspect ((s.port p).takeInterval iv) .alignmentLost
      rw [← moved.linked] at search recorded tHold
      exact ⟨_, rfl, moved.link, moved.event.receiver.trans (search.trans receiver),
        moved.event.lastOffset.trans (recorded.trans offset), moved.event.tHold.trans tHold,
        by rw [moved.event.lastClass, received], notice⟩
    · have moved := cycleEvent_transition (lost_restore aligned miss was)
      have notice := moved.notice
      rw [was] at notice
      have down := moved.down
      exact ⟨down.link, down.lastDown, down.receiver, down.window, down.tReady, down.tRestore,
        by rw [moved.event.lastClass, received], notice⟩

end Sys2Proof.Machine
end

section
/-! PROOFS. The link step by the filtered RDY, the error window and the timers, and the events that those bring due. -/

namespace Sys2Proof.Machine

/-! The decisions of UP, RESTORE and the timers (R75, R76) -/

/-- R75: a timer that does not run does not expire. -/
theorem timerExpires_none (length : Nat) : timerExpires none length = false := rfl

section
variable {o : Port} {iv : Interval} {cls : IntervalClass}

theorem receive_class (h : (o.takeInterval iv).lastClass = some cls) : (o.receive iv).2.2 = cls :=
  Option.some.inj h

theorem declares_of_reaches (h : (o.takeInterval iv).lastClass = some cls) (reaches : o.windowReaches cls) :
    (o.takeInterval iv).declares = true := by
  rw [declares_iff, receive_class h]
  exact reaches

theorem not_declares_of_quiet (h : (o.takeInterval iv).lastClass = some cls) (quiet : ¬o.windowReaches cls) :
    (o.takeInterval iv).declares = false := by
  rw [Bool.eq_false_iff, Ne, declares_iff, receive_class h]
  exact quiet

/-- R76: AWAIT_READY goes to UP when the remote is ready. -/
theorem decision_remoteReady (was : o.link = .awaitReady) (ready : (o.takeInterval iv).rdy.value = true) :
    o.decision iv = some (.up, .remoteReady) := by
  simp only [Port.decision, Port.linkDecision, (takeInterval_keeps o iv).1, was, ready, if_true]

/-- R76: T_ready takes AWAIT_READY to ACQUIRE. -/
theorem decision_readyTimeout (was : o.link = .awaitReady) (holds : o.staysAligned iv)
    (notReady : (o.takeInterval iv).rdy.value = false) (due : timerExpires o.tReady Config.tReadyLength = true) :
    o.decision iv = some (.acquire, .readyTimeout) := by
  simp only [Port.decision, Port.linkDecision, (takeInterval_keeps o iv).1, was, notReady, (not_lost_iff o iv).mpr holds,
    (takeInterval_frame o iv).1, due, Bool.false_eq_true, if_false, if_true]

/-- R87: UP, and RESTORE whose alignment holds, go to DOWN when the window declares. -/
theorem decision_errors (was : o.link = .up ∨ (o.link = .restore ∧ o.staysAligned iv))
    (declares : (o.takeInterval iv).declares = true) : o.decision iv = some (.down, .errors) := by
  obtain was | ⟨was, holds⟩ := was
  · simp only [Port.decision, Port.linkDecision, (takeInterval_keeps o iv).1, was, declares, if_true]
  · simp only [Port.decision, Port.linkDecision, (takeInterval_keeps o iv).1, was, (not_lost_iff o iv).mpr holds,
      declares, Bool.false_eq_true, if_false, if_true]

/-- R76: UP, and RESTORE while T_restore runs, go to DOWN when the remote is not ready. -/
theorem decision_remoteNotReady
    (was : o.link = .up ∨ (o.link = .restore ∧ o.staysAligned iv ∧ o.tRestore ≠ none))
    (calm : (o.takeInterval iv).declares = false) (notReady : (o.takeInterval iv).rdy.value = false) :
    o.decision iv = some (.down, .remoteNotReady) := by
  obtain was | ⟨was, holds, runs⟩ := was
  · simp only [Port.decision, Port.linkDecision, (takeInterval_keeps o iv).1, was, calm, notReady, Bool.false_eq_true,
      if_false, Bool.not_false, if_true]
  · have timing : (o.takeInterval iv).tRestore.isSome = true := by
      rw [(takeInterval_frame o iv).2.2.1]
      exact Option.isSome_iff_ne_none.mpr runs
    simp only [Port.decision, Port.linkDecision, (takeInterval_keeps o iv).1, was, (not_lost_iff o iv).mpr holds, calm,
      notReady, timing, Bool.false_eq_true, if_false, Bool.not_false, Bool.and_self, if_true]

/-- R76: T_ready takes RESTORE to DOWN before T_restore runs. -/
theorem decision_restoreTimeout (was : o.link = .restore) (holds : o.staysAligned iv) (idle : o.tRestore = none)
    (calm : (o.takeInterval iv).declares = false) (notReady : (o.takeInterval iv).rdy.value = false)
    (due : timerExpires o.tReady Config.tReadyLength = true) : o.decision iv = some (.down, .remoteNotReady) := by
  simp only [Port.decision, Port.linkDecision, (takeInterval_keeps o iv).1, was, (not_lost_iff o iv).mpr holds, calm,
    notReady, (takeInterval_frame o iv).1, (takeInterval_frame o iv).2.2.1, idle, due, Option.isSome_none,
    Option.isNone_none, timerExpires_none, Bool.false_and, Bool.false_eq_true, if_false, Bool.not_false, Bool.and_self, if_true]

/-- R76: T_hold takes SUSPECT to DOWN. -/
theorem decision_holdTimeout (was : o.link = .suspect)
    (searches : o.receiver.isAligned = true ∨ (o.takeInterval iv).receiver.isAligned = false)
    (due : timerExpires o.tHold Config.tHoldLength = true) : o.decision iv = some (.down, .alignmentLost) := by
  simp only [Port.decision, Port.linkDecision, (takeInterval_keeps o iv).1, was, (not_gained_iff o iv).mpr searches,
    (takeInterval_frame o iv).2.1, due, Bool.false_eq_true, if_false, if_true]

/-- R76: T_restore takes RESTORE to UP. -/
theorem decision_guardExpired (was : o.link = .restore) (holds : o.staysAligned iv)
    (calm : (o.takeInterval iv).declares = false) (ready : (o.takeInterval iv).rdy.value = true)
    (due : timerExpires o.tRestore Config.tRestoreLength = true) : o.decision iv = some (.up, .guardExpired) := by
  simp only [Port.decision, Port.linkDecision, (takeInterval_keeps o iv).1, was, (not_lost_iff o iv).mpr holds, calm,
    ready, (takeInterval_frame o iv).2.2.1, due, Bool.not_true, Bool.and_false, Bool.false_eq_true, if_false, if_true]

/-- R76: UP stays, aligned, with the remote ready. -/
theorem decision_up_stays (was : o.link = .up) (holds : o.staysAligned iv) (calm : (o.takeInterval iv).declares = false)
    (ready : (o.takeInterval iv).rdy.value = true) : o.decision iv = none := by
  simp only [Port.decision, Port.linkDecision, (takeInterval_keeps o iv).1, was, (not_lost_iff o iv).mpr holds, calm,
    ready, Bool.not_true, Bool.false_eq_true, if_false]

/-- R76: RESTORE stays, aligned, with the remote ready, before T_restore runs. -/
theorem decision_restore_stays (was : o.link = .restore) (holds : o.staysAligned iv) (idle : o.tRestore = none)
    (calm : (o.takeInterval iv).declares = false) (ready : (o.takeInterval iv).rdy.value = true) :
    o.decision iv = none := by
  simp only [Port.decision, Port.linkDecision, (takeInterval_keeps o iv).1, was, (not_lost_iff o iv).mpr holds, calm,
    ready, (takeInterval_frame o iv).2.2.1, idle, Option.isSome_none, timerExpires_none, Bool.not_true, Bool.and_false,
    Bool.false_and, Bool.false_eq_true, if_false]

/-- R75: in UP no timer runs. -/
theorem advanceTimers_up (was : o.link = .up) : o.advanceTimers = o := by
  unfold Port.advanceTimers
  rw [was]

/-- R75: in RESTORE the remote's RDY starts T_restore. -/
theorem advanceTimers_restore (was : o.link = .restore) (idle : o.tRestore = none) (ready : o.rdy.value = true) :
    o.advanceTimers = { o with tRestore := some 0, tReady := none } := by
  simp only [Port.advanceTimers, was, idle, ready, if_true]

end

/-- R109: a link that goes from UP or SUSPECT to DOWN empties its channel. -/
theorem Transition.channel_down {s t : State} {p : PortId} {iv : Interval} {cause : Cause}
    (h : Transition s t p iv .down cause) (was : (s.port p).link.inService = true) :
    (t.port p).channel.loop = false ∧ (t.port p).channel.corrupt = false ∧ (t.port p).channel.hubCorrupting = false
      ∧ (t.port p).channel.outstanding = none := by
  obtain ⟨loop, corrupt, hub⟩ := afterLoss_clear (s.port p).channel
  rw [h.event.channel_lost was h.link]
  exact ⟨loop, corrupt, hub, (afterLoss_command _).2.1⟩

/-- Settles O43: the decision by RDY and the window, and what the entry, or the stay, leaves. -/
theorem cycleEventJudgesReadyAndErrors : Obligations.CycleEventJudgesReadyAndErrors := by
  intro p iv cls s wf hcls
  rw [exec_cycleEvent s p wf]
  refine ⟨?_, ?_, ?_, ?_, ?_⟩
  · rintro ⟨was, ready⟩
    have moved := cycleEvent_transition (decision_remoteReady was ready)
    have notice := moved.notice
    rw [was] at notice
    have linked := moved.linked
    rw [enter_up_awaitReady ((takeInterval_keeps _ _).1.trans was)] at linked
    refine ⟨_, rfl, moved.link, moved.event.window_fresh ?_, moved.event.tReady.trans ?_,
      moved.event.capture_waitUp (by rw [was]; decide) moved.link, notice⟩
    · rw [linked]
    · rw [linked]
      rfl
  · rintro ⟨was, reaches⟩
    have moved := cycleEvent_transition (decision_errors was (declares_of_reaches hcls reaches))
    have down := moved.down
    refine ⟨_, rfl, down.link, down.lastDown, down.window, down.receiver, down.rdy, down.nearEnd, down.farEnd, down.hits,
      down.slip, down.tReady, down.tRestore, down.carrying, fun up => ?_, moved.notice⟩
    obtain ⟨loop, -, hub, outstanding⟩ := moved.channel_down (by rw [up]; rfl)
    exact ⟨loop, hub, outstanding⟩
  · rintro ⟨was, quiet, notReady⟩
    have moved := cycleEvent_transition (decision_remoteNotReady was (not_declares_of_quiet hcls quiet) notReady)
    have down := moved.down
    exact ⟨_, rfl, down.link, down.lastDown, down.window, down.receiver, down.carrying, moved.notice⟩
  · rintro ⟨was, holds, quiet, ready⟩
    have event := cycleEvent_portEvent s p iv (by rw [was]; decide)
    have link := (takeInterval_keeps (s.port p) iv).1.trans was
    have linked := linked_of_no_decision (decision_up_stays was holds (not_declares_of_quiet hcls quiet) ready)
    rw [advanceTimers_up link] at linked
    obtain ⟨hits, slip, -, -⟩ := takeInterval_counts (s.port p) iv
    rw [← linked] at link hits slip
    exact ⟨_, rfl, event.link.trans link, event.lastDown.trans (by rw [linked, (takeInterval_frame _ _).2.2.2.1]),
      event.hits.trans hits, event.slip.trans slip⟩
  · rintro ⟨was, holds, quiet, idle, ready⟩
    have event := cycleEvent_portEvent s p iv (by rw [was]; decide)
    have link := (takeInterval_keeps (s.port p) iv).1.trans was
    have linked :=
      linked_of_no_decision (decision_restore_stays was holds idle (not_declares_of_quiet hcls quiet) ready)
    rw [advanceTimers_restore link ((takeInterval_frame _ _).2.2.1.trans idle) ready] at linked
    exact ⟨_, rfl, event.link.trans (by rw [linked]; exact link), event.tRestore.trans (by rw [linked]),
      event.tReady.trans (by rw [linked])⟩

/-! The timers (R75, R76) -/

/-- Settles O47: each timer brings its decision due, or the event does not come. -/
theorem linkTimersExpire : Obligations.LinkTimersExpire := by
  intro p iv s wf
  refine ⟨fun early => spanEvent_idle wf (timerExpires_false early), fun n runs long notReady holds => ?_,
    fun early => spanEvent_idle wf (timerExpires_false early), fun n runs long was searches => ?_,
    fun early => spanEvent_idle wf (timerExpires_false early), fun n cls runs long was hcls quiet ready holds => ?_⟩
  · have due := timerExpires_true (l := Config.tReadyLength) runs long
    refine ⟨fun was => ?_, fun cls ⟨was, idle, hcls, quiet⟩ => ?_⟩
    · have moved := cycleEvent_transition (decision_readyTimeout was holds notReady due)
      have notice := moved.notice
      rw [was] at notice
      obtain ⟨search, tReady, lastDown⟩ := enter_acquire ((s.port p).takeInterval iv) .readyTimeout
      rw [← moved.linked] at search tReady lastDown
      exact ⟨_, spanEvent_due wf due, moved.link, moved.event.tReady.trans tReady, moved.event.receiver.trans search,
        moved.event.lastDown.trans (lastDown.trans (takeInterval_frame _ _).2.2.2.1), notice⟩
    · have moved := cycleEvent_transition
        (decision_restoreTimeout was holds idle (not_declares_of_quiet hcls quiet) notReady due)
      have notice := moved.notice
      rw [was] at notice
      have down := moved.down
      exact ⟨_, spanEvent_due wf due, down.link, down.tReady, down.receiver, down.lastDown, notice⟩
  · have due := timerExpires_true (l := Config.tHoldLength) runs long
    have moved := cycleEvent_transition (decision_holdTimeout was searches due)
    have notice := moved.notice
    rw [was] at notice
    have down := moved.down
    obtain ⟨loop, corrupt, hub, outstanding⟩ := moved.channel_down (by rw [was]; rfl)
    exact ⟨_, spanEvent_due wf due, down.link, down.lastDown, down.tHold, down.window, down.receiver, down.nearEnd,
      down.farEnd, down.hits, down.slip, loop, corrupt, hub, outstanding, down.carrying, notice⟩
  · have due := timerExpires_true (l := Config.tRestoreLength) runs long
    have decided := decision_guardExpired was holds (not_declares_of_quiet hcls quiet) ready due
    have moved := cycleEvent_transition decided
    have notice := moved.notice
    rw [was] at notice
    have tRestore := (enter_up_timers ((s.port p).takeInterval iv) .guardExpired).2
    rw [← moved.linked] at tRestore
    have notUp : (s.port p).link ≠ .up := by rw [was]; decide
    exact ⟨_, spanEvent_due wf due, moved.link, moved.event.tRestore.trans tRestore,
      fun timing => ⟨moved.event.capture_timing notUp moved.link timing,
        cycleEvent_handsCapture (by rw [was]; decide) notUp (moved.event.link.symm.trans moved.link) timing⟩,
      moved.event.capture_waitUp notUp moved.link, notice⟩

/-! The counts of the window and of the command (R86, R102) -/

/-- R75: the timers' advance leaves the window. -/
theorem advanceTimers_window (o : Port) : o.advanceTimers.window = o.window := by
  unfold Port.advanceTimers
  repeat' split
  all_goals rfl

/-- R86: a window that the event fills gives way to a new one, when the link stays in its state. -/
theorem PortEvent.window_filled {o y : Port} {iv : Interval} {now : Time} (e : PortEvent o y iv now) {w : ErrorWindow}
    (h : o.window = some w) (full : 500 ≤ w.position + 1) (stays : y.link = o.link) :
    y.window = some ErrorWindow.fresh := by
  rw [e.window, Port.closeWindow, linked_of_no_decision (decision_none_of_link (e.link.symm.trans stays)),
    advanceTimers_window, (takeInterval_frame _ _).2.2.2.2.2.2.2, h]
  exact congrArg some (if_pos full)

/-- R101: the answer run leaves the sent count and the latched set. -/
theorem stepAnswer_keeps (ch : Channel) (c : MaintCommand) (m : Option Message) : (ch.stepAnswer c m).sent = ch.sent
    ∧ (ch.stepAnswer c m).loop = ch.loop ∧ (ch.stepAnswer c m).corrupt = ch.corrupt
    ∧ (ch.stepAnswer c m).lastResult = ch.lastResult ∧ (ch.stepAnswer c m).outstanding = ch.outstanding := by
  unfold Channel.stepAnswer
  repeat' split
  all_goals exact ⟨rfl, rfl, rfl, rfl, rfl⟩

/-- R102: a command that was sent in 125 cycles ends without an answer. -/
theorem takeAnswer_exhausted {ch : Channel} {c : MaintCommand} {m : Option Message} (sent : ch.outstanding = some c)
    (long : 125 ≤ ch.sent) (run : (ch.stepAnswer c m).answerRun < 3) :
    ch.takeAnswer m = { ch.stepAnswer c m with outstanding := none, lastResult := .noAnswer } := by
  have exhausted : Config.sentMax ≤ (ch.stepAnswer c m).sent := by
    rw [(stepAnswer_keeps ch c m).1]
    exact long
  unfold Channel.takeAnswer
  rw [sent]
  exact (if_neg (Nat.not_le.mpr run)).trans (if_pos exhausted)

theorem inService_of_or {l : LinkState} (h : l = .up ∨ l = .suspect) : l.inService = true := by
  rcases h with rfl | rfl <;> rfl

/-- Settles O48: the two events when they are due, and that they do not come before. -/
theorem windowAndCommandReachTheirCounts : Obligations.WindowAndCommandReachTheirCounts := by
  intro p iv s wf
  refine ⟨fun early => spanEvent_idle wf ?_, fun w opened full was => ?_, fun early => spanEvent_idle wf ?_,
    fun c cls sent long was hcls run => ?_⟩
  · unfold Port.windowFills
    cases opened : (s.port p).window with
    | none => rfl
    | some w => exact decide_eq_false (Nat.not_le.mpr (early w opened))
  · have due : (s.port p).windowFills = true := by
      unfold Port.windowFills
      rw [opened]
      exact decide_eq_true full
    have on : (s.port p).link ≠ .off := by
      rcases was with was | was | was <;> rw [was] <;> decide
    exact ⟨_, spanEvent_due wf due, (cycleEvent_portEvent s p iv on).window_filled opened full⟩
  · unfold Port.commandExhausted
    rcases early with idle | early
    · rw [idle, Option.isSome_none, Bool.and_false, Bool.false_and]
    · rw [decide_eq_false (Nat.not_le.mpr early), Bool.and_false]
  · have service := inService_of_or was
    have due : (s.port p).commandExhausted = true := by
      unfold Port.commandExhausted
      rw [service, sent, decide_eq_true (show Config.sentMax ≤ _ from long)]
      rfl
    have on : (s.port p).link ≠ .off := by
      rcases was with was | was <;> rw [was] <;> decide
    refine ⟨_, spanEvent_due wf due, fun now => ?_⟩
    have channel := (cycleEvent_portEvent s p iv on).channel_inService (inService_of_or now)
    rw [receive_class hcls] at channel
    obtain ⟨hsent, loop, corrupt, -, -⟩ := stepAnswer_keeps (s.port p).channel c
      (if cls.readable then some (messageOf iv.cycle) else none)
    obtain ⟨outstanding', lastResult', loop', corrupt', -, -, sent'⟩ := channel_takeMessage_frame
      ((s.port p).channel.takeAnswer (if cls.readable then some (messageOf iv.cycle) else none))
      (if cls.readable then some (messageOf iv.cycle) else none)
    rw [takeAnswer_exhausted sent long run] at outstanding' lastResult' loop' corrupt' sent'
    rw [channel, Channel.takeContent, takeAnswer_exhausted sent long run]
    exact ⟨outstanding', lastResult', sent'.trans hsent, loop'.trans loop, corrupt'.trans corrupt⟩

end Sys2Proof.Machine
end

section
/-! PROOFS. The counts and the status filter of a cycle event. -/

namespace Sys2Proof.Machine

/-! The received cycle in UP (R71, R83, R84) -/

/-- R71: a cycle at the aligned offset is received. -/
theorem receive_marker {o : Port} {iv : Interval} {x n : Nat} (h : o.receiver = .aligned x n) (marker : x ∈ iv.markers) :
    o.receive iv = (.aligned x 0, o.lastOffset, classOfCycle iv.cycle) := by
  unfold Port.receive
  rw [h]
  exact if_pos marker

/-- R75: the timers' advance leaves the counts. -/
theorem advanceTimers_counts (o : Port) : o.advanceTimers.nearEnd = o.nearEnd ∧ o.advanceTimers.farEnd = o.farEnd := by
  unfold Port.advanceTimers
  repeat' split
  all_goals exact ⟨rfl, rfl⟩

/-- R83: the near-end count in UP. -/
theorem nearCounts_iff {o : Port} (was : o.link = .up) (cls : IntervalClass) :
    o.nearCounts cls = true ↔ cls.fails = true ∧ (o.channel.corrupt = false ∨ o.cfg.countDuringCheck = true) := by
  unfold Port.nearCounts
  rw [was, Bool.and_eq_true, Bool.and_eq_true, Bool.or_eq_true, Bool.not_eq_true', LinkState.inService]
  exact ⟨fun h => ⟨h.1.2, h.2⟩, fun h => ⟨⟨rfl, h.1⟩, h.2⟩⟩

/-- R84: the far-end count in UP. -/
theorem farCounts_iff {o : Port} (was : o.link = .up) (cls : IntervalClass) (c : LineCycle) :
    o.farCounts cls c = true ↔ cls = .good ∧ fbeOf c = true := by
  unfold Port.farCounts
  rw [was, Bool.and_eq_true, Bool.and_eq_true, beq_iff_eq, LinkState.inService]
  exact ⟨fun h => ⟨h.1.2, h.2⟩, fun h => ⟨⟨rfl, h.1⟩, h.2⟩⟩

/-! The status filter (R78, R80, R81) -/

/-- R80: a filtered bit after an interval of class `cls` whose cycle shows `b`. -/
def Filtered.after (f : Filtered) (cls : IntervalClass) (b : Bool) (look : Nat) : Filtered :=
  if cls = .good then f.take b look else f.clearRun

theorem filtered_after_eq (f : Filtered) (cls : IntervalClass) (b : Bool) (look : Nat) :
    f.after cls b look = if cls = .good ∧ b ≠ f.value then
      (if look ≤ f.run + 1 then ⟨b, 0⟩ else ⟨f.value, f.run + 1⟩) else ⟨f.value, 0⟩ := by
  unfold Filtered.after Filtered.take Filtered.clearRun
  by_cases good : cls = .good
  · by_cases same : b = f.value
    · rw [if_pos good, if_pos same, if_neg (fun h : cls = .good ∧ b ≠ f.value => h.2 same)]
    · rw [if_pos good, if_neg same, if_pos (show cls = .good ∧ b ≠ f.value from ⟨good, same⟩)]
  · rw [if_neg good, if_neg (fun h => good h.1)]

theorem takeInterval_filter (o : Port) (iv : Interval) :
    (o.takeInterval iv).rdy = o.rdy.after (o.receive iv).2.2 (rdyOf iv.cycle) o.look
      ∧ (o.takeInterval iv).backup = o.backup.after (o.receive iv).2.2 (backupOf iv.cycle) o.look
      ∧ (o.takeInterval iv).inputLoss = o.inputLoss.after (o.receive iv).2.2 (inputLossOf iv.cycle) o.look := by
  unfold Port.takeInterval Port.filterStatus Filtered.after
  dsimp only
  split <;> exact ⟨rfl, rfl, rfl⟩

/-- Two ports agree in the filtered and the reported status. -/
structure SameStatus (x y : Port) : Prop where
  rdy : y.rdy = x.rdy
  backup : y.backup = x.backup
  inputLoss : y.inputLoss = x.inputLoss
  repBackup : y.repBackup = x.repBackup
  repInputLoss : y.repInputLoss = x.repInputLoss

/-- R78: entering ACQUIRE or DOWN clears the filtered and reported status. -/
theorem enter_clears (o : Port) {dest : LinkState} (c : Cause) (h : dest = .acquire ∨ dest = .down) :
    SameStatus o.restartSearch (o.enter dest c) := by
  rcases h with rfl | rfl <;> exact ⟨rfl, rfl, rfl, rfl, rfl⟩

/-- R78: entering any other state but OFF keeps it. -/
theorem enter_keepsStatus (o : Port) {dest : LinkState} (c : Cause) (off : dest ≠ .off) (acquire : dest ≠ .acquire)
    (down : dest ≠ .down) : SameStatus o (o.enter dest c) := by
  cases dest with
  | off => exact absurd rfl off
  | acquire => exact absurd rfl acquire
  | down => exact absurd rfl down
  | up =>
    unfold Port.enter
    dsimp only
    repeat' split
    all_goals exact ⟨rfl, rfl, rfl, rfl, rfl⟩
  | awaitReady | suspect | restore => exact ⟨rfl, rfl, rfl, rfl, rfl⟩

theorem advanceTimers_keepsStatus (o : Port) : SameStatus o o.advanceTimers := by
  unfold Port.advanceTimers
  repeat' split
  all_goals exact ⟨rfl, rfl, rfl, rfl, rfl⟩

/-- R78: the link step that enters ACQUIRE or DOWN clears the status. -/
theorem linked_clears {o : Port} {iv : Interval} (moved : (o.linked iv).link ≠ o.link)
    (entered : (o.linked iv).link = .acquire ∨ (o.linked iv).link = .down) :
    SameStatus (o.takeInterval iv).restartSearch (o.linked iv) := by
  cases hd : o.decision iv with
  | none =>
    refine absurd ?_ moved
    rw [linked_of_no_decision hd, (advanceTimers_keeps _).1, (takeInterval_keeps _ _).1]
  | some x =>
    obtain ⟨dest, cause⟩ := x
    rw [linked_of_decision hd, (enter_keeps _ _ _).1] at entered
    rw [linked_of_decision hd]
    exact enter_clears _ cause entered

/-- R78: any other link step keeps the status. -/
theorem linked_keepsStatus {o : Port} {iv : Interval}
    (h : (o.linked iv).link = o.link ∨ ((o.linked iv).link ≠ .acquire ∧ (o.linked iv).link ≠ .down)) :
    SameStatus (o.takeInterval iv) (o.linked iv) := by
  cases hd : o.decision iv with
  | none =>
    rw [linked_of_no_decision hd]
    exact advanceTimers_keepsStatus _
  | some x =>
    obtain ⟨dest, cause⟩ := x
    have link := (enter_keeps (o.takeInterval iv) dest cause).1
    rw [linked_of_decision hd, link] at h
    rw [linked_of_decision hd]
    obtain same | ⟨acquire, down⟩ := h
    · exact absurd (same.trans (takeInterval_keeps o iv).1.symm) (linkDecision_moves hd)
    · exact enter_keepsStatus _ cause (linkDecision_target hd).1 acquire down

/-- R81: out of UP and SUSPECT nothing is reported. -/
theorem PortEvent.report_out {o y : Port} {iv : Interval} {now : Time} (e : PortEvent o y iv now)
    (out : (o.linked iv).link.inService = false) :
    y.repBackup = (o.linked iv).repBackup ∧ y.repInputLoss = (o.linked iv).repInputLoss := by
  have repBackup := e.repBackup
  have repInputLoss := e.repInputLoss
  rw [out] at repBackup repInputLoss
  exact ⟨repBackup, repInputLoss⟩

/-- Settles O44: the filter is the interval's, kept or cleared by the link step; the report follows the filter. -/
theorem cycleEventCountsAndFilters : Obligations.CycleEventCountsAndFilters := by
  intro p iv s wf
  rw [exec_cycleEvent s p wf]
  constructor
  · intro x n was aligned marker
    have event := cycleEvent_portEvent s p iv (by rw [was]; decide)
    have received := receive_marker aligned marker
    refine ⟨_, rfl, by rw [event.lastClass, received], fun stays => ?_⟩
    have linked := linked_of_no_decision (decision_none_of_link (event.link.symm.trans (stays.trans was.symm)))
    obtain ⟨near, far⟩ := advanceTimers_counts ((s.port p).takeInterval iv)
    obtain ⟨-, -, nearEnd, farEnd⟩ := takeInterval_counts (s.port p) iv
    rw [received] at nearEnd farEnd
    simp only [nearCounts_iff was, farCounts_iff was] at nearEnd farEnd
    rw [event.nearEnd, event.farEnd, linked, near, far]
    exact ⟨nearEnd, farEnd⟩
  · intro on
    have event := cycleEvent_portEvent s p iv on
    obtain ⟨rdy, backup, inputLoss⟩ := takeInterval_filter (s.port p) iv
    obtain ⟨repBackup, repInputLoss⟩ := takeInterval_reported (s.port p) iv
    refine ⟨_, _, rfl, event.lastClass, ?_, ?_, ?_, ?_⟩
    · intro f g b which
      rw [event.link]
      refine ⟨fun ⟨moved, entered⟩ => ?_, fun stays => ?_⟩
      · have cleared := linked_clears moved entered
        obtain ⟨-, rfl, -⟩ | ⟨-, rfl, -⟩ | ⟨-, rfl, -⟩ := which
        · exact event.rdy.trans cleared.rdy
        · exact event.backup.trans cleared.backup
        · exact event.inputLoss.trans cleared.inputLoss
      · have kept := linked_keepsStatus stays
        have look : (if (s.port p).cfg.oneLook then 1 else 3) = (s.port p).look := rfl
        rw [look, ← filtered_after_eq]
        obtain ⟨rfl, rfl, rfl⟩ | ⟨rfl, rfl, rfl⟩ | ⟨rfl, rfl, rfl⟩ := which
        · exact event.rdy.trans (kept.rdy.trans rdy)
        · exact event.backup.trans (kept.backup.trans backup)
        · exact event.inputLoss.trans (kept.inputLoss.trans inputLoss)
    · intro now
      have service := inService_of_or now
      rw [event.link] at service now
      have kept := linked_keepsStatus (o := s.port p) (iv := iv)
        (Or.inr (by rcases now with h | h <;> rw [h] <;> decide))
      have reported := event.repBackup
      have reported' := event.repInputLoss
      rw [if_pos service, ← event.backup] at reported
      rw [if_pos service, ← event.inputLoss] at reported'
      refine ⟨reported, reported', fun differs room => ?_⟩
      rw [event.backup, event.inputLoss] at differs ⊢
      have notice := cycleEvent_handsStatus on service (by
        rw [kept.repBackup, kept.repInputLoss, repBackup, repInputLoss]
        exact differs) room
      rw [kept.repBackup, kept.repInputLoss, repBackup, repInputLoss] at notice
      exact notice
    · intro now
      rw [event.link] at now
      obtain ⟨reported, reported'⟩ := event.report_out (by rcases now with h | h <;> rw [h] <;> rfl)
      have kept := linked_keepsStatus (o := s.port p) (iv := iv)
        (Or.inr (by rcases now with h | h <;> rw [h] <;> decide))
      exact ⟨reported.trans (kept.repBackup.trans repBackup), reported'.trans (kept.repInputLoss.trans repInputLoss)⟩
    · rintro ⟨moved, entered⟩
      rw [event.link] at moved entered
      have cleared := linked_clears moved entered
      obtain ⟨reported, reported'⟩ := event.report_out (by rcases entered with h | h <;> rw [h] <;> rfl)
      exact ⟨reported.trans cleared.repBackup, reported'.trans cleared.repInputLoss⟩

end Sys2Proof.Machine
end

section
/-! PROOFS. What the Maintenance Channel takes of a cycle event: the answer run and the message run. -/

namespace Sys2Proof.Machine

theorem readMessage_eq (iv : Interval) (cls : IntervalClass) :
    readMessage iv cls = if cls = .good ∨ cls = .inverted then some (messageOf iv.cycle) else none := by
  cases cls <;> rfl

/-! The answer run (R101, R102) -/

section
variable {ch : Channel} {c : MaintCommand} {m : Option Message}

/-- R101: the answer run after an answer of kind `k`. -/
theorem stepAnswer_own (k : AnswerKind) : ch.stepAnswer c (some ⟨if k = .echo then 2 else 3, BitVec.ofNat 8 c.code⟩)
    = { ch with answerKind := some k, answerRun := if ch.answerKind = some k then ch.answerRun + 1 else 1 } := by
  unfold Channel.stepAnswer
  dsimp only
  rw [answerKindOf_own]
  dsimp only
  split
  · rename_i same
    rw [← same]
  · rfl

/-- R101: anything else clears the run. -/
theorem stepAnswer_other (h : ∀ k : AnswerKind, m ≠ some ⟨if k = .echo then 2 else 3, BitVec.ofNat 8 c.code⟩) :
    ch.stepAnswer c m = { ch with answerKind := none, answerRun := 0 } := by
  unfold Channel.stepAnswer
  cases m with
  | none => rfl
  | some x =>
    dsimp only
    rw [answerKindOf_none c x (fun k same => h k (congrArg some same))]

/-- R101: a run below 3 goes on, while the command may still be sent. -/
theorem takeAnswer_runs (sent : ch.outstanding = some c) (short : ch.sent < 125) (run : (ch.stepAnswer c m).answerRun < 3) :
    ch.takeAnswer m = ch.stepAnswer c m := by
  have more : ¬Config.sentMax ≤ (ch.stepAnswer c m).sent := by
    rw [(stepAnswer_keeps ch c m).1]
    exact Nat.not_le.mpr short
  unfold Channel.takeAnswer
  rw [sent]
  exact (if_neg (Nat.not_le.mpr run)).trans (if_neg more)

/-- R102: at a run of 3 the command ends, ACKED with its latch or DECLINED. -/
theorem takeAnswer_ends {k : AnswerKind} (sent : ch.outstanding = some c) (run : 3 ≤ (ch.stepAnswer c m).answerRun)
    (kind : (ch.stepAnswer c m).answerKind = some k) : ch.takeAnswer m =
      { (if k = .echo then (ch.stepAnswer c m).latch c else ch.stepAnswer c m) with
        outstanding := none, lastResult := if k = .echo then .acked else .declined } := by
  unfold Channel.takeAnswer
  rw [sent]
  refine (if_pos run).trans ?_
  cases k with
  | echo => exact if_pos kind
  | cannot => exact if_neg (by rw [kind]; decide)

theorem takeAnswer_idle (idle : ch.outstanding = none) : ch.takeAnswer m = ch := by
  unfold Channel.takeAnswer
  rw [idle]

theorem latch_sent (x : Channel) (c : MaintCommand) : (x.latch c).sent = x.sent := by
  cases c <;> rfl

end

/-! The message run (R105 to R107) -/

theorem channel_takeMessage_none (ch : Channel) :
    ch.takeMessage none = { ch with candidate := none, messageRun := 0 } := rfl

/-- R106, R107: what a verified message changes. -/
theorem channel_takeVerified (ch : Channel) (x : Message) : (ch.takeVerified x).candidate = ch.candidate
    ∧ (ch.takeVerified x).messageRun = ch.messageRun ∧ (ch.takeVerified x).present = ch.present
    ∧ (ch.takeVerified x).lastReport = (if x.kind = 4 then x.code else ch.lastReport)
    ∧ (ch.takeVerified x).hubCorrupting = (if x.kind = 1 ∧ x.code = 2 then true
        else if x.kind = 1 ∧ x.code = 3 then false else ch.hubCorrupting) := by
  unfold Channel.takeVerified kindReport kindCommand
  by_cases report : x.kind = 4
  · have other : ∀ b : Byte, ¬(x.kind = 1 ∧ x.code = b) := by
      rintro b ⟨command, -⟩
      rw [report] at command
      exact absurd command (by decide)
    rw [if_pos report, if_pos report, if_neg (other 2), if_neg (other 3)]
    split
    · rename_i same
      exact ⟨rfl, rfl, rfl, same.symm, rfl⟩
    · exact ⟨rfl, rfl, rfl, rfl, rfl⟩
  · rw [if_neg report, if_neg report]
    repeat' split
    all_goals exact ⟨rfl, rfl, rfl, rfl, rfl⟩

/-- The answer run's part of the channel after the event. -/
structure AnswerTaken (ch new : Channel) (m : Option Message) : Prop where
  outstanding : new.outstanding = (ch.takeAnswer m).outstanding
  lastResult : new.lastResult = (ch.takeAnswer m).lastResult
  loop : new.loop = (ch.takeAnswer m).loop
  corrupt : new.corrupt = (ch.takeAnswer m).corrupt
  answerKind : new.answerKind = (ch.takeAnswer m).answerKind
  answerRun : new.answerRun = (ch.takeAnswer m).answerRun
  sent : new.sent = (ch.takeAnswer m).sent

theorem answerTaken (ch : Channel) (m : Option Message) : AnswerTaken ch ((ch.takeAnswer m).takeMessage m) m := by
  obtain ⟨h1, h2, h3, h4, h5, h6, h7⟩ := channel_takeMessage_frame (ch.takeAnswer m) m
  exact ⟨h1, h2, h3, h4, h5, h6, h7⟩

/-- Settles O45: the answer run by the outstanding command, then the message run by the candidate. -/
theorem cycleEventTakesMessages : Obligations.CycleEventTakesMessages := by
  intro p iv s wf on
  have event := cycleEvent_portEvent s p iv on
  refine ⟨_, _, _, _, _, exec_cycleEvent s p wf, event.lastClass, rfl, rfl, rfl, fun now => ?_⟩
  have channel := event.channel_inService (inService_of_or now)
  have service := inService_of_or now
  rw [event.link] at service
  have hands := fun c => cycleEvent_handsResult (c := c) on service
  have reports := fun x => cycleEvent_handsReport (m := x) on service
  rw [← readMessage_eq]
  change _ = ((s.port p).channel.takeAnswer (readMessage iv ((s.port p).receive iv).2.2)).takeMessage
    (readMessage iv ((s.port p).receive iv).2.2) at channel
  rw [channel]
  generalize readMessage iv ((s.port p).receive iv).2.2 = m at hands reports ⊢
  generalize (s.port p).channel = ch at hands reports ⊢
  have taken := answerTaken ch m
  obtain ⟨candidate, messageRun, present, lastReport, hub⟩ := channel_takeAnswer_frame ch m
  refine ⟨fun idle => ?_, fun c k n sent answer hn => ⟨fun ⟨short, more⟩ => ?_, fun long => ?_⟩, fun c sent more other => ?_,
    fun lost => ?_, fun x read other => ?_, fun x read same notThird => ?_, fun x read same third => ?_⟩
  · rw [taken.outstanding, taken.lastResult, taken.loop, taken.corrupt, takeAnswer_idle idle]
    exact ⟨idle, rfl, rfl, rfl⟩
  · have step := stepAnswer_own (ch := ch) (c := c) k
    rw [← answer, ← hn] at step
    rw [taken.outstanding, taken.lastResult, taken.loop, taken.corrupt, taken.answerKind, taken.answerRun,
      takeAnswer_runs sent more (by rw [step]; exact short), step]
    exact ⟨sent, rfl, rfl, rfl, rfl, rfl⟩
  · have step := stepAnswer_own (ch := ch) (c := c) k
    rw [← answer, ← hn] at step
    have run : 3 ≤ (ch.stepAnswer c m).answerRun := by rw [step]; exact long
    have kind : (ch.stepAnswer c m).answerKind = some k := by rw [step]
    obtain ⟨hsent, loop, corrupt, -, -⟩ := stepAnswer_keeps ch c m
    obtain ⟨loop', corrupt'⟩ := latch_eq (ch.stepAnswer c m) c
    have notice := hands c sent run
    rw [hsent, kind] at notice
    rw [taken.outstanding, taken.lastResult, taken.loop, taken.corrupt, taken.sent, takeAnswer_ends sent run kind]
    cases k with
    | echo =>
      refine ⟨rfl, rfl, (latch_sent _ c).trans hsent, ?_, ?_, notice⟩
      · simp only [if_true, true_and, loop', loop]
      · simp only [if_true, true_and, corrupt', corrupt]
    | cannot => exact ⟨rfl, rfl, hsent, loop, corrupt, notice⟩
  · have step := stepAnswer_other (ch := ch) other
    rw [taken.outstanding, taken.lastResult, taken.loop, taken.corrupt, taken.answerKind, taken.answerRun,
      takeAnswer_runs sent more (by rw [step]; exact Nat.zero_lt_succ 2), step]
    exact ⟨sent, rfl, rfl, rfl, rfl, rfl⟩
  · subst lost
    rw [channel_takeMessage_none]
    exact ⟨rfl, rfl, present, lastReport, hub⟩
  · subst read
    rw [channel_takeMessage_other (by rw [candidate]; exact other)]
    refine ⟨rfl, rfl, ?_, lastReport, hub⟩
    rw [present]
    split
    · assumption
    · rfl
  · subst read
    rw [channel_takeMessage_same (candidate.trans same) (by rw [messageRun]; exact notThird)]
    exact ⟨candidate.trans same, by rw [messageRun], present, lastReport, hub⟩
  · subst read
    obtain ⟨candidate', messageRun', present', lastReport', hub'⟩ :=
      channel_takeVerified { ch.takeAnswer (some x) with messageRun := 3, present := some x } x
    rw [channel_takeMessage_third (candidate.trans same) (messageRun.trans third), candidate', messageRun', present',
      lastReport', hub', candidate, lastReport, hub]
    exact ⟨same, rfl, rfl, rfl, rfl, fun ⟨report, new⟩ => reports x rfl same third report new⟩

end Sys2Proof.Machine
end

section
/-! PROOFS. A change of a port's carrying flag, at a cycle event and at the start or the end of a line test: receive
selection and the feed healths (R60 to R63, R66, R67, R82). -/

namespace Sys2Proof.Machine

/-! ## The events at which a flag is recomposed -/

/-- From `s` to `t` the carrying flag of port `p` was recomposed: what a change of it does, or, with the flag as it was,
what a change of the filtered INPUT_LOSS does (R60, R67, R82). -/
structure FlagJudged (p : PortId) (s t : State) : Prop where
  changed : (t.port p).carrying ≠ (s.port p).carrying → CarryingTaken p s t
  active : (t.port p).carrying = (s.port p).carrying → t.active = s.active
  input : (t.port p).carrying = (s.port p).carrying → ∀ r, ((s.row r).state = .live ∧ s.sourcePath (s.row r).captured = p
      ∧ (t.port p).inputLoss.value ≠ (s.port p).inputLoss.value) →
    (t.row r).health = t.feedHealth (s.row r).captured
      ∧ (t.feedHealth (s.row r).captured ≠ (s.row r).health → t.roomFor 1 →
        s.hands t .feedHealth r.val (t.feedHealth (s.row r).captured).code (BitVec.ofNat 32 (s.row r).health.code)
          (BitVec.ofNat 32 p.val))
  other : (t.port p).carrying = (s.port p).carrying → ∀ r, ¬((s.row r).state = .live
      ∧ s.sourcePath (s.row r).captured = p ∧ (t.port p).inputLoss.value ≠ (s.port p).inputLoss.value) →
    t.row r = s.row r

/-- The Line Prover's recomposition does not move the filtered INPUT_LOSS. -/
theorem Recomposed.judged {p : PortId} {s t : State} (h : Recomposed p s t) : FlagJudged p s t where
  changed := h.changed
  active same := (h.same same).1
  input _ _ moved := absurd h.loss moved.2.2
  other same r _ := (h.same same).2 r

/-- What the steps before the carrying step leave as it was (R77). -/
structure BeforeFlag (p : PortId) (s u : State) : Prop where
  rows : u.rows = s.rows
  active : u.active = s.active
  cfg : ∀ q, (u.port q).cfg = (s.port q).cfg
  carrying : (u.port p).carrying = (s.port p).carrying
  now : u.now = s.now
  notice : s.notice.inWriting <+: u.notice.inWriting

theorem BeforeFlag.row {p : PortId} {s u : State} (h : BeforeFlag p s u) (r : RowId) : u.row r = s.row r :=
  row_eq_of_rows h.rows r

/-- The source path is by the pair modes and the active members. -/
theorem BeforeFlag.sourcePath {p : PortId} {s u : State} (h : BeforeFlag p s u) (w : Vector Word 8) :
    u.sourcePath w = s.sourcePath w := by
  simp only [State.sourcePath, State.rxPath, State.activePort, State.inPair, h.cfg, h.active]
  rfl

theorem beforeFlag_content (s : State) (p : PortId) (iv : Interval) :
    BeforeFlag p s ((s.beforeCarry p iv).proverContent p ((s.port p).receive iv).2.2 iv.cycle) := by
  have work := portWork_beforeCarry s p iv
  have port := beforeCarry_port s p iv
  rw [proverContent_frame]
  refine ⟨work.rows, work.active, fun q => ?_, ?_, work.now, work.calm.inWriting⟩
  · show ((s.beforeCarry p iv).port q).cfg = _
    by_cases hq : q = p
    · rw [hq, port]
      exact afterEvent_cfg _ _ s.now
    · rw [work.port q hq]
  · show ((s.beforeCarry p iv).port p).carrying = _
    rw [port]
    exact afterEvent_carrying _ _ s.now

/-- A recomposition that changes the flag, after other steps. -/
theorem flagJudged_recompose {p : PortId} {s u : State} (before : BeforeFlag p s u)
    (changes : u.mayCarry p ≠ (u.port p).carrying) : FlagJudged p s (u.recompose p) := by
  have flag : ((u.recompose p).port p).carrying = u.mayCarry p := by rw [recompose_port, if_pos rfl]
  have apart : ((u.recompose p).port p).carrying ≠ (s.port p).carrying := by
    rw [flag, ← before.carrying]
    exact changes
  have taken := carryingTaken_recompose (s := u) (p := p) (by rw [flag]; exact changes)
  exact ⟨fun _ => taken.within before.rows before.active before.cfg before.now before.notice rfl rfl rfl rfl,
    fun same => absurd same apart, fun same => absurd same apart, fun same => absurd same apart⟩

/-- R67, R82: with the flag as it was, a change of INPUT_LOSS re-evaluates the rows whose source path the port is. -/
theorem flagJudged_input {p : PortId} {s u : State} (before : BeforeFlag p s u)
    (loss : (u.port p).inputLoss.value ≠ (s.port p).inputLoss.value) : FlagJudged p s (u.reevaluateInput p) := by
  have taken := reevaluated_input u p
  have port : (u.reevaluateInput p).port p = u.port p := port_eq_of_ports taken.kept.ports p
  have sourced : ∀ r, u.sourcePath (u.row r).captured = p ↔ s.sourcePath (s.row r).captured = p := by
    intro r
    rw [before.row, before.sourcePath]
  have feed : ∀ w, (u.reevaluateInput p).feedHealth w = u.feedHealth w :=
    fun w => feedHealth_congr taken.kept.ports taken.kept.active w
  refine ⟨fun moved => absurd (by rw [port, before.carrying]) moved, fun _ => taken.kept.active.trans before.active,
    fun _ r ⟨live, path, _⟩ => ?_, fun _ r idle => ?_⟩
  · have row := taken.row r ((sourced r).mpr path)
    rw [before.row] at row
    rw [feed]
    refine ⟨by rw [row, reheld_health _ live], fun changed room => ?_⟩
    have told := taken.hands r ((sourced r).mpr path) (by rw [before.row]; exact live)
      (by rw [before.row]; exact changed) room
    rw [before.row, before.sourcePath, path] at told
    exact hands_within told before.notice before.now List.prefix_rfl
  · by_cases path : s.sourcePath (s.row r).captured = p
    · rw [taken.row r ((sourced r).mpr path), before.row, reheld_idle]
      intro live
      exact idle ⟨live, path, by rw [port]; exact loss⟩
    · rw [taken.other r (mt (sourced r).mp path), before.row]

/-- R82: the carrying step, after the steps before it. -/
theorem flagJudged_carryStep {p : PortId} {s u : State} (before : BeforeFlag p s u) :
    FlagJudged p s (u.carryStep p (s.port p).inputLoss.value) := by
  unfold State.carryStep
  split
  · rename_i changes
    exact flagJudged_recompose before changes
  · split
    · rename_i loss
      exact flagJudged_input before loss
    · rename_i loss
      have same : (u.port p).inputLoss.value = (s.port p).inputLoss.value := Classical.byContradiction loss
      exact ⟨fun moved => absurd before.carrying moved, fun _ => before.active,
        fun _ _ moved => absurd same moved.2.2, fun _ r _ => before.row r⟩

/-- R77: a cycle event, whether the port is in OFF or not. -/
theorem flagJudged_cycleEvent (s : State) (p : PortId) (iv : Interval) : FlagJudged p s (s.cycleEvent p iv) := by
  by_cases off : (s.port p).link = .off
  · unfold State.cycleEvent
    rw [if_pos off]
    exact (recomposed_idle p rfl rfl rfl).judged
  · rw [cycleEvent_eq s p iv off]
    exact flagJudged_carryStep (beforeFlag_content s p iv)

/-- R119: the expiry of the test on port `p`. -/
theorem recomposed_proverExpiry {s : State} {p : PortId} (staged : s.prover.port = BitVec.ofNat 32 p.val) :
    Recomposed p s (if s.proverExpires then s.proverHandle else s) := by
  split
  · rename_i expires
    rw [State.proverExpires, Bool.and_eq_true, Bool.and_eq_true, beq_iff_eq] at expires
    obtain ⟨⟨due, running⟩, complete⟩ := expires
    rw [proverHandle_running due running, if_pos complete]
    exact recomposed_proverEnd (u := s.testCounted) .complete staged rfl rfl rfl rfl List.prefix_rfl rfl rfl rfl rfl
  · exact recomposed_idle p rfl rfl rfl

/-- R115, R121: the host's write of A16 while port `p` is staged, taken or refused. -/
theorem recomposed_hostIssue {s : State} {p : PortId} (hi : s.busIdle) (staged : s.prover.port = BitVec.ofNat 32 p.val)
    {v : Word} (hv : v = 1 ∨ v = 2) : Recomposed p s (s.hostIssue (s.writeOne (anchorOffset .a16) v)) := by
  rw [hostIssue_prover hi]
  split
  · rename_i ok
    rcases hv with rfl | rfl
    · rw [anchorWriteOk_attach] at ok
      obtain ⟨q, allowed⟩ := (attachOk_iff s).mp ok
      have granted : (s.granted (s.writeOne (anchorOffset .a16) 1)).attachAllowed q := allowed
      rw [takeProver_attach granted, takeAttach_staged (s := s.granted (s.writeOne (anchorOffset .a16) 1)) staged]
      exact recomposed_within (u := (s.granted (s.writeOne (anchorOffset .a16) 1)).testBegun) rfl rfl rfl rfl
        List.prefix_rfl rfl rfl rfl rfl
    · rw [anchorWriteOk_detach] at ok
      have running : (s.granted (s.writeOne (anchorOffset .a16) 2)).prover.running = true := ok
      rw [takeProver_detach, if_pos running]
      exact recomposed_proverEnd (u := s.granted (s.writeOne (anchorOffset .a16) 2)) .aborted staged rfl rfl rfl rfl
        List.prefix_rfl rfl rfl rfl rfl
  · exact recomposed_idle p rfl rfl rfl

/-- The four instructions at which a flag is recomposed. -/
theorem flagJudged_exec {i : Instr} {p : PortId} {s t : State} (run : exec i s = .next t)
    (event : (∃ iv, i = .cycleEvent p iv) ∨ ((i = .proverExpiry ∨ ((i = .attach ∨ i = .detach) ∧ s.busIdle))
      ∧ s.prover.port = BitVec.ofNat 32 p.val)) : FlagJudged p s t := by
  obtain ⟨iv, rfl⟩ | ⟨rfl | ⟨rfl | rfl, hi⟩, staged⟩ := event
  · cases wf : iv.wf with
    | true =>
      rw [exec_cycleEvent s p wf] at run
      cases run
      exact flagJudged_cycleEvent s p iv
    | false => simp [exec, execCycleEvent, State.spanEvent, wf] at run
  · rw [exec_proverExpiry] at run
    cases run
    exact (recomposed_proverExpiry staged).judged
  · rw [exec_attach] at run
    cases run
    exact (recomposed_hostIssue hi staged (Or.inl rfl)).judged
  · rw [exec_detach] at run
    cases run
    exact (recomposed_hostIssue hi staged (Or.inr rfl)).judged

end Sys2Proof.Machine
end

section
/-! PROOFS. What a change of the carrying flag does to the pair and to the rows (R60 to R63), and feed health (R66). -/

namespace Sys2Proof.Machine

/-- R2, R52: a port's logical port. -/
theorem logical_eq (s : State) (p : PortId) :
    s.logical p = if (s.port (evenPort (pairOf p))).cfg.pairMode = true then evenPort (pairOf p) else p := by
  rw [State.logical, inPair_eq, evenOf_eq]

/-- R57, R66: the source path of a booking. -/
theorem sourcePath_eq (s : State) (w : Vector Word 8) :
    s.sourcePath w = if (s.port (evenPort (pairOf (sourcePort w)))).cfg.pairMode = true then
      memberPort (pairOf (sourcePort w)) s.active[pairOf (sourcePort w)] else sourcePort w := by
  rw [State.sourcePath, State.rxPath, inPair_eq]
  rfl

/-- R66: a logical port carries as a destination when one of its physical ports does. -/
theorem destCarrying_iff (s : State) (d : PortId) :
    s.destCarrying d = true ↔ if (s.port (evenPort (pairOf d))).cfg.pairMode = true then
      (s.port (evenPort (pairOf d))).carrying = true ∨ (s.port (oddPort (pairOf d))).carrying = true
    else (s.port d).carrying = true := by
  rw [State.destCarrying, inPair_eq]
  split
  · exact Bool.or_eq_true_iff
  · exact Iff.rfl

theorem switchedOver_eq (s t : State) (p : PortId) :
    switchedOver s t p = ((s.port (evenPort (pairOf p))).cfg.pairMode
      && !(t.port (memberPort (pairOf p) s.active[pairOf p])).carrying
      && (t.port (memberPort (pairOf p) s.active[pairOf p].other)).carrying) := by
  rw [switchedOver, inPair_eq]

/-- R62: the active member stops, and its partner does not carry. -/
theorem selectionBlocked_of {s t : State} {p : PortId} (paired : (s.port (evenPort (pairOf p))).cfg.pairMode = true)
    (active : p = memberPort (pairOf p) s.active[pairOf p]) (stops : (t.port p).carrying = false)
    (partner : (t.port (memberPort (pairOf p) s.active[pairOf p].other)).carrying = false) :
    selectionBlocked s t p = true := by
  rw [selectionBlocked, inPair_eq, paired, ← active, stops, partner, beq_self_eq_true]
  rfl

/-- R62: the number of LIVE rows sourced on a logical port. -/
theorem liveSourced_eq (s : State) (l : PortId) : s.liveSourced l = (List.finRange 256).countP fun r =>
    (s.row r).state == .live && s.logical (sourcePort (s.row r).captured) == l :=
  countP_rows s _

/-- The rows that a switchover counts use the logical port of the pair. -/
theorem countsSwitch_uses {s t : State} {p : PortId} {x : Row} (switched : switchedOver s t p = true)
    (counts : s.countsSwitch (evenPort (pairOf p)) x = true) :
    x.state = .live ∧ s.booksPort x.captured (s.logical p) := by
  have paired : (s.port (evenPort (pairOf p))).cfg.pairMode = true := by
    rw [switchedOver_eq, Bool.and_eq_true, Bool.and_eq_true] at switched
    exact switched.1.1
  obtain ⟨live, source⟩ := (countsSwitch_iff _ _ _).mp counts
  refine ⟨live, Or.inl (source.trans ?_)⟩
  rw [logical_eq, if_pos paired]

/-- R63: the row after the switchover, before its feed health is taken. -/
theorem switchedRow_eq (switched : Bool) (s : State) (l : PortId) {x : Row} (live : x.state = .live) :
    (if switched && s.countsSwitch l x then x.countSwitch else x) = { x with
      meter := { x.meter with
        switchCount := if switched = true ∧ s.logical (sourcePort x.captured) = l then satInc x.meter.switchCount
          else x.meter.switchCount } } := by
  by_cases counted : switched = true ∧ s.logical (sourcePort x.captured) = l
  · rw [if_pos counted, counted.1, (countsSwitch_iff _ _ _).mpr ⟨live, counted.2⟩]
    rfl
  · rw [if_neg counted, if_neg]
    rw [Bool.and_eq_true, countsSwitch_iff]
    exact fun both => counted ⟨both.1, both.2.2⟩

section
variable {p : PortId} {s t : State} (h : CarryingTaken p s t) {r : RowId}
include h

/-- R60, R63, R67: a LIVE row that uses the logical port takes its feed health anew. -/
theorem CarryingTaken.user (live : (s.row r).state = .live) (books : s.booksPort (s.row r).captured (s.logical p)) :
    t.row r = { s.row r with
      health := t.feedHealth (s.row r).captured
      meter := { (s.row r).meter with
        outageCount :=
          if ((s.row r).health = .healthy ∨ (s.row r).health = .silent)
              ∧ (t.feedHealth (s.row r).captured = .partialFeed ∨ t.feedHealth (s.row r).captured = .lost) then
            satInc (s.row r).meter.outageCount
          else (s.row r).meter.outageCount
        switchCount :=
          if switchedOver s t p = true ∧ s.logical (sourcePort (s.row r).captured) = evenPort (pairOf p) then
            satInc (s.row r).meter.switchCount
          else (s.row r).meter.switchCount } } := by
  rw [h.row r, if_pos ((uses_iff _ _ _).mpr books), switchedRow_eq _ _ _ live]
  exact reheld_live _ live

/-- R60: any other row stays as it is. -/
theorem CarryingTaken.spared (idle : ¬((s.row r).state = .live ∧ s.booksPort (s.row r).captured (s.logical p))) :
    t.row r = s.row r := by
  have uncounted : (switchedOver s t p && s.countsSwitch (evenPort (pairOf p)) (s.row r)) ≠ true := by
    rw [Ne, Bool.and_eq_true]
    exact fun both => idle (countsSwitch_uses both.1 both.2)
  rw [h.row r, if_neg uncounted]
  by_cases live : (s.row r).state = .live
  · rw [if_neg (mt (uses_iff _ _ _).mp fun books => idle ⟨live, books⟩)]
    exact if_neg fun moved => moved.2 rfl
  · exact reheld_idle _ live

end

/-- Settles O41: feed health by its table, then the flag's change by what it does to the pair and to each row. -/
theorem carryingChangeSelectsAndReevaluates : Obligations.CarryingChangeSelectsAndReevaluates := by
  intro s
  refine ⟨fun w => ⟨s.sourcePath w, fun d => s.destCarrying d = true, sourcePath_eq s w, rfl, destCarrying_iff s,
    feedHealth_table s w _ s.destCarrying _ rfl rfl rfl⟩, fun i p t run event => ?_⟩
  have judged := flagJudged_exec run event
  refine ⟨pairOf p, _, _, _, switchedOver s t p, s.logical p,
    fun r => (s.row r).state = .live ∧ s.booksPort (s.row r).captured (s.logical p), rfl, rfl, rfl, rfl,
    switchedOver_eq s t p, logical_eq s p, fun r => Iff.rfl, fun changes => ?_, fun same => ?_⟩
  · have taken := judged.changed changes
    rw [← switchCounted_eq, ← liveSourced_eq]
    refine ⟨taken.active, taken.switchover, fun ⟨paired, active, stops, partner⟩ => ?_, fun r => ⟨fun user => ?_, taken.spared⟩⟩
    · exact taken.blocked (selectionBlocked_of paired active stops partner)
    · exact ⟨taken.user user.1 user.2, taken.feedHealth r ((uses_iff _ _ _).mpr user.2) user.1⟩
  · exact ⟨judged.active same, fun r => ⟨judged.input same r, judged.other same r⟩⟩

end Sys2Proof.Machine
end
